-- ==== Sys2Proof/Word.lean ====
section
/-! DEFINITION. The words of the model: bytes, beats, port words, and the numbers that frames carry. -/

namespace Sys2Proof

/-- A byte of an exchange. -/
abbrev Byte := BitVec 8
/-- One beat: the word on D[15:0] (R21). -/
abbrev Beat := BitVec 16
/-- A word of the Local Port or of local memory (R164, R174). -/
abbrev Word := BitVec 32
/-- A bus address, 0 to 15 (R57). -/
abbrev Addr := BitVec 4
/-- The index of an exchange table entry, 0 to 31 (R74). -/
abbrev Tag := BitVec 5
/-- A generation, 0 to 15 (R75). -/
abbrev Gen := BitVec 4
/-- A duration in half microseconds; every duration of the manual is a multiple of it. -/
abbrev Time := Nat
/-- A timer: stopped, or running with the time it has left (R2). -/
abbrev Timer := Option Time

end Sys2Proof
end

