-- ==== Sys2Proof/Syntax.lean ====
section
/-! DEFINITION. The commands of the station: one constructor for each row of spec/opcode_table.json. -/

namespace Sys2Proof

/-- How local memory completes a transaction (R174): OK, with the bytes of its words for a read, or FAULT. -/
inductive Completion where
  | ok (data : List Byte)
  | fault
deriving DecidableEq, Repr

/-- The commands. An operand is what the event shows the station; the table itself gives no operands. -/
inductive Instr where
  /-- RESET or power-on; `strap` is what the four strap pins hold (R57, R73). -/
  | deviceReset (strap : Addr)
  /-- The idle timer reaches 1 µs (R3). -/
  | idleTimerExpiry
  /-- WANT is seen asserted while the view is IDLE (R4). -/
  | wantSeenInIdle
  /-- BUSY or CALL is seen asserted while the view is IDLE (R3). -/
  | busyOrCallSeenInIdle
  /-- BUSY is seen negated with CALL negated (R3). -/
  | busyNegatedSeen
  /-- The window timer reaches 0.5 µs; `want` and `d` are the levels that other stations drive then (R5). -/
  | windowTimerExpiry (want : Bool) (d : Beat)
  /-- CALL is seen asserted with the call word `word` under parity `dp` (R10). -/
  | callSeen (word : Beat) (dp : BitVec 2)
  /-- ANSWER is seen asserted (R11). -/
  | answerSeen
  /-- The call timer expires (R12). -/
  | callTimerExpiry
  /-- The caller sees ANSWER negated (R13). -/
  | answerNegatedSeen
  /-- The callee sees BUSY negated (R14). -/
  | busyNegatedAtCallee
  /-- The stall timer reaches 100 µs (R15). -/
  | stallTimerExpiry
  /-- The interject timer expires (R16). -/
  | interjectTimerExpiry
  /-- The callee sees INTERJECT asserted (R17). -/
  | interjectSeen
  /-- A beat of the other party is latched on STROBE: D, DP and MARK (R21). -/
  | beatLatched (d : Beat) (dp : BitVec 2) (mark : Bool)
  /-- A TAKE pulse of the other party is seen (R21). -/
  | takeSeen
  /-- The receiver takes the oldest captured data beat (R32). -/
  | takeDataBeat
  /-- The sender strobes the next data beat (R33). -/
  | strobeBeat
  /-- BRESET has been held for 2 µs: a bus reset (R19). -/
  | bresetDetectTimerExpiry
  /-- BRESET is seen negated (R19). -/
  | bresetNegated
  /-- The BRESET drive timer expires (R18). -/
  | bresetDriveTimerExpiry
  /-- A write to ORDER (R165). -/
  | orderWrite (w : Word)
  /-- The FETCH order at the head of the Order FIFO is taken (R78). -/
  | fetch
  /-- The STORE order at the head is taken (R78). -/
  | store
  /-- The NOTE order at the head is taken (R78). -/
  | note
  /-- The SWAP order at the head is taken (R79). -/
  | swap
  /-- The SETUP order at the head is taken (R59). -/
  | setup
  /-- The JOIN order at the head is taken (R63). -/
  | join
  /-- The LEAVE order at the head is taken (R68). -/
  | leave
  /-- The order of an unassigned kind at the head is taken (R77). -/
  | unassignedOrder
  /-- A write to URGENT (R167). -/
  | urgentWrite (w : Word)
  /-- The CANCEL record in the urgent slot is taken (R147). -/
  | cancel
  /-- The BUS_RESET record in the urgent slot is taken (R160). -/
  | busReset
  /-- The record of an unassigned kind in the urgent slot is taken (R147). -/
  | unassignedUrgent
  /-- The hold-off timer of an entry expires (R106, R156). -/
  | holdOffExpiry (t : Tag)
  /-- The park timer of an entry expires (R123). -/
  | parkTimerExpiry (t : Tag)
  /-- The Serve Engine's verdict timer reaches 80 µs (R138, R144). -/
  | verdictTimerExpiry
  /-- The granted Memory Port transaction completes (R178). -/
  | memoryTransactionComplete (result : Completion)
  /-- The granted locked pair completes: `read` is the word read, or none for FAULT; `writeOk` says how the write
  completes if the pair makes one (R177). -/
  | lockedPairComplete (read : Option Word) (writeOk : Bool)
  /-- A read of REPORT (R168). -/
  | reportRead
  /-- A read of INBOX (R169). -/
  | inboxRead
  /-- A write to NOTICE (R171). -/
  | noticeWrite (w : Word)
  /-- A write to NOTICE_MASK (R172). -/
  | noticeMaskWrite (w : Word)
  /-- A write to REPORT, INBOX, STATE or offset 1Ch (R164, R184). -/
  | ignoredWrite (offset : BitVec 5) (w : Word)
  /-- BRESET is seen asserted (R19). -/
  | bresetSeenAsserted
  /-- BUSY, CALL or WANT is seen asserted while the view is ACTIVE or SETTLING (R3). -/
  | idleTimerRestarted
deriving DecidableEq, Repr

end Sys2Proof
end

