-- ==== Sys2Proof/Decode.lean ====
section
/-! DEFINITION. Commands spelled by words: spec/opcode_table.json gives no row any bits, so no word spells a command. -/

namespace Sys2Proof

/-- The command a table word spells: none of the 46 rows gives bits. -/
def decodeTableWord (_nbits _w : Nat) : Option Instr := none

end Sys2Proof
end

