-- ==== Sys2Proof/Config.lean ====
section
/-! DEFINITION. The values the manual leaves open: constants with no body, so that no proof can see them. -/

namespace Sys2Proof

/-- FREE VALUE. Which of several clients that present together to a free Memory Port is taken first: R176 allows
either order. Applied to the count of choices read so far; only its remainder by the number of clients is used. -/
opaque Config.firstPresented : Nat → Nat

/-- FREE VALUE. Whether the Station Controller takes an address clash report before the callee's client takes the same
head: R66 gives the outcome of either order. Applied to the count of choices read so far. -/
opaque Config.clashReportFirst : Nat → Bool

end Sys2Proof
end

