-- ==== Sys2Proof/Machine/Types.lean ====
section
/-! DEFINITION. The things the station keeps, block by block, as the chapters name them. -/

namespace Sys2Proof.Machine

/-! ## Names -/

/-- The bus view (R2, R3). -/
inductive View where
  | active | settling | idle | window | reset
deriving DecidableEq, Repr

/-- The four exchange kinds. -/
inductive XKind where
  | fetch | store | note | swap
deriving DecidableEq, Repr

/-- The clients of the Memory Port, in the cyclic order of R176. -/
inductive Client where
  | serve | mover | lister
deriving DecidableEq, Repr

/-- The two clients that `next grantee` can name (R2, R7). -/
inductive NextGrantee where
  | launch | serve
deriving DecidableEq, Repr

/-- Who holds the tenure as caller (R2); for LAUNCH, with the tag of the entry it serves (R88). -/
inductive Grantee where
  | launch (tag : Tag)
  | serve
  | probe
deriving DecidableEq, Repr

/-- Who owns the tenure at the callee once a whole head was handed (R28). The Launch Engine owns every RESUME tenure; the tag
is present while an entry is engaged in it, and absent after STALE or WITHDRAWN as first verdict (R124, R158). -/
inductive Owner where
  | serve
  | launch (tag : Option Tag)
  | controller
deriving DecidableEq, Repr

/-- How the end of a tenure is handed (R8); the end by bus reset is handled by the bus reset itself (R162). -/
inductive TenureEnd where
  | finished | stall | interjected
deriving DecidableEq, Repr

inductive RefuseReason where
  | busy | access | terms | format | check | leaving
deriving DecidableEq, Repr

inductive DoneReason where
  | ok | check | memory | stall
deriving DecidableEq, Repr

/-- The retryable faults of R104. -/
inductive RetryFault where
  | callTimeout | check | overrun | stall | busy
deriving DecidableEq, Repr

/-- The final faults of R104. -/
inductive FinalFault where
  | access | format | leaving | remoteFault | localFault
deriving DecidableEq, Repr

/-- The final statuses of R111. -/
inductive Status where
  | ok | callTimeout | check | overrun | stall | busy | access | leaving | remoteFault | localFault | rejected
  | parkExpired | cancelled | busReset | isolated | notOnline | indeterminate
deriving DecidableEq, Repr

inductive ControlResult where
  | none | accepted | refusedState | refusedFormat
deriving DecidableEq, Repr

/-! ## Frames (R23, section 12.2) -/

structure SwapOps where
  compare : Word
  new : Word
deriving DecidableEq, Repr

structure SwapResult where
  old : Word
  success : Bool
deriving DecidableEq, Repr

/-- The fields of an OPEN head (R93). -/
structure OpenHead where
  source : Addr
  target : Addr
  tag : Tag
  gen : Gen
  kind : XKind
  window : BitVec 3
  offset : BitVec 24
  length : BitVec 13
  terms : Option (BitVec 5)
  ops : Option SwapOps
deriving DecidableEq, Repr

/-- The fields of a RESUME head (R116); `fault` is chunk status FAULT. -/
structure ResumeHead where
  source : Addr
  target : Addr
  tag : Tag
  gen : Gen
  fault : Bool
  chunkOffset : BitVec 13
  chunkLength : BitVec 11
deriving DecidableEq, Repr

/-- The fields of a WITHDRAW head (R155). -/
structure WithdrawHead where
  source : Addr
  target : Addr
  tag : Tag
  gen : Gen
deriving DecidableEq, Repr

inductive Head where
  | openX (h : OpenHead)
  | resume (h : ResumeHead)
  | withdraw (h : WithdrawHead)
  | probe (source target : Addr)
deriving DecidableEq, Repr

inductive VerdictKind where
  | proceed | park | refuse (r : RefuseReason) | done (r : DoneReason) | accept | resend | stale | withdrawn | cleared
deriving DecidableEq, Repr

/-- A verdict; REFUSE(CHECK) carries none of the fields after `kind` (R26). -/
structure Verdict where
  kind : VerdictKind
  tag : Tag
  gen : Gen
  terms : Option (BitVec 5)
  swap : Option SwapResult
deriving DecidableEq, Repr

inductive Frame where
  | head (h : Head)
  | verdict (v : Verdict)
deriving DecidableEq, Repr

/-! ## The setup record (R58) -/

/-- A defined window of the window table. -/
structure Window where
  base : Word
  length : Nat
  read : BitVec 16
  write : BitVec 16
  note : BitVec 16
  swap : BitVec 16
deriving DecidableEq, Repr

/-- A valid setup record, defaults applied. `windows` has one item for each window below the window count; none is an
undefined window. -/
structure Setup where
  callSelect : BitVec 2
  parkLimit : Nat
  retryBudget : Nat
  paceMax : Nat
  shortFetch : Nat
  windows : List (Option Window)
deriving DecidableEq, Repr

inductive ProbePhase where
  | waiting | calling
deriving DecidableEq, Repr

/-- The five station states; the probe phase is present only in JOINING (R60). -/
inductive StationState where
  | offline
  | joining (phase : ProbePhase)
  | online
  | draining
  | isolated
deriving DecidableEq, Repr

structure Station where
  state : StationState
  strap : Addr
  setup : Option Setup
  lastResult : ControlResult
deriving DecidableEq, Repr

/-! ## Orders (section 12.3) -/

/-- An order: eight words (R165). -/
structure Order where
  w0 : Word
  w1 : Word
  w2 : Word
  w3 : Word
  w4 : Word
  w5 : Word
  w6 : Word
  w7 : Word
deriving DecidableEq, Repr

inductive OrderKind where
  | data (k : XKind)
  | setup | join | leave | unassigned
deriving DecidableEq, Repr

/-- The urgent slot: 0, 1 or 2 words; it is occupied while it holds 2 (R167). -/
inductive UrgentSlot where
  | empty
  | one (w0 : Word)
  | occupied (w0 w1 : Word)
deriving DecidableEq, Repr

/-! ## The exchange table (R74) -/

/-- One segment of a gather list (R80). -/
structure Segment where
  addr : Word
  len : Nat
deriving DecidableEq, Repr

/-- The fields that depend on the exchange kind (R74). -/
inductive Work where
  | fetch (chunkFault : Bool)
  | store
  | note (fence : Bool)
  | swap (ops : SwapOps) (delivered doneTaken : Bool) (result : Option SwapResult)
deriving DecidableEq, Repr

/-- The outcome of an OPEN tenure (R94). -/
inductive OpenOutcome where
  | ok | park | requeue
  | retry (f : RetryFault)
  | final (f : FinalFault)
deriving DecidableEq, Repr

/-- The tenure record of an OPEN tenure (R94). `doneTaken` marks a DONE taken in the tenure (R108). `short` and `ended` are the
model's: the run ended short (R96), and the end of the tenure has been handed (R109). -/
structure OpenRecord where
  outcome : Option OpenOutcome
  proceedTaken : Bool
  doneTaken : Bool
  bytesTaken : Nat
  parityFail : Bool
  localFault : Bool
  drained : Bool
  short : Bool
  ended : Bool
deriving DecidableEq, Repr

/-- The tenure record as it stands at the answer (R94). -/
def OpenRecord.fresh : OpenRecord := ⟨none, false, false, 0, false, false, false, false, false⟩

/-- The verdict given to a RESUME (R126). -/
inductive Given where
  | proceed | accept | resend | withdrawn
deriving DecidableEq, Repr

/-- The outcome of a RESUME tenure at the requester (R126, R152). -/
inductive ResumeOutcome where
  | remoteFault | accepted | resend | localFault | cancelled
deriving DecidableEq, Repr

/-- The resume tenure record (R126). `ended` is the model's: the end of the tenure has been handed (R129). -/
structure ResumeRecord where
  chunkOffset : Nat
  chunkLength : Nat
  isRepeat : Bool
  given : Given
  outcome : Option ResumeOutcome
  parityFail : Bool
  localFault : Bool
  drained : Bool
  ended : Bool
deriving DecidableEq, Repr

/-- The outcome of a WITHDRAW tenure (R155). -/
inductive WithdrawOutcome where
  | cleared
  | failed (f : RetryFault)
deriving DecidableEq, Repr

/-- The states of an entry in service, each with the fields that are present in it (R74): the hold-off timer in HELD and,
while it runs, in WITHDRAWING; the tenure field in CALLING and CONNECTED; the park timer in PARKED, and suspended with the
time it had left in CONNECTED with tenure RESUME. -/
inductive Phase where
  | queued
  | held (holdOff : Time)
  | callingOpen
  | callingWithdraw
  | connOpen (termsOffered : Bool) (r : OpenRecord)
  | connWithdraw (outcome : Option WithdrawOutcome)
  | connResume (parkLeft : Time) (r : ResumeRecord)
  | parked (parkLeft : Time)
  | withdrawing (holdOff : Option Time)
deriving DecidableEq, Repr

/-- The fields of an entry in every state but FREE (R74). `segs` is empty where the entry holds no segments. -/
structure Body where
  work : Work
  peer : Addr
  window : BitVec 4
  offset : BitVec 24
  length : Nat
  segs : List Segment
  acc : BitVec 32
  attempts : Nat
  bytesDone : Nat
  cancel : Bool
deriving DecidableEq, Repr

/-- FREE, in service, or REPORTED with its final status (R74). -/
inductive Slot where
  | free
  | live (b : Body) (p : Phase)
  | reported (b : Body) (st : Status)
deriving DecidableEq, Repr

structure Entry where
  gen : Gen
  slot : Slot
deriving DecidableEq, Repr

/-- A report record (R83). -/
structure Report where
  tag : Tag
  gen : Gen
  kind : XKind
  peer : Addr
  status : Status
  bytesDone : Nat
  attempts : Nat
  result : SwapResult
deriving DecidableEq, Repr

/-- An arrival record (R142); its length is the length of the payload. -/
structure Arrival where
  source : Addr
  tag : Tag
  gen : Gen
  payload : List Byte
deriving DecidableEq, Repr

/-! ## Memory Port (R174 to R177) -/

/-- What a transaction does: a read, a write of the lanes that hold a byte (the others are masked off), or a locked pair. -/
inductive Access where
  | read
  | write (lanes : List (Option Byte))
  | pair (compare new : Word)
deriving DecidableEq, Repr

/-- A transaction: a word address, 1 to 16 words, and what it does there (R174). -/
structure Txn where
  addr : Word
  words : Nat
  access : Access
deriving DecidableEq, Repr

structure MemPort where
  pointer : Client
  lock : Bool
  granted : Option Client
  serve : Option Txn
  mover : Option Txn
  lister : Option Txn
deriving DecidableEq, Repr

/-- The bytes of a read that its client uses: after `skip` bytes of the first word, `n` bytes (R174). -/
structure Span where
  skip : Nat
  n : Nat
deriving DecidableEq, Repr

/-! ## Inbound runs in the transit buffer (R31, R99, R131) -/

/-- An item of the data mover's inbound list (R99). `pos` is the write position, as the place in the exchange of the next byte
to leave the transit buffer; `chunk` is the chunk's place for a RESUME. `inService` and `recordOpen` are the model's: whether
the exchange it was opened for has not completed yet, and whether the tenure record of this run is still open (R127, R130). -/
structure MoverItem where
  tag : Tag
  segs : List Segment
  chunk : Option Nat
  pos : Nat
  written : Nat
  discard : Bool
  localFault : Bool
  inService : Bool
  recordOpen : Bool
deriving DecidableEq, Repr

/-- The writing of a STORE run (R131, R137): the local address of the next byte to leave the transit buffer, the bytes
written, whether later bytes are discarded after a FAULT, and whether the service record of the STORE is still present. -/
structure StoreJob where
  next : Word
  written : Nat
  faulted : Bool
  serving : Bool
deriving DecidableEq, Repr

/-- Where the bytes of a run go: the data mover, a STORE's window, the payload of the NOTE being served, or nowhere. -/
inductive Sink where
  | mover (i : MoverItem)
  | store (j : StoreJob)
  | note
  | dropped
deriving DecidableEq, Repr

/-- An inbound run: its length, the bytes received for it, those of them in the transit buffer, whether its end was handed
(the complete mark of R99), and the size of its write in flight. -/
structure InRun where
  sink : Sink
  length : Nat
  received : Nat
  bytes : List Byte
  ended : Bool
  flight : Option Nat
deriving DecidableEq, Repr

/-- The data mover's outbound job (R99). `pos` is the read position, as the place in the exchange of the next byte to read;
`held` are bytes read that wait to be placed (R31, R100); `stopped` is set by a FAULT (R102). -/
structure OutJob where
  tag : Tag
  segs : List Segment
  length : Nat
  pos : Nat
  placed : Nat
  held : List Byte
  flight : Option Span
  stopped : Bool
deriving DecidableEq, Repr

/-! ## BIF (R2, R38) -/

/-- The lines this station asserts (R1). STROBE and TAKE are pulses and are counted instead. -/
structure Drive where
  d : Beat
  dp : BitVec 2
  busy : Bool
  want : Bool
  call : Bool
  answer : Bool
  mark : Bool
  interject : Bool
  breset : Bool
deriving DecidableEq, Repr

def Drive.released : Drive := ⟨0, 0, false, false, false, false, false, false, false⟩

/-- The standing claims (R4). -/
structure Claims where
  launch : Bool
  serve : Bool
  probe : Bool
deriving DecidableEq, Repr

/-- A latched beat with its parity result (R21, R22). -/
structure Latched where
  d : Beat
  good : Bool
deriving DecidableEq, Repr

/-- The frame being sent and its beats not yet strobed (R23). -/
structure TxFrame where
  frame : Frame
  left : List Beat
deriving DecidableEq, Repr

/-- The data run in progress (R30): this station sends or receives, its length in bytes, the beats strobed or latched, and
the beats taken. -/
structure Run where
  sending : Bool
  length : Nat
  moved : Nat
  taken : Nat
deriving DecidableEq, Repr

/-- Where the caller's course stands (R39 to R43): the head is being sent, the first verdict is due, the run is in progress,
or the verdict after the run is due. -/
inductive Point where
  | head | first | running | second
deriving DecidableEq, Repr

/-- The items of R2 that are present in role CALLER, and the course of the tenure. -/
structure Caller where
  grantee : Grantee
  called : Addr
  answered : Bool
  finished : Bool
  point : Point
  sent : Option Head
deriving DecidableEq, Repr

/-- The items of R2 that are present in role CALLEE. With `finished` the closing verdict has been sent whole and ANSWER has
been negated: the role is then NONE (R8), and the client waits for the end of the tenure (R14). `clearing` says that the
CLEARED of R17 is being sent, `runDone` that the run which this callee received is over. -/
structure Callee where
  caller : Addr
  headReceived : Bool
  finished : Bool
  owner : Option Owner
  tag : Tag
  gen : Gen
  runDone : Bool
  clearing : Bool
deriving DecidableEq, Repr

inductive Tenure where
  | none
  | caller (c : Caller)
  | callee (c : Callee)
deriving DecidableEq, Repr

inductive Role where
  | none | caller | callee
deriving DecidableEq, Repr

structure Bif where
  view : View
  idleTimer : Timer
  windowTimer : Timer
  contending : Bool
  spent : Bool
  claims : Claims
  nextGrantee : NextGrantee
  tenure : Tenure
  callTimer : Timer
  stallTimer : Timer
  interjectTimer : Timer
  bresetDrive : Timer
  bresetDetect : Timer
  bresetSeen : Bool
  runs : List InRun
  outbound : List Byte
  count : Nat
  capture : List Latched
  rx : List Latched
  tx : Option TxFrame
  run : Option Run
  observed : Bool
  drive : Drive
  strobesGiven : Nat
  takesGiven : Nat
deriving DecidableEq, Repr

/-! ## Launch Engine -/

/-- A read of the List Reader in progress (R80, R183). -/
structure ReadJob where
  base : Word
  total : Nat
  issued : Nat
  got : List Byte
  fault : Bool
  flight : Option Span
deriving DecidableEq, Repr

/-- The intake stage (section 5.2) and the setup image being read (R183): words 0 to 5 first, then the windows. -/
inductive Intake where
  | gather (kind : XKind) (order : Order) (job : ReadJob)
  | setupScalars (image : Word) (job : ReadJob)
  | setupWindows (scalars : List Byte) (job : ReadJob)
deriving DecidableEq, Repr

structure Launch where
  entries : Vector Entry 32
  queue : List Tag
  accCount : BitVec 32
  intake : Option Intake
  outJob : Option OutJob
deriving DecidableEq, Repr

/-! ## Serve Engine (R112, R131) -/

/-- Chunk state with the chunk status and length that are present in it (R112). -/
inductive Chunk where
  | empty
  | filling (len : Nat)
  | readyData (len : Nat)
  | readyFault
deriving DecidableEq, Repr

structure ParkEntry where
  requester : Addr
  tag : Tag
  gen : Gen
  window : BitVec 3
  offset : Nat
  total : Nat
  sent : Nat
  chunk : Chunk
  attempts : Nat
deriving DecidableEq, Repr

/-- The fill stage (R112, R114): the chunk's local address and length, the bytes asked for so far, the read in flight, and
whether the fill was abandoned. -/
structure Fill where
  base : Word
  total : Nat
  issued : Nat
  flight : Option Span
  abandoned : Bool
deriving DecidableEq, Repr

/-- The outcome of a RESUME tenure at the responder (R117). -/
inductive ServeOutcome where
  | accept | resend | stale | withdrawn
  | failed (f : RetryFault)
deriving DecidableEq, Repr

/-- The resume record (R117); `moved` counts the chunk's bytes moved into the transit buffer (R116). -/
structure ResumeTenure where
  outcome : Option ServeOutcome
  moved : Nat
deriving DecidableEq, Repr

/-- What the Serve Engine is doing for the OPEN it serves, with the marks of R131 for that kind. -/
inductive ServiceWork where
  | refused
  | park
  | store (taken written : Nat) (writeFault parityFail runEnded : Bool)
  | fetch (base : Word) (issued placed : Nat) (held : List Byte) (readFault : Bool) (flight : Option Span)
  | note (holdsPlace isRepeat parityFail : Bool) (payload : List Byte)
  | swap (addr : Word) (ops : SwapOps) (issued : Bool)
deriving DecidableEq, Repr

/-- The service record (R131). `closed` says that the closing verdict has been given. -/
structure Service where
  head : OpenHead
  first : Option VerdictKind
  closed : Bool
  work : ServiceWork
deriving DecidableEq, Repr

structure SwapStage where
  requester : Addr
  tag : Tag
  gen : Gen
deriving DecidableEq, Repr

structure SwapMemo where
  tag : Tag
  gen : Gen
  result : SwapResult
deriving DecidableEq, Repr

structure NoteMemo where
  tag : Tag
  gen : Gen
deriving DecidableEq, Repr

structure Serve where
  parkQueue : List ParkEntry
  staging : List Byte
  fill : Option Fill
  resume : Option ResumeTenure
  service : Option Service
  reserved : Bool
  swapStage : Option SwapStage
  swapMemo : Vector (Option SwapMemo) 16
  noteMemo : Vector (Option NoteMemo) 16
  verdictTimer : Timer
deriving DecidableEq, Repr

/-! ## Local Port (R173) -/

structure Port where
  assembly : List Word
  fifo : List Order
  urgent : UrgentSlot
  reports : List Report
  reportPos : Nat
  inbox : List Arrival
  inboxPos : Nat
  notice : BitVec 6
  mask : BitVec 6
  readData : Word
deriving DecidableEq, Repr

end Sys2Proof.Machine
end

