-- ==== Sys2Proof/Machine/State.lean ====
section
/-! DEFINITION. The state of the station, plain data, and its value after device reset. -/

namespace Sys2Proof.Machine

/-- Why the machine can stop with a fault. No constructor: the manual gives every command an effect on the station, and a
fault of local memory, of a frame or of a tenure is such an effect. -/
inductive Fault where
deriving DecidableEq, Repr

/-- Why a command has no meaning. -/
inductive Refusal where
  /-- Raised only by an arm of `exec` whose command is not modelled; no arm raises it. Safe. -/
  | notModelled (mnemonic : String)
deriving DecidableEq, Repr

/-- The station, block by block (00_scope.md, "Functional overview"), and the queue of waiting commands. -/
structure State where
  station : Station
  bus : Bif
  /-- The Terms Table: none is UNKNOWN, a window is AGREED (R44). -/
  terms : Vector (Option Nat) 16
  launch : Launch
  serve : Serve
  port : Port
  mem : MemPort
  /-- The model's own: how many free choices have been read (Config). -/
  choices : Nat
  /-- The commands that wait, first in, first out. -/
  pending : List Instr
deriving DecidableEq, Repr

/-- R60. The strap address of this state is the model's choice (log 4). -/
def Station.reset : Station := ⟨.offline, 0, none, .none⟩

/-- R2 and R38, device reset. `bresetSeen` is not in R2's table: that BRESET counts as not yet seen, so that an assertion which
lasts across the device reset is seen anew and may be a bus reset again (R19), is a DESIGN CHOICE (log 43). -/
def Bif.reset : Bif where
  view := .active
  idleTimer := none
  windowTimer := none
  contending := false
  spent := false
  claims := ⟨false, false, false⟩
  nextGrantee := .launch
  tenure := .none
  callTimer := none
  stallTimer := none
  interjectTimer := none
  bresetDrive := none
  bresetDetect := none
  bresetSeen := false
  runs := []
  outbound := []
  count := 0
  capture := []
  rx := []
  tx := none
  run := none
  observed := false
  drive := Drive.released
  strobesGiven := 0
  takesGiven := 0

/-- R89, and R99 for the data mover. -/
def Launch.reset : Launch where
  entries := Vector.replicate 32 ⟨0, .free⟩
  queue := []
  accCount := 0
  intake := none
  outJob := none

/-- R112 and R131, device reset. -/
def Serve.reset : Serve where
  parkQueue := []
  staging := []
  fill := none
  resume := none
  service := none
  reserved := false
  swapStage := none
  swapMemo := Vector.replicate 16 none
  noteMemo := Vector.replicate 16 none
  verdictTimer := none

/-- R173, device reset. -/
def Port.reset : Port where
  assembly := []
  fifo := []
  urgent := .empty
  reports := []
  reportPos := 0
  inbox := []
  inboxPos := 0
  notice := 0
  mask := 0
  readData := 0

/-- R179, device reset. -/
def MemPort.reset : MemPort := ⟨.serve, false, none, none, none, none⟩

/-- The station right after device reset (R73). -/
def State.reset : State where
  station := Station.reset
  bus := Bif.reset
  terms := Vector.replicate 16 none
  launch := Launch.reset
  serve := Serve.reset
  port := Port.reset
  mem := MemPort.reset
  choices := 0
  pending := []

end Sys2Proof.Machine
end

