-- ==== Sys2Proof/Machine/Flags.lean ====
section
/-! DEFINITION. The notices, LINT, and the words that the Local Port returns (R168 to R172, R184, section 12.5). -/

namespace Sys2Proof.Machine

/-! ## Notices (R171, R172) -/

inductive Notice where
  | reportReady | inboxReady | stateChanged | orderRefused | urgentRefused | busResetSeen
deriving DecidableEq, Repr

/-- The bit of NOTICE and NOTICE_MASK that belongs to a notice. -/
def Notice.bit : Notice → BitVec 6
  | .reportReady => 0b000001
  | .inboxReady => 0b000010
  | .stateChanged => 0b000100
  | .orderRefused => 0b001000
  | .urgentRefused => 0b010000
  | .busResetSeen => 0b100000

def setNotice (n : Notice) (s : State) : State := { s with port.notice := s.port.notice ||| n.bit }

/-- Whether a notice is set. -/
def noticeSet (n : Notice) (s : State) : Bool := s.port.notice &&& n.bit != 0

/-- Each flag whose bit in the written word is 1 is cleared (R171). -/
def clearNotices (w : Word) (notice : BitVec 6) : BitVec 6 := notice &&& ~~~(w.extractLsb' 0 6)

/-- LINT: at least one notice is both set and enabled (R172). -/
def lint (s : State) : Bool := s.port.notice &&& s.port.mask != 0

/-- A change of the station state sets STATE_CHANGED (R62). -/
def changeState (st : StationState) (s : State) : State := setNotice .stateChanged { s with station.state := st }

def setResult (r : ControlResult) (s : State) : State := { s with station.lastResult := r }

/-! ## Words read at the Local Port (section 12.5) -/

def StationState.code : StationState → BitVec 3
  | .offline => 0
  | .joining _ => 1
  | .online => 2
  | .draining => 3
  | .isolated => 4

def ControlResult.code : ControlResult → BitVec 2
  | .none => 0
  | .accepted => 1
  | .refusedState => 2
  | .refusedFormat => 3

def urgentOccupied : UrgentSlot → Bool
  | .occupied _ _ => true
  | .one _ => false
  | .empty => false

/-- The Order FIFO free count (R166). -/
def freeCount (s : State) : Nat := 8 - s.port.fifo.length

/-- The word of STATE (R170). -/
def stateWord (s : State) : Word :=
  0#1 ++ BitVec.ofNat 5 s.port.inbox.length ++ BitVec.ofNat 6 s.port.reports.length ++ 0#1 ++
    BitVec.ofNat 3 s.port.assembly.length ++ BitVec.ofNat 4 (freeCount s) ++ s.station.lastResult.code ++
    BitVec.ofBool (urgentOccupied s.port.urgent) ++ BitVec.ofBool s.station.setup.isSome ++ s.station.strap ++ 0#1 ++
    s.station.state.code

/-- The word of NOTICE (R171, R184). -/
def noticeWord (s : State) : Word := 0#26 ++ s.port.notice

/-- The word of NOTICE_MASK (R172, R184). -/
def noticeMaskWord (s : State) : Word := 0#26 ++ s.port.mask

/-- A read of ORDER, URGENT or offset 1Ch returns the all-zero word (R164, R184). -/
def zeroWord : Word := 0

/-- The codes of the final statuses. -/
def Status.code : Status → BitVec 8
  | .ok => 1
  | .callTimeout => 2
  | .check => 3
  | .overrun => 4
  | .stall => 5
  | .busy => 6
  | .access => 7
  | .leaving => 8
  | .remoteFault => 9
  | .localFault => 10
  | .rejected => 11
  | .parkExpired => 12
  | .cancelled => 13
  | .busReset => 14
  | .isolated => 15
  | .notOnline => 16
  | .indeterminate => 17

/-- The order codes 1 to 4 of the exchange kinds. -/
def XKind.orderCode : XKind → BitVec 4
  | .fetch => 1
  | .store => 2
  | .note => 3
  | .swap => 4

/-- Word `k` of a report record. -/
def reportWord (r : Report) (k : Nat) : Word :=
  match k with
  | 0 => 0#1 ++ BitVec.ofNat 3 r.attempts ++ r.peer ++ r.kind.orderCode ++ r.gen ++ 0#3 ++ r.tag ++ r.status.code
  | 1 => 0#19 ++ BitVec.ofNat 13 r.bytesDone
  | 2 => r.result.old
  | _ => 0#31 ++ BitVec.ofBool r.result.success

/-- The words of an arrival record of a note: one header word and the payload words (R169). -/
def arrivalWords (length : Nat) : Nat := 1 + (length + 3) / 4

/-- The four bytes of a word, lane 0 least significant (R174). -/
def wordOfBytes (b0 b1 b2 b3 : Byte) : Word := b3 ++ b2 ++ b1 ++ b0

/-- Payload word `j`: bytes beyond the length of the note read as 0. -/
def payloadWord (payload : List Byte) (j : Nat) : Word :=
  wordOfBytes (payload.getD (4 * j) 0) (payload.getD (4 * j + 1) 0) (payload.getD (4 * j + 2) 0) (payload.getD (4 * j + 3) 0)

/-- Word `k` of an arrival record. -/
def arrivalWord (a : Arrival) (k : Nat) : Word :=
  match k with
  | 0 => 0#1 ++ BitVec.ofNat 7 a.payload.length ++ 0#4 ++ a.gen ++ 0#3 ++ a.tag ++ 0#4 ++ a.source
  | j + 1 => payloadWord a.payload j

end Sys2Proof.Machine
end

