-- ==== Sys2Proof/Machine/Frames.lean ====
section
/-! DEFINITION. Parity, CRC-16, and the layouts of the call word and of frames (R22, R24, section 12.2, R180). -/

namespace Sys2Proof.Machine

/-! ## Parity and the call word -/

/-- Whether an odd number of the bits of a byte are 1. -/
def oddOnes (b : Byte) : Bool := (List.range 8).foldl (fun acc i => acc != b.getLsbD i) false

def lowByte (d : Beat) : Byte := d.extractLsb' 0 8
def highByte (d : Beat) : Byte := d.extractLsb' 8 8

/-- DP[1:0] that gives each byte odd parity (R22). -/
def parityOf (d : Beat) : BitVec 2 :=
  BitVec.ofBool (!oddOnes (highByte d)) ++ BitVec.ofBool (!oddOnes (lowByte d))

/-- The low byte carries odd parity under DP[0]. -/
def lowParityGood (d : Beat) (dp : BitVec 2) : Bool := oddOnes (lowByte d) != dp.getLsbD 0

/-- Both bytes carry odd parity (R22). -/
def parityGood (d : Beat) (dp : BitVec 2) : Bool :=
  lowParityGood d dp && (oddOnes (highByte d) != dp.getLsbD 1)

/-- The call word (section 12.1): D[3:0] callee, D[11:8] caller. -/
def callWord (callee caller : Addr) : Beat := 0#4 ++ caller ++ 0#4 ++ callee

def callWordCallee (d : Beat) : Addr := d.extractLsb' 0 4
def callWordCaller (d : Beat) : Addr := d.extractLsb' 8 4

/-! ## CRC-16 (R24) -/

/-- One input bit into the CRC register: generator x^16 + x^12 + x^5 + 1. -/
def crcBit (crc : Beat) (bit : Bool) : Beat :=
  let shifted := crc <<< 1
  if crc.msb != bit then shifted ^^^ 0x1021#16 else shifted

/-- One beat into the CRC register, D[15] first. -/
def crcBeat (crc d : Beat) : Beat := (List.range 16).foldl (fun c i => crcBit c (d.getMsbD i)) crc

/-- The CRC-16 over beats in order of sending, from a register of ones. -/
def crc16 (beats : List Beat) : Beat := beats.foldl crcBeat 0xFFFF#16

/-! ## Codes -/

def XKind.code : XKind → BitVec 2
  | .fetch => 0
  | .store => 1
  | .note => 2
  | .swap => 3

def XKind.ofCode (c : BitVec 2) : XKind :=
  if c = 0 then .fetch else if c = 1 then .store else if c = 2 then .note else .swap

def RefuseReason.code : RefuseReason → BitVec 3
  | .busy => 1
  | .access => 2
  | .terms => 3
  | .format => 4
  | .check => 5
  | .leaving => 6

def RefuseReason.ofCode (c : BitVec 3) : Option RefuseReason :=
  if c = 1 then some .busy else if c = 2 then some .access else if c = 3 then some .terms
  else if c = 4 then some .format else if c = 5 then some .check else if c = 6 then some .leaving else none

def DoneReason.code : DoneReason → BitVec 3
  | .ok => 0
  | .check => 1
  | .memory => 2
  | .stall => 3

def DoneReason.ofCode (c : BitVec 3) : Option DoneReason :=
  if c = 0 then some .ok else if c = 1 then some .check else if c = 2 then some .memory
  else if c = 3 then some .stall else none

def VerdictKind.code : VerdictKind → BitVec 4
  | .proceed => 0x6
  | .park => 0x7
  | .refuse _ => 0x8
  | .done _ => 0x9
  | .accept => 0xA
  | .resend => 0xB
  | .stale => 0xC
  | .withdrawn => 0xD
  | .cleared => 0xE

/-- The reason field: 0 for every kind other than REFUSE and DONE. -/
def VerdictKind.reason : VerdictKind → BitVec 3
  | .refuse r => r.code
  | .done r => r.code
  | .proceed | .park | .accept | .resend | .stale | .withdrawn | .cleared => 0

/-- The verdict kind of a header; the reason is read for REFUSE and DONE alone (R180). -/
def VerdictKind.ofCode (kind : BitVec 4) (reason : BitVec 3) : Option VerdictKind :=
  if kind = 0x6 then some .proceed
  else if kind = 0x7 then some .park
  else if kind = 0x8 then (RefuseReason.ofCode reason).map .refuse
  else if kind = 0x9 then (DoneReason.ofCode reason).map .done
  else if kind = 0xA then some .accept
  else if kind = 0xB then some .resend
  else if kind = 0xC then some .stale
  else if kind = 0xD then some .withdrawn
  else if kind = 0xE then some .cleared
  else none

/-! ## Encoding -/

def highHalf (w : Word) : Beat := w.extractLsb' 16 16
def lowHalf (w : Word) : Beat := w.extractLsb' 0 16

/-- A 32-bit value in two beats, high half first. -/
def wordBeats (w : Word) : List Beat := [highHalf w, lowHalf w]

/-- The word of two beats, high half first. -/
def ofBeats (hi lo : Beat) : Word := hi ++ lo

/-- The header beat of a frame. -/
def headerBeat (kind : BitVec 4) (len : BitVec 4) (terms swap : Bool) (reason : BitVec 3) : Beat :=
  kind ++ len ++ BitVec.ofBool terms ++ BitVec.ofBool swap ++ reason ++ 0#3

/-- Beat 1 of OPEN, RESUME and WITHDRAW. -/
def addressBeat (source target : Addr) (gen : Gen) : Beat := 0#4 ++ gen ++ target ++ source

/-- The terms beat, if the frame carries terms. -/
def termsBeats : Option (BitVec 5) → List Beat
  | some t => [0#11 ++ t]
  | none => []

def opsBeats : Option SwapOps → List Beat
  | some o => wordBeats o.compare ++ wordBeats o.new
  | none => []

def resultBeats : Option SwapResult → List Beat
  | some r => wordBeats r.old
  | none => []

/-- The beats of a head between the header and the CRC. -/
def Head.fields : Head → List Beat
  | .openX h =>
    [addressBeat h.source h.target h.gen, 0#6 ++ h.window ++ h.kind.code ++ h.tag,
      0#8 ++ h.offset.extractLsb' 16 8, h.offset.extractLsb' 0 16, 0#3 ++ h.length] ++
      termsBeats h.terms ++ opsBeats h.ops
  | .resume h =>
    [addressBeat h.source h.target h.gen, 0#10 ++ BitVec.ofBool h.fault ++ h.tag, 0#3 ++ h.chunkOffset,
      0#5 ++ h.chunkLength]
  | .withdraw h => [addressBeat h.source h.target h.gen, 0#11 ++ h.tag]
  | .probe source target => [addressBeat source target 0]

def Head.code : Head → BitVec 4
  | .openX _ => 0x1
  | .resume _ => 0x2
  | .withdraw _ => 0x3
  | .probe _ _ => 0x4

def Head.termsMark : Head → Bool
  | .openX h => h.terms.isSome
  | .resume _ | .withdraw _ | .probe _ _ => false

def Head.swapMark : Head → Bool
  | .openX h => h.ops.isSome
  | .resume _ | .withdraw _ | .probe _ _ => false

/-- Beat 1 of every verdict except REFUSE(CHECK). -/
def echoBeat (tag : Tag) (gen : Gen) (success : Bool) : Beat :=
  0#3 ++ BitVec.ofBool success ++ gen ++ 0#3 ++ tag

/-- The beats of a verdict between the header and the CRC. -/
def Verdict.fields (v : Verdict) : List Beat :=
  if v.kind = .refuse .check then []
  else echoBeat v.tag v.gen (v.swap.any SwapResult.success) :: (termsBeats v.terms ++ resultBeats v.swap)

/-- Beats before the CRC, and then the CRC. -/
def sealFrame (beats : List Beat) : List Beat := beats ++ [crc16 beats]

/-- The beats of a frame in order of sending. -/
def Frame.encode : Frame → List Beat
  | .head h =>
    sealFrame (headerBeat h.code (BitVec.ofNat 4 (h.fields.length + 2)) h.termsMark h.swapMark 0 :: h.fields)
  | .verdict v =>
    sealFrame (headerBeat v.kind.code (BitVec.ofNat 4 (v.fields.length + 2))
      (v.kind != .refuse .check && v.terms.isSome) (v.kind != .refuse .check && v.swap.isSome) v.kind.reason :: v.fields)

/-! ## Decoding -/

/-- Reads the terms beat, if marked: out of range unless D[4:0] is 1 to 16 (R45, R180). -/
def takeTerms (marked : Bool) (beats : List Beat) : Option (Option (BitVec 5) × List Beat) :=
  match marked, beats with
  | false, rest => some (none, rest)
  | true, t :: rest =>
    let v := t.extractLsb' 0 5
    if 1 ≤ v.toNat ∧ v.toNat ≤ 16 then some (some v, rest) else none
  | true, [] => none

/-- Reads the swap operands: present exactly for an OPEN of kind SWAP, and marked (R180). -/
def takeOps (marked : Bool) (kind : XKind) (beats : List Beat) : Option (Option SwapOps) :=
  match marked, kind, beats with
  | true, .swap, [c1, c0, n1, n0] => some (some ⟨ofBeats c1 c0, ofBeats n1 n0⟩)
  | false, .fetch, [] => some none
  | false, .store, [] => some none
  | false, .note, [] => some none
  | _, _, _ => none

/-- Reads the swap result: it may be marked only on DONE with reason OK (R180). -/
def takeResult (marked : Bool) (kind : VerdictKind) (success : Bool) (beats : List Beat) :
    Option (Option SwapResult) :=
  match marked, beats with
  | false, [] => some none
  | true, [o1, o0] => if kind = .done .ok then some (some ⟨ofBeats o1 o0, success⟩) else none
  | _, _ => none

def decodeOpen (terms swap : Bool) : List Beat → Option Head
  | b1 :: b2 :: b3 :: b4 :: b5 :: rest =>
    let kind := XKind.ofCode (b2.extractLsb' 5 2)
    match takeTerms terms rest with
    | none => none
    | some (t, rest) =>
      match takeOps swap kind rest with
      | none => none
      | some ops =>
        some (.openX
          { source := b1.extractLsb' 0 4, target := b1.extractLsb' 4 4, gen := b1.extractLsb' 8 4,
            tag := b2.extractLsb' 0 5, kind := kind, window := b2.extractLsb' 7 3,
            offset := b3.extractLsb' 0 8 ++ b4, length := b5.extractLsb' 0 13, terms := t, ops := ops })
  | _ => none

def decodeResume : List Beat → Option Head
  | [b1, b2, b3, b4] =>
    let len := b4.extractLsb' 0 11
    if len.toNat ≤ 1024 then
      some (.resume
        { source := b1.extractLsb' 0 4, target := b1.extractLsb' 4 4, gen := b1.extractLsb' 8 4,
          tag := b2.extractLsb' 0 5, fault := b2.getLsbD 5, chunkOffset := b3.extractLsb' 0 13, chunkLength := len })
    else none
  | _ => none

def decodeWithdraw : List Beat → Option Head
  | [b1, b2] =>
    some (.withdraw
      { source := b1.extractLsb' 0 4, target := b1.extractLsb' 4 4, gen := b1.extractLsb' 8 4,
        tag := b2.extractLsb' 0 5 })
  | _ => none

def decodeProbe : List Beat → Option Head
  | [b1] => some (.probe (b1.extractLsb' 0 4) (b1.extractLsb' 4 4))
  | _ => none

def decodeVerdict (kind : VerdictKind) (terms swap : Bool) (beats : List Beat) : Option Verdict :=
  if kind = .refuse .check then
    if !terms && !swap && beats.isEmpty then some ⟨kind, 0, 0, none, none⟩ else none
  else
    match beats with
    | b1 :: rest =>
      match takeTerms terms rest with
      | none => none
      | some (t, rest) =>
        match takeResult swap kind (b1.getLsbD 12) rest with
        | none => none
        | some r => some ⟨kind, b1.extractLsb' 0 5, b1.extractLsb' 8 4, t, r⟩
    | [] => none

/-- The fields between a header and the CRC, by the frame kind of the header. An unassigned kind is no frame (R180). -/
def decodeFields (header : Beat) (fields : List Beat) : Option Frame :=
  let kind : BitVec 4 := header.extractLsb' 12 4
  let terms := header.getLsbD 7
  let swap := header.getLsbD 6
  if kind = 0x1 then (decodeOpen terms swap fields).map .head
  else if terms = false ∧ swap = false ∧ kind = 0x2 then (decodeResume fields).map .head
  else if terms = false ∧ swap = false ∧ kind = 0x3 then (decodeWithdraw fields).map .head
  else if terms = false ∧ swap = false ∧ kind = 0x4 then (decodeProbe fields).map .head
  else
    match VerdictKind.ofCode kind (header.extractLsb' 3 3) with
    | none => none
    | some k => (decodeVerdict k terms swap fields).map .verdict

/-- The frame that complete, parity-good beats carry, or none if the frame is damaged by its length, its CRC or its encoding
(R24, R25, R180). -/
def decodeFrame (beats : List Beat) : Option Frame :=
  match beats with
  | header :: rest =>
    let stated : BitVec 4 := header.extractLsb' 8 4
    if stated.toNat = beats.length ∧ 2 ≤ beats.length ∧ beats.length ≤ 12 ∧
        rest.getLast? = some (crc16 (header :: rest.dropLast)) then
      decodeFields header rest.dropLast
    else none
  | [] => none

/-- How many beats the receiver takes for a frame with this first beat: its stated length, or 12 if that is out of range
(R23). -/
def frameBeats (first : Beat) : Nat :=
  let n := (first.extractLsb' 8 4 : BitVec 4).toNat
  if 2 ≤ n ∧ n ≤ 12 then n else 12

/-- A complete frame as received: none if it is damaged, by parity too (R25). -/
def receiveFrame (rx : List Latched) : Option Frame :=
  if rx.all Latched.good then decodeFrame (rx.map Latched.d) else none

/-! ## Heads -/

def Head.source : Head → Addr
  | .openX h => h.source
  | .resume h => h.source
  | .withdraw h => h.source
  | .probe s _ => s

def Head.target : Head → Addr
  | .openX h => h.target
  | .resume h => h.target
  | .withdraw h => h.target
  | .probe _ t => t

/-- The tag that a verdict echoes; a PROBE has none, and 0 stands in (log 39). -/
def Head.tag : Head → Tag
  | .openX h => h.tag
  | .resume h => h.tag
  | .withdraw h => h.tag
  | .probe _ _ => 0

def Head.gen : Head → Gen
  | .openX h => h.gen
  | .resume h => h.gen
  | .withdraw h => h.gen
  | .probe _ _ => 0

/-- The checks of R28 at a callee with strap address `strap`, called by `caller`: the target is the callee and the source is the
caller; a PROBE has source and target equal to each other and to the strap address besides. -/
def Head.addressed (h : Head) (strap caller : Addr) : Bool :=
  h.target == strap && h.source == caller &&
    (match h with
      | .probe s t => s == t && t == strap
      | .openX _ | .resume _ | .withdraw _ => true)

/-- Whether an observed frame shows an address clash: an OPEN, RESUME or WITHDRAW head with this station's address as source
(R29). -/
def showsClash (strap : Addr) : Option Frame → Bool
  | some (.head (.openX h)) => h.source == strap
  | some (.head (.resume h)) => h.source == strap
  | some (.head (.withdraw h)) => h.source == strap
  | some (.head (.probe _ _)) => false
  | some (.verdict _) => false
  | none => false

/-! ## The course of a tenure (R39 to R43, R50, R181) -/

/-- The verdict kinds that the course permits after a head, at the first verdict or after the run, with INTERJECT negated. -/
def permittedKind (h : Head) (first : Bool) (k : VerdictKind) : Bool :=
  match h, first, k with
  | .openX o, true, .proceed => o.kind != .swap
  | .openX o, true, .park => o.kind == .fetch
  | .openX _, true, .refuse _ => true
  | .openX o, true, .done _ => o.kind == .swap
  | .openX o, false, .done _ => o.kind != .swap
  | .resume r, true, .proceed => r.chunkLength != 0
  | .resume r, true, .accept => r.chunkLength == 0
  | .resume _, true, .stale => true
  | .resume _, true, .withdrawn => true
  | .resume _, true, .refuse .check => true
  | .resume r, false, .accept => r.chunkLength != 0
  | .resume r, false, .resend => r.chunkLength != 0
  | .resume r, false, .withdrawn => r.chunkLength != 0
  | .withdraw _, true, .cleared => true
  | .withdraw _, true, .refuse .check => true
  | _, _, _ => false

/-- R43: every verdict echoes the head's tag and generation, except REFUSE(CHECK). -/
def echoFits (h : Head) (v : Verdict) : Bool :=
  v.kind == .refuse .check || (v.tag == h.tag && v.gen == h.gen)

/-- R43 and R50: the first verdict of an OPEN tenure carries terms exactly when the head did, except REFUSE(CHECK) and CLEARED;
no other verdict carries terms; REFUSE(TERMS) does not answer a head with terms. -/
def termsFit (h : Head) (first : Bool) (v : Verdict) : Bool :=
  match h, first with
  | .openX o, true =>
    if v.kind = .refuse .check ∨ v.kind = .cleared then v.terms.isNone
    else v.terms.isSome == o.terms.isSome && !(v.kind == .refuse .terms && o.terms.isSome)
  | _, _ => v.terms.isNone

/-- R181: a DONE(OK) carries a swap result exactly when it answers a SWAP. -/
def resultFits (h : Head) (v : Verdict) : Bool :=
  match h with
  | .openX o => v.kind != .done .ok || (v.swap.isSome == (o.kind == .swap))
  | .resume _ | .withdraw _ | .probe _ _ => true

/-- Whether a whole, undamaged verdict fits the course (R43, R50, R181). While INTERJECT is asserted only CLEARED fits. -/
def verdictFits (h : Head) (first interject : Bool) (v : Verdict) : Bool :=
  (if interject then v.kind == .cleared else permittedKind h first v.kind) &&
    echoFits h v && termsFit h first v && resultFits h v

end Sys2Proof.Machine
end

