-- ==== Sys2Proof/Machine/Operands.lean ====
section
/-! DEFINITION. The operands of orders and urgent records, gather lists and setup images (section 12.3, section 12.4). -/

namespace Sys2Proof.Machine

/-! ## Orders (R182) -/

/-- The kind field of an order. -/
def orderKind (o : Order) : OrderKind :=
  let k : BitVec 4 := o.w0.extractLsb' 0 4
  if k = 1 then .data .fetch
  else if k = 2 then .data .store
  else if k = 3 then .data .note
  else if k = 4 then .data .swap
  else if k = 8 then .setup
  else if k = 9 then .join
  else if k = 10 then .leave
  else .unassigned

/-- The order of eight words. -/
def orderOfWords (words : List Word) : Order :=
  ⟨words.getD 0 0, words.getD 1 0, words.getD 2 0, words.getD 3 0, words.getD 4 0, words.getD 5 0, words.getD 6 0,
    words.getD 7 0⟩

def Order.peer (o : Order) : Addr := o.w0.extractLsb' 8 4
def Order.window (o : Order) : BitVec 4 := o.w0.extractLsb' 16 4
def Order.fence (o : Order) : Bool := o.w0.getLsbD 24
def Order.segCount (o : Order) : Nat := (o.w0.extractLsb' 28 4 : BitVec 4).toNat
def Order.offset (o : Order) : BitVec 24 := o.w1.extractLsb' 0 24
def Order.length (o : Order) : Nat := (o.w2.extractLsb' 0 16 : BitVec 16).toNat
def Order.listAddr (o : Order) : Word := o.w3
def Order.ops (o : Order) : SwapOps := ⟨o.w4, o.w5⟩
def Order.imageAddr (o : Order) : Word := o.w1

/-- Whether only the kind is set in word 0. -/
def Order.bareKind (o : Order) : Bool := o.w0 >>> 4 == 0

/-- A SETUP malformed in its own words (R182). -/
def setupMalformed (o : Order) : Bool :=
  !(o.bareKind && o.w2 == 0 && o.w3 == 0 && o.w4 == 0 && o.w5 == 0 && o.w6 == 0 && o.w7 == 0)

/-- A JOIN or LEAVE malformed in its own words (R182). -/
def controlMalformed (o : Order) : Bool :=
  !(o.bareKind && o.w1 == 0 && o.w2 == 0 && o.w3 == 0 && o.w4 == 0 && o.w5 == 0 && o.w6 == 0 && o.w7 == 0)

/-- The length range of a kind, at intake and in an OPEN head (R79, R134). -/
def lengthInRange (k : XKind) (n : Nat) : Bool :=
  match k with
  | .fetch | .store => decide (1 ≤ n ∧ n ≤ 4096)
  | .note => decide (1 ≤ n ∧ n ≤ 64)
  | .swap => n == 4

/-- The checks of a gather list's own operands: the segment count and the address (R79). -/
def listOperandsBad (o : Order) : Bool :=
  !(decide (1 ≤ o.segCount ∧ o.segCount ≤ 8)) || o.listAddr.toNat % 4 != 0

/-- A malformed data order (R79). -/
def orderMalformed (strap : Addr) (k : XKind) (o : Order) : Bool :=
  o.peer == strap || decide (7 < o.window.toNat) || !lengthInRange k o.length ||
    decide (2 ^ 24 < o.offset.toNat + o.length) ||
    (match k with
      | .swap => o.offset.toNat % 4 != 0
      | .fetch | .store | .note => listOperandsBad o)

/-! ## Urgent records (R147, R182) -/

inductive UrgentKind where
  | cancel (tag : BitVec 8)
  | busReset
  | unassigned
deriving DecidableEq, Repr

def urgentKind (w0 w1 : Word) : UrgentKind :=
  let k : BitVec 4 := w0.extractLsb' 0 4
  if k = 1 then .cancel (w1.extractLsb' 0 8) else if k = 2 then .busReset else .unassigned

/-! ## Words from bytes -/

/-- The 32-bit value of the four bytes at `4 * k`, lane 0 least significant (R174). -/
def wordAt (bytes : List Byte) (k : Nat) : Word :=
  bytes.getD (4 * k + 3) 0 ++ bytes.getD (4 * k + 2) 0 ++ bytes.getD (4 * k + 1) 0 ++ bytes.getD (4 * k) 0

/-! ## Gather lists (R80) -/

/-- The segments of a gather list of `n` items, in list order. -/
def listSegments (n : Nat) (bytes : List Byte) : List Segment :=
  (List.range n).map fun k => ⟨wordAt bytes (2 * k), (wordAt bytes (2 * k + 1)).toNat⟩

def segmentBad (g : Segment) : Bool := g.len == 0 || decide (2 ^ 32 < g.addr.toNat + g.len)

/-- The lengths, summed without truncation. -/
def segmentTotal (segs : List Segment) : Nat := (segs.map Segment.len).sum

/-- A gather list found malformed. -/
def listMalformed (length : Nat) (segs : List Segment) : Bool := segs.any segmentBad || segmentTotal segs != length

/-! ## The setup image (R58, R183) -/

/-- A scalar word: its default if the default mark is set, otherwise its value if that is in range. -/
def scalar (w : Word) (width default lo hi : Nat) : Option Nat :=
  if w.msb then some default
  else
    let v := w.toNat % 2 ^ width
    if lo ≤ v ∧ v ≤ hi then some v else none

/-- The window count in word 5; its bit 31 is ignored. -/
def windowCount (w5 : Word) : Nat := (w5.extractLsb' 0 4 : BitVec 4).toNat

def windowCountValid (n : Nat) : Bool := decide (1 ≤ n ∧ n ≤ 8)

/-- The conditions of a defined window. -/
def windowValid (base : Word) (length : Nat) : Bool :=
  base.toNat % 4 == 0 && length % 256 == 0 && decide (256 ≤ length ∧ length ≤ 2 ^ 24) &&
    decide (base.toNat + length ≤ 2 ^ 32)

/-- Window `k` of the window words: none if the image is not valid for it, `some none` for an undefined window. -/
def imageWindow (bytes : List Byte) (k : Nat) : Option (Option Window) :=
  if (wordAt bytes (5 * k)).getLsbD 0 then
    let base := wordAt bytes (5 * k + 1)
    let length := (wordAt bytes (5 * k + 2)).toNat
    let rw := wordAt bytes (5 * k + 3)
    let ns := wordAt bytes (5 * k + 4)
    if windowValid base length then
      some (some ⟨base, length, rw.extractLsb' 0 16, rw.extractLsb' 16 16, ns.extractLsb' 0 16, ns.extractLsb' 16 16⟩)
    else none
  else some none

/-- All of them, or none if one makes the image not valid. -/
def imageWindows (bytes : List Byte) : List Nat → Option (List (Option Window))
  | [] => some []
  | k :: ks =>
    match imageWindow bytes k, imageWindows bytes ks with
    | some w, some ws => some (w :: ws)
    | _, _ => none

/-- The setup record of an image, from its 24 scalar bytes and its window bytes; none if the image is not valid. -/
def setupOfImage (scalars windows : List Byte) : Option Setup :=
  let n := windowCount (wordAt scalars 5)
  match scalar (wordAt scalars 0) 2 1 0 3, scalar (wordAt scalars 1) 8 20 1 255, scalar (wordAt scalars 2) 4 3 0 7,
    scalar (wordAt scalars 3) 5 8 1 16, scalar (wordAt scalars 4) 9 64 0 256, imageWindows windows (List.range n) with
  | some call, some park, some retry, some pace, some short, some ws =>
    if windowCountValid n then some ⟨BitVec.ofNat 2 call, park, retry, pace, short, ws⟩ else none
  | _, _, _, _, _, _ => none

end Sys2Proof.Machine
end

