-- ==== Sys2Proof/Machine/Ops.lean ====
section
/-! DEFINITION. The operations that the meanings share: durations, the setup record in force, the Terms Table, the exchange
table and its launch queue, completion, and the retry rule. -/

namespace Sys2Proof.Machine

/-! ## Durations, in half microseconds -/

def idleTime : Time := 2
def windowTime : Time := 1
def stallTime : Time := 200
def interjectTime : Time := 200
def bresetDriveTime : Time := 50
def bresetDetectTime : Time := 4
def verdictTime : Time := 160

/-- The call timeout of a call timeout select: 250 µs, 1 ms, 4 ms or 16 ms (R9). -/
def callTime (select : BitVec 2) : Time := 500 * 4 ^ select.toNat

/-- The hold-off after `attempts` charged attempts: 32 µs times their number (R105, R156). -/
def holdOffTime (attempts : Nat) : Time := 64 * attempts

/-- A park limit in milliseconds (R122). -/
def parkTime (ms : Nat) : Time := 2000 * ms

/-! ## The setup record in force -/

/-- The defaults of the scalar fields, with no window. -/
def Setup.defaults : Setup := ⟨1, 20, 3, 8, 64, []⟩

/-- The setup record. A station outside OFFLINE has one; without one the defaults stand in (log 29). -/
def setupOf (s : State) : Setup := s.station.setup.getD Setup.defaults

/-- The window that a window number names, if it is defined (R132). -/
def windowOf (s : State) (w : Nat) : Option Window := ((setupOf s).windows.getD w none)

/-! ## The Terms Table (R44) -/

def termsOf (s : State) (a : Addr) : Option Nat := s.terms[a.toNat]'a.isLt

def setTerms (a : Addr) (v : Option Nat) (s : State) : State := { s with terms := s.terms.set a.toNat v a.isLt }

/-- The pace window with the station at an address: 1 while the entry is UNKNOWN (R33). -/
def paceWindow (s : State) (a : Addr) : Nat := (termsOf s a).getD 1

/-- Every entry becomes UNKNOWN (R53, R54). -/
def forgetTerms (s : State) : State := { s with terms := Vector.replicate 16 none }

/-- The entry for an address becomes AGREED with the smaller maximum; the entry of the own address is never written (R47,
R49). -/
def agreeTerms (a : Addr) (received : BitVec 5) (s : State) : State :=
  if a = s.station.strap then s else setTerms a (some (min (setupOf s).paceMax received.toNat)) s

/-- The terms sub-record that carries the own pace maximum (R45). -/
def ownTerms (s : State) : BitVec 5 := BitVec.ofNat 5 (setupOf s).paceMax

/-! ## The exchange table (R74) -/

def allTags : List Tag := (List.range 32).map (BitVec.ofNat 5)

def entryOf (s : State) (t : Tag) : Entry := s.launch.entries[t.toNat]'t.isLt

def setEntry (t : Tag) (e : Entry) (s : State) : State :=
  { s with launch.entries := s.launch.entries.set t.toNat e t.isLt }

def genOf (s : State) (t : Tag) : Gen := (entryOf s t).gen

def slotOf (s : State) (t : Tag) : Slot := (entryOf s t).slot

/-- Puts an entry in service, in the phase given; its generation is kept. -/
def setLive (t : Tag) (b : Body) (p : Phase) (s : State) : State := setEntry t ⟨genOf s t, .live b p⟩ s

/-- The fields and the phase of an entry in service. -/
def liveOf (s : State) (t : Tag) : Option (Body × Phase) :=
  match slotOf s t with
  | .live b p => some (b, p)
  | .free | .reported _ _ => none

def isFree (s : State) (t : Tag) : Bool :=
  match slotOf s t with
  | .free => true
  | .live _ _ | .reported _ _ => false

def isReported (s : State) (t : Tag) : Bool :=
  match slotOf s t with
  | .reported _ _ => true
  | .free | .live _ _ => false

/-- The lowest-numbered FREE entry (R81). -/
def lowestFree (s : State) : Option Tag := allTags.find? (isFree s)

def accOf (s : State) (t : Tag) : BitVec 32 :=
  match slotOf s t with
  | .live b _ | .reported b _ => b.acc
  | .free => 0

/-- Acceptance number `a` was taken earlier than `b`: their difference modulo 2^32 lies below 2^31 (R76). DESIGN CHOICE (log
42): R76 gives the order only for entries fewer than 2^31 intakes apart; of two that are exactly 2^31 apart neither is earlier,
and of two that are further apart the difference alone decides. -/
def earlier (a b : BitVec 32) : Bool := a != b && decide ((b - a).toNat < 2 ^ 31)

def workKind : Work → XKind
  | .fetch _ => .fetch
  | .store => .store
  | .note _ => .note
  | .swap _ _ _ _ => .swap

def bodyKind (b : Body) : XKind := workKind b.work

/-! ## The launch queue and the choice (R85 to R88) -/

/-- Places an item before the first item taken later; behind one exactly 2^31 intakes away (log 42). -/
def insertByAcc {α : Type} (acc : α → BitVec 32) (t : α) : List α → List α
  | [] => [t]
  | u :: us => if earlier (acc t) (acc u) then t :: u :: us else u :: insertByAcc acc t us

/-- A tag joins the launch queue at its place by acceptance number (R85). -/
def enqueue (t : Tag) (s : State) : State :=
  { s with launch.queue := insertByAcc (accOf s) t (s.launch.queue.filter (· != t)) }

def dequeue (t : Tag) (s : State) : State := { s with launch.queue := s.launch.queue.filter (· != t) }

/-- QUEUED or HELD. -/
def waitsForOpen : Phase → Bool
  | .queued | .held _ => true
  | .callingOpen | .callingWithdraw | .connOpen _ _ | .connWithdraw _ | .connResume _ _ | .parked _
  | .withdrawing _ => false

/-- The entry holds back a later one to the same peer (R86, per-peer order). -/
def heldBackBy (s : State) (b : Body) (u : Tag) : Bool :=
  match slotOf s u with
  | .live c p => c.peer == b.peer && earlier c.acc b.acc && waitsForOpen p
  | .free | .reported _ _ => false

/-- The entry closes the fence of a later fenced NOTE to the same peer (R86, fence). -/
def fencedBy (s : State) (b : Body) (u : Tag) : Bool :=
  match slotOf s u with
  | .live c _ => c.peer == b.peer && earlier c.acc b.acc && bodyKind c == .store
  | .free | .reported _ _ => false

def hasFence (b : Body) : Bool :=
  match b.work with
  | .note fence => fence
  | .fetch _ | .store | .swap _ _ _ _ => false

/-- Eligibility of an entry in QUEUED (R86). -/
def eligible (s : State) (b : Body) : Bool :=
  !allTags.any (heldBackBy s b) && !(hasFence b && allTags.any (fencedBy s b))

def withdrawReady (s : State) (t : Tag) : Bool :=
  match slotOf s t with
  | .live _ (.withdrawing none) => true
  | _ => false

def openReady (s : State) (t : Tag) : Bool :=
  match slotOf s t with
  | .live b .queued => eligible s b
  | _ => false

/-- The Launch Engine's choice (R87). -/
def choice (s : State) : Option Tag :=
  match s.launch.queue.find? (withdrawReady s) with
  | some t => some t
  | none => s.launch.queue.find? (openReady s)

/-! ## Completion (R83, R108) -/

/-- INDETERMINATE for a SWAP whose head was delivered and that has taken no DONE; otherwise the status given (R108). -/
def finalStatus (w : Work) (st : Status) : Status :=
  match w with
  | .swap _ true false _ => .indeterminate
  | .swap _ _ _ _ | .fetch _ | .store | .note _ => st

/-- The swap result of a report: old value 0 with success no unless a DONE carrying one was taken (R83). -/
def reportedResult : Work → SwapResult
  | .swap _ _ _ (some r) => r
  | .swap _ _ _ none | .fetch _ | .store | .note _ => ⟨0, false⟩

/-- A completed SWAP holds a swap result (R74). -/
def reportedWork : Work → Work
  | .swap ops delivered done r => .swap ops delivered done (some (r.getD ⟨0, false⟩))
  | .fetch f => .fetch f
  | .store => .store
  | .note f => .note f

def reportOf (t : Tag) (g : Gen) (b : Body) (st : Status) : Report where
  tag := t
  gen := g
  kind := bodyKind b
  peer := b.peer
  status := st
  bytesDone := b.bytesDone
  attempts := b.attempts
  result := reportedResult b.work

/-- The tenure record that an inbound item of this tag reports to is closed. With `completed` the exchange is over too: a write
FAULT of the item concerns no later use of the tag (R130). -/
def closeItem (completed : Bool) (t : Tag) (r : InRun) : InRun :=
  match r.sink with
  | .mover i =>
    if i.tag = t then { r with sink := .mover { i with recordOpen := false, inService := i.inService && !completed } } else r
  | .store _ | .note | .dropped => r

def closeItems (completed : Bool) (t : Tag) (s : State) : State :=
  { s with bus.runs := s.bus.runs.map (closeItem completed t) }

/-- A report record joins the tail of the Report queue (R83). -/
def addReport (r : Report) (s : State) : State := { s with port.reports := s.port.reports ++ [r] }

/-- The entry becomes REPORTED with its fields kept (R83). -/
def reportEntry (t : Tag) (g : Gen) (b : Body) (st : Status) (s : State) : State :=
  setEntry t ⟨g, .reported { b with work := reportedWork b.work } st⟩ s

/-- Completion as one act (R83): the entry leaves the launch queue and becomes REPORTED, its report joins the Report queue,
REPORT_READY is set. An inbound item that still writes for it acts on no entry from then on (R130). -/
def complete (t : Tag) (st : Status) (s : State) : State :=
  match liveOf s t with
  | some (b, _) =>
    let final := finalStatus b.work st
    let g := genOf s t
    setNotice .reportReady (closeItems true t (addReport (reportOf t g b final) (reportEntry t g b final (dequeue t s))))
  | none => s

/-- The tags of the entries in service, in increasing order of acceptance number (R83). -/
def liveByAcc (s : State) : List Tag :=
  (allTags.filter fun t => (liveOf s t).isSome).foldl (fun ts t => insertByAcc (accOf s) t ts) []

def modifyBody (t : Tag) (f : Body → Body) (s : State) : State :=
  match liveOf s t with
  | some (b, p) => setLive t (f b) p s
  | none => s

/-- REPORTED with bytes done 0 and CANCELLED (R148, R149). -/
def completeCancelledAtZero (t : Tag) (s : State) : State :=
  complete t .cancelled (modifyBody t (fun b => { b with bytesDone := 0 }) s)

/-! ## The retry rule (R104, R105, R156) -/

def RetryFault.status : RetryFault → Status
  | .callTimeout => .callTimeout
  | .check => .check
  | .overrun => .overrun
  | .stall => .stall
  | .busy => .busy

def FinalFault.status : FinalFault → Status
  | .access => .access
  | .format => .rejected
  | .leaving => .leaving
  | .remoteFault => .remoteFault
  | .localFault => .localFault

/-- The withdrawal status of an entry (R154). -/
def withdrawalStatus (b : Body) : Status :=
  match b.work with
  | .fetch true => .localFault
  | .fetch false | .store | .note _ | .swap _ _ _ _ => if b.cancel then .cancelled else .parkExpired

/-- A retryable fault of an OPEN tenure: HELD with one more attempt, or completed when the budget is spent (R105). -/
def retryOpen (t : Tag) (b : Body) (f : RetryFault) (s : State) : State :=
  if b.attempts < (setupOf s).retryBudget then
    let n := b.attempts + 1
    enqueue t (closeItems false t (setLive t { b with attempts := n } (.held (holdOffTime n)) s))
  else complete t f.status s

/-- A failed WITHDRAW tenure (R156). -/
def failWithdraw (t : Tag) (b : Body) (s : State) : State :=
  if b.attempts < (setupOf s).retryBudget then
    let n := b.attempts + 1
    enqueue t (setLive t { b with attempts := n } (.withdrawing (some (holdOffTime n))) s)
  else complete t (withdrawalStatus b) s

/-- An entry becomes WITHDRAWING and joins the launch queue at its place (R154). -/
def withdraw (t : Tag) (b : Body) (s : State) : State :=
  enqueue t (closeItems false t (setLive t b (.withdrawing none) s))

/-! ## Writing an entry at intake (R81) -/

def workOfOrder (k : XKind) (o : Order) : Work :=
  match k with
  | .fetch => .fetch false
  | .store => .store
  | .note => .note o.fence
  | .swap => .swap o.ops false false none

/-- The order at the head leaves the Order FIFO and the intake stage is emptied (R77, R81). -/
def releaseOrder (s : State) : State :=
  { s with port.fifo := s.port.fifo.tail, launch.intake := none }

/-- The entry of an order under the lowest FREE tag: QUEUED, or completed at intake with a final status (R75, R76, R81). -/
def writeEntry (k : XKind) (o : Order) (segs : List Segment) (final : Option Status) (s : State) : State :=
  match lowestFree s with
  | none => s
  | some t =>
    let b : Body :=
      { work := workOfOrder k o, peer := o.peer, window := o.window, offset := o.offset, length := o.length,
        segs := segs, acc := s.launch.accCount, attempts := 0, bytesDone := 0, cancel := false }
    let s := setEntry t ⟨genOf s t + 1, .live b .queued⟩ s
    let s := { s with launch.accCount := s.launch.accCount + 1 }
    match final with
    | none => releaseOrder (enqueue t s)
    | some st => releaseOrder (complete t st s)

/-! ## The transit buffer (R31) -/

def inboundHeld (runs : List InRun) : Nat := (runs.map fun r => r.bytes.length).sum

/-- Room in the transit buffer: 512 less the bytes held. -/
def room (s : State) : Nat := 512 - (inboundHeld s.bus.runs + s.bus.outbound.length)

/-- Outbound bytes may be placed: no inbound byte is held (R31). -/
def noInbound (s : State) : Bool := inboundHeld s.bus.runs == 0

/-- The beats of a run of `n` bytes (R30). -/
def beatsOf (n : Nat) : Nat := (n + 1) / 2

/-- The bytes of the first `k` beats of a run of `n` bytes (R37). -/
def bytesOfBeats (n k : Nat) : Nat := min (2 * k) n

/-! ## Lines (R1) -/

/-- The station releases every line it drives but BRESET, which its own timer releases (R18, log 35). -/
def releaseLines (s : State) : State := { s with bus.drive := { Drive.released with breset := s.bus.drive.breset } }

/-- D, DP and MARK are released. -/
def releaseBeat (s : State) : State := { s with bus.drive.d := 0, bus.drive.dp := 0, bus.drive.mark := false }

/-- One beat is strobed (R21). -/
def strobe (d : Beat) (mark : Bool) (s : State) : State :=
  { s with
    bus.drive.d := d
    bus.drive.dp := parityOf d
    bus.drive.mark := mark
    bus.strobesGiven := s.bus.strobesGiven + 1
    bus.count := s.bus.count + 1 }

/-- One TAKE pulse is given (R21). -/
def giveTake (s : State) : State := { s with bus.takesGiven := s.bus.takesGiven + 1 }

/-- A frame is given to the BIF: it is sent one beat at a time, and the first beat is strobed now (R23). -/
def sendFrame (f : Frame) (s : State) : State :=
  match f.encode with
  | d :: rest => strobe d true { s with bus.tx := some ⟨f, rest⟩, bus.count := 0 }
  | [] => s

/-- The tenure role (R8). A callee that has sent its closing verdict whole has negated ANSWER and is in role NONE. -/
def roleOf (s : State) : Role :=
  match s.bus.tenure with
  | .none => .none
  | .caller _ => .caller
  | .callee c => if c.finished then .none else .callee

/-- The address of the other party of the tenure. -/
def otherParty (s : State) : Addr :=
  match s.bus.tenure with
  | .none => s.station.strap
  | .caller c => c.called
  | .callee c => c.caller

end Sys2Proof.Machine
end

