-- ==== Sys2Proof/Machine/Memory.lean ====
section
/-! DEFINITION. The Memory Port: transactions, spans of bytes, the clients' slots and the arbiter (R174 to R177). -/

namespace Sys2Proof.Machine

/-! ## Transactions (R174) -/

/-- The word address of the word that holds a byte. -/
def wordAddress (a : Word) : Word := a - BitVec.ofNat 32 (a.toNat % 4)

/-- The words that hold `n` bytes from address `a` on. -/
def wordsFor (a : Word) (n : Nat) : Nat := (a.toNat % 4 + n + 3) / 4

/-- The largest piece of a range at `a` that lies in one aligned 64-byte block (R174). That a transaction takes the largest piece
is the model's choice, of reads log 46, of writes log 15. -/
def pieceSize (a : Word) (limit : Nat) : Nat := min (64 - a.toNat % 64) limit

def spanAt (a : Word) (n : Nat) : Span := ⟨a.toNat % 4, n⟩

/-- The bytes of a completed read that the client uses. -/
def Span.slice (sp : Span) (data : List Byte) : List Byte := (data.drop sp.skip).take sp.n

def readTxn (a : Word) (n : Nat) : Txn := ⟨wordAddress a, wordsFor a n, .read⟩

/-- The lanes of a masked write of bytes from address `a` on. -/
def writeLanes (a : Word) (bytes : List Byte) : List (Option Byte) :=
  List.replicate (a.toNat % 4) none ++ bytes.map some ++
    List.replicate (4 * wordsFor a bytes.length - (a.toNat % 4 + bytes.length)) none

def writeTxn (a : Word) (bytes : List Byte) : Txn :=
  ⟨wordAddress a, wordsFor a bytes.length, .write (writeLanes a bytes)⟩

def pairTxn (a : Word) (ops : SwapOps) : Txn := ⟨a, 1, .pair ops.compare ops.new⟩

def Txn.isPair (x : Txn) : Bool :=
  match x.access with
  | .pair _ _ => true
  | .read | .write _ => false

def Txn.isRead (x : Txn) : Bool :=
  match x.access with
  | .read => true
  | .pair _ _ | .write _ => false

/-! ## The clients' slots (R175) -/

def txnOf (s : State) : Client → Option Txn
  | .serve => s.mem.serve
  | .mover => s.mem.mover
  | .lister => s.mem.lister

def setTxn (c : Client) (x : Option Txn) (s : State) : State :=
  match c with
  | .serve => { s with mem.serve := x }
  | .mover => { s with mem.mover := x }
  | .lister => { s with mem.lister := x }

/-- A client presents a transaction, which is then issued and is not withdrawn (R175). -/
def present (c : Client) (x : Txn) (s : State) : State := setTxn c (some x) s

/-! ## The arbiter (R176, R177) -/

def Client.next : Client → Client
  | .serve => .mover
  | .mover => .lister
  | .lister => .serve

/-- The cyclic order from a client on. -/
def cycleFrom (c : Client) : List Client := [c, c.next, c.next.next]

/-- The clients with a transaction issued; on a free port none of these is granted. -/
def presenters (s : State) : List Client := (cycleFrom s.mem.pointer).filter fun c => (txnOf s c).isSome

/-- A grant: the pointer moves to the client after the grantee, and a pair locks the port (R176, R177). -/
def grant (c : Client) (s : State) : State :=
  { s with
    mem.granted := some c
    mem.pointer := c.next
    mem.lock := (txnOf s c).any Txn.isPair }

/-- The grant to the first waiting client in cyclic order from the pointer (R176). -/
def grantWaiting (s : State) : State :=
  match presenters s with
  | c :: _ => grant c s
  | [] => s

/-- The grant on a free port: one presenter is granted; of several that present together, either may be first (R176, free
value, log 7). -/
def arbitrate (s : State) : State :=
  match s.mem.granted with
  | some _ => s
  | none =>
    match presenters s with
    | [] => s
    | [c] => grant c s
    | c :: cs =>
      let n := Config.firstPresented s.choices % (cs.length + 1)
      grant ((c :: cs).getD n c) { s with choices := s.choices + 1 }

/-- The granted transaction of a client completes: the port is free, and a waiting client is granted next (R176). -/
def releasePort (c : Client) (s : State) : State :=
  grantWaiting (setTxn c none { s with mem.granted := none, mem.lock := false })

/-- The bytes of a completion fit the transaction: a read that completes OK delivers every byte of its words (R174). -/
def completionFits (x : Txn) : Completion → Bool
  | .ok data => !x.isRead || data.length == 4 * x.words
  | .fault => true

/-! ## Places in local memory -/

/-- The address of byte `pos` of the exchange and the bytes left in its segment (R74). -/
def locate : List Segment → Nat → Option (Word × Nat)
  | [], _ => none
  | g :: gs, pos => if pos < g.len then some (g.addr + BitVec.ofNat 32 pos, g.len - pos) else locate gs (pos - g.len)

/-- How many bytes at the head of a run are written next to address `a`, with `left` bytes of the segment left: a whole
piece, or what the run's end has left; 0 while the piece still arrives (log 15). -/
def writeSize (a : Word) (left : Nat) (r : InRun) : Nat :=
  let n := pieceSize a (min left (r.length - (r.received - r.bytes.length)))
  if n ≤ r.bytes.length then n else if r.ended then r.bytes.length else 0

end Sys2Proof.Machine
end

