-- ==== Sys2Proof/Machine/Launch.lean ====
section
/-! DEFINITION. The Launch Engine: tenure records, the reading of verdicts, the carrying out of outcomes, the answer to a
RESUME, and the data mover (05 to 07, 09). -/

namespace Sys2Proof.Machine

/-! ## Verdicts of an OPEN tenure (R95 to R98) -/

def readRefuse : RefuseReason → OpenOutcome
  | .busy => .retry .busy
  | .check => .retry .check
  | .access => .final .access
  | .format => .final .format
  | .leaving => .final .leaving
  | .terms => .requeue

/-- A DONE; `short` is a FETCH run ended short (R96). -/
def readDone (short : Bool) : DoneReason → OpenOutcome
  | .ok => if short then .retry .check else .ok
  | .check => .retry .check
  | .memory => .final .remoteFault
  | .stall => .retry .stall

/-- The outcome that a verdict decides; PROCEED decides none. -/
def openOutcome (short : Bool) : VerdictKind → Option OpenOutcome
  | .park => some .park
  | .refuse r => some (readRefuse r)
  | .done d => some (readDone short d)
  | .proceed | .accept | .resend | .stale | .withdrawn | .cleared => none

/-- The OPEN head of an entry (R93); `terms` is the sub-record of R46. -/
def openHead (strap : Addr) (t : Tag) (g : Gen) (b : Body) (terms : Option (BitVec 5)) : OpenHead where
  source := strap
  target := b.peer
  tag := t
  gen := g
  kind := bodyKind b
  window := b.window.setWidth 3
  offset := b.offset
  length := BitVec.ofNat 13 b.length
  terms := terms
  ops :=
    match b.work with
    | .swap ops _ _ _ => some ops
    | .fetch _ | .store | .note _ => none

def modifyOpen (t : Tag) (f : OpenRecord → OpenRecord) (s : State) : State :=
  match liveOf s t with
  | some (b, .connOpen offered r) => setLive t b (.connOpen offered (f r)) s
  | _ => s

/-- The first outcome decided stands (R94). -/
def OpenRecord.decide (o : OpenOutcome) (r : OpenRecord) : OpenRecord := { r with outcome := some (r.outcome.getD o) }

def isDone : VerdictKind → Bool
  | .done _ => true
  | .proceed | .park | .refuse _ | .accept | .resend | .stale | .withdrawn | .cleared => false

/-- R108: each DONE taken is marked in the tenure record. -/
def OpenRecord.noteDone (v : Verdict) (r : OpenRecord) : OpenRecord := { r with doneTaken := r.doneTaken || isDone v.kind }

/-- R108: the first DONE taken sets the mark of the entry; R97: DONE(OK) gives the swap result and bytes done 4. -/
def noteDone (v : Verdict) (b : Body) : Body :=
  match v.kind, b.work with
  | .done .ok, .swap ops delivered _ _ => { b with work := .swap ops delivered true v.swap, bytesDone := 4 }
  | .done _, .swap ops delivered _ r => { b with work := .swap ops delivered true r }
  | _, _ => b

/-- A closing verdict of the OPEN tenure of entry `t` is handed (R95 to R98). REFUSE(TERMS) makes the peer's Terms Table
entry UNKNOWN at once (R51). -/
def readOpenVerdict (t : Tag) (v : Verdict) (s : State) : State :=
  match liveOf s t with
  | some (b, .connOpen offered r) =>
    match openOutcome r.short v.kind with
    | some o =>
      let s := setLive t (noteDone v b) (.connOpen offered ((r.noteDone v).decide o)) s
      if v.kind = .refuse .terms then setTerms b.peer none s else s
    | none => s
  | _ => s

/-- The withdraw outcome (R155). -/
def readWithdrawVerdict (t : Tag) (v : Verdict) (s : State) : State :=
  match liveOf s t with
  | some (b, .connWithdraw none) =>
    match v.kind with
    | .cleared => setLive t b (.connWithdraw (some .cleared)) s
    | .refuse .check => setLive t b (.connWithdraw (some (.failed .check))) s
    | _ => s
  | _ => s

/-- A fault of the tenure is handed to the Launch Engine (R94, R155). -/
def launchFault (t : Tag) (f : RetryFault) (s : State) : State :=
  match liveOf s t with
  | some (b, .connOpen offered r) => setLive t b (.connOpen offered (r.decide (.retry f))) s
  | some (b, .connWithdraw none) => setLive t b (.connWithdraw (some (.failed f))) s
  | _ => s

/-! ## Carrying out an OPEN tenure (R109, R110, R151) -/

def isFetch (b : Body) : Bool := bodyKind b == .fetch

/-- The replacements of R110. -/
def replacedOutcome (b : Body) (r : OpenRecord) : Option OpenOutcome :=
  if r.localFault then some (.final .localFault)
  else if isFetch b && r.parityFail then some (.retry .check)
  else r.outcome

/-- Both events of R109 have occurred. -/
def openOver (b : Body) (r : OpenRecord) : Bool := r.ended && (!isFetch b || !r.proceedTaken || r.drained)

def carryOpen (t : Tag) (b : Body) (r : OpenRecord) (s : State) : State :=
  match replacedOutcome b r with
  | some .ok => complete t .ok s
  | some (.final f) => complete t f.status s
  | some .park =>
    if b.cancel then withdraw t b s else setLive t b (.parked (parkTime (setupOf s).parkLimit)) s
  | some .requeue =>
    if b.cancel then complete t .cancelled s else enqueue t (setLive t b .queued s)
  | some (.retry f) => if b.cancel then complete t .cancelled s else retryOpen t b f s
  | none => if b.cancel then complete t .cancelled s else retryOpen t b .stall s

def settleOpen (t : Tag) (s : State) : State :=
  match liveOf s t with
  | some (b, .connOpen _ r) => if openOver b r then carryOpen t b r s else s
  | _ => s

/-- The end of a tenure that this station held as caller for entry `t` (R109, R149, R155). An end with no outcome decided
gives STALL (R94). -/
def launchEnd (t : Tag) (s : State) : State :=
  match liveOf s t with
  | some (b, .connOpen offered r) =>
    settleOpen t (setLive t b (.connOpen offered { r.decide (.retry .stall) with ended := true }) s)
  | some (b, .connWithdraw (some .cleared)) => complete t (withdrawalStatus b) s
  | some (b, .connWithdraw _) => failWithdraw t b s
  | some (_, .callingOpen) => completeCancelledAtZero t s
  | _ => s

/-- The call for entry `t` times out (R92, R149, R156). -/
def launchCallTimeout (t : Tag) (s : State) : State :=
  match liveOf s t with
  | some (b, .callingOpen) => if b.cancel then completeCancelledAtZero t s else retryOpen t b .callTimeout s
  | some (b, .callingWithdraw) => failWithdraw t b s
  | _ => s

/-- The end of the run of entry `t` as caller is handed with the bytes taken (R100, R101, R107). -/
def launchRunEnd (t : Tag) (taken : Nat) (short : Bool) (s : State) : State :=
  match liveOf s t with
  | some (b, .connOpen offered r) =>
    setLive t { b with bytesDone := taken } (.connOpen offered { r with bytesTaken := taken, short := short }) s
  | _ => s

/-! ## The answer to a RESUME (R124, R125, R158) -/

inductive ResumeAnswer where
  | stale | withdrawn | accept
  | proceed (isRepeat : Bool)
deriving DecidableEq, Repr

/-- The tests of R124 that do not depend on the state of the entry. -/
def resumeFits (g : Gen) (b : Body) (h : ResumeHead) : Bool :=
  let o := h.chunkOffset.toNat
  let n := h.chunkLength.toNat
  g == h.gen && b.peer == h.source && isFetch b &&
    (if h.fault then n == 0
      else n != 0 && decide (o + n ≤ b.length) && (o == b.bytesDone || o + n == b.bytesDone))

/-- The first verdict of a RESUME tenure (R124, R125). -/
def resumeAnswer (s : State) (h : ResumeHead) : ResumeAnswer :=
  match liveOf s h.tag with
  | some (b, .withdrawing _) => if resumeFits (genOf s h.tag) b h then .withdrawn else .stale
  | some (b, .parked _) =>
    if resumeFits (genOf s h.tag) b h then
      if h.fault then .accept
      else if (termsOf s h.source).isNone then .stale
      else .proceed (h.chunkOffset.toNat != b.bytesDone)
    else .stale
  | _ => .stale

/-- The resume tenure record at the first verdict (R126). -/
def freshResume (h : ResumeHead) (isRepeat : Bool) (given : Given) (outcome : Option ResumeOutcome) : ResumeRecord where
  chunkOffset := h.chunkOffset.toNat
  chunkLength := h.chunkLength.toNat
  isRepeat := isRepeat
  given := given
  outcome := outcome
  parityFail := false
  localFault := false
  drained := false
  ended := false

/-- The inbound item of a run (R99, R101, R127). -/
def moverItem (t : Tag) (segs : List Segment) (chunk : Option Nat) (discard : Bool) : MoverItem where
  tag := t
  segs := segs
  chunk := chunk
  pos := chunk.getD 0
  written := 0
  discard := discard
  localFault := false
  inService := true
  recordOpen := true

/-- An inbound run is opened for a client (R31). -/
def openRun (sink : Sink) (length : Nat) (s : State) : State :=
  { s with bus.runs := s.bus.runs ++ [⟨sink, length, 0, [], false, none⟩] }

/-- The effect of the first verdict on the entry at once (R125, R127, R158). -/
def applyResume (h : ResumeHead) (a : ResumeAnswer) (s : State) : State :=
  match a, liveOf s h.tag with
  | .withdrawn, some (b, _) => complete h.tag (withdrawalStatus b) s
  | .accept, some (b, .parked left) =>
    setLive h.tag b (.connResume left (freshResume h false .accept (some .remoteFault))) s
  | .proceed isRepeat, some (b, .parked left) =>
    openRun (.mover (moverItem h.tag b.segs (some h.chunkOffset.toNat) isRepeat)) h.chunkLength.toNat
      (setLive h.tag b (.connResume left (freshResume h isRepeat .proceed none)) s)
  | _, _ => s

def ResumeAnswer.verdict : ResumeAnswer → VerdictKind
  | .stale => .stale
  | .withdrawn => .withdrawn
  | .accept => .accept
  | .proceed _ => .proceed

/-- The entry that a RESUME tenure engages, if its first verdict engages one. -/
def ResumeAnswer.engaged (t : Tag) : ResumeAnswer → Option Tag
  | .accept | .proceed _ => some t
  | .stale | .withdrawn => none

/-! ## The end of a chunk's run and of a RESUME tenure (R128, R129, R152) -/

/-- The verdict after the run, the outcome, and the new bytes done (R128, R152). -/
def runEndVerdict (b : Body) (r : ResumeRecord) : VerdictKind × ResumeOutcome × Nat :=
  if r.localFault then (.withdrawn, .localFault, b.bytesDone)
  else if b.cancel then (.withdrawn, .cancelled, b.bytesDone)
  else if r.parityFail then (.resend, .resend, b.bytesDone)
  else if r.isRepeat then (.accept, .accepted, b.bytesDone)
  else (.accept, .accepted, b.bytesDone + r.chunkLength)

def givenOf : VerdictKind → Given
  | .withdrawn => .withdrawn
  | .resend => .resend
  | .proceed => .proceed
  | .accept | .park | .refuse _ | .done _ | .stale | .cleared => .accept

/-- The record and bytes done after the verdict that follows the run. -/
def applyRunEnd (t : Tag) (s : State) : State :=
  match liveOf s t with
  | some (b, .connResume left r) =>
    let v := runEndVerdict b r
    setLive t { b with bytesDone := v.2.2 } (.connResume left { r with given := givenOf v.1, outcome := some v.2.1 }) s
  | _ => s

/-- R130: a local fault makes the outcome LOCAL_FAULT, whatever verdict was given. -/
def resumeOutcome (r : ResumeRecord) : Option ResumeOutcome := if r.localFault then some .localFault else r.outcome

/-- An outcome ACCEPTED of the last chunk waits for run drained; every other is carried out at the end (R129, log 38). -/
def resumeOver (b : Body) (r : ResumeRecord) : Bool :=
  r.ended && (resumeOutcome r != some .accepted || b.bytesDone != b.length || r.drained)

/-- The entry returns to PARKED with the time given (R129). -/
def park (t : Tag) (b : Body) (left : Time) (s : State) : State := closeItems false t (setLive t b (.parked left) s)

/-- R129, with the changes of R152 for a cancel pending. -/
def carryResume (t : Tag) (b : Body) (left : Time) (r : ResumeRecord) (s : State) : State :=
  match resumeOutcome r with
  | some .remoteFault => complete t .remoteFault s
  | some .localFault => complete t .localFault s
  | some .cancelled => complete t .cancelled s
  | some .accepted =>
    if b.bytesDone = b.length then complete t .ok s
    else if b.cancel then withdraw t b s
    else park t b (parkTime (setupOf s).parkLimit) s
  | some .resend => if b.cancel then withdraw t b s else park t b (parkTime (setupOf s).parkLimit) s
  | none => if b.cancel then withdraw t b s else park t b left s

def settleResume (t : Tag) (s : State) : State :=
  match liveOf s t with
  | some (b, .connResume left r) => if resumeOver b r then carryResume t b left r s else s
  | _ => s

def modifyResume (t : Tag) (f : ResumeRecord → ResumeRecord) (s : State) : State :=
  match liveOf s t with
  | some (b, .connResume left r) => setLive t b (.connResume left (f r)) s
  | _ => s

/-- The end of a RESUME tenure at the requester (R129). -/
def resumeTenureEnd (t : Tag) (s : State) : State :=
  settleResume t (modifyResume t (fun r => { r with ended := true }) s)

/-! ## Events of an inbound item (R101, R103, R127, R130) -/

/-- A beat that failed parity was taken for entry `t`. -/
def launchParityFail (t : Tag) (s : State) : State :=
  modifyResume t (fun r => { r with parityFail := true }) (modifyOpen t (fun r => { r with parityFail := true }) s)

/-- An item has left the inbound list: run drained becomes yes in its record, if that is still open, and a waiting outcome
is carried out (R101, R109, R127, R129). -/
def itemDrained (i : MoverItem) (s : State) : State :=
  if i.recordOpen then
    settleResume i.tag (settleOpen i.tag
      (modifyResume i.tag (fun r => { r with drained := true }) (modifyOpen i.tag (fun r => { r with drained := true }) s)))
  else s

/-- The chunk fault mark of a FETCH is set (R130). -/
def setChunkFault (b : Body) : Body :=
  match b.work with
  | .fetch _ => { b with work := .fetch true }
  | .store | .note _ | .swap _ _ _ _ => b

/-- A write of an inbound item completes with FAULT: what it does to the entry (R103, R127, R130, log 38). Once the exchange of
the item has completed it concerns no entry, whatever use its tag is in by then (R130). -/
def itemFault (i : MoverItem) (s : State) : State :=
  if i.inService then
    match liveOf s i.tag with
    | some (b, .connOpen offered r) => setLive i.tag b (.connOpen offered { r with localFault := true }) s
    | some (b, .connResume left r) => setLive i.tag b (.connResume left { r with localFault := true }) s
    | some (b, .parked _) => withdraw i.tag (setChunkFault b) s
    | some (b, .withdrawing hold) => setLive i.tag (setChunkFault b) (.withdrawing hold) s
    | some (b, .callingWithdraw) => setLive i.tag (setChunkFault b) .callingWithdraw s
    | some (b, .connWithdraw o) => setLive i.tag (setChunkFault b) (.connWithdraw o) s
    | _ => s
  else s

/-! ## The data mover (R99 to R103) -/

/-- The outbound job of a STORE or NOTE entry (R100). -/
def outJobOf (t : Tag) (b : Body) : OutJob where
  tag := t
  segs := b.segs
  length := b.length
  pos := 0
  placed := 0
  held := []
  flight := none
  stopped := false

/-- The next read of the outbound job: issued while the transit buffer has room and no byte read waits (R100, log 16),
the largest piece (log 46). -/
def presentOutRead (s : State) : State :=
  match s.launch.outJob with
  | none => s
  | some j =>
    if !j.stopped && j.flight.isNone && j.held.isEmpty && decide (0 < room s ∧ j.pos < j.length) then
      match locate j.segs j.pos with
      | none => s
      | some (a, left) =>
        let n := pieceSize a left
        present .mover (readTxn a n)
          { s with launch.outJob := some { j with pos := j.pos + n, flight := some (spanAt a n) } }
    else s

/-- The next transaction of the data mover: a write for the first item ahead of any read (R175). An
item behind another run waits until the last write of that run has completed (log 41). -/
def presentMover (s : State) : State :=
  match s.mem.mover, s.bus.runs with
  | some _, _ => s
  | none, [] => presentOutRead s
  | none, r :: rs =>
    match r.sink, r.flight with
    | .mover i, none =>
      match locate i.segs i.pos with
      | none => presentOutRead s
      | some (a, left) =>
        let n := writeSize a left r
        if n = 0 ∨ i.discard ∨ i.localFault then presentOutRead s
        else
          present .mover (writeTxn a (r.bytes.take n))
            { s with
              bus.runs :=
                { r with sink := .mover { i with pos := i.pos + n }, bytes := r.bytes.drop n, flight := some n } :: rs }
    | _, _ => presentOutRead s

/-- The bytes read are placed in the transit buffer as far as it has room (R100). -/
def placeOutJob (s : State) : State :=
  match s.launch.outJob with
  | none => s
  | some j =>
    if noInbound s && !j.held.isEmpty then
      let n := min (room s) j.held.length
      { s with
        bus.outbound := s.bus.outbound ++ j.held.take n
        launch.outJob := some { j with held := j.held.drop n, placed := j.placed + n } }
    else s

end Sys2Proof.Machine
end

