-- ==== Sys2Proof/Machine/Serve.lean ====
section
/-! DEFINITION. The Serve Engine: the answer to an OPEN, the service of each kind, the memos, the park queue, its fills and
the RESUME tenure at the responder (07, 08). -/

namespace Sys2Proof.Machine

/-! ## Giving verdicts at the callee (R28, R47) -/

/-- The callee's tenure, while verdicts can still be given in it (R17, R136). -/
def activeCallee (s : State) : Option Callee :=
  match s.bus.tenure with
  | .callee c => if c.finished || c.clearing then none else some c
  | .none | .caller _ => none

def giveVerdict (v : Verdict) (s : State) : State :=
  match activeCallee s with
  | some _ => sendFrame (.verdict v) s
  | none => s

/-- R47: the write that goes with the first verdict for a head with terms. -/
def writeTermsFor (h : OpenHead) (s : State) : State :=
  match h.terms with
  | some t => agreeTerms h.source t s
  | none => s

/-- The first verdict of an OPEN tenure, with the own terms exactly when the head carried terms (R47, R133). Every kind but
PROCEED closes the course, and the verdict timer stops. -/
def giveFirst (k : VerdictKind) (result : Option SwapResult) (s : State) : State :=
  match s.serve.service with
  | none => s
  | some v =>
    let terms := v.head.terms.map fun _ => ownTerms s
    giveVerdict ⟨k, v.head.tag, v.head.gen, terms, result⟩
      { writeTermsFor v.head s with
        serve.service := some { v with first := some k, closed := k != .proceed }
        serve.verdictTimer := none }

/-- The closing verdict after a run. -/
def giveClosing (k : VerdictKind) (s : State) : State :=
  match s.serve.service with
  | none => s
  | some v =>
    giveVerdict ⟨k, v.head.tag, v.head.gen, none, none⟩
      { s with serve.service := some { v with closed := true }, serve.verdictTimer := none }

/-! ## The answer to an OPEN (R132 to R135, R140, R141) -/

inductive OpenAnswer where
  | refuse (r : RefuseReason)
  | park
  | fetch (base : Word)
  | store (base : Word)
  | note (isRepeat : Bool)
  | swap (addr : Word)
deriving DecidableEq, Repr

/-- The window whose rights a kind needs: window 0 for a NOTE (R132). -/
def rightsWindow (s : State) (h : OpenHead) : Option Window :=
  match h.kind with
  | .note => windowOf s 0
  | .fetch | .store | .swap => windowOf s h.window.toNat

def rightsOf (k : XKind) (w : Window) : BitVec 16 :=
  match k with
  | .fetch => w.read
  | .store => w.write
  | .note => w.note
  | .swap => w.swap

/-- The range lies inside the window; a NOTE has no range (R132). -/
def rangeInside (h : OpenHead) (w : Window) : Bool :=
  match h.kind with
  | .note => true
  | .fetch | .store | .swap => decide (h.offset.toNat + h.length.toNat ≤ w.length)

/-- The window table admits the head (R135). -/
def accessGranted (s : State) (h : OpenHead) : Bool :=
  match rightsWindow s h with
  | none => false
  | some w => rangeInside h w && (rightsOf h.kind w).getLsbD h.source.toNat

/-- A malformed OPEN head (R134). -/
def openMalformed (strap : Addr) (h : OpenHead) : Bool :=
  h.source == strap || !lengthInRange h.kind h.length.toNat ||
    (match h.kind with
      | .swap => h.offset.toNat % 4 != 0
      | .fetch | .store | .note => false)

/-- The local address of byte 0 of the range (R132). -/
def rangeAddress (s : State) (h : OpenHead) : Word :=
  match rightsWindow s h with
  | some w => w.base + h.offset.setWidth 32
  | none => 0

def parkedBy (h : OpenHead) (e : ParkEntry) : Bool := e.requester == h.source && e.tag == h.tag

def noteMemoMatches (s : State) (h : OpenHead) : Bool :=
  s.serve.noteMemo[h.source.toNat]'h.source.isLt == some ⟨h.tag, h.gen⟩

/-- The Inbox records plus the reservation (R141). -/
def inboxLoad (s : State) : Nat := s.port.inbox.length + s.serve.reserved.toNat

/-- The service by kind of a head that passes the checks (R137 to R143). -/
def serviceAnswer (s : State) (h : OpenHead) : OpenAnswer :=
  match h.kind with
  | .store => .store (rangeAddress s h)
  | .fetch =>
    if h.length.toNat ≤ (setupOf s).shortFetch then .fetch (rangeAddress s h)
    else if s.serve.parkQueue.length < 8 ∨ s.serve.parkQueue.any (parkedBy h) then .park
    else .refuse .busy
  | .note =>
    if noteMemoMatches s h then .note true
    else if inboxLoad s < 16 then .note false
    else .refuse .busy
  | .swap => .swap (rangeAddress s h)

/-- The checks in their order: terms, station state, form, access, service (R133). -/
def openAnswer (s : State) (h : OpenHead) : OpenAnswer :=
  if h.terms.isNone ∧ (termsOf s h.source).isNone then .refuse .terms
  else if s.station.state = .draining then .refuse .leaving
  else if openMalformed s.station.strap h then .refuse .format
  else if !accessGranted s h then .refuse .access
  else serviceAnswer s h

/-- The first verdict that an answer gives at the hand-off of the head; a SWAP waits (R133). -/
def OpenAnswer.verdict : OpenAnswer → Option VerdictKind
  | .refuse r => some (.refuse r)
  | .park => some .park
  | .fetch _ | .store _ | .note _ => some .proceed
  | .swap _ => none

/-- The marks of the service record when it is opened (R131). -/
def OpenAnswer.work (h : OpenHead) : OpenAnswer → ServiceWork
  | .refuse _ => .refused
  | .park => .park
  | .fetch base => .fetch base 0 0 [] false none
  | .store _ => .store 0 0 false false false
  | .note isRepeat => .note (!isRepeat) isRepeat false []
  | .swap addr => .swap addr (h.ops.getD ⟨0, 0⟩) false

/-- What an answer takes besides its verdict: the run of a STORE or NOTE, the inbox reservation, the verdict timer of a
SWAP. -/
def OpenAnswer.prepare (h : OpenHead) (a : OpenAnswer) (s : State) : State :=
  match a with
  | .store base => openRun (.store ⟨base, 0, false, true⟩) h.length.toNat s
  | .note isRepeat => openRun .note h.length.toNat { s with serve.reserved := s.serve.reserved || !isRepeat }
  | .swap _ => { s with serve.verdictTimer := some verdictTime }
  | .refuse _ | .park | .fetch _ => s

/-! ## The end of a service (R131, R136) -/

/-- The run of a STORE whose service record goes becomes leftover writes; a NOTE's bytes are dropped (R131, R136). -/
def leaveRun (r : InRun) : InRun :=
  match r.sink with
  | .store j => { r with sink := .store { j with serving := false } }
  | .note => { r with sink := .dropped }
  | .mover _ | .dropped => r

def holdsPlace (v : Service) : Bool :=
  match v.work with
  | .note place _ _ _ => place
  | .refused | .park | .store _ _ _ _ _ | .fetch _ _ _ _ _ _ | .swap _ _ _ => false

/-- The service record is removed; a reservation still held is released; the verdict timer stops. -/
def serviceEnd (s : State) : State :=
  match s.serve.service with
  | none => s
  | some v =>
    { s with
      serve.service := none
      serve.verdictTimer := none
      serve.reserved := s.serve.reserved && !holdsPlace v
      bus.runs := s.bus.runs.map leaveRun }

/-! ## Taking an OPEN -/

/-- An undamaged OPEN head is handed to the Serve Engine (R131, R133). No earlier service record is left: the tenure it was
opened for has ended. -/
def takeOpen (h : OpenHead) (s : State) : State :=
  let s := serviceEnd s
  let a := openAnswer s h
  let s := a.prepare h { s with serve.service := some ⟨h, none, false, a.work h⟩ }
  match a.verdict with
  | some k => giveFirst k none s
  | none => s

/-! ## Runs of the service (R137 to R142) -/

def modifyWork (f : ServiceWork → ServiceWork) (s : State) : State :=
  match s.serve.service with
  | some v => { s with serve.service := some { v with work := f v.work } }
  | none => s

/-- A beat with `n` bytes of the run was taken; `good` is its parity result (R36, R137). -/
def workTake (n : Nat) (good : Bool) : ServiceWork → ServiceWork
  | .store taken written fault parity ended => .store (taken + n) written fault (parity || !good) ended
  | .note place isRepeat parity payload => .note place isRepeat (parity || !good) payload
  | w => w

/-- The bytes of a NOTE run that still stand in the transit buffer. -/
def noteBytes (runs : List InRun) : List Byte :=
  (runs.filter fun r => r.sink == .note).flatMap InRun.bytes

/-- A NOTE run is no longer anyone's. -/
def dropNote (r : InRun) : InRun := if r.sink = .note then { r with sink := .dropped } else r

/-- The arrival record joins the Inbox, the reservation goes, the note memo is written, INBOX_READY is set (R142). -/
def placeNote (h : OpenHead) (payload : List Byte) (s : State) : State :=
  setNotice .inboxReady
    { s with
      port.inbox := s.port.inbox ++ [⟨h.source, h.tag, h.gen, payload⟩]
      serve.reserved := false
      serve.noteMemo := s.serve.noteMemo.set h.source.toNat (some ⟨h.tag, h.gen⟩) h.source.isLt }

/-- The closing DONE of a NOTE at the end of its run (R142). A note that is not a repeat holds the reservation. -/
def noteRunEnd (v : Service) (place isRepeat parity : Bool) (payload : List Byte) (s : State) : State :=
  let whole := payload ++ noteBytes s.bus.runs
  let s := { s with
    bus.runs := s.bus.runs.map dropNote
    serve.service := some { v with work := .note false isRepeat parity [] } }
  if isRepeat || !place then giveClosing (.done .ok) { s with serve.reserved := false }
  else if parity then giveClosing (.done .check) { s with serve.reserved := false }
  else giveClosing (.done .ok) (placeNote v.head whole s)

/-- The end of the run is handed to the Serve Engine as callee; a run ended short by a frame comes with a parity failure
(R37, R138, R139, R142). -/
def serveRunEnd (short : Bool) (s : State) : State :=
  match s.serve.service with
  | none => s
  | some v =>
    match v.work with
    | .store taken written fault parity _ =>
      let s := { s with serve.service := some { v with work := .store taken written fault (parity || short) true } }
      if fault then giveClosing (.done .memory) s else { s with serve.verdictTimer := some verdictTime }
    | .note place isRepeat parity payload => noteRunEnd v place isRepeat (parity || short) payload s
    | .fetch _ _ _ _ _ _ => giveClosing (.done .ok) s
    | .refused | .park | .swap _ _ _ => s

def isServingStore (r : InRun) : Bool :=
  match r.sink with
  | .store j => j.serving
  | .mover _ | .note | .dropped => false

def isLeftover (r : InRun) : Bool :=
  match r.sink with
  | .store j => !j.serving
  | .mover _ | .note | .dropped => false

/-- The DONE of a STORE once every byte was written or discarded and every write has completed (R138). -/
def storeProgress (s : State) : State :=
  match s.serve.service, activeCallee s with
  | some v, some _ =>
    match v.work with
    | .store _ _ fault parity true =>
      if v.closed || s.bus.runs.any isServingStore then s
      else giveClosing (.done (if fault then .memory else if parity then .check else .ok)) s
    | _ => s
  | _, _ => s

/-- The DONE(MEMORY) of a short FETCH once the bytes placed have been strobed and taken (R37, R139, log 22). -/
def fetchProgress (s : State) : State :=
  match s.serve.service, activeCallee s, s.bus.run with
  | some v, some _, some r =>
    match v.work with
    | .fetch _ _ _ held true none =>
      if v.closed || !held.isEmpty || !r.sending || s.bus.tx.isSome || s.bus.count != 0 || decide (2 ≤ s.bus.outbound.length)
      then s
      else giveClosing (.done .memory) { s with bus.run := none, bus.outbound := [] }
    | _ => s
  | _, _, _ => s

/-! ## SWAP (R143 to R145, R177) -/

def swapMemoOf (s : State) (a : Addr) : Option SwapMemo := s.serve.swapMemo[a.toNat]'a.isLt

/-- The memo's answer to a head: its entry for the source, if it holds the head's tag and generation. -/
def memoAnswer (s : State) (h : OpenHead) : Option SwapResult :=
  match swapMemoOf s h.source with
  | some m => if m.tag = h.tag ∧ m.gen = h.gen then some m.result else none
  | none => none

/-- A SWAP waits for the swap stage, then looks in the memo, then issues its locked pair once the Serve Engine has no
transaction issued and no leftover write (R131, R143, R175, log 18). -/
def swapProgress (s : State) : State :=
  match s.serve.service, activeCallee s, s.serve.swapStage with
  | some v, some _, none =>
    match v.work, v.first with
    | .swap addr ops false, none =>
      match memoAnswer s v.head with
      | some r => giveFirst (.done .ok) (some r) s
      | none =>
        if s.mem.serve.isSome || s.bus.runs.any isLeftover then s
        else
          present .serve (pairTxn addr ops)
            { s with
              serve.service := some { v with work := .swap addr ops true }
              serve.swapStage := some ⟨v.head.source, v.head.tag, v.head.gen⟩ }
    | _, _ => s
  | _, _, _ => s

/-- The pair's result, from the word read (none: FAULT) and the completion of the write it makes if equal (R177). -/
def pairResult (compare : Word) (read : Option Word) (writeOk : Bool) : Option SwapResult :=
  match read with
  | none => none
  | some w => if w = compare then (if writeOk then some ⟨w, true⟩ else none) else some ⟨w, false⟩

/-- Whether the service waits for the pair that the swap stage holds. -/
def waitsForPair (s : State) : Bool :=
  match s.serve.service, activeCallee s with
  | some v, some _ =>
    match v.work with
    | .swap _ _ issued => issued && v.first.isNone
    | _ => false
  | _, _ => false

/-- The pair completes: the stage empties, the memo is written if it completed OK, and the waiting service gives its DONE
(R143, R144). -/
def pairDone (result : Option SwapResult) (s : State) : State :=
  match s.serve.swapStage with
  | none => s
  | some g =>
    let waits := waitsForPair s
    let s := { s with serve.swapStage := none }
    match result with
    | some r =>
      let s := { s with
        serve.swapMemo := s.serve.swapMemo.set g.requester.toNat (some ⟨g.tag, g.gen, r⟩) g.requester.isLt }
      if waits then giveFirst (.done .ok) (some r) s else s
    | none => if waits then giveFirst (.done .memory) none s else s

/-! ## The verdict timer (R138, R144) -/

/-- The verdict timer reaches 80 µs (R138, R144). A locked pair that was issued runs on; one that was not is not issued, since
its SWAP has its verdict (R143, R175, log 18). -/
def verdictExpiry (s : State) : State :=
  match s.serve.service with
  | none => s
  | some v =>
    match v.work with
    | .store _ _ _ parity _ => giveClosing (.done (if parity then .check else .stall)) s
    | .swap _ _ _ => giveFirst (.done .stall) none s
    | _ => s

/-! ## The park queue and its fills (R112 to R114, R118 to R120) -/

/-- A fill is abandoned: a read in flight completes with its data disregarded (R114). -/
def abandonFill (s : State) : State :=
  match s.serve.fill with
  | some f =>
    match f.flight with
    | some _ => { s with serve.fill := some { f with abandoned := true }, serve.staging := [] }
    | none => { s with serve.fill := none, serve.staging := [] }
  | none => { s with serve.staging := [] }

def parkEntryOf (h : OpenHead) : ParkEntry :=
  ⟨h.source, h.tag, h.gen, h.window, h.offset.toNat, h.length.toNat, 0, .empty, 0⟩

/-- PARK has been sent whole: the entry is added at the tail or replaced in place (R113). -/
def parkRequest (h : OpenHead) (s : State) : State :=
  if s.serve.parkQueue.any (parkedBy h) then
    let s := if s.serve.parkQueue.head?.any (parkedBy h) then abandonFill s else s
    { s with serve.parkQueue := s.serve.parkQueue.map fun e => if parkedBy h e then parkEntryOf h else e }
  else { s with serve.parkQueue := s.serve.parkQueue ++ [parkEntryOf h] }

def withdrawnBy (h : WithdrawHead) (e : ParkEntry) : Bool :=
  e.requester == h.source && e.tag == h.tag && e.gen == h.gen

/-- A WITHDRAW head removes the matching entry and is answered CLEARED either way (R120). -/
def takeWithdraw (h : WithdrawHead) (s : State) : State :=
  let s := if s.serve.parkQueue.head?.any (withdrawnBy h) then abandonFill s else s
  giveVerdict ⟨.cleared, h.tag, h.gen, none, none⟩
    { s with serve.parkQueue := s.serve.parkQueue.filter fun e => !withdrawnBy h e }

/-- The head entry goes to the tail with an EMPTY chunk. -/
def requeueHead (f : ParkEntry → ParkEntry) (s : State) : State :=
  match s.serve.parkQueue with
  | e :: es => { s with serve.parkQueue := es ++ [{ f e with chunk := .empty }], serve.staging := [] }
  | [] => s

def removeHead (s : State) : State := { s with serve.parkQueue := s.serve.parkQueue.tail, serve.staging := [] }

/-- A failed resume, or a RESEND, is charged to the head entry (R119). -/
def chargeHead (s : State) : State :=
  match s.serve.parkQueue with
  | e :: _ =>
    if e.attempts < (setupOf s).retryBudget then requeueHead (fun e => { e with attempts := e.attempts + 1 }) s
    else removeHead s
  | [] => s

/-- ACCEPT: the chunk's bytes are sent, or the entry is done (R118). -/
def acceptHead (s : State) : State :=
  match s.serve.parkQueue with
  | e :: _ =>
    match e.chunk with
    | .readyData n =>
      if e.sent + n < e.total then requeueHead (fun e => { e with sent := e.sent + n }) s else removeHead s
    | .empty | .filling _ | .readyFault => removeHead s
  | [] => s

/-- The outcome that a verdict gives to a RESUME tenure (R117). -/
def serveOutcomeOf : VerdictKind → Option ServeOutcome
  | .accept => some .accept
  | .resend => some .resend
  | .stale => some .stale
  | .withdrawn => some .withdrawn
  | .refuse _ => some (.failed .check)
  | .proceed | .park | .done _ | .cleared => none

/-- The first outcome decided stands (R117). -/
def decideResume (o : ServeOutcome) (s : State) : State :=
  match s.serve.resume with
  | some r => { s with serve.resume := some { r with outcome := some (r.outcome.getD o) } }
  | none => s

/-- The end of a RESUME tenure at the responder (R117 to R119). -/
def serveResumeEnd (s : State) : State :=
  match s.serve.resume with
  | none => s
  | some r =>
    let s := { s with serve.resume := none }
    match r.outcome with
    | some .accept => acceptHead s
    | some .stale | some .withdrawn => removeHead s
    | some .resend | some (.failed _) | none => chargeHead s

/-- The head chunk is READY (R115). -/
def headReady (s : State) : Bool :=
  match s.serve.parkQueue with
  | e :: _ =>
    match e.chunk with
    | .readyData _ | .readyFault => true
    | .empty | .filling _ => false
  | [] => false

/-- The RESUME head of the park-queue head (R116). -/
def resumeHead (strap : Addr) (e : ParkEntry) : ResumeHead where
  source := strap
  target := e.requester
  tag := e.tag
  gen := e.gen
  fault := e.chunk == .readyFault
  chunkOffset := BitVec.ofNat 13 e.sent
  chunkLength :=
    match e.chunk with
    | .readyData n => BitVec.ofNat 11 n
    | .empty | .filling _ | .readyFault => 0

/-- The local address of the next byte of a parked request (R114). -/
def parkAddress (s : State) (e : ParkEntry) : Word :=
  match windowOf s e.window.toNat with
  | some w => w.base + BitVec.ofNat 32 (e.offset + e.sent)
  | none => 0

/-- The fill of an EMPTY head begins once the fill stage is empty (R114). That it begins with PARK sent whole, before BUSY is
negated in that OPEN tenure (R140), is the model's choice (log 45). -/
def startFill (s : State) : State :=
  match s.serve.parkQueue, s.serve.fill with
  | e :: es, none =>
    if e.chunk = .empty then
      let n := min 1024 (e.total - e.sent)
      { s with
        serve.parkQueue := { e with chunk := .filling n } :: es
        serve.fill := some ⟨parkAddress s e, n, 0, none, false⟩
        serve.staging := [] }
    else s
  | _, _ => s

def setHeadChunk (c : Chunk) (s : State) : State :=
  match s.serve.parkQueue with
  | e :: es => { s with serve.parkQueue := { e with chunk := c } :: es }
  | [] => s

/-- A fill read completes (R114). -/
def fillRead (f : Fill) (sp : Span) (result : Completion) (s : State) : State :=
  if f.abandoned then { s with serve.fill := none }
  else
    match result with
    | .fault => setHeadChunk .readyFault { s with serve.fill := none, serve.staging := [] }
    | .ok data =>
      let staged := s.serve.staging ++ sp.slice data
      if f.issued < f.total then { s with serve.fill := some { f with flight := none }, serve.staging := staged }
      else setHeadChunk (.readyData f.total) { s with serve.fill := none, serve.staging := staged }

/-! ## The Serve Engine's transactions (R131, R175) -/

/-- The next write of the run at the head of the transit buffer, if that is a STORE's (R137); a run behind another waits
until the last write of that one has completed (log 41). -/
def storeWrite (s : State) : Option State :=
  match s.bus.runs with
  | r :: rs =>
    match r.sink, r.flight with
    | .store j, none =>
      let n := writeSize j.next (r.length - (r.received - r.bytes.length)) r
      if n = 0 ∨ j.faulted then none
      else
        some (present .serve (writeTxn j.next (r.bytes.take n))
          { s with
            bus.runs :=
              { r with
                sink := .store { j with next := j.next + BitVec.ofNat 32 n }
                bytes := r.bytes.drop n
                flight := some n } :: rs })
    | _, _ => none
  | [] => none

/-- The next read of a short FETCH (R139, log 16), the largest piece (log 46). -/
def fetchRead (s : State) : Option State :=
  match s.serve.service, activeCallee s with
  | some v, some _ =>
    match v.work with
    | .fetch base issued placed [] false none =>
      if v.closed || decide (room s = 0 ∨ v.head.length.toNat ≤ issued) then none
      else
        let a := base + BitVec.ofNat 32 issued
        let n := pieceSize a (v.head.length.toNat - issued)
        some (present .serve (readTxn a n)
          { s with
            serve.service := some { v with work := .fetch base (issued + n) placed [] false (some (spanAt a n)) } })
    | _ => none
  | _, _ => none

/-- A fill pauses while a STORE, a short FETCH or a SWAP is served, and while writes of the STORE remain after its closing
verdict (R131, log 17). -/
def fillPaused (s : State) : Bool :=
  match s.serve.service with
  | some v =>
    match v.work with
    | .store _ _ _ _ _ => !v.closed || s.bus.runs.any isServingStore
    | .fetch _ _ _ _ _ _ | .swap _ _ _ => !v.closed
    | .refused | .park | .note _ _ _ _ => false
  | none => false

/-- The next read of the fill (R114), the largest piece (log 46). -/
def presentFill (s : State) : State :=
  match s.serve.fill with
  | some f =>
    if f.abandoned || f.flight.isSome || decide (f.total ≤ f.issued) then s
    else
      let a := f.base + BitVec.ofNat 32 f.issued
      let n := pieceSize a (f.total - f.issued)
      present .serve (readTxn a n)
        { s with serve.fill := some { f with issued := f.issued + n, flight := some (spanAt a n) } }
  | none => s

/-- The Serve Engine presents its next transaction: leftover writes, then the OPEN being served, then fills (R131, R175). -/
def presentServe (s : State) : State :=
  match s.mem.serve with
  | some _ => s
  | none =>
    match storeWrite s with
    | some s' => s'
    | none =>
      if s.bus.runs.any isLeftover then s
      else
        match fetchRead s with
        | some s' => s'
        | none => if fillPaused s then s else presentFill s

/-! ## Placing outbound bytes (R116, R139) -/

def placeFetch (s : State) : State :=
  match s.serve.service with
  | some v =>
    match v.work with
    | .fetch base issued placed held fault flight =>
      if noInbound s && !held.isEmpty && (activeCallee s).isSome then
        let n := min (room s) held.length
        { s with
          bus.outbound := s.bus.outbound ++ held.take n
          serve.service := some { v with work := .fetch base issued (placed + n) (held.drop n) fault flight } }
      else s
    | _ => s
  | none => s

/-- The chunk moves from the staging buffer into the transit buffer while its run is in progress (R116). -/
def placeChunk (s : State) : State :=
  match s.serve.resume, s.bus.run with
  | some t, some r =>
    if r.sending && noInbound s then
      let n := min (room s) (s.serve.staging.length - t.moved)
      { s with
        bus.outbound := s.bus.outbound ++ (s.serve.staging.drop t.moved).take n
        serve.resume := some { t with moved := t.moved + n } }
    else s
  | _, _ => s

/-! ## Completions of the Serve Engine's transactions (R178) -/

/-- A write of a STORE run completes (R137). -/
def storeWriteDone (j : StoreJob) (r : InRun) (rs : List InRun) (n : Nat) (result : Completion) (s : State) : State :=
  match result with
  | .ok _ =>
    let s := { s with bus.runs := { r with sink := .store { j with written := j.written + n }, flight := none } :: rs }
    if j.serving then
      modifyWork
        (fun
          | .store taken written fault parity ended => .store taken (written + n) fault parity ended
          | w => w) s
    else s
  | .fault =>
    let s := { s with bus.runs := { r with sink := .store { j with faulted := true }, flight := none } :: rs }
    if j.serving then
      modifyWork
        (fun
          | .store taken written _ parity ended => .store taken written true parity ended
          | w => w) s
    else s

/-- A read of a short FETCH or of a fill completes; a read whose work has ended is disregarded (R114, R139, R175). -/
def serveReadDone (result : Completion) (s : State) : State :=
  match s.serve.service.map Service.work, s.serve.fill with
  | some (.fetch base issued placed held fault (some sp)), _ =>
    match result with
    | .ok data => modifyWork (fun _ => .fetch base issued placed (held ++ sp.slice data) fault none) s
    | .fault => modifyWork (fun _ => .fetch base issued placed held true none) s
  | _, some f =>
    match f.flight with
    | some sp => fillRead f sp result s
    | none => s
  | _, _ => s

/-- A transaction of the Serve Engine completes. -/
def serveTxnDone (result : Completion) (s : State) : State :=
  match s.bus.runs with
  | r :: rs =>
    match r.sink, r.flight with
    | .store j, some n => storeWriteDone j r rs n result s
    | _, _ => serveReadDone result s
  | [] => serveReadDone result s

end Sys2Proof.Machine
end

