-- ==== Sys2Proof/Machine/Intake.lean ====
section
/-! DEFINITION. Intake: data and control orders taken from the head of the Order FIFO, the List Reader, and the SETUP image
(05 section 5.2, R59, R61, R183). -/

namespace Sys2Proof.Machine

/-! ## The order at the head (R77) -/

/-- The order at the head of the Order FIFO, if it can be taken now and is of the kind given. -/
def headOrder (k : OrderKind) (s : State) : Option Order :=
  match s.launch.intake, s.port.fifo with
  | none, o :: _ => if orderKind o = k then some o else none
  | _, _ => none

/-- A control order is answered and leaves the Order FIFO (R61, R77). -/
def finishControl (r : ControlResult) (s : State) : State := releaseOrder (setResult r s)

/-- A read of the List Reader over `total` bytes from an address. -/
def readJob (base : Word) (total : Nat) : ReadJob := ⟨base, total, 0, [], false, none⟩

/-- A data order is taken when an entry is FREE: the checks of R78 and R79, then the list read, or the entry at once for a
SWAP (R81). -/
def takeDataOrder (k : XKind) (s : State) : State :=
  match headOrder (.data k) s, lowestFree s with
  | some o, some _ =>
    if s.station.state != .online then writeEntry k o [] (some .notOnline) s
    else if orderMalformed s.station.strap k o then writeEntry k o [] (some .rejected) s
    else
      match k with
      | .swap => writeEntry k o [] none s
      | .fetch | .store | .note =>
        { s with launch.intake := some (.gather k o (readJob o.listAddr (8 * o.segCount))) }
  | _, _ => s

/-- SETUP: its own words, then the station state, then the image address (R59). -/
def takeSetup (s : State) : State :=
  match headOrder .setup s with
  | none => s
  | some o =>
    if setupMalformed o then finishControl .refusedFormat s
    else if s.station.state != .offline then finishControl .refusedState s
    else if o.imageAddr.toNat % 4 != 0 then finishControl .refusedFormat s
    else { s with launch.intake := some (.setupScalars o.imageAddr (readJob o.imageAddr 24)) }

/-- JOIN (R61, R63). -/
def takeJoin (s : State) : State :=
  match headOrder .join s with
  | none => s
  | some o =>
    if controlMalformed o then finishControl .refusedFormat s
    else if s.station.state = .offline ∧ s.station.setup.isSome then
      changeState (.joining .waiting) (finishControl .accepted s)
    else finishControl .refusedState s

/-- LEAVE (R61, R68). -/
def takeLeave (s : State) : State :=
  match headOrder .leave s with
  | none => s
  | some o =>
    if controlMalformed o then finishControl .refusedFormat s
    else if s.station.state = .online then changeState .draining (finishControl .accepted s)
    else finishControl .refusedState s

/-- An order of an unassigned kind (R77). -/
def takeUnassigned (s : State) : State :=
  match headOrder .unassigned s with
  | none => s
  | some _ => finishControl .refusedFormat s

/-! ## The List Reader (R80, R183) -/

def intakeJob : Intake → ReadJob
  | .gather _ _ j => j
  | .setupScalars _ j => j
  | .setupWindows _ j => j

def withJob (j : ReadJob) : Intake → Intake
  | .gather k o _ => .gather k o j
  | .setupScalars a _ => .setupScalars a j
  | .setupWindows b _ => .setupWindows b j

/-- Each part of a setup image is read to its end even after a FAULT (R59, R183); a gather list is read no further (log 23). -/
def readsOn : Intake → Bool
  | .setupScalars _ _ | .setupWindows _ _ => true
  | .gather _ _ _ => false

/-- Whether the reads of a job are over, none being in flight. -/
def jobOver (i : Intake) : Bool :=
  let j := intakeJob i
  if readsOn i then decide (j.total ≤ j.issued) else j.fault || decide (j.total ≤ j.got.length)

/-- The List Reader's next read, in address order (R174), the largest piece (log 46). -/
def presentLister (s : State) : State :=
  match s.mem.lister, s.launch.intake with
  | none, some i =>
    let j := intakeJob i
    if (j.fault && !readsOn i) || j.flight.isSome || decide (j.total ≤ j.issued) then s
    else
      let a := j.base + BitVec.ofNat 32 j.issued
      let n := pieceSize a (j.total - j.issued)
      present .lister (readTxn a n)
        { s with launch.intake := some (withJob { j with issued := j.issued + n, flight := some (spanAt a n) } i) }
  | _, _ => s

/-- The gather list has been read: the checks of R80. -/
def finishGather (k : XKind) (o : Order) (j : ReadJob) (s : State) : State :=
  let segs := listSegments o.segCount j.got
  if j.fault || listMalformed o.length segs then writeEntry k o [] (some .rejected) s
  else if s.station.state = .isolated then writeEntry k o [] (some .isolated) s
  else writeEntry k o segs none s

/-- The scalar words have been read (R183). -/
def finishScalars (image : Word) (j : ReadJob) (s : State) : State :=
  let n := windowCount (wordAt j.got 5)
  if j.fault || !windowCountValid n then finishControl .refusedFormat s
  else { s with launch.intake := some (.setupWindows j.got (readJob (image + 24) (20 * n))) }

/-- The whole image has been read and is validated (R58, R59). -/
def finishWindows (scalars : List Byte) (j : ReadJob) (s : State) : State :=
  match setupOfImage scalars j.got, j.fault with
  | some r, false => finishControl .accepted { s with station.setup := some r }
  | _, _ => finishControl .refusedFormat s

/-- The job after a read of its flight. -/
def advanceJob (result : Completion) (sp : Span) (j : ReadJob) : ReadJob :=
  match result with
  | .ok data => { j with got := j.got ++ sp.slice data, flight := none }
  | .fault => { j with fault := true, flight := none }

/-- A read of the List Reader completes. -/
def listerTxnDone (result : Completion) (s : State) : State :=
  match s.launch.intake with
  | none => s
  | some i =>
    match (intakeJob i).flight with
    | none => s
    | some sp =>
      let j := advanceJob result sp (intakeJob i)
      let s := { s with launch.intake := some (withJob j i) }
      if jobOver (withJob j i) then
        match i with
        | .gather k o _ => finishGather k o j s
        | .setupScalars image _ => finishScalars image j s
        | .setupWindows scalars _ => finishWindows scalars j s
      else s

end Sys2Proof.Machine
end

