-- ==== Sys2Proof/Machine/Tenure.lean ====
section
/-! DEFINITION. The Bus Interface in a tenure: runs cut and completed, interjects, ends handed to the clients, frames sent
and received (01 sections 1.5 to 1.9, 02). -/

namespace Sys2Proof.Machine

/-! ## Ends of runs and of tenures (R8, R14, R37, R38) -/

/-- The complete mark of every inbound run: no further byte joins one (R99). -/
def endRuns (s : State) : State := { s with bus.runs := s.bus.runs.map fun r => { r with ended := true } }

/-- The beat-level state at the end of a run by break-off: captured beats and unsent bytes are discarded (R37, R38). -/
def clearBeats (s : State) : State :=
  { s with
    bus.capture := []
    bus.rx := []
    bus.tx := none
    bus.run := none
    bus.count := 0
    bus.outbound := []
    launch.outJob := none }

/-- The bytes taken of a run that is cut are handed to the Launch Engine as caller (R37, R107). -/
def handCutRun (s : State) : State :=
  match s.bus.run, s.bus.tenure with
  | some r, .caller c =>
    match c.grantee with
    | .launch t => launchRunEnd t (bytesOfBeats r.length r.taken) false s
    | .serve | .probe => s
  | _, _ => s

/-- The run in progress, if any, ends here; frames being sent or received are abandoned. -/
def cutRun (s : State) : State := clearBeats (endRuns (handCutRun s))

/-- The station leaves its tenure: every line but BRESET is released, the role is NONE, the tenure's timers stop. -/
def leaveTenure (s : State) : State :=
  releaseLines
    { cutRun s with
      bus.tenure := .none
      bus.callTimer := none
      bus.stallTimer := none
      bus.interjectTimer := none }

/-- The station is ISOLATED, and does not drive BRESET there (R20, R72). -/
def fallSilent (s : State) : State := changeState .isolated { s with bus.bresetDrive := none, bus.drive.breset := false }

/-- Entry into ISOLATED (R20, R71). -/
def enterIsolated (s : State) : State :=
  let s := { leaveTenure s with bus.contending := false }
  let s := (liveByAcc s).foldl (fun s t => complete t .isolated s) s
  let s := abandonFill { s with
    bus.runs := []
    serve.parkQueue := []
    serve.resume := none
    serve.service := none
    serve.reserved := false
    serve.verdictTimer := none }
  fallSilent s

/-- An address clash report is taken (R66). -/
def takeClash (s : State) : State :=
  match s.station.state with
  | .joining _ | .online | .draining => enterIsolated s
  | .offline | .isolated => s

/-- The end of a tenure is handed to the grantee; an answered PROBE ends in ISOLATED (R65). -/
def handCallerEnd (c : Caller) (s : State) : State :=
  match c.grantee with
  | .launch t => launchEnd t s
  | .serve => serveResumeEnd s
  | .probe => enterIsolated s

/-- A fault of the tenure is handed to the grantee. -/
def handCallerFault (c : Caller) (f : RetryFault) (s : State) : State :=
  match c.grantee with
  | .launch t => launchFault t f s
  | .serve => decideResume (.failed f) s
  | .probe => s

/-- The end of a tenure is handed to the owning client; a tenure without one is discarded (R14, R26). -/
def handCalleeEnd (c : Callee) (s : State) : State :=
  match c.owner with
  | some .serve => serviceEnd s
  | some (.launch (some t)) => resumeTenureEnd t s
  | some (.launch none) | some .controller | none => s

def endCaller (c : Caller) (s : State) : State := handCallerEnd c (leaveTenure s)

def endCallee (c : Callee) (s : State) : State := handCalleeEnd c (leaveTenure s)

/-- A callee that has closed normally hands its client the end of the tenure, now that BUSY is negated (R14, log 9). -/
def flushFinished (s : State) : State :=
  match s.bus.tenure with
  | .callee c => if c.finished then handCalleeEnd c { s with bus.tenure := .none } else s
  | .none | .caller _ => s

/-! ## Interject by the caller (R16, R27, R34) -/

/-- The caller asserts INTERJECT, unless it is asserted already. The beats of a frame partly received are dropped (log 36). -/
def interject (s : State) : State :=
  if s.bus.drive.interject then s
  else
    let s := cutRun s
    { s with
      bus.drive := { Drive.released with busy := true, interject := true, breset := s.bus.drive.breset }
      bus.stallTimer := none
      bus.interjectTimer := some interjectTime }

/-- A damaged or ill-fitting verdict taken whole (R27). -/
def damagedVerdict (c : Caller) (s : State) : State :=
  interject (handCallerFault c .check { s with bus.tenure := .caller { c with finished := true } })

/-- An overrun seen by this party (R34). -/
def overrun (s : State) : State :=
  match s.bus.tenure with
  | .caller c => interject (handCallerFault c .overrun s)
  | .callee c => endCallee c s
  | .none => s

/-! ## The stall timer (R15, R28, R35) -/

/-- Whether a run makes this party wait for the other. -/
def runWaits (s : State) (r : Run) : Bool :=
  if r.sending then s.bus.count != 0 else decide (s.bus.capture.length < paceWindow s (otherParty s))

/-- This party waits for something only the other can give; with neither a frame nor a run of its own, `otherwise` says
whether a frame is due. -/
def partyWaits (s : State) (otherwise : Bool) : Bool :=
  match s.bus.tx, s.bus.run with
  | some _, _ => true
  | none, some r => runWaits s r
  | none, none => otherwise

def stallWaits (s : State) : Bool :=
  match s.bus.tenure with
  | .none => false
  | .caller c => c.answered && !s.bus.drive.interject && partyWaits s true
  | .callee c => !c.finished && partyWaits s (!c.headReceived)

/-- The other party strobed or took a beat, or the turn has come to this party: the stall timer starts again from zero where it
is next due (R15, R35). -/
def restartStall (s : State) : State := { s with bus.stallTimer := none }

/-- The stall timer runs exactly while this party waits. -/
def updateStall (s : State) : State :=
  if stallWaits s then { s with bus.stallTimer := some (s.bus.stallTimer.getD stallTime) }
  else { s with bus.stallTimer := none }

/-! ## Runs (R30 to R35) -/

/-- The length of the run that this callee's PROCEED opens, and whether this station sends it. -/
def calleeRun (s : State) (c : Callee) : Option Run :=
  match c.owner with
  | some .serve =>
    match s.serve.service with
    | some v =>
      match v.work with
      | .fetch _ _ _ _ _ _ => some ⟨true, v.head.length.toNat, 0, 0⟩
      | .store _ _ _ _ _ | .note _ _ _ _ => some ⟨false, v.head.length.toNat, 0, 0⟩
      | .refused | .park | .swap _ _ _ => none
    | none => none
  | some (.launch (some t)) =>
    match liveOf s t with
    | some (_, .connResume _ r) => some ⟨false, r.chunkLength, 0, 0⟩
    | _ => none
  | some (.launch none) | some .controller | none => none

/-- A run of odd length has its single byte in the last beat (R30). -/
def oddFinal (r : Run) (k : Nat) : Bool := k + 1 == beatsOf r.length && r.length % 2 == 1

def appendLast (bytes : List Byte) : List InRun → List InRun
  | [] => []
  | [r] => [{ r with bytes := r.bytes ++ bytes, received := r.received + bytes.length }]
  | r :: r' :: rs => r :: appendLast bytes (r' :: rs)

/-- The verdict after the run of a chunk is given (R128). -/
def giveAfterChunk (t : Tag) (c : Callee) (s : State) : State :=
  match liveOf s t with
  | some (b, .connResume _ r) => giveVerdict ⟨(runEndVerdict b r).1, c.tag, c.gen, none, none⟩ (applyRunEnd t s)
  | _ => s

/-- The end of a received run is handed to the callee's client; ended short by a frame, it comes with a parity failure
(R37). -/
def handCalleeRunEnd (c : Callee) (short : Bool) (s : State) : State :=
  match c.owner with
  | some .serve => serveRunEnd short s
  | some (.launch (some t)) =>
    giveAfterChunk t c (if short then modifyResume t (fun r => { r with parityFail := true }) s else s)
  | some (.launch none) | some .controller | none => s

/-- The run is over at this party: the beat-level state of the run is empty (R38). -/
def closeRun (s : State) : State :=
  endRuns { s with bus.run := none, bus.capture := [], bus.count := 0 }

/-- The end of the run is handed at the caller, with the bytes taken (R37, R100, R101). -/
def callerRunEnd (c : Caller) (taken : Nat) (short : Bool) (s : State) : State :=
  let s := { closeRun s with bus.tenure := .caller { c with point := .second }, launch.outJob := none }
  match c.grantee with
  | .launch t => launchRunEnd t taken short s
  | .serve | .probe => s

/-- The run is complete at this party (R30). At the callee it is then this party's turn to send a verdict: its stall timer
stops, and starts from zero with the first beat of the verdict (R15, R35). A caller waits on for the verdict (R35). -/
def runComplete (r : Run) (s : State) : State :=
  match s.bus.tenure with
  | .caller c => callerRunEnd c r.length false s
  | .callee c =>
    handCalleeRunEnd c false (restartStall { closeRun s with bus.tenure := .callee { c with runDone := !r.sending } })
  | .none => s

/-- The client is handed a beat taken, with its parity result (R36). -/
def handBeat (n : Nat) (good : Bool) (s : State) : State :=
  match s.bus.tenure with
  | .caller c =>
    match c.grantee with
    | .launch t => if good then s else launchParityFail t s
    | .serve | .probe => s
  | .callee c =>
    match c.owner with
    | some .serve => modifyWork (workTake n good) s
    | some (.launch (some t)) => if good then s else launchParityFail t s
    | some (.launch none) | some .controller | none => s
  | .none => s

/-- The receiver takes the oldest captured beat, if the room allows (R32). -/
def takeCaptured (s : State) : State :=
  match s.bus.run, s.bus.capture with
  | some r, b :: rest =>
    let n := if oddFinal r r.taken then 1 else 2
    if r.sending || decide (room s < n) then s
    else
      let bytes := [lowByte b.d, highByte b.d].take n
      let r' := { r with taken := r.taken + 1 }
      let s := handBeat n b.good (giveTake
        { s with
          bus.capture := rest
          bus.count := s.bus.count - 1
          bus.run := some r'
          bus.runs := appendLast bytes s.bus.runs })
      if r'.taken = beatsOf r.length then runComplete r' s else s
  | _, _ => s

/-- The sender strobes its next data beat, if its bytes are present and the pace window allows (R31, R33). -/
def strobeNext (s : State) : State :=
  match s.bus.run with
  | some r =>
    let n := if oddFinal r r.moved then 1 else 2
    if r.sending && s.bus.tx.isNone && decide (r.moved < beatsOf r.length ∧ n ≤ s.bus.outbound.length ∧
        s.bus.count < paceWindow s (otherParty s)) then
      let low := s.bus.outbound.getD 0 0
      let high := if n = 2 then s.bus.outbound.getD 1 0 else 0
      strobe (high ++ low) false
        { s with bus.run := some { r with moved := r.moved + 1 }, bus.outbound := s.bus.outbound.drop n }
    else s
  | none => s

/-- A data beat of the run is latched: captured, or an overrun (R32, R34). -/
def captureBeat (r : Run) (d : Beat) (dp : BitVec 2) (s : State) : State :=
  if paceWindow s (otherParty s) ≤ s.bus.count ∨ beatsOf r.length ≤ r.moved then overrun s
  else
    let good := if oddFinal r r.moved then lowParityGood d dp else parityGood d dp
    { s with
      bus.capture := s.bus.capture ++ [⟨d, good⟩]
      bus.count := s.bus.count + 1
      bus.run := some { r with moved := r.moved + 1 } }

/-! ## Frames sent (R23, R26, R42, R93, R113) -/

/-- Head delivered is set for a SWAP (R93). -/
def markDelivered (t : Tag) (s : State) : State :=
  modifyBody t
    (fun b =>
      match b.work with
      | .swap ops _ done r => { b with work := .swap ops true done r }
      | .fetch _ | .store | .note _ => b) s

/-- The caller's head has been sent whole. -/
def headSent (c : Caller) (s : State) : State :=
  let next := { s with bus.tenure := .caller { c with point := .first } }
  match c.sent with
  | some (.openX h) => markDelivered h.tag next
  | some (.probe _ _) => endCaller { c with finished := true } s
  | some (.resume _) | some (.withdraw _) | none => next

/-- PARK sent whole adds the request to the park queue (R113). -/
def parkIfPark (k : VerdictKind) (s : State) : State :=
  match k, s.serve.service with
  | .park, some v => parkRequest v.head s
  | _, _ => s

/-- The callee's verdict has been sent whole: CLEARED for an interject ends the tenure, PROCEED opens the run, and every
other kind closes the course, after which ANSWER is negated (R8, R13, R17). -/
def verdictSent (c : Callee) (v : Verdict) (s : State) : State :=
  if c.clearing then endCallee c s
  else if v.kind = .proceed then { s with bus.run := calleeRun s c }
  else { leaveTenure (parkIfPark v.kind s) with bus.tenure := .callee { c with finished := true } }

def frameSent (f : Frame) (s : State) : State :=
  let s := releaseBeat { s with bus.tx := none, bus.count := 0 }
  match f, s.bus.tenure with
  | .verdict v, .callee c => verdictSent c v s
  | .head _, .caller c => headSent c s
  | _, _ => s

/-- Whether the caller of a head sends the run of its course. -/
def sendsRun : Head → Bool
  | .openX h => h.kind == .store || h.kind == .note
  | .resume _ => true
  | .withdraw _ | .probe _ _ => false

/-- A TAKE pulse after the last beat of the own run was taken, whether or not the course is finished (R34, log 13). -/
def strayTake (s : State) : Bool :=
  match s.bus.tenure with
  | .caller c => c.point == .second && c.sent.any sendsRun
  | .callee _ | .none => false

/-- A TAKE pulse is seen by a party of the tenure (R21, R33, R34). -/
def partyTake (s : State) : State :=
  match s.bus.tx, s.bus.run with
  | some x, _ =>
    let s := restartStall s
    match x.left with
    | d :: rest => strobe d true { s with bus.tx := some { x with left := rest }, bus.count := 0 }
    | [] => frameSent x.frame s
  | none, some r =>
    if !r.sending then s
    else if s.bus.count = 0 then overrun s
    else
      let r' := { r with taken := r.taken + 1 }
      let s := restartStall { s with bus.count := s.bus.count - 1, bus.run := some r' }
      if r'.taken = beatsOf r.length then runComplete r' (releaseBeat s) else s
  | none, none => if strayTake s then overrun s else s

/-! ## Verdicts taken at the caller (R39 to R43, R49) -/

/-- PROCEED for an OPEN: the run of the entry's length begins (R95, R96, R100, R101). -/
def startOpenRun (t : Tag) (s : State) : State :=
  match liveOf s t with
  | some (b, .connOpen offered r) =>
    let s := setLive t b (.connOpen offered { r with proceedTaken := true }) s
    if isFetch b then
      openRun (.mover (moverItem t b.segs none false)) b.length
        { s with bus.run := some ⟨false, b.length, 0, 0⟩ }
    else { s with launch.outJob := some (outJobOf t b), bus.run := some ⟨true, b.length, 0, 0⟩ }
  | _ => s

/-- PROCEED for a RESUME: the run of the chunk begins (R116). -/
def startChunkRun (c : Caller) (s : State) : State :=
  match c.sent with
  | some (.resume h) => { s with bus.run := some ⟨true, h.chunkLength.toNat, 0, 0⟩ }
  | _ => s

def handVerdict (c : Caller) (v : Verdict) (s : State) : State :=
  match c.grantee with
  | .launch t =>
    if v.kind = .proceed then startOpenRun t s else readWithdrawVerdict t v (readOpenVerdict t v s)
  | .serve =>
    if v.kind = .proceed then startChunkRun c s
    else
      match serveOutcomeOf v.kind with
      | some o => decideResume o s
      | none => s
  | .probe => s

/-- The terms of a first verdict are handed to the Terms Table before anything else (R39, R49). -/
def takeTermsOf (c : Caller) (v : Verdict) (s : State) : State :=
  match v.terms with
  | some t => agreeTerms c.called t s
  | none => s

/-- A verdict that fits the course is taken (R8, R39 to R41). -/
def takeVerdict (c : Caller) (v : Verdict) (s : State) : State :=
  let closing := v.kind != .proceed
  let c' := { c with finished := closing, point := if closing then c.point else .running }
  handVerdict c v { takeTermsOf c v s with bus.tenure := .caller c' }

/-- A verdict is due at this point of the course, and this one fits (R43). -/
def verdictExpected (c : Caller) (v : Verdict) : Bool :=
  match c.sent with
  | some h => !c.finished && (c.point == .first || c.point == .second) && verdictFits h (c.point == .first) false v
  | none => false

/-- A CLEARED that answers this caller's interject. -/
def clearedFits (c : Caller) (v : Verdict) : Bool := c.sent.any fun h => verdictFits h true true v

/-- The point of the course at which a verdict taken under INTERJECT is judged: the interject has ended the run (R37). -/
def interjectPoint (c : Caller) : Caller := { c with point := if c.point = .running then .second else c.point }

/-- A verdict that fits the course while INTERJECT is asserted: CLEARED, or one that was due (R43, log 30). -/
def fitsUnderInterject (c : Caller) (v : Verdict) : Bool := clearedFits c v || verdictExpected (interjectPoint c) v

/-- A verdict that fits is taken under INTERJECT. It is not handed, and CLEARED decides nothing (R16, R49, log 30); a kind that
closes the course sets course finished (R8), and after PROCEED the verdict after the run is due. -/
def takeUnderInterject (c : Caller) (v : Verdict) (s : State) : State :=
  let closing := v.kind != .proceed
  { s with
    bus.tenure := .caller { c with finished := c.finished || closing, point := if closing then c.point else .second } }

/-- A frame is complete at the caller: every verdict is checked against the course (R27, R43). -/
def callerFrame (c : Caller) (f : Option Frame) (s : State) : State :=
  match f with
  | some (.verdict v) =>
    if s.bus.drive.interject then
      if fitsUnderInterject c v then takeUnderInterject c v s else damagedVerdict c s
    else if verdictExpected c v then takeVerdict c v s
    else damagedVerdict c s
  | some (.head _) | none => damagedVerdict c s

/-! ## Heads taken at the callee (R26, R28, R29, R66) -/

/-- The BIF answers a damaged head itself with REFUSE(CHECK) (R26). -/
def damagedHead (c : Callee) (s : State) : State :=
  giveVerdict ⟨.refuse .check, 0, 0, none, none⟩ { s with bus.tenure := .callee { c with headReceived := true } }

/-- A RESUME head is handed to the Launch Engine (R124, R125). -/
def takeResume (c : Callee) (h : ResumeHead) (s : State) : State :=
  let a := resumeAnswer s h
  giveVerdict ⟨a.verdict, h.tag, h.gen, none, none⟩
    (applyResume h a { s with bus.tenure := .callee { c with owner := some (.launch (a.engaged h.tag)) } })

/-- An undamaged head is handed to its owning client (R28). -/
def handHead (c : Callee) (h : Head) (s : State) : State :=
  let c := { c with headReceived := true, tag := h.tag, gen := h.gen }
  match h with
  | .openX o => takeOpen o { s with bus.tenure := .callee { c with owner := some .serve } }
  | .withdraw w => takeWithdraw w { s with bus.tenure := .callee { c with owner := some .serve } }
  | .resume r => takeResume c r s
  | .probe _ _ => { s with bus.tenure := .callee { c with owner := some .controller } }

def takeHead (c : Callee) (f : Option Frame) (s : State) : State :=
  match f with
  | some (.head h) => if h.addressed s.station.strap c.caller then handHead c h s else damagedHead c s
  | some (.verdict _) | none => damagedHead c s

/-- The head is complete at the callee. A clash report and the handing of the head are taken in either order (R66, free
value, log 8). -/
def calleeHead (c : Callee) (f : Option Frame) (s : State) : State :=
  if showsClash s.station.strap f then
    if Config.clashReportFirst s.choices then takeClash { s with choices := s.choices + 1 }
    else takeClash (takeHead c f { s with choices := s.choices + 1 })
  else takeHead c f s

/-! ## Beats latched (R21, R23, R25, R29, R34, R37) -/

/-- The frame in the register is complete (R23). -/
def registerFull (rx : List Latched) : Bool :=
  match rx with
  | b :: _ => decide (frameBeats b.d ≤ rx.length)
  | [] => false

/-- A beat joins the frame register and, at a party of the tenure, is taken at once. -/
def register (d : Beat) (dp : BitVec 2) (s : State) : State := { s with bus.rx := s.bus.rx ++ [⟨d, parityGood d dp⟩] }

/-- The frame register is emptied; its frame is what the beats carry, or none if damaged. -/
def emptyRegister (s : State) : State := { s with bus.rx := [] }

/-- A frame beat at the caller. -/
def callerFrameBeat (c : Caller) (d : Beat) (dp : BitVec 2) (s : State) : State :=
  let s := giveTake (register d dp s)
  if registerFull s.bus.rx then callerFrame c (receiveFrame s.bus.rx) (emptyRegister s) else s

/-- A beat with MARK asserted where a data beat was expected ends the caller's received run short (R37), also at a full window;
the captured beats are dropped (log 37). -/
def callerMark (c : Caller) (d : Beat) (dp : BitVec 2) (s : State) : State :=
  match s.bus.run with
  | some r =>
    if r.sending then callerFrameBeat c d dp s
    else
      callerFrameBeat { c with point := .second } d dp (callerRunEnd c (bytesOfBeats r.length r.taken) true s)
  | none => callerFrameBeat c d dp s

/-- Whether a frame of the callee is due at the caller. -/
def frameDue (c : Caller) (s : State) : Bool :=
  !c.finished && s.bus.tx.isNone && (c.point == .first || c.point == .second)

/-- The run that this caller received has ended (R34), complete or short (log 40). -/
def receivedRun (c : Caller) : Bool := c.point == .second && !c.sent.any sendsRun

/-- A beat with MARK negated ends an incomplete frame, complete and damaged; it is taken and discarded (R23). -/
def cutFrame (c : Caller) (s : State) : State := damagedVerdict c (giveTake (emptyRegister s))

/-- A beat with MARK negated at the caller outside INTERJECT: the end of an incomplete frame, a beat of its run, an overrun
after its run, even with the course finished, or a beat in place of a frame that is due (R23, R34, log 12). A beat that ends an
incomplete frame after a received run fits R34 too; that R23 goes first is the model's choice (log 44). -/
def callerData (c : Caller) (d : Beat) (dp : BitVec 2) (s : State) : State :=
  if !s.bus.rx.isEmpty then cutFrame c s
  else
    match s.bus.run with
    | some r => if r.sending then s else captureBeat r d dp s
    | none =>
      if receivedRun c then overrun s
      else if frameDue c s then damagedVerdict c (giveTake s)
      else s

/-- A beat at the caller of an answered call. Under INTERJECT it takes frames alone; a beat with MARK negated ends one that is
incomplete (R16, R23, log 30). -/
def callerBeat (c : Caller) (d : Beat) (dp : BitVec 2) (mark : Bool) (s : State) : State :=
  if s.bus.drive.interject then
    if mark then callerFrameBeat c d dp s
    else if s.bus.rx.isEmpty then s
    else cutFrame c s
  else if mark then callerMark c d dp s
  else callerData c d dp s

/-- The head is being received: its beats, or a MARK-negated beat that ends it damaged (R23, R26), also before its first beat
(log 12). -/
def calleeHeadBeat (c : Callee) (d : Beat) (dp : BitVec 2) (mark : Bool) (s : State) : State :=
  let s := giveTake s
  if mark then
    let s := register d dp s
    if registerFull s.bus.rx then
      calleeHead c (receiveFrame s.bus.rx) { emptyRegister s with bus.observed := true }
    else s
  else damagedHead c { emptyRegister s with bus.observed := true }

/-- A run ended short by a frame of the caller (R37). -/
def calleeRunShort (c : Callee) (s : State) : State :=
  handCalleeRunEnd c true { closeRun (emptyRegister s) with bus.tenure := .callee { c with runDone := true } }

/-- A beat while the callee receives a run: data beats are captured; a frame is taken, discarded, and ends the run short
(R37). Its first beat drops the captured beats (log 37). A beat with MARK negated within that frame ends it under R23 and is
no overrun of R34, which is the model's choice (log 44). -/
def calleeRunBeat (c : Callee) (r : Run) (d : Beat) (dp : BitVec 2) (mark : Bool) (s : State) : State :=
  if mark then
    let s := giveTake (register d dp { s with bus.capture := [], bus.count := 0 })
    if registerFull s.bus.rx then calleeRunShort c s else s
  else if !s.bus.rx.isEmpty then calleeRunShort c (giveTake s)
  else captureBeat r d dp s

/-- A beat at the callee: of the head, of a run it receives, or an overrun after that run, complete or short (R34, log 40). A
beat after a run that it sent is neither latched nor taken (log 12). -/
def calleeBeat (c : Callee) (d : Beat) (dp : BitVec 2) (mark : Bool) (s : State) : State :=
  if c.clearing then s
  else if !c.headReceived then calleeHeadBeat c d dp mark s
  else
    match s.bus.run with
    | some r => if r.sending then s else calleeRunBeat c r d dp mark s
    | none => if c.runDone && !mark then overrun s else s

/-- A station that is neither caller nor callee observes the first frame after an answer; it takes nothing (R29). -/
def observeBeat (d : Beat) (dp : BitVec 2) (mark : Bool) (s : State) : State :=
  if s.bus.observed then s
  else if mark then
    let s := register d dp s
    if registerFull s.bus.rx then
      let f := receiveFrame s.bus.rx
      let s := { emptyRegister s with bus.observed := true }
      if showsClash s.station.strap f then takeClash s else s
    else s
  else if s.bus.rx.isEmpty then s
  else { emptyRegister s with bus.observed := true }

/-! ## The win and the grant (R5, R7, R9, R63, R88, R115) -/

/-- The call word is presented and the call timer started (R9). -/
def callPresented (g : Grantee) (called : Addr) (s : State) : State :=
  let d := callWord called s.station.strap
  { s with
    bus.tenure := .caller ⟨g, called, false, false, .head, none⟩
    bus.callTimer := some (callTime (setupOf s).callSelect)
    bus.drive := { s.bus.drive with d := d, dp := parityOf d, call := true } }

/-- The Launch Engine makes its choice and names the peer, or names none (R88). -/
def grantLaunch (s : State) : Option State :=
  match choice s with
  | none => none
  | some t =>
    match liveOf s t with
    | some (b, .withdrawing _) =>
      some (callPresented (.launch t) b.peer (dequeue t (setLive t b .callingWithdraw
        { s with bus.nextGrantee := .serve })))
    | some (b, _) =>
      some (callPresented (.launch t) b.peer (dequeue t (setLive t b .callingOpen
        { s with bus.nextGrantee := .serve })))
    | none => none

/-- The Serve Engine names the requester of its READY park-queue head, or names none (R115). -/
def grantServe (s : State) : Option State :=
  match s.serve.parkQueue with
  | e :: _ =>
    if headReady s then some (callPresented .serve e.requester { s with bus.nextGrantee := .launch }) else none
  | [] => none

/-- An empty tenure: BUSY is released without calling (R7). -/
def emptyTenure (s : State) : State :=
  releaseLines { s with bus.view := .settling, bus.idleTimer := some idleTime }

/-- The grant to one of the standing claims (R7). -/
def makeGrant (s : State) : State :=
  let claims := s.bus.claims
  if claims.probe then
    callPresented .probe s.station.strap { s with station.state := .joining .calling }
  else
    let launch := if claims.launch then grantLaunch s else none
    let serve := if claims.serve then grantServe s else none
    match launch, serve, s.bus.nextGrantee with
    | some s', none, _ => s'
    | none, some s', _ => s'
    | some s', some _, .launch => s'
    | some _, some s', .serve => s'
    | none, none, _ => emptyTenure s

/-- This station has won the window (R5, R6). The capture stage and the frame register are empty, and the count is 0, when its
tenure starts (R38). -/
def winWindow (s : State) : State :=
  makeGrant
    { s with
      bus.view := .active
      bus.capture := []
      bus.rx := []
      bus.count := 0
      bus.contending := false
      bus.spent := true
      bus.drive := { Drive.released with busy := true, breset := s.bus.drive.breset } }

/-- A window opens in this station's view; it joins if it contends (R4). -/
def contends (s : State) : Bool :=
  (s.bus.claims.launch || s.bus.claims.serve || s.bus.claims.probe) && roleOf s == .none &&
    (match s.station.state with
      | .joining _ | .online | .draining => true
      | .offline | .isolated => false)

/-- The own address line, D[n] for strap address n. -/
def addressLine (strap : Addr) : Beat := 1#16 <<< strap.toNat

def openWindow (s : State) : State :=
  let s := { s with bus.view := .window, bus.windowTimer := some windowTime, bus.idleTimer := none }
  if contends s then
    { s with
      bus.contending := true
      bus.drive.want := true
      bus.drive.d := if s.bus.spent then s.bus.drive.d else addressLine s.station.strap }
  else s

/-- WANT and the address line are released, and the window is left. -/
def leaveWindow (s : State) : State :=
  { s with bus.contending := false, bus.windowTimer := none, bus.drive.want := false, bus.drive.d := 0 }

/-- This station asserted its line, and that is the highest line asserted (R5). -/
def winsWindow (s : State) (d : Beat) : Bool :=
  s.bus.contending && s.bus.drive.d == addressLine s.station.strap && d >>> s.station.strap.toNat == 1 &&
    roleOf s == .none

/-- The window ends: `want` and `d` are the levels of the lines (R5, R6). -/
def endWindow (want : Bool) (d : Beat) (s : State) : State :=
  if !want then { leaveWindow s with bus.view := .idle }
  else if d = 0 then openWindow { leaveWindow s with bus.spent := false }
  else if winsWindow s d then winWindow (leaveWindow s)
  else { leaveWindow s with bus.view := .active, bus.observed := false, bus.rx := [] }

/-! ## The bus reset (R19, R53, R65, R121, R146, R161, R162) -/

/-- The status that a bus reset gives an entry in service; none if the entry is kept (R161, R162). -/
def resetStatus (b : Body) (p : Phase) : Option Status :=
  match p with
  | .queued | .held _ => none
  | .callingOpen | .callingWithdraw | .connWithdraw _ | .parked _ | .withdrawing _ => some .busReset
  | .connOpen _ r =>
    match replacedOutcome b r with
    | some (.final f) => some f.status
    | some .ok => if !isFetch b || r.drained then some .ok else some .busReset
    | some .park | some .requeue | some (.retry _) | none => some .busReset
  | .connResume _ r =>
    match resumeOutcome r with
    | some .remoteFault => some .remoteFault
    | some .localFault => some .localFault
    | some .cancelled => some .cancelled
    | some .accepted => if b.bytesDone = b.length ∧ r.drained then some .ok else some .busReset
    | some .resend | none => some .busReset

def resetEntry (s : State) (t : Tag) : State :=
  match liveOf s t with
  | some (b, p) =>
    match resetStatus b p with
    | some st => complete t st s
    | none => s
  | none => s

/-- The BIF's own part (R19). -/
def resetBif (s : State) : State :=
  { leaveTenure s with
    bus.view := .reset
    bus.idleTimer := none
    bus.windowTimer := none
    bus.bresetDetect := none
    bus.contending := false
    bus.spent := false
    bus.runs := []
    bus.observed := false }

/-- The Serve Engine's part (R121, R146). -/
def resetServe (s : State) : State :=
  abandonFill
    { s with
      serve.parkQueue := []
      serve.resume := none
      serve.service := none
      serve.reserved := false
      serve.verdictTimer := none }

/-- The Station Controller's part: in JOINING the probe is restarted (R65). -/
def resetStation (s : State) : State :=
  match s.station.state with
  | .joining _ => { s with station.state := .joining .waiting }
  | .offline | .online | .draining | .isolated => s

/-- The bus reset, handed to every block (R19). -/
def busResetSeen (s : State) : State :=
  let s := resetBif s
  let s := (liveByAcc s).foldl resetEntry s
  setNotice .busResetSeen (resetStation (resetServe (forgetTerms s)))

end Sys2Proof.Machine
end

