-- ==== Sys2Proof/Machine/Settle.lean ====
section
/-! DEFINITION. What follows at once from an event: bytes leave the transit buffer, services go on, clients present their
next transactions, the arbiter grants, the drain ends, the claims follow, the station contends. -/

namespace Sys2Proof.Machine

/-! ## Inbound runs (R31, R99, R101, R103) -/

/-- Whether the bytes of a run are removed without being used. -/
def discards : Sink → Bool
  | .mover i => i.discard || i.localFault
  | .store j => j.faulted
  | .note => false
  | .dropped => true

def discardBytes (r : InRun) : InRun := if discards r.sink then { r with bytes := [] } else r

/-- The run has ended, every byte of it was written or discarded, and its last write has completed (log 41). -/
def runGone (r : InRun) : Bool := r.ended && r.bytes.isEmpty && r.flight.isNone

def itemsOf : Sink → List MoverItem
  | .mover i => [i]
  | .store _ | .note | .dropped => []

/-- Removes the runs that are gone, and tells the items that left the data mover's list. Bytes are discarded at the head; a run
without bytes leaves at any place (R99). -/
def drainRuns : List InRun → List InRun × List MoverItem
  | [] => ([], [])
  | r :: rs =>
    if runGone (discardBytes r) then
      let rest := drainRuns rs
      (rest.1, itemsOf r.sink ++ rest.2)
    else (discardBytes r :: rs.filter fun q => !runGone q, (rs.filter runGone).flatMap fun q => itemsOf q.sink)

/-- The bytes of a NOTE at the head of the transit buffer join its payload (R142). -/
def feedNote (s : State) : State :=
  match s.bus.runs with
  | r :: rs =>
    if r.sink = .note then
      modifyWork
        (fun
          | .note place isRepeat parity payload => .note place isRepeat parity (payload ++ r.bytes)
          | w => w)
        { s with bus.runs := { r with bytes := [] } :: rs }
    else s
  | [] => s

/-- The items whose records are open, in increasing order of the acceptance numbers of their entries (R83). -/
def itemsByAcc (s : State) (is : List MoverItem) : List MoverItem :=
  (is.filter MoverItem.recordOpen).foldl (fun js i => insertByAcc (fun i => accOf s i.tag) i js) []

/-- Bytes leave the transit buffer; an item that leaves the list drains its run (R101), and the entries that this completes do so
in order of acceptance (R83). -/
def pump (s : State) : State :=
  let s := feedNote s
  let d := drainRuns s.bus.runs
  (itemsByAcc s d.2).foldl (fun s i => itemDrained i s) { s with bus.runs := d.1 }

/-! ## One pass over the blocks -/

/-- The Serve Engine goes on with what waits. -/
def serveProgress (s : State) : State := startFill (swapProgress (fetchProgress (storeProgress s)))

/-- Outbound bytes are placed (R31). -/
def placeOutbound (s : State) : State := placeChunk (placeFetch (placeOutJob s))

/-- Each client with nothing issued presents its next transaction (R175). -/
def presentAll (s : State) : State := presentLister (presentMover (presentServe s))

def pass (s : State) : State := presentAll (placeOutbound (serveProgress (pump s)))

/-! ## The station after an event -/

def nothingLive (s : State) : Bool := allTags.all fun t => (liveOf s t).isNone

/-- The drain condition (R69). -/
def drainCondition (s : State) : Bool := nothingLive s && s.serve.parkQueue.isEmpty

/-- In DRAINING, when the drain condition holds and the tenure role is NONE, the station becomes OFFLINE and forgets its terms
(R54, R69). -/
def drainToOffline (s : State) : State :=
  if s.station.state = .draining ∧ drainCondition s ∧ roleOf s = .none then
    changeState .offline (forgetTerms s)
  else s

/-- The standing claims follow the clients (R4, R63, R88, R115). -/
def updateClaims (s : State) : State :=
  { s with
    bus.claims :=
      { launch := (choice s).isSome
        serve := headReady s
        probe := s.station.state == .joining .waiting } }

/-- While its view is IDLE with no window open, a BIF that contends opens a window at once (R4). -/
def contendInIdle (s : State) : State := if s.bus.view = .idle ∧ contends s then openWindow s else s

/-- Everything that follows at once from an event. Three passes reach a rest: the first carries out what the event ended, the
next two what that set free. -/
def settle (s : State) : State :=
  updateStall (contendInIdle (updateClaims (drainToOffline (arbitrate (pass (pass (pass s)))))))

end Sys2Proof.Machine
end

