-- ==== Sys2Proof/Machine/BeatCommands.lean ====
section
/-! DEFINITION. The commands of beats: latched, taken and strobed (02). -/

namespace Sys2Proof.Machine

/-- A beat of another station is latched (R21). Whatever a party of the tenure does with it, the other party has strobed, and
the stall timer starts again (R15). -/
def latchBeat (d : Beat) (dp : BitVec 2) (mark : Bool) (s : State) : State :=
  match s.bus.tenure with
  | .none => observeBeat d dp mark s
  | .caller c => if c.answered then callerBeat c d dp mark (restartStall s) else s
  | .callee c => if c.finished then observeBeat d dp mark s else calleeBeat c d dp mark (restartStall s)

/-- BEAT_LATCHED (R21 to R43). -/
def execBeatLatched (d : Beat) (dp : BitVec 2) (mark : Bool) (s : State) : Host.Outcome State Fault Refusal :=
  .next (settle (latchBeat d dp mark s))

/-- A TAKE pulse concerns the parties of a tenure; a caller that interjects has abandoned what it sent (R16). -/
def seeTake (s : State) : State :=
  match s.bus.tenure with
  | .none => s
  | .caller c => if c.answered && !s.bus.drive.interject then partyTake s else s
  | .callee c => if c.finished then s else partyTake s

/-- TAKE_SEEN (R21, R23, R33, R34). -/
def execTakeSeen (s : State) : Host.Outcome State Fault Refusal := .next (settle (seeTake s))

/-- TAKE_DATA_BEAT (R32). -/
def execTakeDataBeat (s : State) : Host.Outcome State Fault Refusal := .next (settle (takeCaptured s))

/-- STROBE_BEAT (R31, R33). -/
def execStrobeBeat (s : State) : Host.Outcome State Fault Refusal := .next (settle (strobeNext s))

end Sys2Proof.Machine
end

