-- ==== Sys2Proof/Machine/MemoryCommands.lean ====
section
/-! DEFINITION. The commands by which local memory completes a transaction (10 section 10.7). -/

namespace Sys2Proof.Machine

/-- The data mover's read of the outbound job completes with FAULT: local fault, and an interject (R102). -/
def outReadFault (j : OutJob) (s : State) : State :=
  interject (modifyOpen j.tag (fun r => { r with localFault := true })
    { s with launch.outJob := some { j with flight := none, stopped := true } })

/-- A read of the outbound job completes; a read whose job has ended is disregarded (R100, R102). -/
def outReadDone (result : Completion) (s : State) : State :=
  match s.launch.outJob with
  | none => s
  | some j =>
    match j.flight, result with
    | none, _ => s
    | some sp, .ok data => { s with launch.outJob := some { j with held := j.held ++ sp.slice data, flight := none } }
    | some _, .fault => outReadFault j s

/-- A write of the first inbound item completes (R101, R103, R127). -/
def itemWriteDone (i : MoverItem) (r : InRun) (rs : List InRun) (n : Nat) (result : Completion) (s : State) : State :=
  match result with
  | .ok _ =>
    { s with bus.runs := { r with sink := .mover { i with written := i.written + n }, flight := none } :: rs }
  | .fault =>
    itemFault i { s with bus.runs := { r with sink := .mover { i with localFault := true }, flight := none } :: rs }

/-- A transaction of the data mover completes. -/
def moverTxnDone (result : Completion) (s : State) : State :=
  match s.bus.runs with
  | r :: rs =>
    match r.sink, r.flight with
    | .mover i, some n => itemWriteDone i r rs n result s
    | _, _ => outReadDone result s
  | [] => outReadDone result s

/-- The completed transaction is handed back to its client (R178). -/
def clientDone (c : Client) (result : Completion) (s : State) : State :=
  match c with
  | .serve => serveTxnDone result s
  | .mover => moverTxnDone result s
  | .lister => listerTxnDone result s

/-- The transaction granted, if any. -/
def grantedTxn (s : State) : Option (Client × Txn) :=
  match s.mem.granted with
  | some c => (txnOf s c).map fun x => (c, x)
  | none => none

/-- MEMORY_TRANSACTION_COMPLETE (R174 to R178). A completion that does not fit the transaction granted cannot occur (log 28).
-/
def execMemoryTransactionComplete (result : Completion) (s : State) : Host.Outcome State Fault Refusal :=
  match grantedTxn s with
  | some (c, x) =>
    if x.isPair || !completionFits x result then .next s
    else .next (settle (clientDone c result (releasePort c s)))
  | none => .next s

/-- LOCKED_PAIR_COMPLETE (R143, R144, R177). -/
def execLockedPairComplete (read : Option Word) (writeOk : Bool) (s : State) : Host.Outcome State Fault Refusal :=
  match grantedTxn s with
  | some (.serve, ⟨_, _, .pair compare _⟩) =>
    .next (settle (pairDone (pairResult compare read writeOk) (releasePort .serve s)))
  | _ => .next s

end Sys2Proof.Machine
end

