-- ==== Sys2Proof/Machine/OrderCommands.lean ====
section
/-! DEFINITION. The commands that take the order at the head of the Order FIFO (05 section 5.2, R61). -/

namespace Sys2Proof.Machine

/-- FETCH (R77 to R81). -/
def execFetch (s : State) : Host.Outcome State Fault Refusal := .next (settle (takeDataOrder .fetch s))

/-- STORE (R77 to R81). -/
def execStore (s : State) : Host.Outcome State Fault Refusal := .next (settle (takeDataOrder .store s))

/-- NOTE (R77 to R81). -/
def execNote (s : State) : Host.Outcome State Fault Refusal := .next (settle (takeDataOrder .note s))

/-- SWAP (R77 to R79, R81). -/
def execSwap (s : State) : Host.Outcome State Fault Refusal := .next (settle (takeDataOrder .swap s))

/-- SETUP (R59, R61, R77). -/
def execSetup (s : State) : Host.Outcome State Fault Refusal := .next (settle (takeSetup s))

/-- JOIN (R61, R63, R77). -/
def execJoin (s : State) : Host.Outcome State Fault Refusal := .next (settle (takeJoin s))

/-- LEAVE (R61, R68, R69, R77). -/
def execLeave (s : State) : Host.Outcome State Fault Refusal := .next (settle (takeLeave s))

/-- UNASSIGNED_ORDER (R77). -/
def execUnassignedOrder (s : State) : Host.Outcome State Fault Refusal := .next (settle (takeUnassigned s))

end Sys2Proof.Machine
end

