-- ==== Sys2Proof/Machine/PortCommands.lean ====
section
/-! DEFINITION. The commands by which the local controller accesses the Local Port (10 sections 10.1 to 10.6). -/

namespace Sys2Proof.Machine

/-- The commit of an order: it joins the Order FIFO, or is discarded with ORDER_REFUSED (R165). -/
def commitOrder (o : Order) (s : State) : State :=
  let s := { s with port.assembly := [] }
  if s.port.fifo.length < 8 then { s with port.fifo := s.port.fifo ++ [o] } else setNotice .orderRefused s

/-- ORDER_WRITE (R165). -/
def execOrderWrite (w : Word) (s : State) : Host.Outcome State Fault Refusal :=
  if s.port.assembly.length < 7 then .next { s with port.assembly := s.port.assembly ++ [w] }
  else .next (commitOrder (orderOfWords (s.port.assembly ++ [w])) s)

/-- URGENT_WRITE (R167). -/
def execUrgentWrite (w : Word) (s : State) : Host.Outcome State Fault Refusal :=
  match s.port.urgent with
  | .empty => .next { s with port.urgent := .one w }
  | .one w0 => .next { s with port.urgent := .occupied w0 w }
  | .occupied _ _ => .next (setNotice .urgentRefused s)

/-- The entry whose report has been read becomes FREE; its generation is kept (R84). -/
def releaseTag (t : Tag) (s : State) : State := setEntry t ⟨genOf s t, .free⟩ s

/-- REPORT_READ (R84, R168). -/
def execReportRead (s : State) : Host.Outcome State Fault Refusal :=
  match s.port.reports with
  | [] => .next { s with port.readData := 0 }
  | r :: rs =>
    let word := reportWord r s.port.reportPos
    if s.port.reportPos < 3 then .next { s with port.readData := word, port.reportPos := s.port.reportPos + 1 }
    else .next (releaseTag r.tag { s with port.readData := word, port.reportPos := 0, port.reports := rs })

/-- INBOX_READ (R169). -/
def execInboxRead (s : State) : Host.Outcome State Fault Refusal :=
  match s.port.inbox with
  | [] => .next { s with port.readData := 0 }
  | a :: rest =>
    let word := arrivalWord a s.port.inboxPos
    if s.port.inboxPos + 1 < arrivalWords a.payload.length then
      .next { s with port.readData := word, port.inboxPos := s.port.inboxPos + 1 }
    else .next { s with port.readData := word, port.inboxPos := 0, port.inbox := rest }

/-- NOTICE_WRITE (R171). -/
def execNoticeWrite (w : Word) (s : State) : Host.Outcome State Fault Refusal :=
  .next { s with port.notice := clearNotices w s.port.notice }

/-- NOTICE_MASK_WRITE (R172, R184). -/
def execNoticeMaskWrite (w : Word) (s : State) : Host.Outcome State Fault Refusal :=
  .next { s with port.mask := w.extractLsb' 0 6 }

/-- IGNORED_WRITE (R164, R184). -/
def execIgnoredWrite (_offset : BitVec 5) (_w : Word) (s : State) : Host.Outcome State Fault Refusal := .next s

end Sys2Proof.Machine
end

