-- ==== Sys2Proof/Machine/ResetCommands.lean ====
section
/-! DEFINITION. The commands of device reset and bus reset (R18, R19, R73). -/

namespace Sys2Proof.Machine

/-- The state after device reset with the strap pins sampled. The queue of commands and the count of free choices are the
model's, and stay (R57, R73). -/
def afterReset (strap : Addr) (s : State) : State :=
  { State.reset with station.strap := strap, choices := s.choices, pending := s.pending }

/-- DEVICE_RESET (R73). -/
def execDeviceReset (strap : Addr) (s : State) : Host.Outcome State Fault Refusal := .next (afterReset strap s)

/-- BRESET_SEEN_ASSERTED (R19): the detect timer starts at the first sight of one continuous assertion. -/
def execBresetSeenAsserted (s : State) : Host.Outcome State Fault Refusal :=
  if s.bus.bresetSeen then .next s
  else .next { s with bus.bresetSeen := true, bus.bresetDetect := some bresetDetectTime }

/-- BRESET_DETECT_TIMER_EXPIRY (R19): a bus reset has occurred. -/
def execBresetDetectTimerExpiry (s : State) : Host.Outcome State Fault Refusal :=
  match s.bus.bresetDetect with
  | some _ => .next (settle (busResetSeen s))
  | none => .next s

/-- The view after BRESET is negated (R3, R19). -/
def leaveReset (s : State) : State :=
  if s.bus.view = .reset then { s with bus.view := .settling, bus.idleTimer := some idleTime } else s

/-- BRESET_NEGATED (R3, R19). The line reads asserted while this station drives it (R1). -/
def execBresetNegated (s : State) : Host.Outcome State Fault Refusal :=
  if s.bus.drive.breset then .next s
  else .next (leaveReset { s with bus.bresetSeen := false, bus.bresetDetect := none })

/-- BRESET_DRIVE_TIMER_EXPIRY (R18). -/
def execBresetDriveTimerExpiry (s : State) : Host.Outcome State Fault Refusal :=
  match s.bus.bresetDrive with
  | some _ => .next { s with bus.bresetDrive := none, bus.drive.breset := false }
  | none => .next s

end Sys2Proof.Machine
end

