-- ==== Sys2Proof/Machine/ViewCommands.lean ====
section
/-! DEFINITION. The commands of the bus view and of arbitration (01 sections 1.3 and 1.4). -/

namespace Sys2Proof.Machine

/-- The view is ACTIVE or SETTLING: the idle timer is in force (R3). -/
def watchesIdle (s : State) : Bool := s.bus.view == .active || s.bus.view == .settling

/-- This station asserts none of BUSY, CALL and WANT. -/
def quietHere (s : State) : Bool := !s.bus.drive.busy && !s.bus.drive.call && !s.bus.drive.want

/-- Outside a tenure of this station, the next frame seen may be the first of a tenure to observe (R29, log 27). -/
def armObserver (s : State) : State :=
  if roleOf s = .none then { s with bus.observed := false, bus.rx := [] } else s

/-- IDLE_TIMER_EXPIRY (R3, R4): the view becomes IDLE and a window opens. -/
def execIdleTimerExpiry (s : State) : Host.Outcome State Fault Refusal :=
  if watchesIdle s && quietHere s then .next (settle (openWindow (updateClaims (flushFinished s)))) else .next s

/-- WANT_SEEN_IN_IDLE (R4): a window opens. -/
def execWantSeenInIdle (s : State) : Host.Outcome State Fault Refusal :=
  if s.bus.view = .idle then .next (settle (openWindow s)) else .next s

/-- BUSY_OR_CALL_SEEN_IN_IDLE (R3). -/
def execBusyOrCallSeenInIdle (s : State) : Host.Outcome State Fault Refusal :=
  if s.bus.view = .idle then .next (armObserver { s with bus.view := .active, bus.idleTimer := none }) else .next s

/-- The view leaves ACTIVE, and the idle timer starts (R3). -/
def leaveActive (s : State) : State :=
  if s.bus.view = .active then { s with bus.view := .settling, bus.idleTimer := some idleTime } else s

/-- BUSY_NEGATED_SEEN (R3), CALL being negated too; a callee that has closed hands its client the end (R14). -/
def execBusyNegatedSeen (s : State) : Host.Outcome State Fault Refusal :=
  if s.bus.drive.busy || s.bus.drive.call then .next s
  else .next (settle (leaveActive (armObserver (flushFinished s))))

/-- WINDOW_TIMER_EXPIRY (R5 to R7, R9): the lines are those that other stations drive, wired with this station's own (R1). -/
def execWindowTimerExpiry (want : Bool) (d : Beat) (s : State) : Host.Outcome State Fault Refusal :=
  if s.bus.view = .window then
    .next (settle (endWindow (want || s.bus.drive.want) (d ||| s.bus.drive.d) (updateClaims (flushFinished s))))
  else .next s

/-- IDLE_TIMER_RESTARTED (R3). -/
def execIdleTimerRestarted (s : State) : Host.Outcome State Fault Refusal :=
  if watchesIdle s then .next { s with bus.idleTimer := some idleTime } else .next s

end Sys2Proof.Machine
end

