-- ==== Sys2Proof/Machine/TenureCommands.lean ====
section
/-! DEFINITION. The commands of calling, closing, stall and interject (01 sections 1.5 to 1.7). -/

namespace Sys2Proof.Machine

/-! ## The call at the callee (R10) -/

/-- The state in which calls are answered. -/
def answersCalls : StationState → Bool
  | .online | .draining => true
  | .offline | .joining _ | .isolated => false

/-- Whether this station answers the call word it sees (R10). -/
def answersCall (word : Beat) (dp : BitVec 2) (s : State) : Bool :=
  parityGood word dp && callWordCallee word == s.station.strap && roleOf s == .none && answersCalls s.station.state

/-- The role CALLEE begins: ANSWER asserted, head not received, stall timer started (R10, R38). -/
def answerCall (word : Beat) (s : State) : State :=
  { s with
    bus.tenure := .callee ⟨callWordCaller word, false, false, none, 0, 0, false, false⟩
    bus.drive.answer := true
    bus.stallTimer := some stallTime
    bus.capture := []
    bus.rx := []
    bus.tx := none
    bus.run := none
    bus.count := 0
    bus.observed := false }

/-- CALL is seen asserted: in IDLE the view becomes ACTIVE (R3, log 26). -/
def seeCall (s : State) : State :=
  armObserver (if s.bus.view = .idle then { s with bus.view := .active, bus.idleTimer := none } else s)

/-- CALL_SEEN (R10). -/
def execCallSeen (word : Beat) (dp : BitVec 2) (s : State) : Host.Outcome State Fault Refusal :=
  let s := seeCall (flushFinished s)
  if answersCall word dp s then .next (settle (answerCall word s)) else .next (settle s)

/-! ## The answer at the caller (R11, R92, R115, R116, R155) -/

/-- The caller stops the call timer, negates CALL, releases D and DP and starts its stall timer (R11). -/
def callAnswered (c : Caller) (s : State) : State :=
  { s with
    bus.tenure := .caller { c with answered := true }
    bus.callTimer := none
    bus.stallTimer := some stallTime
    bus.drive.call := false
    bus.drive.d := 0
    bus.drive.dp := 0 }

/-- The grantee supplies its head, and the BIF sends it (R11). -/
def giveHead (h : Head) (s : State) : State :=
  match s.bus.tenure with
  | .caller c => sendFrame (.head h) { s with bus.tenure := .caller { c with sent := some h } }
  | .none | .callee _ => s

/-- The Launch Engine is handed the answer: the OPEN or the WITHDRAW head, or a release without a head for a cancelled entry
(R11, R46, R92, R149, R155). -/
def launchAnswered (c : Caller) (t : Tag) (s : State) : State :=
  match liveOf s t with
  | some (b, .callingOpen) =>
    if b.cancel then endCaller { c with finished := true } s
    else
      let offered := (termsOf s b.peer).isNone
      let b := { b with bytesDone := 0 }
      giveHead (.openX (openHead s.station.strap t (genOf s t) b (if offered then some (ownTerms s) else none)))
        (setLive t b (.connOpen offered OpenRecord.fresh) s)
  | some (b, .callingWithdraw) =>
    giveHead (.withdraw ⟨s.station.strap, b.peer, t, genOf s t⟩) (setLive t b (.connWithdraw none) s)
  | _ => s

/-- The Serve Engine is handed the answer: a fresh resume record and the RESUME head (R115, R116). -/
def serveAnswered (s : State) : State :=
  match s.serve.parkQueue with
  | e :: _ =>
    giveHead (.resume (resumeHead s.station.strap e)) { s with serve.resume := some ⟨none, 0⟩ }
  | [] => s

/-- The call is answered, and the answer is handed to the grantee (R11). -/
def takeAnswer (c : Caller) (s : State) : State :=
  let s := callAnswered c s
  let c := { c with answered := true }
  match c.grantee with
  | .launch t => launchAnswered c t s
  | .serve => serveAnswered s
  | .probe => giveHead (.probe s.station.strap s.station.strap) s

/-- ANSWER_SEEN (R11); outside a tenure of its own the station observes the frame that follows (R29). -/
def execAnswerSeen (s : State) : Host.Outcome State Fault Refusal :=
  match s.bus.tenure with
  | .caller c => if c.answered || s.bus.callTimer.isNone then .next s else .next (settle (takeAnswer c s))
  | .none | .callee _ => .next (armObserver s)

/-! ## The call timeout (R12, R64) -/

/-- CALL_TIMEOUT is handed to the grantee (R12). -/
def handCallTimeout (c : Caller) (s : State) : State :=
  match c.grantee with
  | .launch t => launchCallTimeout t s
  | .serve => chargeHead s
  | .probe => changeState .online s

/-- CALL_TIMER_EXPIRY (R12). -/
def execCallTimerExpiry (s : State) : Host.Outcome State Fault Refusal :=
  match s.bus.tenure, s.bus.callTimer with
  | .caller c, some _ =>
    if c.answered then .next s
    else .next (settle (handCallTimeout c { leaveTenure s with bus.view := .settling, bus.idleTimer := some idleTime }))
  | _, _ => .next s

/-! ## Closing (R13, R14) -/

/-- ANSWER_NEGATED_SEEN (R13): a normal close or the end of an interject, or the loss of the tenure. -/
def execAnswerNegatedSeen (s : State) : Host.Outcome State Fault Refusal :=
  match s.bus.tenure with
  | .caller c =>
    if !c.answered then .next s
    else if c.finished || s.bus.drive.interject then .next (settle (endCaller c s))
    else .next (settle (endCaller c (handCallerFault c .stall s)))
  | .none | .callee _ => .next s

/-- BUSY_NEGATED_AT_CALLEE (R14). -/
def execBusyNegatedAtCallee (s : State) : Host.Outcome State Fault Refusal :=
  match s.bus.tenure with
  | .callee c => .next (settle (endCallee c s))
  | .none | .caller _ => .next s

/-! ## Stall and interject (R15 to R17) -/

/-- STALL_TIMER_EXPIRY (R15): a caller interjects and hands STALL, a callee leaves the tenure. -/
def execStallTimerExpiry (s : State) : Host.Outcome State Fault Refusal :=
  match s.bus.stallTimer, s.bus.tenure with
  | some _, .caller c => .next (settle (interject (handCallerFault c .stall { s with bus.stallTimer := none })))
  | some _, .callee c => .next (settle (endCallee c s))
  | _, _ => .next s

/-- INTERJECT_TIMER_EXPIRY (R16). -/
def execInterjectTimerExpiry (s : State) : Host.Outcome State Fault Refusal :=
  match s.bus.interjectTimer, s.bus.tenure with
  | some _, .caller c => .next (settle (endCaller c s))
  | _, _ => .next s

/-- A verdict after the run that is abandoned under an interject leaves the outcome absent; that of a FAULT chunk stands
(R126, R129, log 21). -/
def abandonVerdict (c : Callee) (s : State) : State :=
  match c.owner with
  | some (.launch (some t)) =>
    modifyResume t (fun r => if r.outcome = some .remoteFault then r else { r with outcome := none }) s
  | some (.launch none) | some .serve | some .controller | none => s

/-- The callee stops sending; with a whole head it sends CLEARED, otherwise it leaves the tenure (R17). It does so after a PROBE
head too, with tag 0 and generation 0 (log 39). -/
def answerInterject (c : Callee) (s : State) : State :=
  let s := if s.bus.tx.isSome then abandonVerdict c s else s
  if c.headReceived then
    let s := { cutRun s with serve.verdictTimer := none }
    sendFrame (.verdict ⟨.cleared, c.tag, c.gen, none, none⟩)
      (restartStall
        { s with
          bus.tenure := .callee { c with clearing := true }
          bus.drive := { Drive.released with answer := true, breset := s.bus.drive.breset } })
  else leaveTenure s

/-- INTERJECT_SEEN (R17). -/
def execInterjectSeen (s : State) : Host.Outcome State Fault Refusal :=
  match activeCallee s with
  | some c => .next (settle (answerInterject c s))
  | none => .next s

end Sys2Proof.Machine
end

