-- ==== Sys2Proof/Machine/TimerCommands.lean ====
section
/-! DEFINITION. The commands of the exchange timers, and the passing of time (R106, R123, R138, R144, R156). -/

namespace Sys2Proof.Machine

/-- The hold-off of an entry ends: HELD becomes QUEUED, a WITHDRAWING entry may be chosen (R106, R156). -/
def endHoldOff (t : Tag) (s : State) : State :=
  match liveOf s t with
  | some (b, .held _) => setLive t b .queued s
  | some (b, .withdrawing (some _)) => setLive t b (.withdrawing none) s
  | _ => s

/-- HOLD_OFF_EXPIRY (R106, R156). -/
def execHoldOffExpiry (t : Tag) (s : State) : Host.Outcome State Fault Refusal := .next (settle (endHoldOff t s))

/-- The park timer of an entry expires: WITHDRAWING (R123). -/
def endPark (t : Tag) (s : State) : State :=
  match liveOf s t with
  | some (b, .parked _) => withdraw t b s
  | _ => s

/-- PARK_TIMER_EXPIRY (R123). -/
def execParkTimerExpiry (t : Tag) (s : State) : Host.Outcome State Fault Refusal := .next (settle (endPark t s))

/-- VERDICT_TIMER_EXPIRY (R138, R144). -/
def execVerdictTimerExpiry (s : State) : Host.Outcome State Fault Refusal :=
  match s.serve.verdictTimer with
  | some _ => .next (settle (verdictExpiry { s with serve.verdictTimer := none }))
  | none => .next s

/-! ## Half a microsecond passes (log 2) -/

def tickTimer (t : Timer) : Timer := t.map fun n => n - 1

def tickPhase : Phase → Phase
  | .held n => .held (n - 1)
  | .parked n => .parked (n - 1)
  | .withdrawing h => .withdrawing (tickTimer h)
  | .queued => .queued
  | .callingOpen => .callingOpen
  | .callingWithdraw => .callingWithdraw
  | .connOpen o r => .connOpen o r
  | .connWithdraw o => .connWithdraw o
  | .connResume n r => .connResume n r

def tickEntry (e : Entry) : Entry :=
  match e.slot with
  | .live b p => { e with slot := .live b (tickPhase p) }
  | .free | .reported _ _ => e

/-- Every running timer loses half a microsecond; none is acted on, since its expiry is a command (log 2, log 3). -/
def tick (s : State) : State :=
  { s with
    bus.idleTimer := tickTimer s.bus.idleTimer
    bus.windowTimer := tickTimer s.bus.windowTimer
    bus.callTimer := tickTimer s.bus.callTimer
    bus.stallTimer := tickTimer s.bus.stallTimer
    bus.interjectTimer := tickTimer s.bus.interjectTimer
    bus.bresetDrive := tickTimer s.bus.bresetDrive
    bus.bresetDetect := tickTimer s.bus.bresetDetect
    serve.verdictTimer := tickTimer s.serve.verdictTimer
    launch.entries := s.launch.entries.map tickEntry }

end Sys2Proof.Machine
end

