-- ==== Sys2Proof/Machine/UrgentCommands.lean ====
section
/-! DEFINITION. The commands that take the record in the urgent slot (09 sections 9.1, 9.2, 9.5). -/

namespace Sys2Proof.Machine

/-- The record in the urgent slot, once complete (R167). -/
def urgentRecord (s : State) : Option UrgentKind :=
  match s.port.urgent with
  | .occupied w0 w1 => some (urgentKind w0 w1)
  | .one _ | .empty => none

/-- Taking the record empties the slot and writes the last control result (R147). -/
def takeUrgent (r : ControlResult) (s : State) : State := setResult r { s with port.urgent := .empty }

/-- The course of the tenure that this station holds as caller for an entry is not finished (R150). -/
def openUnfinished (s : State) (t : Tag) : Bool :=
  match s.bus.tenure with
  | .caller c => c.grantee == .launch t && !c.finished
  | .none | .callee _ => false

/-- What a CANCEL does to an entry in service, by its state (R148 to R153). -/
def cancelEntry (t : Tag) (b : Body) (p : Phase) (s : State) : State :=
  let c := { b with cancel := true }
  match p with
  | .queued | .held _ => completeCancelledAtZero t s
  | .connOpen _ _ => if openUnfinished s t then interject (setLive t c p s) else setLive t c p s
  | .parked _ => withdraw t c s
  | .callingOpen | .callingWithdraw | .connWithdraw _ | .connResume _ _ | .withdrawing _ => setLive t c p s

/-- A CANCEL that names a tag (R147). -/
def cancelTag (t : Tag) (s : State) : State :=
  match liveOf s t with
  | some (b, p) => cancelEntry t b p (takeUrgent .accepted s)
  | none => takeUrgent .refusedState s

/-- CANCEL (R147 to R153). -/
def execCancel (s : State) : Host.Outcome State Fault Refusal :=
  match urgentRecord s with
  | some (.cancel n) =>
    if 31 < n.toNat then .next (takeUrgent .refusedFormat s) else .next (settle (cancelTag (n.setWidth 5) s))
  | some .busReset | some .unassigned | none => .next s

/-- The states in which a BUS_RESET order is taken (R18, R147). -/
def drivesReset : StationState → Bool
  | .online | .draining => true
  | .offline | .joining _ | .isolated => false

/-- BUS_RESET (R18, R147, R160). -/
def execBusReset (s : State) : Host.Outcome State Fault Refusal :=
  match urgentRecord s with
  | some .busReset =>
    if drivesReset s.station.state then
      .next (takeUrgent .accepted { s with bus.drive.breset := true, bus.bresetDrive := some bresetDriveTime })
    else .next (takeUrgent .refusedState s)
  | some (.cancel _) | some .unassigned | none => .next s

/-- UNASSIGNED_URGENT (R147). -/
def execUnassignedUrgent (s : State) : Host.Outcome State Fault Refusal :=
  match urgentRecord s with
  | some .unassigned => .next (takeUrgent .refusedFormat s)
  | some (.cancel _) | some .busReset | none => .next s

end Sys2Proof.Machine
end

