-- ==== Sys2Proof/Machine/Dispatch.lean ====
section
/-! DEFINITION. The meaning of every command: one arm for each. -/

namespace Sys2Proof.Machine

def exec (i : Instr) (s : State) : Host.Outcome State Fault Refusal :=
  match i with
  | .deviceReset strap => Sys2Proof.Machine.execDeviceReset strap s
  | .idleTimerExpiry => Sys2Proof.Machine.execIdleTimerExpiry s
  | .wantSeenInIdle => Sys2Proof.Machine.execWantSeenInIdle s
  | .busyOrCallSeenInIdle => Sys2Proof.Machine.execBusyOrCallSeenInIdle s
  | .busyNegatedSeen => Sys2Proof.Machine.execBusyNegatedSeen s
  | .windowTimerExpiry want d => Sys2Proof.Machine.execWindowTimerExpiry want d s
  | .callSeen word dp => Sys2Proof.Machine.execCallSeen word dp s
  | .answerSeen => Sys2Proof.Machine.execAnswerSeen s
  | .callTimerExpiry => Sys2Proof.Machine.execCallTimerExpiry s
  | .answerNegatedSeen => Sys2Proof.Machine.execAnswerNegatedSeen s
  | .busyNegatedAtCallee => Sys2Proof.Machine.execBusyNegatedAtCallee s
  | .stallTimerExpiry => Sys2Proof.Machine.execStallTimerExpiry s
  | .interjectTimerExpiry => Sys2Proof.Machine.execInterjectTimerExpiry s
  | .interjectSeen => Sys2Proof.Machine.execInterjectSeen s
  | .beatLatched d dp mark => Sys2Proof.Machine.execBeatLatched d dp mark s
  | .takeSeen => Sys2Proof.Machine.execTakeSeen s
  | .takeDataBeat => Sys2Proof.Machine.execTakeDataBeat s
  | .strobeBeat => Sys2Proof.Machine.execStrobeBeat s
  | .bresetDetectTimerExpiry => Sys2Proof.Machine.execBresetDetectTimerExpiry s
  | .bresetNegated => Sys2Proof.Machine.execBresetNegated s
  | .bresetDriveTimerExpiry => Sys2Proof.Machine.execBresetDriveTimerExpiry s
  | .orderWrite w => Sys2Proof.Machine.execOrderWrite w s
  | .fetch => Sys2Proof.Machine.execFetch s
  | .store => Sys2Proof.Machine.execStore s
  | .note => Sys2Proof.Machine.execNote s
  | .swap => Sys2Proof.Machine.execSwap s
  | .setup => Sys2Proof.Machine.execSetup s
  | .join => Sys2Proof.Machine.execJoin s
  | .leave => Sys2Proof.Machine.execLeave s
  | .unassignedOrder => Sys2Proof.Machine.execUnassignedOrder s
  | .urgentWrite w => Sys2Proof.Machine.execUrgentWrite w s
  | .cancel => Sys2Proof.Machine.execCancel s
  | .busReset => Sys2Proof.Machine.execBusReset s
  | .unassignedUrgent => Sys2Proof.Machine.execUnassignedUrgent s
  | .holdOffExpiry t => Sys2Proof.Machine.execHoldOffExpiry t s
  | .parkTimerExpiry t => Sys2Proof.Machine.execParkTimerExpiry t s
  | .verdictTimerExpiry => Sys2Proof.Machine.execVerdictTimerExpiry s
  | .memoryTransactionComplete result => Sys2Proof.Machine.execMemoryTransactionComplete result s
  | .lockedPairComplete read writeOk => Sys2Proof.Machine.execLockedPairComplete read writeOk s
  | .reportRead => Sys2Proof.Machine.execReportRead s
  | .inboxRead => Sys2Proof.Machine.execInboxRead s
  | .noticeWrite w => Sys2Proof.Machine.execNoticeWrite w s
  | .noticeMaskWrite w => Sys2Proof.Machine.execNoticeMaskWrite w s
  | .ignoredWrite offset w => Sys2Proof.Machine.execIgnoredWrite offset w s
  | .bresetSeenAsserted => Sys2Proof.Machine.execBresetSeenAsserted s
  | .idleTimerRestarted => Sys2Proof.Machine.execIdleTimerRestarted s

end Sys2Proof.Machine
end

