-- ==== Sys2Proof/Machine/Step.lean ====
section
/-! DEFINITION. One step: the command at the front of the queue, or half a microsecond on an empty queue. -/

namespace Sys2Proof.Machine

/-- Takes the command at the front and runs it on the state with the queue's rest; on an empty queue time passes (log 2). -/
def step (s : State) : Host.Outcome State Fault Refusal :=
  match s.pending with
  | c :: rest => exec c { s with pending := rest }
  | [] => .next (tick s)

/-- The command that a table word spells, put at the front of the queue; no row of the table gives bits (log 34). -/
def State.withFetchWord (s : State) (nbits w : Nat) : State :=
  match decodeTableWord nbits w with
  | some c => { s with pending := c :: s.pending }
  | none => s

end Sys2Proof.Machine
end

