-- ==== Sys2Proof/Safety.lean ====
section
/-! DEFINITION. What the statements speak of: the invariants of the station, and the frames that a layout can carry. -/

namespace Sys2Proof.Machine

/-! ## Invariants -/

/-- The Report queue holds exactly one record for each REPORTED entry, with that entry's generation (R83, R84). -/
def ReportsExact (s : State) : Prop :=
  (s.port.reports.map Report.tag).Nodup ∧
    (∀ r ∈ s.port.reports, isReported s r.tag = true ∧ genOf s r.tag = r.gen) ∧
    ∀ t, isReported s t = true → t ∈ s.port.reports.map Report.tag

/-- QUEUED, HELD or WITHDRAWING. -/
def inQueueState : Slot → Bool
  | .live _ .queued | .live _ (.held _) | .live _ (.withdrawing _) => true
  | _ => false

/-- The launch queue holds the tags whose entries are QUEUED, HELD or WITHDRAWING, none twice (R85). -/
def QueueExact (s : State) : Prop :=
  s.launch.queue.Nodup ∧ ∀ t, t ∈ s.launch.queue ↔ inQueueState (slotOf s t) = true

/-- Every entry in service was taken within half the range of acceptance numbers above `base` (R76). -/
def TakenWithin (base : BitVec 32) (s : State) : Prop :=
  ∀ u b p, slotOf s u = .live b p → (b.acc - base).toNat < 2 ^ 31

/-- The launch queue is in increasing order of acceptance number, counted from `base` (R85). -/
def QueueOrdered (base : BitVec 32) (s : State) : Prop :=
  s.launch.queue.Pairwise fun u v => (accOf s u - base).toNat ≤ (accOf s v - base).toNat

/-- Each claim stands exactly while its client has something to claim (R4, R63, R88, R115). -/
def ClaimsExact (s : State) : Prop :=
  s.bus.claims = ⟨(choice s).isSome, headReady s, s.station.state == .joining .waiting⟩

/-- The drain condition: no entry is in service, and the park queue is empty (R69). -/
def DrainCondition (s : State) : Prop := (∀ u b p, slotOf s u ≠ .live b p) ∧ s.serve.parkQueue = []

/-- No station is left in DRAINING in which the drain condition holds with the tenure role NONE (R69). That this is tested at
the end of every command, with the role as R8 gives it, is the model's choice (log 32). -/
def DrainEnded (s : State) : Prop := s.station.state = .draining → DrainCondition s → roleOf s ≠ .none

/-- A drain has ended: the station is OFFLINE and has forgotten its terms (R54, R62, R69). -/
def DrainedOut (t : State) : Prop :=
  t.station.state = .offline ∧ DrainCondition t ∧ roleOf t = .none ∧ noticeSet .stateChanged t = true ∧
    ∀ a, termsOf t a = none

/-- The reservation is the one that the service record holds, and the Inbox with it has at most 16 places (R141). -/
def InboxBounded (s : State) : Prop :=
  s.serve.reserved = s.serve.service.any holdsPlace ∧ inboxLoad s ≤ 16

/-- The transit buffer holds at most 512 bytes (R2, R31). -/
def TransitBounded (s : State) : Prop := inboundHeld s.bus.runs + s.bus.outbound.length ≤ 512

/-- The station's own BRESET drive (R2, R18). -/
def resetDrive (s : State) : Bool × Timer := (s.bus.drive.breset, s.bus.bresetDrive)

/-- In ISOLATED the station does not drive BRESET (R20, R72). -/
def IsolatedSilent (s : State) : Prop := s.station.state = .isolated → resetDrive s = (false, none)

/-- The stall timer stands still, or has just been started (R15). -/
def StallFresh (s : State) : Prop := ∀ n, s.bus.stallTimer = some n → n = stallTime

/-- The Terms Table entry of the own address stays UNKNOWN (R44). -/
def OwnTermsUnknown (s : State) : Prop := termsOf s s.station.strap = none

/-- The counts and read positions of the Local Port lie in their ranges (R165, R166, R168, R169). -/
def PortCounts (s : State) : Prop :=
  s.port.assembly.length ≤ 7 ∧ s.port.fifo.length ≤ 8 ∧ s.port.reportPos ≤ 3 ∧
    (s.port.reports = [] → s.port.reportPos = 0) ∧
    match s.port.inbox with
    | [] => s.port.inboxPos = 0
    | a :: _ => s.port.inboxPos < arrivalWords a.payload.length

/-- A free port has nothing issued; a granted client has its transaction issued, and the lock is held exactly for a locked
pair (R176, R177). -/
def GrantExact (s : State) : Prop :=
  match s.mem.granted with
  | none => s.mem.lock = false ∧ ∀ c, txnOf s c = none
  | some c => ∃ x, txnOf s c = some x ∧ s.mem.lock = x.isPair

/-- A valid setup record (R58). -/
def setupWithin (r : Setup) : Prop :=
  (1 ≤ r.parkLimit ∧ r.parkLimit ≤ 255) ∧ r.retryBudget ≤ 7 ∧ (1 ≤ r.paceMax ∧ r.paceMax ≤ 16) ∧ r.shortFetch ≤ 256 ∧
    (1 ≤ r.windows.length ∧ r.windows.length ≤ 8) ∧ ∀ w, some w ∈ r.windows → windowValid w.base w.length = true

/-- The setup record is valid, or absent (R60). -/
def SetupValid (s : State) : Prop := ∀ r, s.station.setup = some r → setupWithin r

/-- The attempts of a slot's entry. -/
def attemptsOf : Slot → Nat
  | .live b _ | .reported b _ => b.attempts
  | .free => 0

/-- No entry has been charged more than 7 attempts (R74, R105). -/
def AttemptsBounded (s : State) : Prop := ∀ t, attemptsOf (slotOf s t) ≤ 7

/-! ## What may follow an event at once -/

/-- The verdict that the Serve Engine may still give to the OPEN it serves, without a further beat: the DONE of a STORE whose
run has ended, of a short FETCH whose read met a FAULT, or of a SWAP not yet looked up (R138, R139, R143). -/
def serviceOpen (v : Service) : Bool :=
  match v.work with
  | .store _ _ _ _ true | .fetch _ _ _ _ true none => !v.closed
  | .swap _ _ false => v.first.isNone
  | _ => false

/-- A verdict of the Serve Engine is due. -/
def verdictDue (s : State) : Bool := (activeCallee s).isSome && s.serve.service.any serviceOpen

/-- A read of the short FETCH being served has met a FAULT, and no read is in flight (R139). -/
def FetchFaulted (s : State) : Prop :=
  ∃ v base issued placed held, s.serve.service = some v ∧ v.work = .fetch base issued placed held true none

/-- Of such a FETCH bytes for a further beat are left: it goes on. -/
def FaultedRunGoesOn (s : State) : Prop :=
  ∃ v base issued placed held, s.serve.service = some v ∧ v.work = .fetch base issued placed held true none ∧
    2 ≤ s.bus.outbound.length + held.length

/-- Of such a FETCH no beat can be strobed from the bytes that are left, at most a single one (log 22), which stands in the
transit buffer or can be placed there: it ends with the TAKE of its last outstanding beat (R37, R139). -/
def FaultedRunSpent (s : State) (v : Service) : Prop :=
  s.serve.service = some v ∧ v.closed = false ∧ ∃ base issued placed held, v.work = .fetch base issued placed held true none ∧
    s.bus.outbound.length + held.length < 2 ∧
    (held = [] ∨ noInbound s = true ∧ s.serve.resume = none ∧ s.launch.outJob = none)

/-- The tag whose open tenure record an inbound run still reports to (R99). -/
def reportsTo (r : InRun) : Option Tag :=
  match r.sink with
  | .mover i => if i.recordOpen then some i.tag else none
  | .store _ | .note | .dropped => none

/-- An inbound run is in the transit buffer that still reports to the tenure record of this tag. -/
def draining (s : State) (u : Tag) : Prop := ∃ r ∈ s.bus.runs, reportsTo r = some u

/-! ## Frames that a layout can carry (section 12.2, R180, R181) -/

/-- A terms sub-record in its range (R45). -/
def termsWithin : Option (BitVec 5) → Bool
  | some t => decide (1 ≤ t.toNat ∧ t.toNat ≤ 16)
  | none => true

/-- An OPEN head carries swap operands exactly for a SWAP, and a RESUME head a chunk of at most 1024 bytes. -/
def Head.carried : Head → Bool
  | .openX h => termsWithin h.terms && (h.ops.isSome == (h.kind == .swap))
  | .resume h => decide (h.chunkLength.toNat ≤ 1024)
  | .withdraw _ | .probe _ _ => true

/-- A verdict carries a swap result only with DONE(OK), and REFUSE(CHECK) carries no field. -/
def Verdict.carried (v : Verdict) : Bool :=
  termsWithin v.terms && (v.swap.isNone || v.kind == .done .ok) &&
    (v.kind != .refuse .check || (v.tag == 0 && v.gen == 0 && v.terms.isNone))

def Frame.carried : Frame → Bool
  | .head h => h.carried
  | .verdict v => v.carried

/-! ## Lines at the end of a window (R5) -/

/-- Line `n` is the highest asserted line of D. -/
def highestLine (d : Beat) (n : Addr) : Prop :=
  d.getLsbD n.toNat = true ∧ ∀ m, n.toNat < m → d.getLsbD m = false

/-! ## What an event leaves behind -/

/-- The call word to `callee` is presented and the call timer runs (R9). -/
def CallStands (t : State) (callee : Addr) : Prop :=
  t.bus.view = .active ∧ t.bus.drive.busy = true ∧ t.bus.drive.call = true ∧
    t.bus.drive.d = callWord callee t.station.strap ∧ t.bus.drive.dp = parityOf t.bus.drive.d ∧
    t.bus.callTimer = some (callTime (setupOf t).callSelect)

/-- The station has left its tenure, and drives none of BUSY, CALL, ANSWER and INTERJECT (R12 to R16). -/
def OutOfTenure (t : State) : Prop :=
  t.bus.tenure = .none ∧ t.bus.drive.busy = false ∧ t.bus.drive.call = false ∧ t.bus.drive.answer = false ∧
    t.bus.drive.interject = false

/-- The caller has asserted INTERJECT, sends nothing, and its interject timer has just been started (R16). -/
def Interjecting (s t : State) : Prop :=
  (∃ c, t.bus.tenure = .caller c) ∧ t.bus.drive.busy = true ∧ t.bus.drive.interject = true ∧
    t.bus.interjectTimer = some interjectTime ∧ t.bus.tx = none ∧ t.bus.run = none ∧ t.bus.count = 0 ∧
    t.bus.capture = [] ∧ t.bus.takesGiven = s.bus.takesGiven ∧ t.bus.strobesGiven = s.bus.strobesGiven

/-- The frame `f` is being sent, its first beat just strobed (R21, R23). -/
def SendsFrame (t : State) (f : Frame) : Prop :=
  ∃ d rest, f.encode = d :: rest ∧ t.bus.tx = some ⟨f, rest⟩ ∧ t.bus.count = 1

/-- The entry of tag `u`, with the fields `b` and in service in `s`, has completed with the status that `st` gives: it is
REPORTED, its record has joined the Report queue, REPORT_READY is set, its generation is kept (R83, R108). -/
def CompletedAs (s t : State) (u : Tag) (b : Body) (st : Status) : Prop :=
  slotOf t u = .reported { b with work := reportedWork b.work } (finalStatus b.work st) ∧ genOf t u = genOf s u ∧
    (s.port.reports ++ [reportOf u (genOf s u) b (finalStatus b.work st)]) <+: t.port.reports ∧
    noticeSet .reportReady t = true

/-- A retryable fault is charged: one attempt more and the hold-off of 32 µs for each, or the completion with the fault's
status once the budget is spent (R105). -/
def ChargedOpen (s t : State) (u : Tag) (b : Body) (f : RetryFault) : Prop :=
  if b.attempts < (setupOf s).retryBudget then
    slotOf t u = .live { b with attempts := b.attempts + 1 } (.held (64 * (b.attempts + 1)))
  else CompletedAs s t u b f.status

/-- The same for a WITHDRAW tenure (R156). -/
def ChargedWithdraw (s t : State) (u : Tag) (b : Body) : Prop :=
  if b.attempts < (setupOf s).retryBudget then
    slotOf t u = .live { b with attempts := b.attempts + 1 } (.withdrawing (some (64 * (b.attempts + 1))))
  else CompletedAs s t u b (withdrawalStatus b)

/-- The park queue but for its chunk states, which a fill changes. -/
def parkedRequests (s : State) : List ParkEntry := s.serve.parkQueue.map fun e => { e with chunk := .empty }

/-- A failed resume is charged to the park-queue head `e` before the rest `es` (R119). -/
def ChargedResume (s t : State) (e : ParkEntry) (es : List ParkEntry) : Prop :=
  parkedRequests t =
    (if e.attempts < (setupOf s).retryBudget then es ++ [{ e with attempts := e.attempts + 1 }] else es).map
      fun x => { x with chunk := .empty }

/-- The OPEN head of entry `u` with fields `b` (R46, R93). -/
def IsOpenHeadOf (s : State) (u : Tag) (b : Body) (h : OpenHead) : Prop :=
  h.source = s.station.strap ∧ h.target = b.peer ∧ h.tag = u ∧ h.gen = genOf s u ∧ h.kind = bodyKind b ∧
    h.window = b.window.setWidth 3 ∧ h.offset = b.offset ∧ h.length = BitVec.ofNat 13 b.length ∧
    h.terms = (if termsOf s b.peer = none then some (BitVec.ofNat 5 (setupOf s).paceMax) else none) ∧
    (∀ ops x y r, b.work = .swap ops x y r → h.ops = some ops) ∧ (bodyKind b ≠ .swap → h.ops = none)

/-- The RESUME head of the park-queue entry `e`, whose chunk is READY (R116). -/
def IsResumeHeadOf (s : State) (e : ParkEntry) (h : ResumeHead) : Prop :=
  h.source = s.station.strap ∧ h.target = e.requester ∧ h.tag = e.tag ∧ h.gen = e.gen ∧
    h.chunkOffset = BitVec.ofNat 13 e.sent ∧
    (∀ n, e.chunk = .readyData n → h.fault = false ∧ h.chunkLength = BitVec.ofNat 11 n) ∧
    (e.chunk = .readyFault → h.fault = true ∧ h.chunkLength = 0)

/-- The entry is CONNECTED with the tenure record `r` but for its mark run drained, which may follow an event (R101). -/
def ConnOpenIs (t : State) (u : Tag) (b : Body) (o : Bool) (r : OpenRecord) : Prop :=
  ∃ x, slotOf t u = .live b (.connOpen o { r with drained := x })

/-- The same for a resume tenure record (R127). -/
def ConnResumeIs (t : State) (u : Tag) (b : Body) (left : Time) (r : ResumeRecord) : Prop :=
  ∃ x, slotOf t u = .live b (.connResume left { r with drained := x })

/-! ## Runs cut, and bytes still to be written -/

/-- The fields of an entry with the bytes taken of the run that is cut (R37, R107). -/
def cutBody (s : State) (b : Body) : Body :=
  match s.bus.run with
  | none => b
  | some q => { b with bytesDone := min (2 * q.taken) q.length }

/-- The tenure record with the bytes taken of the run that is cut (R37, R100). -/
def cutRecord (s : State) (r : OpenRecord) : OpenRecord :=
  match s.bus.run with
  | none => r
  | some q => { r with bytesTaken := min (2 * q.taken) q.length, short := false }

/-- The run has bytes still to be written, or a write in flight (R101). -/
def Holding (q : InRun) : Prop := discards q.sink = false ∧ (q.bytes ≠ [] ∨ q.flight ≠ none)

/-- Every inbound run that reports to entry `u` has bytes still to be written, or a write in flight. -/
def HoldsBytes (s : State) (u : Tag) : Prop := ∀ q ∈ s.bus.runs, reportsTo q = some u → Holding q

/-- None of these runs drains together with one of entry `u`: each reports to no record, or to that of another entry and has
bytes still to be written. -/
def NoneDrains (rs : List InRun) (u : Tag) : Prop :=
  ∀ q ∈ rs, reportsTo q = none ∨ reportsTo q ≠ some u ∧ Holding q

/-- The last inbound run reports to entry `u`, and no byte of it is left to be written: each was, or the run stands at the head
and its bytes are discarded (R99, R103, R127). It drains as soon as it ends, and no other run does (R101). -/
def DrainsAtOnce (s : State) (u : Tag) : Prop :=
  ∃ rs q i, s.bus.runs = rs ++ [q] ∧ q.sink = .mover i ∧ i.recordOpen = true ∧ i.tag = u ∧
    (q.bytes = [] ∨ rs = [] ∧ discards q.sink = true) ∧ q.flight = none ∧ NoneDrains rs u

/-! ## Outcomes carried out -/

/-- The outcome of an OPEN tenure carried out for an entry (R105, R110, R151). -/
def CarriedOut (s t : State) (u : Tag) (b : Body) : OpenOutcome → Prop
  | .ok => CompletedAs s t u b .ok
  | .final f => CompletedAs s t u b f.status
  | .park =>
    slotOf t u = if b.cancel then .live b (.withdrawing none) else .live b (.parked (parkTime (setupOf s).parkLimit))
  | .requeue => if b.cancel then CompletedAs s t u b .cancelled else slotOf t u = .live b .queued
  | .retry f => if b.cancel then CompletedAs s t u b .cancelled else ChargedOpen s t u b f

/-- The outcome of a RESUME tenure carried out for an entry at the requester (R129, R152). ACCEPTED of the last chunk waits for
run drained: while bytes of its run are still to be written the entry stays CONNECTED with its record. -/
def ResumeCarriedOut (s t : State) (u : Tag) (b : Body) (left : Time) (r : ResumeRecord) : Prop :=
  if r.localFault then CompletedAs s t u b .localFault
  else match r.outcome with
    | some .remoteFault => CompletedAs s t u b .remoteFault
    | some .localFault => CompletedAs s t u b .localFault
    | some .cancelled => CompletedAs s t u b .cancelled
    | some .accepted =>
      if b.bytesDone = b.length then
        (r.drained = true ∨ DrainsAtOnce s u → CompletedAs s t u b .ok) ∧
          (r.drained = false → HoldsBytes s u → slotOf t u = .live b (.connResume left { r with ended := true }))
      else slotOf t u =
        .live b (if b.cancel then .withdrawing none else .parked (parkTime (setupOf s).parkLimit))
    | some .resend =>
      slotOf t u = .live b (if b.cancel then .withdrawing none else .parked (parkTime (setupOf s).parkLimit))
    | none => slotOf t u = .live b (if b.cancel then .withdrawing none else .parked left)

/-! ## Isolation (R71) -/

/-- The station has become ISOLATED and drives no BRESET (R20, R72): every entry in service is completed ISOLATED (R108 for a
SWAP), in order of acceptance; the park queue, the service and the bytes received are gone; the Terms Table, the swap memo and
the Inbox stay. -/
def Isolated (s t : State) : Prop :=
  OutOfTenure t ∧ t.station.state = .isolated ∧ resetDrive t = (false, none) ∧ noticeSet .stateChanged t = true ∧
    parkedRequests t = [] ∧ t.serve.service = none ∧ t.serve.reserved = false ∧ t.bus.runs = [] ∧ t.terms = s.terms ∧
    t.port.inbox = s.port.inbox ∧ t.serve.swapMemo = s.serve.swapMemo ∧
    t.port.reports.map Report.tag = s.port.reports.map Report.tag ++ liveByAcc s ∧ (∀ u, genOf t u = genOf s u) ∧
    ∀ u b p, slotOf s u = .live b p →
      slotOf t u = .reported { b with work := reportedWork b.work } (finalStatus b.work .isolated)

/-! ## The reads that a client presents next (R174) -/

/-- The read of `n` bytes at `a` that a client presents next: all that lies in one aligned 64-byte block (R174,
the model's choice of log 46). -/
def nextRead (a : Word) (n : Nat) : Txn := readTxn a (min (64 - a.toNat % 64) n)

/-! ## The answer to an OPEN head (R131, R132, R137 to R142) -/

/-- The Serve Engine can present a read at once: it has no transaction issued, no write of a STORE to go first, and room in the
transit buffer for what is read, which no other sender shares (R31, R131, R175, log 16). -/
def ServeReadsNext (s : State) : Prop :=
  s.mem.serve = none ∧ 0 < room s ∧ s.launch.outJob = none ∧ s.serve.resume = none ∧
    ∀ q ∈ s.bus.runs, ∀ j, q.sink ≠ .store j

/-- A short FETCH of the range at `base` is served: its first read is presented at `base`, all that lies in one aligned 64-byte
block (R132, R139, R174, its size log 46). -/
def FirstServeRead (t : State) (h : OpenHead) (base : Word) : Prop :=
  ∃ n, n = min (64 - base.toNat % 64) h.length.toNat ∧
    t.serve.service = some ⟨h, some .proceed, false, .fetch base n 0 [] false (some ⟨base.toNat % 4, n⟩)⟩ ∧
    t.mem.serve = some (nextRead base h.length.toNat)

/-- What the answer `v` to the OPEN head `h` opens, with the marks of its service record (R131). PROCEED opens the run of a
STORE at the local address of its range, the window's base plus the offset (R132, R137), the reads of a short FETCH from that
address on (R139), the run of a NOTE with its place in the Inbox, or without one for a repeat (R141). -/
def OpenServed (s t : State) (h : OpenHead) (v : VerdictKind) : Prop :=
  match v, h.kind with
  | .proceed, .store => ∃ win, windowOf s h.window.toNat = some win ∧
    t.serve.service = some ⟨h, some .proceed, false, .store 0 0 false false false⟩ ∧
    ∃ rs, t.bus.runs =
      rs ++ [⟨.store ⟨win.base + h.offset.setWidth 32, 0, false, true⟩, h.length.toNat, 0, [], false, none⟩]
  | .proceed, .fetch => ∃ win base, windowOf s h.window.toNat = some win ∧ base = win.base + h.offset.setWidth 32 ∧
    (t.serve.service = some ⟨h, some .proceed, false, .fetch base 0 0 [] false none⟩ ∨ FirstServeRead t h base) ∧
    (ServeReadsNext s → FirstServeRead t h base)
  | .proceed, .note => ∃ isRepeat payload,
    isRepeat = (s.serve.noteMemo[h.source.toNat]'h.source.isLt == some ⟨h.tag, h.gen⟩) ∧
    t.serve.service = some ⟨h, some .proceed, false, .note (!isRepeat) isRepeat false payload⟩ ∧
    ((∀ q ∈ s.bus.runs, q.sink ≠ .note) → payload = []) ∧ t.serve.reserved = !isRepeat ∧
    ∃ rs, t.bus.runs = rs ++ [⟨.note, h.length.toNat, 0, [], false, none⟩]
  | .park, _ => t.serve.service = some ⟨h, some .park, true, .park⟩ ∧ t.serve.reserved = false
  | .refuse r, _ => t.serve.service = some ⟨h, some (.refuse r), true, .refused⟩ ∧ t.serve.reserved = false
  | _, _ => True

/-! ## Verdicts and the course (R39 to R43, R50, R95 to R98, R181) -/

/-- This beat, with MARK asserted, completes a frame that is received as `f`: none if it is damaged (R23, R25). -/
def CompletesFrame (s : State) (d : Beat) (dp : BitVec 2) (f : Option Frame) : Prop :=
  registerFull (s.bus.rx ++ [⟨d, parityGood d dp⟩]) = true ∧ receiveFrame (s.bus.rx ++ [⟨d, parityGood d dp⟩]) = f

/-- A whole, undamaged verdict fits the course after head `h`, as the first verdict or as the one after the run: its kind is
permitted, it echoes the head, and it carries terms and a swap result exactly where they belong. -/
def FitsCourse (h : Head) (first : Bool) (v : Verdict) : Prop :=
  permittedKind h first v.kind = true ∧ (v.kind = .refuse .check ∨ (v.tag = h.tag ∧ v.gen = h.gen)) ∧
    match h, first with
    | .openX o, true =>
      (v.terms.isSome = (o.terms.isSome && v.kind != .refuse .check)) ∧ (v.kind = .refuse .terms → o.terms = none) ∧
        (v.kind = .done .ok → v.swap.isSome = true)
    | .openX _, false => v.terms = none ∧ (v.kind = .done .ok → v.swap = none)
    | _, _ => v.terms = none

/-- A verdict is due at this point of the course, and `v` fits (R43). -/
def DueVerdict (c : Caller) (h : Head) (v : Verdict) : Prop :=
  c.finished = false ∧ ((c.point = .first ∧ FitsCourse h true v) ∨ (c.point = .second ∧ FitsCourse h false v))

/-- The CLEARED that answers an interject (R43). -/
def ClearedFor (h : Head) (v : Verdict) : Prop :=
  v.kind = .cleared ∧ v.tag = h.tag ∧ v.gen = h.gen ∧ v.terms = none

/-- The verdict that a frame carries fits the course; under INTERJECT, CLEARED or the verdict that is due, after the run if
that had begun (log 30). -/
def FittingFrame (s : State) (c : Caller) (h : Head) (f : Option Frame) : Prop :=
  ∃ v, f = some (.verdict v) ∧
    if s.bus.drive.interject then
      ClearedFor h v ∨ DueVerdict { c with point := if c.point = .running then .second else c.point } h v
    else DueVerdict c h v

/-- The first read of the outbound job of entry `u` with fields `b` is presented: at the place of byte 0 in its segments, all
that lies in one aligned 64-byte block (R100, R174, its size log 46). -/
def FirstReadPresented (t : State) (u : Tag) (b : Body) : Prop :=
  ∃ a left n, locate b.segs 0 = some (a, left) ∧ n = min (64 - a.toNat % 64) left ∧
    t.launch.outJob = some ⟨u, b.segs, b.length, n, 0, [], some ⟨a.toNat % 4, n⟩, false⟩ ∧
    t.mem.mover = some (nextRead a left)

/-- The data mover can present a read at once: it has no transaction issued, no byte of an inbound item to write first, and
room in the transit buffer for what is read (R31, R100, R175, log 16). -/
def MoverReadsNext (s : State) : Prop :=
  s.mem.mover = none ∧ 0 < room s ∧ s.serve.resume = none ∧ ∀ q ∈ s.bus.runs, ∀ i, q.sink = .mover i → q.bytes = []

/-- What the data mover begins with PROCEED for an OPEN: the inbound item of a FETCH, at segment 0, offset 0 (R101), or the
outbound job of a STORE or NOTE, at the same place (R100). Its first read is presented at once if it can be. -/
def RunBegins (s t : State) (u : Tag) (b : Body) : Prop :=
  (bodyKind b = .fetch → ∃ rs, t.bus.runs =
    rs ++ [⟨.mover ⟨u, b.segs, none, 0, 0, false, false, true, true⟩, b.length, 0, [], false, none⟩]) ∧
  (bodyKind b ≠ .fetch →
    (t.launch.outJob = some ⟨u, b.segs, b.length, 0, 0, [], none, false⟩ ∨ FirstReadPresented t u b) ∧
    (MoverReadsNext s → 0 < b.length → locate b.segs 0 ≠ none → FirstReadPresented t u b))

/-- What an OPEN tenure's verdict does to the entry of its caller: PROCEED begins the run (R100, R101), any other decides the
outcome, if none is decided (R51, R95 to R98); each DONE is marked in the tenure record, and in the entry of a SWAP (R108). -/
def OpenVerdictRead (s t : State) (u : Tag) (b : Body) (o : Bool) (r : OpenRecord) (v : Verdict) : Prop :=
  let decides := fun x => ConnOpenIs t u (noteDone v b) o { r with outcome := some (r.outcome.getD x) }
  let doneDecides := fun x =>
    ConnOpenIs t u (noteDone v b) o { r with doneTaken := true, outcome := some (r.outcome.getD x) }
  match v.kind with
  | .proceed =>
    ConnOpenIs t u b o { r with proceedTaken := true } ∧ t.bus.run = some ⟨bodyKind b != .fetch, b.length, 0, 0⟩ ∧
      RunBegins s t u b
  | .park => decides .park
  | .refuse .busy => decides (.retry .busy)
  | .refuse .check => decides (.retry .check)
  | .refuse .access => decides (.final .access)
  | .refuse .format => decides (.final .format)
  | .refuse .leaving => decides (.final .leaving)
  | .refuse .terms => decides .requeue ∧ termsOf t b.peer = none
  | .done .ok => doneDecides (if r.short then .retry .check else .ok)
  | .done .check => doneDecides (.retry .check)
  | .done .memory => doneDecides (.final .remoteFault)
  | .done .stall => doneDecides (.retry .stall)
  | .accept | .resend | .stale | .withdrawn | .cleared => True

/-- What a RESUME tenure's verdict does at the responder (R116, R117). -/
def ResumeVerdictRead (t : State) (h : Head) (r : ResumeTenure) (v : Verdict) : Prop :=
  let decides := fun x => ∃ m, t.serve.resume = some ⟨some (r.outcome.getD x), m⟩
  match v.kind with
  | .proceed => ∀ rh, h = .resume rh →
    t.bus.run = some ⟨true, rh.chunkLength.toNat, 0, 0⟩ ∧ ∃ m, t.serve.resume = some ⟨r.outcome, m⟩
  | .accept => decides .accept
  | .resend => decides .resend
  | .stale => decides .stale
  | .withdrawn => decides .withdrawn
  | .refuse _ => decides (.failed .check)
  | .park | .done _ | .cleared => True

/-- The caller of entry `u` breaks its tenure off with INTERJECT: the run that this cuts hands its bytes taken, and the tenure
record is otherwise `r` (R16, R37, R100, R107). With INTERJECT already asserted there is nothing more to cut. -/
def BrokenOff (s t : State) (u : Tag) (b : Body) (o : Bool) (r : OpenRecord) : Prop :=
  if s.bus.drive.interject then ConnOpenIs t u b o r else ConnOpenIs t u (cutBody s b) o (cutRecord s r)

/-- The fault `f` has been handed to the grantee, and decides its outcome if none is decided (R15, R27, R34, R94, R117, R155);
the entry of an OPEN tenure is otherwise as the interject that follows leaves it. -/
def FaultHanded (s t : State) (c : Caller) (f : RetryFault) : Prop :=
  (∀ u b o r, c.grantee = .launch u → slotOf s u = .live b (.connOpen o r) → r.ended = false →
    BrokenOff s t u b o { r with outcome := some (r.outcome.getD (.retry f)) }) ∧
  (∀ u b, c.grantee = .launch u → slotOf s u = .live b (.connWithdraw none) →
    slotOf t u = .live b (.connWithdraw (some (.failed f)))) ∧
  ∀ r, c.grantee = .serve → s.serve.resume = some r →
    ∃ m, t.serve.resume = some ⟨some (r.outcome.getD (.failed f)), m⟩

/-- The end of the OPEN tenure of entry `u` carries its outcome out, with the replacements of R110; an end with no outcome
decided gives STALL (R94). The outcome of a FETCH whose run has begun waits for run drained (R109). -/
def OpenEndHanded (s t : State) (u : Tag) (b : Body) (o : Bool) (r : OpenRecord) : Prop :=
  ((bodyKind b = .fetch → r.proceedTaken = true → r.drained = true ∨ DrainsAtOnce s u) →
    CarriedOut s t u (cutBody s b)
      (if r.localFault then .final .localFault
      else if bodyKind b = .fetch ∧ r.parityFail = true then .retry .check
      else r.outcome.getD (.retry .stall))) ∧
  (bodyKind b = .fetch → r.proceedTaken = true → r.drained = false → HoldsBytes s u →
    slotOf t u = .live (cutBody s b) (.connOpen o
      { cutRecord s r with outcome := some (r.outcome.getD (.retry .stall)), ended := true }))

/-- The end of the WITHDRAW tenure of entry `u`: CLEARED completes it with its withdrawal status (R154), anything else is
charged (R156). -/
def WithdrawEndHanded (s t : State) (u : Tag) (b : Body) (x : Option WithdrawOutcome) : Prop :=
  (x = some .cleared → CompletedAs s t u b (withdrawalStatus b)) ∧ (x ≠ some .cleared → ChargedWithdraw s t u b)

/-- The end of a RESUME tenure at the responder, for the park-queue head `e` before the rest `es` (R118, R119). -/
def ResumeEndHanded (s t : State) (e : ParkEntry) (es : List ParkEntry) (r : ResumeTenure) : Prop :=
  (∀ n, r.outcome = some .accept → e.chunk = .readyData n → parkedRequests t =
    (if e.sent + n < e.total then es ++ [{ e with sent := e.sent + n }] else es).map fun x => { x with chunk := .empty }) ∧
  (r.outcome = some .accept → e.chunk = .readyFault → parkedRequests t = es.map fun x => { x with chunk := .empty }) ∧
  (r.outcome = some .stale ∨ r.outcome = some .withdrawn →
    parkedRequests t = es.map fun x => { x with chunk := .empty }) ∧
  (r.outcome = none ∨ r.outcome = some .resend ∨ (∃ f, r.outcome = some (.failed f)) → ChargedResume s t e es)

/-- The caller has left its tenure, and its grantee has been handed the end: the outcome of an OPEN, a WITHDRAW or a RESUME
tenure is carried out, and an answered probe isolates the station (R16, R65, R109, R118, R119, R155). -/
def CallerEndHanded (s t : State) (c : Caller) : Prop :=
  OutOfTenure t ∧
    (∀ u b o r, c.grantee = .launch u → slotOf s u = .live b (.connOpen o r) → OpenEndHanded s t u b o r) ∧
    (∀ u b x, c.grantee = .launch u → slotOf s u = .live b (.connWithdraw x) → WithdrawEndHanded s t u b x) ∧
    (∀ e es r, c.grantee = .serve → s.serve.parkQueue = e :: es → s.serve.resume = some r → ResumeEndHanded s t e es r) ∧
    (c.grantee = .probe → Isolated s t)

/-- The callee has left its tenure, and its client has been handed the end: the service of an OPEN is gone, and the outcome of
a RESUME tenure is carried out (R14, R129, R136). -/
def CalleeEndHanded (s t : State) (c : Callee) : Prop :=
  OutOfTenure t ∧ (c.owner = some .serve → t.serve.service = none) ∧
    ∀ u b left r, c.owner = some (.launch (some u)) → slotOf s u = .live b (.connResume left r) →
      ResumeCarriedOut s t u b left r

/-! ## The Memory Port -/

/-- The transaction of client `c` that the port has granted, which is no locked pair, can complete with `result` (R174). -/
def Completes (s : State) (c : Client) (result : Completion) : Prop :=
  ∃ x, s.mem.granted = some c ∧ txnOf s c = some x ∧ x.isPair = false ∧ completionFits x result = true

/-- Client `c` has no write of an inbound run in flight. -/
def NoWriteInFlight (s : State) (c : Client) : Prop :=
  ∀ r ∈ s.bus.runs, r.flight ≠ none → (∀ i, r.sink = .mover i → c ≠ .mover) ∧ ∀ j, r.sink = .store j → c ≠ .serve

/-- The client that writes the bytes of a run (R101, R137). -/
def writerOf : Sink → Option Client
  | .mover _ => some .mover
  | .store _ => some .serve
  | .note | .dropped => none

/-- How many bytes of the inbound run `r` one write takes at address `a`, with `left` bytes of the segment left: all that fit
into the aligned 64-byte block, the segment and the run, once they have arrived, or what a run that has ended has left; 0 while
they still arrive (R174, the size log 15). -/
def nextSize (r : InRun) (a : Word) (left : Nat) : Nat :=
  let n := min (64 - a.toNat % 64) (min left (r.length - (r.received - r.bytes.length)))
  if n ≤ r.bytes.length then n else if r.ended then r.bytes.length else 0

/-- Client `c` writes the next `n` bytes of the inbound run `r` from address `a` on: at the address that the run of a STORE has
reached (R137), or at the place of the item's next byte in its segments (R101, R127). -/
def WriteReady (r : InRun) (c : Client) (a : Word) (n : Nat) : Prop :=
  writerOf r.sink = some c ∧ discards r.sink = false ∧ r.flight = none ∧ n ≠ 0 ∧
    (∀ j, r.sink = .store j → a = j.next ∧ n = nextSize r a (r.length - (r.received - r.bytes.length))) ∧
    ∀ i, r.sink = .mover i → ∃ left, locate i.segs i.pos = some (a, left) ∧ n = nextSize r a left

/-- The run `p` is the run `q` with a write of its first `n` bytes issued: they have left the transit buffer (log 15), and the
next byte stands `n` places further on. -/
def WriteIssued (q p : InRun) (n : Nat) : Prop :=
  p.length = q.length ∧ p.received = q.received ∧ p.ended = q.ended ∧ p.bytes = q.bytes.drop n ∧ p.flight = some n ∧
    discards p.sink = false ∧
    (∀ j, q.sink = .store j → ∃ k, p.sink = .store k ∧ k.next = j.next + BitVec.ofNat 32 n ∧ k.serving = j.serving) ∧
    ∀ i, q.sink = .mover i → ∃ k, p.sink = .mover k ∧ k.tag = i.tag ∧ k.segs = i.segs ∧ k.pos = i.pos + n

/-- Client `c` has presented the write of the first `n` bytes of the run `q` from address `a` on, and that run, which stands at
the head, has moved on. -/
def WritePresented (t : State) (q : InRun) (c : Client) (a : Word) (n : Nat) : Prop :=
  txnOf t c = some (writeTxn a (q.bytes.take n)) ∧ ∃ p rs, t.bus.runs = p :: rs ∧ WriteIssued q p n

/-- A SWAP that waits at step 1 of R143 does not go ahead of the writes of these runs: none waits, or a leftover write stands
ahead of it (R131). -/
def NoSwapGoesAhead (s : State) (rs : List InRun) : Prop :=
  ∀ v addr ops, s.serve.service = some v → v.work = .swap addr ops false → ∃ r ∈ rs, isLeftover r = true

/-- A read of a setup image has completed with `result`, and the next one of its part is presented (R183, its size
log 46). -/
def ReadGoesOn (t : State) (stage : ReadJob → Intake) (j : ReadJob) (sp : Span) (result : Completion) : Prop :=
  (∃ j', t.launch.intake = some (stage j') ∧
    j'.fault = (j.fault || match result with | .fault => true | .ok _ => false) ∧
    j'.got = match result with | .fault => j.got | .ok data => j.got ++ sp.slice data) ∧
  t.mem.lister = some (nextRead (j.base + BitVec.ofNat 32 j.issued) (j.total - j.issued))

/-! ## Arbitration (R4) -/

/-- The station states in which the BIF contends. -/
def mayContend : StationState → Bool
  | .joining _ | .online | .draining => true
  | .offline | .isolated => false

/-- Some client has something to claim. -/
def claimed (s : State) : Bool := (choice s).isSome || headReady s || s.station.state == .joining .waiting

/-- The window just opened in this station's view, which joins it exactly if it contends (`joins`), with WANT, and with its
address line while its spent flag is clear; it otherwise drives what it drove in `s`. -/
def WindowOpened (s t : State) (joins : Bool) : Prop :=
  t.bus.view = .window ∧ t.bus.windowTimer = some windowTime ∧ t.bus.idleTimer = none ∧ t.bus.spent = s.bus.spent ∧
    (joins = true → t.bus.contending = true ∧ t.bus.drive.want = true ∧
      (s.bus.spent = false → t.bus.drive.d = 1#16 <<< s.station.strap.toNat) ∧
      (s.bus.spent = true → t.bus.drive.d = s.bus.drive.d)) ∧
    (joins = false → t.bus.contending = s.bus.contending ∧ t.bus.drive = s.bus.drive)

/-! ## Parties of a tenure -/

/-- The station is caller of an answered tenure and does not interject. -/
def CallsOn (s : State) (c : Caller) : Prop :=
  s.bus.tenure = .caller c ∧ c.answered = true ∧ s.bus.drive.interject = false

/-- The station is callee of a tenure that still runs its course. -/
def Serves (s : State) (c : Callee) : Prop :=
  s.bus.tenure = .callee c ∧ c.finished = false ∧ c.clearing = false

/-- The callee receives the run of its tenure: it serves a STORE or a NOTE, or takes a chunk (R36). -/
def ReceivesRun (s : State) (c : Callee) : Prop :=
  (c.owner = some .serve ∧ ∃ v, s.serve.service = some v ∧
    ((∃ taken written fault parity ended, v.work = .store taken written fault parity ended) ∨
      ∃ place isRepeat parity payload, v.work = .note place isRepeat parity payload)) ∨
    ∃ u, c.owner = some (.launch (some u))

/-! ## Orders -/

/-- The command that takes a data order of a kind. -/
def dataCommand : XKind → Instr
  | .fetch => .fetch
  | .store => .store
  | .note => .note
  | .swap => .swap

/-- A data order malformed in its own words (R79). -/
def DataOrderMalformed (strap : Addr) (k : XKind) (o : Order) : Prop :=
  o.peer = strap ∨ 7 < o.window.toNat ∨
    ((k = .fetch ∨ k = .store) ∧ (o.length < 1 ∨ 4096 < o.length)) ∨
    (k = .note ∧ (o.length < 1 ∨ 64 < o.length)) ∨
    (k = .swap ∧ (o.length ≠ 4 ∨ o.offset.toNat % 4 ≠ 0)) ∨
    2 ^ 24 < o.offset.toNat + o.length ∨
    (k ≠ .swap ∧ (o.segCount < 1 ∨ 8 < o.segCount ∨ o.listAddr.toNat % 4 ≠ 0))

/-- `u` is the lowest-numbered FREE entry (R81). -/
def LowestFree (s : State) (u : Tag) : Prop :=
  slotOf s u = .free ∧ ∀ v, v.toNat < u.toNat → slotOf s v ≠ .free

/-- The fields that intake gives the entry of an order (R81). -/
def intakeBody (s : State) (k : XKind) (o : Order) (segs : List Segment) : Body where
  work := workOfOrder k o
  peer := o.peer
  window := o.window
  offset := o.offset
  length := o.length
  segs := segs
  acc := s.launch.accCount
  attempts := 0
  bytesDone := 0
  cancel := false

/-- An order has been written under tag `u`: the generation and the acceptance count are one more, the order has left the
Order FIFO, the intake stage is empty, and no other entry that is not draining has changed (R75, R76, R81). -/
def Intaken (s t : State) (u : Tag) : Prop :=
  genOf t u = genOf s u + 1 ∧ t.launch.accCount = s.launch.accCount + 1 ∧ t.port.fifo = s.port.fifo.tail ∧
    t.launch.intake = none ∧
    ∀ v, v ≠ u → genOf t v = genOf s v ∧ (¬ draining s v → slotOf t v = slotOf s v)

/-- The order completes at intake: its entry is REPORTED at once with the status given (R78 to R81). -/
def CompletedAtIntake (s t : State) (u : Tag) (b : Body) (st : Status) : Prop :=
  Intaken s t u ∧ slotOf t u = .reported { b with work := reportedWork b.work } st ∧
    (s.port.reports ++ [reportOf u (genOf s u + 1) b st]) <+: t.port.reports ∧ noticeSet .reportReady t = true

/-- A control order has been answered with `r` and has left the Order FIFO; it has written no entry (R61, R77). -/
def ControlAnswered (s t : State) (r : ControlResult) : Prop :=
  t.station.lastResult = r ∧ t.port.fifo = s.port.fifo.tail ∧ t.launch.intake = none ∧
    t.launch.accCount = s.launch.accCount ∧ ∀ u, genOf t u = genOf s u

/-! ## Bus reset (R161, R162) -/

/-- The status with which a bus reset completes an entry, before R108. -/
def ResetStatusIs (b : Body) (p : Phase) (st : Status) : Prop :=
  match p with
  | .queued | .held _ => False
  | .callingOpen | .callingWithdraw | .connWithdraw _ | .parked _ | .withdrawing _ => st = .busReset
  | .connOpen _ r =>
    if r.localFault then st = .localFault
    else if bodyKind b = .fetch ∧ r.parityFail = true then st = .busReset
    else match r.outcome with
      | some (.final f) => st = f.status
      | some .ok => st = if bodyKind b = .fetch ∧ r.drained = false then .busReset else .ok
      | some .park | some .requeue | some (.retry _) | none => st = .busReset
  | .connResume _ r =>
    if r.localFault then st = .localFault
    else match r.outcome with
      | some .remoteFault => st = .remoteFault
      | some .localFault => st = .localFault
      | some .cancelled => st = .cancelled
      | some .accepted => st = if b.bytesDone = b.length ∧ r.drained = true then .ok else .busReset
      | some .resend | none => st = .busReset

end Sys2Proof.Machine
end

