-- ==== Sys2Proof/WellFormed.lean ====
section
/-! DEFINITION. Which commands can be spelled: the operands that an event of the table can carry. -/

namespace Sys2Proof

/-- The offsets whose writes are ignored: REPORT, INBOX, STATE and 1Ch (R164, R184). -/
def ignoredOffsets : List (BitVec 5) := [0x08, 0x0C, 0x10, 0x1C]

/-- A read delivers whole words, at most 16 of them (R174); an ignored write names a port that ignores writes. Every other
operand takes every value of its type. -/
def WellFormed : Instr → Bool
  | .ignoredWrite offset _ => ignoredOffsets.contains offset
  | .memoryTransactionComplete (.ok data) => data.length % 4 == 0 && data.length ≤ 64
  | .memoryTransactionComplete .fault => true
  | .deviceReset _ | .idleTimerExpiry | .wantSeenInIdle | .busyOrCallSeenInIdle | .busyNegatedSeen
  | .windowTimerExpiry _ _ | .callSeen _ _ | .answerSeen | .callTimerExpiry | .answerNegatedSeen
  | .busyNegatedAtCallee | .stallTimerExpiry | .interjectTimerExpiry | .interjectSeen | .beatLatched _ _ _
  | .takeSeen | .takeDataBeat | .strobeBeat | .bresetDetectTimerExpiry | .bresetNegated
  | .bresetDriveTimerExpiry | .orderWrite _ | .fetch | .store | .note | .swap | .setup | .join | .leave
  | .unassignedOrder | .urgentWrite _ | .cancel | .busReset | .unassignedUrgent | .holdOffExpiry _
  | .parkTimerExpiry _ | .verdictTimerExpiry | .lockedPairComplete _ _ | .reportRead | .inboxRead
  | .noticeWrite _ | .noticeMaskWrite _ | .bresetSeenAsserted | .idleTimerRestarted => true

end Sys2Proof
end

