-- ==== Sys2Proof/Certificates/Slice0/Obligations.lean ====
section
/-! DEFINITION. The statements about the station, for the provers. -/

open Sys2Proof Sys2Proof.Machine

/-! ## The machine -/

/-- A step takes the command at the front of the queue and runs it on the state with the queue's rest. -/
def Obligations.StepRunsFrontCommand : Prop :=
  ∀ (c : Instr) (q : List Instr) (s : State), step { s with pending := c :: q } = exec c { s with pending := q }

/-- The model's choice (log 2): on an empty queue half a microsecond passes. Every running timer loses it, and nothing else
changes. -/
def Obligations.EmptyQueueOnlyAgesTimers : Prop :=
  ∀ s : State, s.pending = [] → ∃ t, step s = .next t ∧
    t.bus.idleTimer = s.bus.idleTimer.map (· - 1) ∧ t.bus.windowTimer = s.bus.windowTimer.map (· - 1) ∧
    t.bus.callTimer = s.bus.callTimer.map (· - 1) ∧ t.bus.stallTimer = s.bus.stallTimer.map (· - 1) ∧
    t.bus.interjectTimer = s.bus.interjectTimer.map (· - 1) ∧ t.bus.bresetDrive = s.bus.bresetDrive.map (· - 1) ∧
    t.bus.bresetDetect = s.bus.bresetDetect.map (· - 1) ∧ t.serve.verdictTimer = s.serve.verdictTimer.map (· - 1) ∧
    (∀ u, genOf t u = genOf s u) ∧
    (∀ u b n, slotOf s u = .live b (.held n) → slotOf t u = .live b (.held (n - 1))) ∧
    (∀ u b n, slotOf s u = .live b (.parked n) → slotOf t u = .live b (.parked (n - 1))) ∧
    (∀ u b n, slotOf s u = .live b (.withdrawing n) → slotOf t u = .live b (.withdrawing (n.map (· - 1)))) ∧
    (∀ u, (∀ b n, slotOf s u ≠ .live b (.held n)) → (∀ b n, slotOf s u ≠ .live b (.parked n)) →
      (∀ b n, slotOf s u ≠ .live b (.withdrawing n)) → slotOf t u = slotOf s u) ∧
    { t with
      bus := { t.bus with
        idleTimer := s.bus.idleTimer, windowTimer := s.bus.windowTimer, callTimer := s.bus.callTimer,
        stallTimer := s.bus.stallTimer, interjectTimer := s.bus.interjectTimer, bresetDrive := s.bus.bresetDrive,
        bresetDetect := s.bus.bresetDetect }
      serve := { t.serve with verdictTimer := s.serve.verdictTimer }
      launch := { t.launch with entries := s.launch.entries } } = s

/-- What the commands leave alone. Every command but a device reset answers a next state, and each register of the Local Port,
of the Station Controller and of the bus changes only at the commands named for it; a notice is cleared only by a write to
NOTICE, and the heads of the Report queue and of the Inbox leave only by a read. The own BRESET drive ends when the station
becomes ISOLATED (R20, R72); that it stays while the station leaves a tenure or becomes OFFLINE is the model's choice (log 35).
-/
def Obligations.RegistersChangeOnlyAtTheirCommands : Prop :=
  ∀ (i : Instr) (s : State), (∀ a, i ≠ .deviceReset a) → ∃ t, exec i s = .next t ∧
    (t.pending = s.pending ∧ t.station.strap = s.station.strap) ∧
    ((∀ w, i ≠ .orderWrite w) → t.port.assembly = s.port.assembly) ∧
    ((∀ w, i ≠ .noticeMaskWrite w) → t.port.mask = s.port.mask) ∧
    ((∀ w, i ≠ .noticeWrite w) → t.port.notice ||| s.port.notice = t.port.notice) ∧
    (i ≠ .reportRead → t.port.reportPos = s.port.reportPos ∧ s.port.reports <+: t.port.reports) ∧
    (i ≠ .inboxRead → t.port.inboxPos = s.port.inboxPos ∧ s.port.inbox <+: t.port.inbox) ∧
    (i ≠ .inboxRead → i ≠ .takeDataBeat → i ≠ .takeSeen →
      t.port.inbox = s.port.inbox ∧ t.serve.noteMemo = s.serve.noteMemo) ∧
    (i ≠ .reportRead → i ≠ .inboxRead → t.port.readData = s.port.readData) ∧
    ((∀ w, i ≠ .urgentWrite w) → i ≠ .cancel → i ≠ .busReset → i ≠ .unassignedUrgent →
      t.port.urgent = s.port.urgent) ∧
    ((∀ w, i ≠ .orderWrite w) → (∀ r, i ≠ .memoryTransactionComplete r) →
      i ∉ [.fetch, .store, .note, .swap, .setup, .join, .leave, .unassignedOrder] → t.port.fifo = s.port.fifo) ∧
    ((∀ r, i ≠ .memoryTransactionComplete r) → t.station.setup = s.station.setup) ∧
    ((∀ r, i ≠ .memoryTransactionComplete r) →
      i ∉ [.setup, .join, .leave, .unassignedOrder, .cancel, .busReset, .unassignedUrgent] →
      t.station.lastResult = s.station.lastResult) ∧
    ((∀ w d, i ≠ .windowTimerExpiry w d) → t.bus.nextGrantee = s.bus.nextGrantee) ∧
    ((∀ w d, i ≠ .windowTimerExpiry w d) → i ≠ .bresetDetectTimerExpiry → t.bus.spent = s.bus.spent) ∧
    (i ≠ .busReset → i ≠ .bresetDriveTimerExpiry →
      resetDrive t = resetDrive s ∨ t.station.state = .isolated ∧ resetDrive t = (false, none)) ∧
    (i ≠ .busReset → i ≠ .bresetDriveTimerExpiry → (∀ d dp mark, i ≠ .beatLatched d dp mark) →
      i ∉ [.answerNegatedSeen, .interjectTimerExpiry, .takeSeen] → resetDrive t = resetDrive s) ∧
    (i ≠ .bresetSeenAsserted → i ≠ .bresetNegated →
      t.bus.bresetSeen = s.bus.bresetSeen ∧ (i ≠ .bresetDetectTimerExpiry → t.bus.bresetDetect = s.bus.bresetDetect)) ∧
    ((∀ r w, i ≠ .lockedPairComplete r w) → t.serve.swapMemo = s.serve.swapMemo)

/-- What the commands leave alone in the tables. FREE and REPORTED entries, generations and the acceptance count change only at
intake and at the read of a report (R75, R83, R84); a transaction issued stays issued, and a grant stands, until the
transaction completes (R175, R176). That this holds at the expiry of the verdict timer too, of a locked pair presented that
waits for the grant, is the model's reading (log 18). -/
def Obligations.TablesKeepWhatIsSettled : Prop :=
  ∀ (i : Instr) (s : State), (∀ a, i ≠ .deviceReset a) → ∃ t, exec i s = .next t ∧
    ((∀ r, i ≠ .memoryTransactionComplete r) → i ∉ [.fetch, .store, .note, .swap] →
      t.launch.accCount = s.launch.accCount ∧
      ∀ u, genOf t u = genOf s u ∧ (slotOf s u = .free → slotOf t u = .free)) ∧
    (i ≠ .reportRead → ∀ u b st, slotOf s u = .reported b st → slotOf t u = .reported b st) ∧
    ((∀ r, i ≠ .memoryTransactionComplete r) → (∀ r w, i ≠ .lockedPairComplete r w) →
      (∀ c x, txnOf s c = some x → txnOf t c = some x) ∧
      ∀ c, s.mem.granted = some c →
        t.mem.granted = some c ∧ t.mem.pointer = s.mem.pointer ∧ t.mem.lock = s.mem.lock)

/-! ## Device reset -/

/-- R73 with the tables of R2, R38, R89, R112, R131, R173 and R179. -/
def Obligations.DeviceResetGivesStatedState : Prop :=
  ∀ (a : Addr) (s : State), ∃ t, exec (.deviceReset a) s = .next t ∧
    (t.station.state = .offline ∧ t.station.strap = a ∧ t.station.setup = none ∧ t.station.lastResult = .none) ∧
    (t.bus.view = .active ∧ t.bus.idleTimer = none ∧ t.bus.windowTimer = none ∧ t.bus.contending = false ∧
      t.bus.spent = false ∧ t.bus.claims = ⟨false, false, false⟩ ∧ t.bus.nextGrantee = .launch ∧
      t.bus.tenure = .none ∧ t.bus.callTimer = none ∧ t.bus.stallTimer = none ∧ t.bus.interjectTimer = none ∧
      t.bus.bresetDrive = none ∧ t.bus.bresetDetect = none ∧ t.bus.runs = [] ∧ t.bus.outbound = [] ∧
      t.bus.count = 0 ∧ t.bus.capture = [] ∧ t.bus.rx = [] ∧ t.bus.drive = Drive.released) ∧
    (∀ b, termsOf t b = none) ∧
    ((∀ u, slotOf t u = .free ∧ genOf t u = 0) ∧ t.launch.queue = [] ∧ t.launch.accCount = 0 ∧
      t.launch.intake = none ∧ t.launch.outJob = none) ∧
    (t.serve.parkQueue = [] ∧ t.serve.staging = [] ∧ t.serve.fill = none ∧ t.serve.resume = none ∧
      t.serve.service = none ∧ t.serve.reserved = false ∧ t.serve.swapStage = none ∧
      (∀ b, swapMemoOf t b = none) ∧ (∀ b : Addr, t.serve.noteMemo[b.toNat]'b.isLt = none) ∧
      t.serve.verdictTimer = none) ∧
    (t.port.assembly = [] ∧ t.port.fifo = [] ∧ t.port.urgent = .empty ∧ t.port.reports = [] ∧ t.port.reportPos = 0 ∧
      t.port.inbox = [] ∧ t.port.inboxPos = 0 ∧ t.port.notice = 0 ∧ t.port.mask = 0 ∧ lint t = false) ∧
    (t.mem.pointer = .serve ∧ t.mem.lock = false ∧ t.mem.granted = none ∧ ∀ c, txnOf t c = none)

/-- The state right after reset is the one that a device reset gives (its strap address 0 is the model's choice, log 4), and
every invariant stated below holds in it. -/
def Obligations.InvariantsHoldAtReset : Prop :=
  exec (.deviceReset 0) State.reset = .next State.reset ∧ ReportsExact State.reset ∧ QueueExact State.reset ∧
    ClaimsExact State.reset ∧ DrainEnded State.reset ∧ InboxBounded State.reset ∧ PortCounts State.reset ∧
    TransitBounded State.reset ∧ GrantExact State.reset ∧ SetupValid State.reset ∧ AttemptsBounded State.reset ∧
    OwnTermsUnknown State.reset ∧ IsolatedSilent State.reset

/-! ## The Local Port -/

/-- R165 and section 12.3: a word joins the assembly below seven words; the eighth commits the order of the eight words
written, or discards it with ORDER_REFUSED. The word count is shown on STATE. -/
def Obligations.OrderWriteAssemblesAndCommits : Prop :=
  ∀ (w : Word) (s : State),
    (s.port.assembly.length < 7 →
      exec (.orderWrite w) s = .next { s with port.assembly := s.port.assembly ++ [w] }) ∧
    (∀ a b c d e f g, s.port.assembly = [a, b, c, d, e, f, g] → s.port.fifo.length < 8 →
      exec (.orderWrite w) s = .next { s with
        port.assembly := []
        port.fifo := s.port.fifo ++ [⟨a, b, c, d, e, f, g, w⟩] }) ∧
    (s.port.assembly.length = 7 → 8 ≤ s.port.fifo.length → ∃ t, exec (.orderWrite w) s = .next t ∧
      t = { s with port.assembly := [], port.notice := t.port.notice } ∧
      (∀ n, noticeSet n t = (noticeSet n s || n == .orderRefused))) ∧
    (stateWord s).extractLsb' 16 3 = BitVec.ofNat 3 s.port.assembly.length

/-- R167: the urgent slot takes two words, and refuses a third with URGENT_REFUSED. -/
def Obligations.UrgentWriteFillsTheSlot : Prop :=
  ∀ (w : Word) (s : State),
    (s.port.urgent = .empty → exec (.urgentWrite w) s = .next { s with port.urgent := .one w }) ∧
    (∀ w0, s.port.urgent = .one w0 → exec (.urgentWrite w) s = .next { s with port.urgent := .occupied w0 w }) ∧
    (∀ w0 w1, s.port.urgent = .occupied w0 w1 → ∃ t, exec (.urgentWrite w) s = .next t ∧
      t = { s with port.notice := t.port.notice } ∧ ∀ n, noticeSet n t = (noticeSet n s || n == .urgentRefused)) ∧
    (∀ r, takeUrgent r s = { s with port.urgent := .empty, station.lastResult := r }) ∧
    (stateWord s).extractLsb' 9 1 = BitVec.ofBool (urgentOccupied s.port.urgent)

/-- R168 and R84: a read of REPORT returns word k of the head record; the read of word 3 removes the record and frees its
entry, which keeps its generation; an empty queue returns the all-zero word. -/
def Obligations.ReportReadTakesOneWord : Prop :=
  ∀ s : State,
    (s.port.reports = [] → s.port.reportPos = 0 →
      exec .reportRead s = .next { s with port.readData := 0 }) ∧
    (∀ r rs, s.port.reports = r :: rs → s.port.reportPos < 3 →
      exec .reportRead s = .next { s with
        port.readData := reportWord r s.port.reportPos
        port.reportPos := s.port.reportPos + 1 }) ∧
    (∀ r rs, s.port.reports = r :: rs → s.port.reportPos = 3 → ∃ t, exec .reportRead s = .next t ∧
      t = { s with
        port.readData := reportWord r 3
        port.reportPos := 0
        port.reports := rs
        launch.entries := t.launch.entries } ∧
      slotOf t r.tag = .free ∧ genOf t r.tag = genOf s r.tag ∧
      ∀ u, u ≠ r.tag → slotOf t u = slotOf s u ∧ genOf t u = genOf s u)

/-- R169: a read of INBOX returns word k of the head record of 1 + ⌈L/4⌉ words; the last read removes it; bytes beyond the
length read as 0; an empty Inbox returns a header of length 0. -/
def Obligations.InboxReadTakesOneWord : Prop :=
  ∀ s : State,
    (s.port.inbox = [] → s.port.inboxPos = 0 → exec .inboxRead s = .next { s with port.readData := 0 }) ∧
    (∀ a rest, s.port.inbox = a :: rest → s.port.inboxPos + 1 < 1 + (a.payload.length + 3) / 4 →
      exec .inboxRead s = .next { s with
        port.readData := arrivalWord a s.port.inboxPos
        port.inboxPos := s.port.inboxPos + 1 }) ∧
    (∀ a rest, s.port.inbox = a :: rest → s.port.inboxPos + 1 = 1 + (a.payload.length + 3) / 4 →
      exec .inboxRead s = .next { s with
        port.readData := arrivalWord a s.port.inboxPos
        port.inboxPos := 0
        port.inbox := rest }) ∧
    (∀ a : Arrival, a.payload.length ≤ 64 →
      (arrivalWord a 0).extractLsb' 0 4 = a.source ∧ (arrivalWord a 0).extractLsb' 8 5 = a.tag ∧
        (arrivalWord a 0).extractLsb' 16 4 = a.gen ∧
        ((arrivalWord a 0).extractLsb' 24 7).toNat = a.payload.length ∧
        ∀ j k, k < 4 → (arrivalWord a (j + 1)).extractLsb' (8 * k) 8 = a.payload.getD (4 * j + k) 0)

/-- R171 and R172: a write to NOTICE clears each flag whose bit is 1 and leaves the others, and everything else; a write to
NOTICE_MASK replaces the six mask bits; LINT is asserted exactly while a notice is set and enabled. -/
def Obligations.NoticeAndMaskWrites : Prop :=
  (∀ (w : Word) (s : State), ∃ t, exec (.noticeWrite w) s = .next t ∧ t = { s with port.notice := t.port.notice } ∧
    ∀ k : Fin 6, t.port.notice.getLsbD k = (s.port.notice.getLsbD k && !w.getLsbD k)) ∧
  (∀ (w : Word) (s : State), exec (.noticeMaskWrite w) s = .next { s with port.mask := w.extractLsb' 0 6 }) ∧
  ∀ s : State, noticeMaskWord s = s.port.mask.setWidth 32 ∧ noticeWord s = s.port.notice.setWidth 32 ∧
    (lint s = true ↔ ∃ n : Notice, noticeSet n s = true ∧ s.port.mask &&& n.bit ≠ 0)

/-- R164, R170, R184 and section 12.5: a write to REPORT, INBOX, STATE or offset 1Ch changes nothing; the fields of the word
of STATE, and of the four words of a report record, whose status code is never 0; the unassigned bits of STATE read as 0. -/
def Obligations.IgnoredWriteAndReadWords : Prop :=
  (∀ (o : BitVec 5) (w : Word) (s : State), WellFormed (.ignoredWrite o w) = true →
    exec (.ignoredWrite o w) s = .next s) ∧ zeroWord = 0 ∧
  (∀ s : State, (stateWord s).getLsbD 3 = false ∧ (stateWord s).getLsbD 19 = false ∧
    (stateWord s).getLsbD 31 = false) ∧
  (∀ r : Report, (reportWord r 0).extractLsb' 0 8 ≠ 0#8) ∧
  (∀ s : State,
    (stateWord s).extractLsb' 0 3 = s.station.state.code ∧ (stateWord s).extractLsb' 4 4 = s.station.strap ∧
    (stateWord s).extractLsb' 8 1 = BitVec.ofBool s.station.setup.isSome ∧
    (stateWord s).extractLsb' 10 2 = s.station.lastResult.code ∧
    (stateWord s).extractLsb' 12 4 = BitVec.ofNat 4 (8 - s.port.fifo.length) ∧
    (stateWord s).extractLsb' 20 6 = BitVec.ofNat 6 s.port.reports.length ∧
    (stateWord s).extractLsb' 26 5 = BitVec.ofNat 5 s.port.inbox.length) ∧
  ∀ r : Report, r.attempts ≤ 7 → r.bytesDone ≤ 4096 →
    (reportWord r 0).extractLsb' 0 8 = r.status.code ∧ (reportWord r 0).extractLsb' 8 5 = r.tag ∧
    (reportWord r 0).extractLsb' 16 4 = r.gen ∧ (reportWord r 0).extractLsb' 20 4 = r.kind.orderCode ∧
    (reportWord r 0).extractLsb' 24 4 = r.peer ∧ ((reportWord r 0).extractLsb' 28 3).toNat = r.attempts ∧
    (reportWord r 1).toNat = r.bytesDone ∧ reportWord r 2 = r.result.old ∧
    reportWord r 3 = BitVec.ofNat 32 r.result.success.toNat

/-! ## Frames -/

/-- Section 12.2 with R23, R24, R25 and R180: every frame that a layout can carry has 2 to 12 beats, its first beat states
their number, and it is read back from its beats with no field dropped. -/
def Obligations.FrameDecodesItsEncoding : Prop :=
  ∀ f : Frame, f.carried = true → decodeFrame f.encode = some f ∧ 2 ≤ f.encode.length ∧ f.encode.length ≤ 12 ∧
    ∀ d rest, f.encode = d :: rest → frameBeats d = f.encode.length

/-- The table of R43: the verdict kinds that a course permits with INTERJECT negated. R8, R16, R27, R43, R49 to R51, R95 to
R98, R108, R116, R117, R155 and R181: a frame taken whole at a caller. Damaged or ill-fitting, it finishes the course, hands CHECK
and leads to an interject, always (log 10), and no field of it is used; a verdict that arrives where none is due does not fit
(log 14). A fitting verdict writes the terms it carries and begins the run or
decides the outcome. R99 to R101: PROCEED for a FETCH appends the item of the entry's segments, from segment 0, offset 0 on, to
the inbound list; for a STORE or NOTE it opens the outbound job at the same place, whose first read is presented there once the
data mover and the transit buffer are free. That this read takes all of the segment that lies in one aligned block, and waits for
room alone, are the model's choices (logs 46 and 16). Under INTERJECT a fitting verdict is not handed, and a closing one finishes
the course (log 30). -/
def Obligations.VerdictsPermittedByTheCourse : Prop :=
  (∀ (o : OpenHead) (k : VerdictKind),
    (permittedKind (.openX o) true k = true ↔
      (k = .proceed ∧ o.kind ≠ .swap) ∨ (k = .park ∧ o.kind = .fetch) ∨ (∃ r, k = .refuse r) ∨
        ((∃ r, k = .done r) ∧ o.kind = .swap)) ∧
    (permittedKind (.openX o) false k = true ↔ (∃ r, k = .done r) ∧ o.kind ≠ .swap)) ∧
  (∀ (h : ResumeHead) (k : VerdictKind),
    (permittedKind (.resume h) true k = true ↔
      (k = .proceed ∧ h.chunkLength ≠ 0) ∨ (k = .accept ∧ h.chunkLength = 0) ∨ k = .stale ∨ k = .withdrawn ∨
        k = .refuse .check) ∧
    (permittedKind (.resume h) false k = true ↔
      h.chunkLength ≠ 0 ∧ (k = .accept ∨ k = .resend ∨ k = .withdrawn))) ∧
  (∀ (h : WithdrawHead) (k : VerdictKind),
    (permittedKind (.withdraw h) true k = true ↔ k = .cleared ∨ k = .refuse .check) ∧
    permittedKind (.withdraw h) false k = false) ∧
  (∀ (a b : Addr) (first : Bool) (k : VerdictKind), permittedKind (.probe a b) first k = false) ∧
  ∀ (d : Beat) (dp : BitVec 2) (s : State) (c : Caller) (h : Head) (f : Option Frame),
    s.bus.tenure = .caller c → c.answered = true → c.sent = some h → CompletesFrame s d dp f →
    (∀ r, s.bus.run = some r → r.sending = true) →
    ∃ t, exec (.beatLatched d dp true) s = .next t ∧ t.bus.takesGiven = s.bus.takesGiven + 1 ∧
      (¬ FittingFrame s c h f →
        t.bus.tenure = .caller { c with finished := true } ∧ t.bus.drive.interject = true ∧ t.terms = s.terms ∧
        (s.bus.drive.interject = false →
          t.bus.interjectTimer = some interjectTime ∧ t.bus.run = none ∧ t.bus.tx = none ∧ t.bus.capture = []) ∧
        FaultHanded s t c .check) ∧
      ∀ v, f = some (.verdict v) → FittingFrame s c h f →
        (s.bus.drive.interject = false →
          t.bus.tenure = .caller { c with
            finished := v.kind != .proceed, point := if v.kind = .proceed then .running else c.point } ∧
          t.bus.drive.interject = false ∧
          (v.kind ≠ .refuse .terms → ∀ a, termsOf t a =
            if a = c.called ∧ a ≠ s.station.strap ∧ v.terms.isSome then
              v.terms.map fun m => min (setupOf s).paceMax m.toNat
            else termsOf s a) ∧
          (∀ u b o r, c.grantee = .launch u → slotOf s u = .live b (.connOpen o r) → r.ended = false →
            OpenVerdictRead s t u b o r v) ∧
          (∀ u b, c.grantee = .launch u → slotOf s u = .live b (.connWithdraw none) →
            (v.kind = .cleared → slotOf t u = .live b (.connWithdraw (some .cleared))) ∧
            (v.kind = .refuse .check → slotOf t u = .live b (.connWithdraw (some (.failed .check))))) ∧
          ∀ r, c.grantee = .serve → s.serve.resume = some r → ResumeVerdictRead t h r v) ∧
        (s.bus.drive.interject = true →
          t.bus.tenure = .caller { c with
            finished := c.finished || v.kind != .proceed, point := if v.kind = .proceed then .second else c.point } ∧
          t.bus.drive.interject = true ∧ t.terms = s.terms ∧ t.bus.run = s.bus.run ∧
          (∀ u b o r, slotOf s u = .live b (.connOpen o r) → r.ended = false → ConnOpenIs t u b o r) ∧
          (∀ u b o, slotOf s u = .live b (.connWithdraw o) → slotOf t u = slotOf s u) ∧
          ∀ r, s.serve.resume = some r → ∃ m, t.serve.resume = some ⟨r.outcome, m⟩)

/-! ## The bus view and arbitration -/

/-- R3 and R4: at the end of the idle interval, and when WANT is seen in IDLE, a window opens; a station that contends joins
it. At the idle interval the claims are judged afresh; in IDLE they are those that stand. That the expiry is taken whatever the
timer has left, and only while this station drives none of BUSY, CALL and WANT, is the model's choice (log 3). -/
def Obligations.WindowOpensFromIdle : Prop :=
  (∀ s : State, s.bus.view = .active ∨ s.bus.view = .settling →
    s.bus.drive.busy = false → s.bus.drive.call = false → s.bus.drive.want = false → s.bus.tenure = .none →
    ∃ t, exec .idleTimerExpiry s = .next t ∧ WindowOpened s t (claimed s && mayContend s.station.state)) ∧
  ∀ s : State, s.bus.view = .idle → roleOf s = .none → ∃ t, exec .wantSeenInIdle s = .next t ∧
    WindowOpened s t ((s.bus.claims.launch || s.bus.claims.serve || s.bus.claims.probe) && mayContend s.station.state)

/-- R3: BUSY or CALL seen in IDLE makes the view ACTIVE; BUSY seen negated takes ACTIVE to SETTLING with the idle timer
started; a line seen asserted in ACTIVE or SETTLING starts the idle timer again. Nothing at the Local Port or in the tables
changes. -/
def Obligations.ViewFollowsTheBus : Prop :=
  ∀ s : State,
    (s.bus.view = .idle → ∃ t, exec .busyOrCallSeenInIdle s = .next t ∧ t.bus.view = .active ∧
      t.bus.idleTimer = none ∧
      t = { s with bus := { s.bus with
        view := .active, idleTimer := none, observed := t.bus.observed, rx := t.bus.rx } }) ∧
    (s.bus.view = .active → s.bus.drive.busy = false → s.bus.drive.call = false →
      ∃ t, exec .busyNegatedSeen s = .next t ∧ t.bus.view = .settling ∧ t.bus.idleTimer = some idleTime ∧
        t.bus.spent = s.bus.spent ∧ t.port.inbox = s.port.inbox ∧ t.port.fifo = s.port.fifo ∧
        s.port.reports <+: t.port.reports) ∧
    (s.bus.view = .active ∨ s.bus.view = .settling →
      exec .idleTimerRestarted s = .next { s with bus.idleTimer := some idleTime })

/-- R5 and R6: the four ends of a window. The lines are wired from this station's own and the others' (R1). A station that
contends once the view is IDLE opens the next window at once (R4). -/
def Obligations.WindowEndsFourWays : Prop :=
  ∀ (want : Bool) (d : Beat) (s : State), s.bus.view = .window → s.bus.tenure = .none →
    ∃ t, exec (.windowTimerExpiry want d) s = .next t ∧
      ((want || s.bus.drive.want) = false → t.bus.spent = s.bus.spent ∧
        ((t.bus.view = .idle ∧ t.bus.contending = false ∧ contends t = false) ∨
          (t.bus.view = .window ∧ t.bus.windowTimer = some windowTime ∧ t.bus.contending = true ∧
            t.bus.drive.want = true))) ∧
      ((want || s.bus.drive.want) = true → d ||| s.bus.drive.d = 0 →
        t.bus.spent = false ∧ t.bus.view = .window ∧ t.bus.windowTimer = some windowTime ∧
        t.bus.contending = (claimed s && mayContend s.station.state) ∧ t.bus.drive.want = t.bus.contending ∧
        t.bus.drive.d = if t.bus.contending then 1#16 <<< s.station.strap.toNat else 0) ∧
      ((want || s.bus.drive.want) = true → s.bus.contending = true →
        s.bus.drive.d = 1#16 <<< s.station.strap.toNat → highestLine (d ||| s.bus.drive.d) s.station.strap →
        t.bus.spent = true ∧ t.bus.contending = false ∧ t.bus.drive.want = false ∧
        ((∃ c, t.bus.tenure = .caller c ∧ c.answered = false ∧ CallStands t c.called) ∨
          (t.bus.tenure = .none ∧ t.bus.drive.busy = false ∧ t.bus.view = .settling))) ∧
      ((want || s.bus.drive.want) = true → d ||| s.bus.drive.d ≠ 0 →
        ¬ (s.bus.contending = true ∧ s.bus.drive.d = 1#16 <<< s.station.strap.toNat ∧
            highestLine (d ||| s.bus.drive.d) s.station.strap) →
        t.bus.view = .active ∧ t.bus.spent = s.bus.spent ∧ t.bus.contending = false ∧ t.bus.drive.want = false ∧
          t.bus.drive.d = 0 ∧ t.bus.tenure = .none)

/-- R7, R9, R63, R88 and R115: the winner grants its tenure to the probe, or to the only client with something to claim, or
of two to the one that next grantee names, and calls the callee that the grantee names; with none the tenure is empty. R38: the
capture stage and the frame register start empty, the count 0. -/
def Obligations.WinnerGrantsAndCalls : Prop :=
  ∀ (want : Bool) (d : Beat) (s : State), s.bus.view = .window → s.bus.tenure = .none →
    (want || s.bus.drive.want) = true → s.bus.contending = true →
    s.bus.drive.d = 1#16 <<< s.station.strap.toNat → highestLine (d ||| s.bus.drive.d) s.station.strap →
    ∃ t, exec (.windowTimerExpiry want d) s = .next t ∧ t.bus.spent = true ∧ t.bus.capture = [] ∧ t.bus.rx = [] ∧
      t.bus.count = 0 ∧
      (s.station.state = .joining .waiting →
        t.bus.tenure = .caller ⟨.probe, s.station.strap, false, false, .head, none⟩ ∧
        t.station.state = .joining .calling ∧ t.bus.nextGrantee = s.bus.nextGrantee ∧
        CallStands t s.station.strap) ∧
      (s.station.state ≠ .joining .waiting →
        (∀ u b p, choice s = some u → slotOf s u = .live b p → headReady s = false ∨ s.bus.nextGrantee = .launch →
          t.bus.tenure = .caller ⟨.launch u, b.peer, false, false, .head, none⟩ ∧ t.bus.nextGrantee = .serve ∧
          (p = .queued → slotOf t u = .live b .callingOpen) ∧
          (p = .withdrawing none → slotOf t u = .live b .callingWithdraw) ∧ CallStands t b.peer) ∧
        (∀ e es, s.serve.parkQueue = e :: es → headReady s = true →
          choice s = none ∨ s.bus.nextGrantee = .serve →
          t.bus.tenure = .caller ⟨.serve, e.requester, false, false, .head, none⟩ ∧
          t.bus.nextGrantee = .launch ∧ CallStands t e.requester) ∧
        (choice s = none → headReady s = false →
          t.bus.tenure = .none ∧ t.bus.drive.busy = false ∧ t.bus.view = .settling ∧
          t.bus.idleTimer = some idleTime))

/-! ## The launch queue -/

/-- R86 and R87: the two conditions of eligibility; the choice is the first WITHDRAWING entry of the queue without a
hold-off, otherwise the first eligible QUEUED entry, otherwise none. Which of two numbers counts as earlier is the comparison of
R76, with its one open point (log 42); this statement rests on no choice of it. -/
def Obligations.ChoiceFollowsTheRule : Prop :=
  (∀ (s : State) (b : Body), eligible s b = true ↔
    (∀ u c p, slotOf s u = .live c p → c.peer = b.peer → earlier c.acc b.acc = true →
      p ≠ .queued ∧ ∀ n, p ≠ .held n) ∧
    (b.work = .note true → ∀ u c p, slotOf s u = .live c p → c.peer = b.peer → earlier c.acc b.acc = true →
      bodyKind c ≠ .store)) ∧
  ∀ s : State,
    (∀ u, choice s = some u → u ∈ s.launch.queue ∧
      ((∃ b, slotOf s u = .live b (.withdrawing none)) ∨
        (∃ b, slotOf s u = .live b .queued ∧ eligible s b = true) ∧
          ∀ v ∈ s.launch.queue, ∀ c, slotOf s v ≠ .live c (.withdrawing none))) ∧
    (∀ l u r, s.launch.queue = l ++ u :: r → (∃ b, slotOf s u = .live b (.withdrawing none)) →
      (∀ v ∈ l, ∀ c, slotOf s v ≠ .live c (.withdrawing none)) → choice s = some u) ∧
    (∀ l u r b, s.launch.queue = l ++ u :: r → slotOf s u = .live b .queued → eligible s b = true →
      (∀ v ∈ s.launch.queue, ∀ c, slotOf s v ≠ .live c (.withdrawing none)) →
      (∀ v ∈ l, ∀ c, slotOf s v = .live c .queued → eligible s c = false) → choice s = some u)

/-- R76 and R83: of two acceptance numbers less than half the range apart the one taken first is the smaller, by their
difference modulo 2^32; several entries that complete at one event complete in increasing order of acceptance number. That of two
numbers exactly 2^31 apart neither is the smaller is the model's choice (log 42). -/
def Obligations.LiveTagsRankByAcceptance : Prop :=
  (∀ (a : BitVec 32) (n : Nat), 1 ≤ n → n < 2 ^ 31 →
    earlier a (a + BitVec.ofNat 32 n) = true ∧ earlier (a + BitVec.ofNat 32 n) a = false ∧ earlier a a = false) ∧
  (∀ a : BitVec 32, earlier a (a + BitVec.ofNat 32 (2 ^ 31)) = false) ∧
  ∀ (s : State) (base : BitVec 32),
    (∀ u, (liveOf s u).isSome → (accOf s u - base).toNat < 2 ^ 31) →
    (∀ u, u ∈ liveByAcc s ↔ (liveOf s u).isSome) ∧ (liveByAcc s).Nodup ∧
      (liveByAcc s).Pairwise fun u v => (accOf s u - base).toNat ≤ (accOf s v - base).toNat

/-! ## Completion -/

/-- R83 and R108: completing an entry in service; a SWAP whose head was delivered and that has taken no DONE is
INDETERMINATE whatever the status given, its first attempt starts with neither mark, and a DONE of any reason sets the second
mark for good, and its mark in the tenure record. -/
def Obligations.CompletionAppliesIndeterminate : Prop :=
  (∀ (s : State) (u : Tag) (b : Body) (p : Phase) (st : Status), slotOf s u = .live b p →
    slotOf (complete u st s) u = .reported { b with work := reportedWork b.work } (finalStatus b.work st) ∧
    (complete u st s).port.reports = s.port.reports ++ [reportOf u (genOf s u) b (finalStatus b.work st)] ∧
    u ∉ (complete u st s).launch.queue ∧ noticeSet .reportReady (complete u st s) = true ∧
    (∀ v, v ≠ u → slotOf (complete u st s) v = slotOf s v) ∧ ∀ v, genOf (complete u st s) v = genOf s v) ∧
  (∀ (ops : SwapOps) (x y : Bool) (r : Option SwapResult) (st : Status),
    finalStatus (.swap ops x y r) st = if x && !y then .indeterminate else st) ∧
  (∀ (w : Work) (st : Status), workKind w ≠ .swap → finalStatus w st = st) ∧
  (∀ o, workOfOrder .swap o = .swap o.ops false false none) ∧
  ∀ (v : Verdict) (b : Body) (ops : SwapOps) (x y : Bool) (r : Option SwapResult), b.work = .swap ops x y r →
    (∃ d, v.kind = .done d) → (∃ r', (noteDone v b).work = .swap ops x true r') ∧
      OpenRecord.fresh.doneTaken = false ∧ ∀ q : OpenRecord, (q.noteDone v).doneTaken = true

/-! ## Calls -/

/-- R10: a call is answered exactly when the call word has good parity and names this station, the tenure role is NONE, and
the station is ONLINE or DRAINING. The role is NONE also at a callee that has sent its closing verdict (R8), and such a
tenure ends at the call, as the model reads R8 and R14 (log 9). -/
def Obligations.CallAnsweredExactlyWhenOwn : Prop :=
  ∀ (word : Beat) (dp : BitVec 2) (s : State), ∃ t, exec (.callSeen word dp) s = .next t ∧
    (parityGood word dp = true → word.extractLsb' 0 4 = s.station.strap → roleOf s = .none →
      s.station.state = .online ∨ s.station.state = .draining →
      t.bus.tenure = .callee ⟨word.extractLsb' 8 4, false, false, none, 0, 0, false, false⟩ ∧
      t.bus.drive.answer = true ∧ t.bus.stallTimer = some stallTime) ∧
    (roleOf s = .none →
      ¬ (parityGood word dp = true ∧ word.extractLsb' 0 4 = s.station.strap ∧
        (s.station.state = .online ∨ s.station.state = .draining)) →
      t.bus.tenure = .none ∧ t.bus.drive.answer = s.bus.drive.answer) ∧
    (roleOf s ≠ .none → t.bus.tenure = s.bus.tenure ∧ t.bus.drive.answer = s.bus.drive.answer)

/-- R11, R46, R92 and R93: the answer for an entry CALLING with tenure OPEN: CONNECTED, bytes done 0, a fresh tenure record,
and its OPEN head is sent, with terms exactly while the peer's entry is UNKNOWN. -/
def Obligations.AnswerSendsTheOpenHead : Prop :=
  ∀ (s : State) (c : Caller) (u : Tag) (b : Body), s.bus.tenure = .caller c → c.answered = false →
    s.bus.callTimer ≠ none → c.grantee = .launch u → slotOf s u = .live b .callingOpen → b.cancel = false →
    ∃ t h, exec .answerSeen s = .next t ∧ IsOpenHeadOf s u b h ∧ SendsFrame t (.head (.openX h)) ∧
      t.bus.tenure = .caller { c with answered := true, sent := some (.openX h) } ∧
      t.bus.callTimer = none ∧ t.bus.drive.call = false ∧
      (s.bus.drive.interject = false → t.bus.stallTimer = some stallTime) ∧
      (¬ draining s u →
        slotOf t u = .live { b with bytesDone := 0 } (.connOpen (termsOf s b.peer).isNone OpenRecord.fresh)) ∧
      (∀ v, v ≠ u → ¬ draining s v → slotOf t v = slotOf s v) ∧ ∀ v, genOf t v = genOf s v

/-- R11, R42, R115, R116, R149 and R155: the answer for the other grantees: the WITHDRAW head, the RESUME head of the
park-queue head, the PROBE head; an entry CALLING with tenure OPEN whose cancel is pending ends the tenure without a head and
completes CANCELLED with bytes done 0. -/
def Obligations.AnswerSendsTheOtherHeads : Prop :=
  ∀ (s : State) (c : Caller), s.bus.tenure = .caller c → c.answered = false → s.bus.callTimer ≠ none →
    (∀ u b, c.grantee = .launch u → slotOf s u = .live b .callingWithdraw → ∃ t, exec .answerSeen s = .next t ∧
      SendsFrame t (.head (.withdraw ⟨s.station.strap, b.peer, u, genOf s u⟩)) ∧
      slotOf t u = .live b (.connWithdraw none) ∧ t.bus.callTimer = none ∧ t.bus.drive.call = false) ∧
    (∀ e es, c.grantee = .serve → s.serve.parkQueue = e :: es → ∃ t h, exec .answerSeen s = .next t ∧
      IsResumeHeadOf s e h ∧ SendsFrame t (.head (.resume h)) ∧ t.bus.callTimer = none ∧
      t.bus.drive.call = false ∧ parkedRequests t = parkedRequests s) ∧
    (c.grantee = .probe → ∃ t, exec .answerSeen s = .next t ∧
      SendsFrame t (.head (.probe s.station.strap s.station.strap)) ∧ t.bus.callTimer = none ∧
      t.bus.drive.call = false) ∧
    (∀ u b, c.grantee = .launch u → slotOf s u = .live b .callingOpen → b.cancel = true →
      ∃ t, exec .answerSeen s = .next t ∧ OutOfTenure t ∧ t.bus.tx = none ∧
        CompletedAs s t u { b with bytesDone := 0 } .cancelled)

/-- R12, R64, R92, R105, R119, R149 and R156: a call that times out. -/
def Obligations.CallTimeoutEndsTheTenure : Prop :=
  ∀ (s : State) (c : Caller), s.bus.tenure = .caller c → c.answered = false → s.bus.callTimer ≠ none →
    ∃ t, exec .callTimerExpiry s = .next t ∧ OutOfTenure t ∧ t.bus.callTimer = none ∧ t.bus.view = .settling ∧
      t.bus.idleTimer = some idleTime ∧ t.bus.spent = s.bus.spent ∧
      (∀ u b, c.grantee = .launch u → slotOf s u = .live b .callingOpen →
        if b.cancel then CompletedAs s t u { b with bytesDone := 0 } .cancelled
        else ChargedOpen s t u b .callTimeout) ∧
      (∀ u b, c.grantee = .launch u → slotOf s u = .live b .callingWithdraw → ChargedWithdraw s t u b) ∧
      (∀ e es, c.grantee = .serve → s.serve.parkQueue = e :: es → ChargedResume s t e es) ∧
      (c.grantee = .probe → t.station.state = .online ∧ noticeSet .stateChanged t = true)

/-! ## The end of a tenure -/

/-- R13, R94, R109, R110 and R151: the end of an OPEN tenure at its caller, seen as ANSWER negated, carries its outcome out,
with the replacements of R110; an end with no outcome decided gives STALL. R13, R37 and R107: a run in progress is cut, and its
bytes taken are handed. R101 and R109: the outcome of a FETCH whose run has begun waits for run drained; while bytes of its run
are still to be written, the entry stays CONNECTED with its outcome kept. -/
def Obligations.EndCarriesOutTheOpenOutcome : Prop :=
  ∀ (s : State) (c : Caller) (u : Tag) (b : Body) (o : Bool) (r : OpenRecord), s.bus.tenure = .caller c →
    c.answered = true → c.grantee = .launch u → slotOf s u = .live b (.connOpen o r) →
    ∃ t, exec .answerNegatedSeen s = .next t ∧ OutOfTenure t ∧ t.bus.stallTimer = none ∧ OpenEndHanded s t u b o r ∧
      (∀ v, v ≠ u → ¬ draining s v → slotOf t v = slotOf s v) ∧ ∀ v, genOf t v = genOf s v

/-- R13, R155 and R156: the end of a WITHDRAW tenure at its caller: CLEARED completes the entry with its withdrawal status
(R154), anything else is charged. -/
def Obligations.EndCarriesOutTheWithdrawal : Prop :=
  (∀ (s : State) (c : Caller) (u : Tag) (b : Body) (x : Option WithdrawOutcome), s.bus.tenure = .caller c →
    c.answered = true → c.grantee = .launch u → slotOf s u = .live b (.connWithdraw x) →
    ∃ t, exec .answerNegatedSeen s = .next t ∧ OutOfTenure t ∧ WithdrawEndHanded s t u b x) ∧
  ∀ b : Body, withdrawalStatus b =
    if b.work = .fetch true then .localFault else if b.cancel then .cancelled else .parkExpired

/-- R117, R118 and R119: the end of a RESUME tenure at the responder. -/
def Obligations.EndCarriesOutTheResume : Prop :=
  ∀ (s : State) (c : Caller) (e : ParkEntry) (es : List ParkEntry) (r : ResumeTenure), s.bus.tenure = .caller c →
    c.answered = true → c.grantee = .serve → s.serve.parkQueue = e :: es → s.serve.resume = some r →
    ∃ t, exec .answerNegatedSeen s = .next t ∧ OutOfTenure t ∧ ResumeEndHanded s t e es r

/-- R14: the callee that sees BUSY negated leaves the tenure, and its service record goes with it. R129, R130 and R152: the end
of a RESUME tenure at the requester carries its outcome out; ACCEPTED of the last chunk waits for run drained. That a local
fault decides the outcome at any time before it is carried out (log 20), and that LOCAL_FAULT then waits for no drain (log 38),
is the model's choice. -/
def Obligations.CalleeLeavesWhenBusyIsNegated : Prop :=
  ∀ (s : State) (c : Callee), s.bus.tenure = .callee c → ∃ t, exec .busyNegatedAtCallee s = .next t ∧
    CalleeEndHanded s t c ∧ t.bus.stallTimer = none ∧ t.bus.tx = none ∧ t.bus.run = none ∧ t.bus.capture = [] ∧
    t.port.inbox = s.port.inbox ∧ t.port.fifo = s.port.fifo

/-- R15 and R16: at the end of the stall timer a caller interjects and hands STALL, which decides the outcome if none is
decided (R94, R117, R155), and a callee leaves the tenure and hands its end. The interject timer ends an interject: the caller
leaves the tenure, and the outcome of its OPEN (R109, R110, R151), WITHDRAW (R155, R156) or RESUME (R118, R119) is carried out;
a probe isolates the station (R65). The bytes taken of a run that the interject cuts are handed, and are the bytes done of its
entry (R16, R37, R107). Every strobe of the other party starts the stall timer again from zero, also one that this party
neither takes nor latches (R15). That a local fault decides the outcome of a RESUME tenure at any time before it is carried out
(log 20), and that LOCAL_FAULT then waits for no drain (log 38), is the model's choice. -/
def Obligations.StallBreaksOffTheTenure : Prop :=
  ∀ s : State,
    (∀ c, s.bus.stallTimer ≠ none → s.bus.tenure = .caller c → s.bus.drive.interject = false →
      ∃ t, exec .stallTimerExpiry s = .next t ∧ Interjecting s t ∧ FaultHanded s t c .stall ∧
        t.bus.stallTimer = none) ∧
    (∀ c, s.bus.stallTimer ≠ none → s.bus.tenure = .callee c → ∃ t, exec .stallTimerExpiry s = .next t ∧
      CalleeEndHanded s t c ∧ t.bus.stallTimer = none) ∧
    (∀ d dp mark, (∃ c, s.bus.tenure = .caller c ∧ c.answered = true) ∨
        (∃ c, s.bus.tenure = .callee c ∧ c.finished = false) →
      ∃ t, exec (.beatLatched d dp mark) s = .next t ∧ StallFresh t) ∧
    (∀ c, s.bus.interjectTimer ≠ none → s.bus.tenure = .caller c → ∃ t, exec .interjectTimerExpiry s = .next t ∧
      CallerEndHanded s t c ∧ t.bus.interjectTimer = none ∧ t.bus.tx = none ∧ t.bus.run = none)

/-- R17: a callee that sees INTERJECT stops sending; with a whole head it sends CLEARED, without one it leaves the tenure.
That it sends CLEARED after a PROBE head too, to which R42 and R43 give no verdict, is the model's choice (log 39). -/
def Obligations.InterjectSeenIsAnswered : Prop :=
  ∀ (s : State) (c : Callee), s.bus.tenure = .callee c → c.finished = false → c.clearing = false →
    (c.headReceived = true → ∃ t, exec .interjectSeen s = .next t ∧
      SendsFrame t (.verdict ⟨.cleared, c.tag, c.gen, none, none⟩) ∧ t.bus.run = none ∧ t.bus.capture = [] ∧
      t.bus.tenure = .callee { c with clearing := true } ∧ t.bus.drive.answer = true ∧
      t.bus.takesGiven = s.bus.takesGiven ∧ t.bus.stallTimer = some stallTime) ∧
    (c.headReceived = false → ∃ t, exec .interjectSeen s = .next t ∧ OutOfTenure t)

/-- R65 and R71: an answered probe isolates the station, when its head has been sent whole (R42) or when ANSWER is seen
negated before that. R29, R66 and R71: so does an address clash in JOINING, ONLINE and DRAINING: an undamaged OPEN, RESUME or
WITHDRAW head with this station's address as source, observed outside a tenure or taken at the callee; in OFFLINE and ISOLATED
it changes nothing. -/
def Obligations.AnsweredProbeIsolates : Prop :=
  (∀ (s : State) (c : Caller), s.bus.tenure = .caller c → c.answered = true → c.grantee = .probe →
    ∃ t, exec .answerNegatedSeen s = .next t ∧ Isolated s t) ∧
  (∀ (s : State) (c : Caller) (a b : Addr), CallsOn s c → c.grantee = .probe → c.sent = some (.probe a b) →
    s.bus.tx = some ⟨.head (.probe a b), []⟩ → ∃ t, exec .takeSeen s = .next t ∧ Isolated s t) ∧
  ∀ (d : Beat) (dp : BitVec 2) (s : State) (h : Head), CompletesFrame s d dp (some (.head h)) →
    (∀ a b, h ≠ .probe a b) → h.source = s.station.strap →
    (roleOf s = .none → s.bus.observed = false → ∃ t, exec (.beatLatched d dp true) s = .next t ∧
      t.bus.takesGiven = s.bus.takesGiven ∧
      (s.station.state = .online ∨ s.station.state = .draining ∨ (∃ p, s.station.state = .joining p) → Isolated s t) ∧
      (s.station.state = .offline ∨ s.station.state = .isolated →
        t.station.state = s.station.state ∧ ∀ u, ¬ draining s u → slotOf t u = slotOf s u)) ∧
    ∀ c, Serves s c → c.headReceived = false → (∀ u b p, slotOf s u = .live b p → b.peer ≠ s.station.strap) →
      s.station.state = .online ∨ s.station.state = .draining ∨ (∃ p, s.station.state = .joining p) →
      ∃ t, exec (.beatLatched d dp true) s = .next t ∧ t.bus.takesGiven = s.bus.takesGiven + 1 ∧ Isolated s t

/-! ## Beats -/

/-- R21, R32, R33, R34 and R36: a data beat of a run that this station receives waits in the capture stage with its parity
result while it lies within the pace window and the run, and no TAKE is given yet; beyond them it is an overrun, at which a
caller interjects and hands OVERRUN, which decides the outcome if none is decided (R94, R117, R155), with the bytes taken of
the run that this cuts (R37, R107), and a callee leaves the tenure and hands its end. The upper byte of the last beat of a run
of odd length is not checked (R22). A data beat after the run is an overrun too, at a party that received it: that this holds
at a caller whether or not its course is finished (log 13), and at either party after a run that a frame ended short (log 40),
is the model's reading of R34. That a local fault decides the outcome of a RESUME tenure at any time before it is carried out
(log 20), and that LOCAL_FAULT then waits for no drain (log 38), is the model's choice. -/
def Obligations.DataBeatIsCapturedOrOverrun : Prop :=
  (∀ (d : Beat) (dp : BitVec 2) (s : State) (c : Caller) (o : OpenHead), CallsOn s c → c.sent = some (.openX o) →
    o.kind = .fetch → c.point = .second → s.bus.run = none → s.bus.rx = [] →
    ∃ t, exec (.beatLatched d dp false) s = .next t ∧ Interjecting s t ∧ FaultHanded s t c .overrun) ∧
  (∀ (d : Beat) (dp : BitVec 2) (s : State) (c : Callee), Serves s c → c.headReceived = true → c.runDone = true →
    s.bus.run = none → ReceivesRun s c → ∃ t, exec (.beatLatched d dp false) s = .next t ∧ CalleeEndHanded s t c ∧
      t.bus.takesGiven = s.bus.takesGiven) ∧
  ∀ (d : Beat) (dp : BitVec 2) (s : State) (r : Run), s.bus.run = some r → r.sending = false → s.bus.rx = [] →
    ((∃ c, CallsOn s c) ∨ (∃ c, Serves s c ∧ c.headReceived = true) →
      s.bus.count < paceWindow s (otherParty s) → r.moved < (r.length + 1) / 2 →
      ∃ t, exec (.beatLatched d dp false) s = .next t ∧
        t.bus.capture = s.bus.capture ++
          [⟨d, if r.moved + 1 = (r.length + 1) / 2 ∧ r.length % 2 = 1 then lowParityGood d dp else parityGood d dp⟩] ∧
        t.bus.run = some { r with moved := r.moved + 1 } ∧ t.bus.takesGiven = s.bus.takesGiven ∧
        (verdictDue s = false → t.bus.count = s.bus.count + 1)) ∧
    (paceWindow s (otherParty s) ≤ s.bus.count ∨ (r.length + 1) / 2 ≤ r.moved →
      (∀ c, CallsOn s c → ∃ t, exec (.beatLatched d dp false) s = .next t ∧ Interjecting s t ∧
        FaultHanded s t c .overrun) ∧
      ∀ c, Serves s c → c.headReceived = true → ∃ t, exec (.beatLatched d dp false) s = .next t ∧
        CalleeEndHanded s t c ∧ t.bus.capture = [] ∧ t.bus.takesGiven = s.bus.takesGiven)

/-- R21, R23 and R26: a beat of a frame joins the frame register and is taken at once. The beat that completes a head which is
damaged, or whose addresses do not fit, is answered REFUSE(CHECK) by the BIF itself, with no fields. A beat with MARK negated
ends an incomplete frame at the caller, complete and damaged; that it is taken, and CHECK handed, under INTERJECT too is the
model's choice (log 30), and that a damaged verdict always leads to an interject its reading of R27 (log 10). That after or
within a received run R23 goes before R34, so that this beat is taken and is no overrun, at the caller and at the callee, is
the model's choice (log 44). The bytes taken of a run that the interject cuts are handed (R16, R37, R107). R37: a beat with
MARK asserted ends a received run short. At the caller it is the first beat of the verdict; at the callee the frame is taken
and discarded, and its end hands the end of the run with a parity failure, so that R128, R138 or R142 gives the verdict. That
the captured beats are dropped at the first such beat is the model's choice (log 37). -/
def Obligations.FrameBeatIsTakenAtOnce : Prop :=
  (∀ (d : Beat) (dp : BitVec 2) (s : State) (c : Caller), s.bus.tenure = .caller c → c.answered = true → s.bus.rx ≠ [] →
    ∃ t, exec (.beatLatched d dp false) s = .next t ∧ t.bus.takesGiven = s.bus.takesGiven + 1 ∧ t.bus.rx = [] ∧
      t.bus.tenure = .caller { c with finished := true } ∧ t.bus.drive.interject = true ∧ FaultHanded s t c .check) ∧
  (∀ (d : Beat) (dp : BitVec 2) (s : State) (c : Caller) (r : Run), CallsOn s c → s.bus.run = some r →
    r.sending = false → s.bus.rx = [] →
    ∃ t, exec (.beatLatched d dp true) s = .next t ∧ t.bus.takesGiven = s.bus.takesGiven + 1 ∧
      t.bus.rx = [⟨d, parityGood d dp⟩] ∧ t.bus.run = none ∧ t.bus.capture = [] ∧ t.bus.count = 0 ∧
      t.bus.tenure = .caller { c with point := .second } ∧
      ∀ u b o q, c.grantee = .launch u → slotOf s u = .live b (.connOpen o q) → q.ended = false →
        ConnOpenIs t u { b with bytesDone := min (2 * r.taken) r.length } o
          { q with bytesTaken := min (2 * r.taken) r.length, short := true }) ∧
  (∀ (d : Beat) (dp : BitVec 2) (mark : Bool) (s : State) (c : Callee) (r : Run) (rx : List Latched), Serves s c →
    c.headReceived = true → s.bus.run = some r → r.sending = false → verdictDue s = false →
    rx = s.bus.rx ++ [⟨d, parityGood d dp⟩] →
    (mark = true → registerFull rx = false → ∃ t, exec (.beatLatched d dp mark) s = .next t ∧ t.bus.rx = rx ∧
      t.bus.takesGiven = s.bus.takesGiven + 1 ∧ t.bus.run = some r ∧ t.bus.capture = [] ∧ t.bus.count = 0 ∧
      t.bus.tenure = s.bus.tenure) ∧
    (mark = true ∧ registerFull rx = true ∨ mark = false ∧ s.bus.rx ≠ [] →
      ∃ t, exec (.beatLatched d dp mark) s = .next t ∧ t.bus.rx = [] ∧ t.bus.takesGiven = s.bus.takesGiven + 1 ∧
        t.bus.run = none ∧ t.bus.capture = [] ∧ t.bus.tenure = .callee { c with runDone := true } ∧
        (∀ v taken written fault parity x, c.owner = some .serve → s.serve.service = some v →
          v.work = .store taken written fault parity x →
          (fault = true → SendsFrame t (.verdict ⟨.done .memory, v.head.tag, v.head.gen, none, none⟩)) ∧
          (fault = false → v.closed = false →
            ((∃ q ∈ s.bus.runs, isServingStore q = true ∧ discards q.sink = false ∧ (q.bytes ≠ [] ∨ q.flight ≠ none)) →
              t.serve.verdictTimer = some verdictTime ∧
              t.serve.service = some { v with work := .store taken written false true true }) ∧
            ((∀ q ∈ s.bus.runs, isServingStore q = true → q.bytes = [] ∧ q.flight = none) →
              SendsFrame t (.verdict ⟨.done .check, v.head.tag, v.head.gen, none, none⟩)))) ∧
        (∀ v place isRepeat parity payload, c.owner = some .serve → s.serve.service = some v →
          v.work = .note place isRepeat parity payload →
          t.port.inbox = s.port.inbox ∧ t.serve.noteMemo = s.serve.noteMemo ∧ t.serve.reserved = false ∧
          (isRepeat = true → SendsFrame t (.verdict ⟨.done .ok, v.head.tag, v.head.gen, none, none⟩)) ∧
          (place = true → isRepeat = false →
            SendsFrame t (.verdict ⟨.done .check, v.head.tag, v.head.gen, none, none⟩))) ∧
        ∀ u b left q q', c.owner = some (.launch (some u)) → slotOf s u = .live b (.connResume left q) →
          q.ended = false → q' = { q with parityFail := true } →
          SendsFrame t (.verdict ⟨(runEndVerdict b q').1, c.tag, c.gen, none, none⟩) ∧
          ConnResumeIs t u { b with bytesDone := (runEndVerdict b q').2.2 } left
            { q' with given := givenOf (runEndVerdict b q').1, outcome := some (runEndVerdict b q').2.1 })) ∧
  ∀ (d : Beat) (dp : BitVec 2) (s : State) (rx : List Latched), rx = s.bus.rx ++ [⟨d, parityGood d dp⟩] →
    (registerFull rx = false →
      (∃ c, s.bus.tenure = .caller c ∧ c.answered = true ∧ s.bus.run = none) ∨
        (∃ c, Serves s c ∧ c.headReceived = false) →
      ∃ t, exec (.beatLatched d dp true) s = .next t ∧ t.bus.rx = rx ∧
        t.bus.takesGiven = s.bus.takesGiven + 1 ∧ t.bus.tenure = s.bus.tenure) ∧
    (∀ c, registerFull rx = true → Serves s c → c.headReceived = false → verdictDue s = false →
      (receiveFrame rx = none ∨ (∃ v, receiveFrame rx = some (.verdict v)) ∨
        ∃ h, receiveFrame rx = some (.head h) ∧ h.addressed s.station.strap c.caller = false ∧
          h.source ≠ s.station.strap) →
      ∃ t, exec (.beatLatched d dp true) s = .next t ∧
        SendsFrame t (.verdict ⟨.refuse .check, 0, 0, none, none⟩) ∧
        t.bus.tenure = .callee { c with headReceived := true } ∧ t.bus.takesGiven = s.bus.takesGiven + 1 ∧
        t.terms = s.terms ∧ t.serve.swapMemo = s.serve.swapMemo ∧ t.port.inbox = s.port.inbox)

/-- R28, R47, R48, R133 to R135, R139 to R141: the first verdict for an OPEN head, given when the head is handed, by the
checks in their order; it carries the own terms exactly when the head carried terms. A SWAP that passes waits for the swap
stage, is answered from the swap memo, or issues its locked pair (R143, log 18). R131, R132, R137, R139 and R141: what the answer
opens. The window's base plus the offset is the address at which the run of a STORE begins, and at which the first read of a
short FETCH is presented once the Serve Engine is free; a NOTE takes its place in the Inbox, a repeat takes none. That this read
takes all of the range that lies in one aligned block, and waits for room alone, are the model's choices (logs 46 and 16). R120: a
WITHDRAW head removes the matching park-queue entry and is answered CLEARED either way. -/
def Obligations.OpenHeadIsAnsweredInOrder : Prop :=
  (∀ (d : Beat) (dp : BitVec 2) (s : State) (c : Callee) (h : WithdrawHead), Serves s c → c.headReceived = false →
    CompletesFrame s d dp (some (.head (.withdraw h))) → h.target = s.station.strap → h.source = c.caller →
    h.source ≠ s.station.strap → verdictDue s = false →
    ∃ t, exec (.beatLatched d dp true) s = .next t ∧ t.bus.takesGiven = s.bus.takesGiven + 1 ∧
      SendsFrame t (.verdict ⟨.cleared, h.tag, h.gen, none, none⟩) ∧
      t.bus.tenure = .callee { c with headReceived := true, owner := some .serve, tag := h.tag, gen := h.gen } ∧
      parkedRequests t =
        (parkedRequests s).filter fun e => !(e.requester == h.source && e.tag == h.tag && e.gen == h.gen)) ∧
  ∀ (d : Beat) (dp : BitVec 2) (s : State) (c : Callee) (h : OpenHead) (rx : List Latched) (k : Option VerdictKind),
    Serves s c → c.headReceived = false → rx = s.bus.rx ++ [⟨d, parityGood d dp⟩] → registerFull rx = true →
    receiveFrame rx = some (.head (.openX h)) → h.target = s.station.strap → h.source = c.caller →
    h.source ≠ s.station.strap → s.serve.service = none → s.serve.reserved = false →
    k = (if h.terms = none ∧ termsOf s h.source = none then some (.refuse .terms)
      else if s.station.state = .draining then some (.refuse .leaving)
      else if openMalformed s.station.strap h = true then some (.refuse .format)
      else if accessGranted s h = false then some (.refuse .access)
      else match h.kind with
        | .store => some .proceed
        | .fetch =>
          if h.length.toNat ≤ (setupOf s).shortFetch then some .proceed
          else if s.serve.parkQueue.length < 8 ∨
              (∃ e ∈ s.serve.parkQueue, e.requester = h.source ∧ e.tag = h.tag) then some .park
          else some (.refuse .busy)
        | .note =>
          if s.serve.noteMemo[h.source.toNat]'h.source.isLt = some ⟨h.tag, h.gen⟩ then some .proceed
          else if s.port.inbox.length < 16 then some .proceed
          else some (.refuse .busy)
        | .swap => none) →
    ∃ t, exec (.beatLatched d dp true) s = .next t ∧ t.bus.takesGiven = s.bus.takesGiven + 1 ∧
      (∀ v, k = some v →
        SendsFrame t (.verdict ⟨v, h.tag, h.gen,
          h.terms.map fun _ => BitVec.ofNat 5 (setupOf s).paceMax, none⟩) ∧
        (∀ a, termsOf t a =
          if a = h.source ∧ h.terms.isSome then h.terms.map fun m => min (setupOf s).paceMax m.toNat
          else termsOf s a) ∧
        OpenServed s t h v) ∧
      (∀ ops, k = none → h.ops = some ops →
        (∀ r, s.serve.swapStage = none → swapMemoOf s h.source = some ⟨h.tag, h.gen, r⟩ →
          SendsFrame t (.verdict ⟨.done .ok, h.tag, h.gen,
            h.terms.map fun _ => BitVec.ofNat 5 (setupOf s).paceMax, some r⟩) ∧
          t.serve.swapStage = none ∧ ∀ x, t.mem.serve = some x → x.isPair = true → s.mem.serve = some x) ∧
        (s.serve.swapStage = none → (∀ r, swapMemoOf s h.source ≠ some ⟨h.tag, h.gen, r⟩) → s.mem.serve = none →
          (∀ r ∈ s.bus.runs, isLeftover r = false) → ∃ w, windowOf s h.window.toNat = some w ∧
            t.mem.serve = some (pairTxn (w.base + h.offset.setWidth 32) ops) ∧
            t.serve.swapStage = some ⟨h.source, h.tag, h.gen⟩ ∧ t.serve.verdictTimer = some verdictTime ∧
            t.bus.strobesGiven = s.bus.strobesGiven) ∧
        ∀ g, s.serve.swapStage = some g → t.serve.swapStage = some g ∧ t.serve.verdictTimer = some verdictTime ∧
          t.bus.strobesGiven = s.bus.strobesGiven) ∧
      t.bus.tenure = .callee { c with headReceived := true, owner := some .serve, tag := h.tag, gen := h.gen } ∧
      t.port.inbox = s.port.inbox ∧ t.serve.swapMemo = s.serve.swapMemo ∧ t.serve.noteMemo = s.serve.noteMemo ∧
      parkedRequests t = parkedRequests s

/-- R132, R134 and R135: when an OPEN head is malformed, and when the window table admits a head. -/
def Obligations.FormAndAccessByRule : Prop :=
  (∀ (strap : Addr) (h : OpenHead), openMalformed strap h = true ↔
    h.source = strap ∨
    ((h.kind = .fetch ∨ h.kind = .store) ∧ (h.length.toNat < 1 ∨ 4096 < h.length.toNat)) ∨
    (h.kind = .note ∧ (h.length.toNat < 1 ∨ 64 < h.length.toNat)) ∨
    (h.kind = .swap ∧ (h.length.toNat ≠ 4 ∨ h.offset.toNat % 4 ≠ 0))) ∧
  ∀ (s : State) (h : OpenHead), accessGranted s h = true ↔
    (h.kind = .note ∧ ∃ w, windowOf s 0 = some w ∧ w.note.getLsbD h.source.toNat = true) ∨
    (h.kind ≠ .note ∧ ∃ w, windowOf s h.window.toNat = some w ∧ h.offset.toNat + h.length.toNat ≤ w.length ∧
      ((h.kind = .fetch ∧ w.read.getLsbD h.source.toNat = true) ∨
        (h.kind = .store ∧ w.write.getLsbD h.source.toNat = true) ∨
        (h.kind = .swap ∧ w.swap.getLsbD h.source.toNat = true)))

/-- R124, R125 and R158: the first verdict for a RESUME head is STALE unless the entry of its tag matches; a match is answered
WITHDRAWN for a WITHDRAWING entry, which completes, ACCEPT for a FAULT chunk, and PROCEED for a chunk that begins or ends at the
bytes done. A FREE or REPORTED entry, like any other that does not match, stays as it is. A PARKED entry that matches is
CONNECTED with tenure RESUME, with the time its park timer had left and a fresh resume tenure record (R126), and PROCEED opens
the inbound run of the chunk, whose bytes a repeat discards (R127). Second, the verdict after the run, in the order of R128. -/
def Obligations.ResumeIsAnsweredByRule : Prop :=
  (∀ (d : Beat) (dp : BitVec 2) (s : State) (c : Callee) (h : ResumeHead) (rx : List Latched) (n : Nat),
    Serves s c → c.headReceived = false → rx = s.bus.rx ++ [⟨d, parityGood d dp⟩] → registerFull rx = true →
    receiveFrame rx = some (.head (.resume h)) → h.target = s.station.strap → h.source = c.caller →
    h.source ≠ s.station.strap → verdictDue s = false → n = h.chunkLength.toNat →
    ∃ t, exec (.beatLatched d dp true) s = .next t ∧ t.bus.takesGiven = s.bus.takesGiven + 1 ∧
      ((∀ b p, slotOf s h.tag ≠ .live b p) →
        SendsFrame t (.verdict ⟨.stale, h.tag, h.gen, none, none⟩) ∧ slotOf t h.tag = slotOf s h.tag) ∧
      ∀ b p fits, slotOf s h.tag = .live b p →
        fits = decide (genOf s h.tag = h.gen ∧ b.peer = h.source ∧ bodyKind b = .fetch ∧
          if h.fault then n = 0
          else n ≠ 0 ∧ h.chunkOffset.toNat + n ≤ b.length ∧
            (h.chunkOffset.toNat = b.bytesDone ∨ h.chunkOffset.toNat + n = b.bytesDone)) →
        (∀ hold, p = .withdrawing hold → fits = true →
          SendsFrame t (.verdict ⟨.withdrawn, h.tag, h.gen, none, none⟩) ∧
          CompletedAs s t h.tag b (withdrawalStatus b)) ∧
        (∀ left, p = .parked left → fits = true → h.fault = true →
          SendsFrame t (.verdict ⟨.accept, h.tag, h.gen, none, none⟩) ∧
          (¬ draining s h.tag → slotOf t h.tag = .live b (.connResume left
            ⟨h.chunkOffset.toNat, n, false, .accept, some .remoteFault, false, false, false, false⟩))) ∧
        (∀ left isRepeat, p = .parked left → fits = true → h.fault = false → termsOf s h.source ≠ none →
          isRepeat = decide (h.chunkOffset.toNat ≠ b.bytesDone) →
          SendsFrame t (.verdict ⟨.proceed, h.tag, h.gen, none, none⟩) ∧
          (¬ draining s h.tag → slotOf t h.tag = .live b (.connResume left
            ⟨h.chunkOffset.toNat, n, isRepeat, .proceed, none, false, false, false, false⟩)) ∧
          ∃ rs, t.bus.runs = rs ++ [⟨.mover ⟨h.tag, b.segs, some h.chunkOffset.toNat, h.chunkOffset.toNat, 0,
            isRepeat, false, true, true⟩, n, 0, [], false, none⟩]) ∧
        (fits = false ∨ ((∀ left, p ≠ .parked left) ∧ ∀ hold, p ≠ .withdrawing hold) ∨
            ((∃ left, p = .parked left) ∧ h.fault = false ∧ termsOf s h.source = none) →
          SendsFrame t (.verdict ⟨.stale, h.tag, h.gen, none, none⟩) ∧
          (¬ draining s h.tag → slotOf t h.tag = .live b p))) ∧
  ∀ (b : Body) (r : ResumeRecord), runEndVerdict b r =
    if r.localFault then (.withdrawn, .localFault, b.bytesDone)
    else if b.cancel then (.withdrawn, .cancelled, b.bytesDone)
    else if r.parityFail then (.resend, .resend, b.bytesDone)
    else (.accept, .accepted, if r.isRepeat then b.bytesDone else b.bytesDone + r.chunkLength)

/-- R21, R22, R23, R33 and R34: a TAKE seen while a frame is sent strobes its next beat; while a run is sent it lowers the
outstanding-beat count; a TAKE with no beat outstanding is an overrun, at which a caller interjects and hands OVERRUN, which
decides the outcome if none is decided (R94, R117), with the bytes taken of the run that this cuts (R37, R107), and a callee
leaves the tenure and hands its end. The TAKE of the run's last beat ends the run (R30): at the caller the second point of the
course is reached, the outbound job is none, and the bytes done are the whole length (R100, R107); the callee of a short FETCH
gives DONE(OK) (R139). The TAKE that leaves no beat outstanding in a short FETCH whose read met a FAULT ends the run short,
with DONE(MEMORY) (R37, R139), a single odd byte unsent (log 22). That a TAKE at a caller that has sent its whole run is an
overrun whether or not the course is finished is the model's reading of R34 (log 13). That a local fault decides the outcome of
a RESUME tenure at any time before it is carried out (log 20), and that LOCAL_FAULT then waits for no drain (log 38), is the
model's choice. -/
def Obligations.TakeMovesWhatIsSent : Prop :=
  (∀ (s : State) (c : Caller) (h : Head), CallsOn s c → c.sent = some h →
    (∃ o, h = .openX o ∧ (o.kind = .store ∨ o.kind = .note)) ∨ (∃ r, h = .resume r) → c.point = .second →
    s.bus.tx = none → s.bus.run = none → ∃ t, exec .takeSeen s = .next t ∧ Interjecting s t ∧
      FaultHanded s t c .overrun) ∧
  (∀ (s : State) (c : Callee) (v : Service) (r : Run), Serves s c → FaultedRunSpent s v → s.bus.tx = none →
    s.bus.run = some r → r.sending = true → s.bus.count = 1 → r.taken + 1 < (r.length + 1) / 2 →
    ∃ t, exec .takeSeen s = .next t ∧ t.bus.run = none ∧ (s.launch.outJob = none → t.bus.outbound = []) ∧
      SendsFrame t (.verdict ⟨.done .memory, v.head.tag, v.head.gen, none, none⟩)) ∧
  ∀ s : State, (verdictDue s = true → FetchFaulted s) →
    (∃ c, CallsOn s c) ∨ (∃ c, s.bus.tenure = .callee c ∧ c.finished = false) →
    (∀ f d rest, s.bus.tx = some ⟨f, d :: rest⟩ → ∃ t, exec .takeSeen s = .next t ∧
      t.bus.tx = some ⟨f, rest⟩ ∧ t.bus.count = 1 ∧ t.bus.strobesGiven = s.bus.strobesGiven + 1 ∧
      t.bus.tenure = s.bus.tenure ∧ (s.bus.view ≠ .idle →
        t.bus.drive.d = d ∧ t.bus.drive.dp = parityOf d ∧ t.bus.drive.mark = true)) ∧
    (∀ r, s.bus.tx = none → s.bus.run = some r → r.sending = true → s.bus.count ≠ 0 →
      r.taken + 1 < (r.length + 1) / 2 →
      (verdictDue s = true → s.bus.count = 1 → FaultedRunGoesOn s) → ∃ t, exec .takeSeen s = .next t ∧
        t.bus.strobesGiven = s.bus.strobesGiven ∧ t.bus.count = s.bus.count - 1 ∧
        t.bus.run = some { r with taken := r.taken + 1 }) ∧
    (∀ r, s.bus.tx = none → s.bus.run = some r → r.sending = true → s.bus.count ≠ 0 →
      r.taken + 1 = (r.length + 1) / 2 →
      (∀ c, s.bus.tenure = .caller c → ∃ t, exec .takeSeen s = .next t ∧ t.bus.strobesGiven = s.bus.strobesGiven ∧
        t.bus.run = none ∧ t.bus.count = 0 ∧ t.launch.outJob = none ∧ t.bus.tenure = .caller { c with point := .second } ∧
        ∀ u b o q, c.grantee = .launch u → slotOf s u = .live b (.connOpen o q) → q.ended = false →
          ConnOpenIs t u { b with bytesDone := r.length } o { q with bytesTaken := r.length, short := false }) ∧
      ∀ c v base issued placed held fault flight, Serves s c → c.owner = some .serve → s.serve.service = some v →
        v.work = .fetch base issued placed held fault flight → ∃ t, exec .takeSeen s = .next t ∧ t.bus.run = none ∧
          SendsFrame t (.verdict ⟨.done .ok, v.head.tag, v.head.gen, none, none⟩)) ∧
    (∀ r, s.bus.tx = none → s.bus.run = some r → r.sending = true → s.bus.count = 0 →
      (∀ c, s.bus.tenure = .caller c → ∃ t, exec .takeSeen s = .next t ∧ Interjecting s t ∧
        FaultHanded s t c .overrun) ∧
      ∀ c, s.bus.tenure = .callee c → ∃ t, exec .takeSeen s = .next t ∧ CalleeEndHanded s t c)

/-- R8, R13, R93 and R113: the TAKE of a frame's last beat. A head leaves the caller waiting for the first verdict, and a
SWAP's head is then delivered; a verdict that closes the course makes the callee negate ANSWER and leave its role, and PARK
then adds or replaces the park-queue entry, whose fill begins if it is the head (R114); its client is handed the end of the
tenure later, when BUSY is negated (log 9). PROCEED opens the run of its length, at the requester that takes a chunk that of
the chunk (R127). A short FETCH whose read has met a FAULT by then, with no beat to strobe (log 22), is ended with DONE(MEMORY)
at once (R37, R139). The TAKE of the last beat of CLEARED at an interjected callee ends the tenure at once (R17): the service
of its OPEN is gone (R136), or the outcome of its RESUME tenure is carried out (R129). That a local fault decides that outcome
at any time before it is carried out (log 20), and that LOCAL_FAULT then waits for no drain (log 38), is the model's choice.
That the fill begins, and its first read is presented, with PARK sent whole and before BUSY is negated (log 45), and that this
read takes all up to the end of its aligned block (log 46), is the model's choice. -/
def Obligations.LastBeatTakenEndsTheFrame : Prop :=
  ∀ s : State,
    (∀ c h, CallsOn s c → s.bus.tx = some ⟨.head h, []⟩ → c.sent = some h → (∀ a b, h ≠ .probe a b) →
      ∃ t, exec .takeSeen s = .next t ∧ t.bus.tx = none ∧ t.bus.tenure = .caller { c with point := .first } ∧
        ∀ o b p ops y r, h = .openX o → slotOf s o.tag = .live b p → ¬ draining s o.tag → b.work = .swap ops false y r →
          slotOf t o.tag = .live { b with work := .swap ops true y r } p) ∧
    (∀ c v, Serves s c → s.bus.tx = some ⟨.verdict v, []⟩ → v.kind ≠ .proceed → ∃ t, exec .takeSeen s = .next t ∧
      t.bus.tx = none ∧ t.bus.tenure = .callee { c with finished := true } ∧ t.bus.drive.answer = false ∧
      roleOf t = .none ∧
      (v.kind ≠ .park → parkedRequests t = parkedRequests s) ∧
      (∀ w, v.kind = .park → s.serve.service = some w → parkedRequests t =
        if s.serve.parkQueue.any (fun e => e.requester == w.head.source && e.tag == w.head.tag) then
          (parkedRequests s).map fun e =>
            if e.requester = w.head.source ∧ e.tag = w.head.tag then parkEntryOf w.head else e
        else parkedRequests s ++ [parkEntryOf w.head]) ∧
      (∀ w win n, v.kind = .park → s.serve.service = some w → w.work = .park → s.serve.parkQueue = [] →
        s.serve.fill = none → windowOf s w.head.window.toNat = some win → n = min 1024 w.head.length.toNat →
        t.serve.parkQueue = [{ parkEntryOf w.head with chunk := .filling n }] ∧
        (∃ f, t.serve.fill = some f ∧ f.base = win.base + w.head.offset.setWidth 32 ∧ f.total = n) ∧
        (s.mem.serve = none → s.bus.runs = [] → 0 < n →
          t.mem.serve = some (nextRead (win.base + w.head.offset.setWidth 32) n)))) ∧
    (∀ c v w, Serves s c → s.bus.tx = some ⟨.verdict v, []⟩ → v.kind = .proceed → c.owner = some .serve →
      s.serve.service = some w → (verdictDue s = true → FaultedRunGoesOn s) →
      ∃ t, exec .takeSeen s = .next t ∧ t.bus.tx = none ∧
        ((∃ a b x y z, w.work = .store a b x y z) ∨ (∃ a b x y, w.work = .note a b x y) →
          t.bus.run = some ⟨false, w.head.length.toNat, 0, 0⟩) ∧
        (∀ a b x y z u, w.work = .fetch a b x y z u → t.bus.run = some ⟨true, w.head.length.toNat, 0, 0⟩)) ∧
    (∀ c v w, Serves s c → s.bus.tx = some ⟨.verdict v, []⟩ → v.kind = .proceed → c.owner = some .serve →
      FaultedRunSpent s w → ∃ t, exec .takeSeen s = .next t ∧ t.bus.run = none ∧
        SendsFrame t (.verdict ⟨.done .memory, w.head.tag, w.head.gen, none, none⟩)) ∧
    (∀ c v u b left r, Serves s c → s.bus.tx = some ⟨.verdict v, []⟩ → v.kind = .proceed →
      c.owner = some (.launch (some u)) → slotOf s u = .live b (.connResume left r) → verdictDue s = false →
      ∃ t, exec .takeSeen s = .next t ∧ t.bus.tx = none ∧ t.bus.tenure = s.bus.tenure ∧
        t.bus.run = some ⟨false, r.chunkLength, 0, 0⟩) ∧
    ∀ c v, s.bus.tenure = .callee c → c.finished = false → c.clearing = true → s.bus.tx = some ⟨.verdict v, []⟩ →
      ∃ t, exec .takeSeen s = .next t ∧ CalleeEndHanded s t c ∧ t.bus.tx = none ∧ t.bus.run = none ∧
        t.bus.stallTimer = none ∧ t.bus.takesGiven = s.bus.takesGiven ∧ t.bus.strobesGiven = s.bus.strobesGiven

/-- R32 and R36: the oldest captured beat is taken once the transit buffer has room for its bytes, and not before; at the last
beat the run is over at this station. At the callee of a STORE the DONE(MEMORY) of a write fault is then given, or the verdict
timer starts (R138); at the callee of a chunk the verdict after the run is given (R128). With the end of the run it is the
callee's turn, and its stall timer is stopped (R35) while a STORE waits for its writes; with the verdict after the run it
starts from zero (R15), whatever time it had left. R101, R127, R137 and R174: the bytes taken join the run, and with its client
free the write of the first `m` bytes of the run is presented from the address that the run has reached on, in the masked lanes
of whole words that the first conjunct describes; the place of a byte in the segments is the second (R74). How many bytes one
write takes, and that they leave the transit buffer when it is issued, are the model's choices (log 15); so is that only the run
at the head is written (log 41), which is here the only one. -/
def Obligations.CapturedBeatIsTaken : Prop :=
  (∀ (a : Word) (bytes : List Byte), ∃ w lanes, writeTxn a bytes = ⟨a - BitVec.ofNat 32 (a.toNat % 4), w, .write lanes⟩ ∧
    lanes.length = 4 * w ∧
    (∀ k, k < 4 * w → lanes[k]? = some (if k < a.toNat % 4 then none else bytes[k - a.toNat % 4]?)) ∧
    (bytes ≠ [] → a.toNat % 64 + bytes.length ≤ 64 → 1 ≤ w ∧ a.toNat % 64 / 4 + w ≤ 16)) ∧
  (∀ (segs : List Segment) (pos : Nat) (a : Word) (left : Nat), locate segs pos = some (a, left) ↔
    ∃ before g after k, segs = before ++ g :: after ∧ pos = (before.map Segment.len).sum + k ∧ k < g.len ∧
      a = g.addr + BitVec.ofNat 32 k ∧ left = g.len - k) ∧
  ∀ (s : State) (r : Run) (b : Latched) (rest : List Latched) (n : Nat), s.bus.run = some r → r.sending = false →
    s.bus.capture = b :: rest →
    n = (if r.taken + 1 = (r.length + 1) / 2 ∧ r.length % 2 = 1 then 1 else 2) →
    (n ≤ room s → r.taken + 1 < (r.length + 1) / 2 → ∃ t, exec .takeDataBeat s = .next t ∧
      t.bus.takesGiven = s.bus.takesGiven + 1 ∧ t.bus.capture = rest ∧
      t.bus.run = some { r with taken := r.taken + 1 } ∧ t.bus.tenure = s.bus.tenure ∧
      (verdictDue s = false → t.bus.count = s.bus.count - 1)) ∧
    (n ≤ room s → r.taken + 1 = (r.length + 1) / 2 → ∀ c, s.bus.tenure = .caller c →
      ∃ t, exec .takeDataBeat s = .next t ∧ t.bus.takesGiven = s.bus.takesGiven + 1 ∧ t.bus.run = none ∧
        t.bus.capture = [] ∧ t.bus.tenure = .caller { c with point := .second }) ∧
    (n ≤ room s → r.taken + 1 = (r.length + 1) / 2 → ∀ c v taken written fault parity x, Serves s c →
      c.owner = some .serve → s.serve.service = some v → v.work = .store taken written fault parity x →
      ∃ t, exec .takeDataBeat s = .next t ∧ t.bus.takesGiven = s.bus.takesGiven + 1 ∧ t.bus.run = none ∧ StallFresh t ∧
        (fault = true → SendsFrame t (.verdict ⟨.done .memory, v.head.tag, v.head.gen, none, none⟩) ∧
          t.bus.stallTimer = some stallTime) ∧
        (s.bus.tx = none → c.headReceived = true → fault = false → v.closed = false →
          (∃ q ∈ s.bus.runs, isServingStore q = true ∧ Holding q) → t.bus.stallTimer = none) ∧
        (∀ rs q j, fault = false → v.closed = false → s.bus.runs = rs ++ [q] → q.sink = .store j →
          j.serving = true → j.faulted = false → t.serve.verdictTimer = some verdictTime ∧
          t.serve.service = some { v with work := .store (taken + n) written false (parity || !b.good) true })) ∧
    (n ≤ room s → r.taken + 1 = (r.length + 1) / 2 → ∀ c u body left q q', Serves s c →
      c.owner = some (.launch (some u)) → slotOf s u = .live body (.connResume left q) → q.ended = false →
      q' = { q with parityFail := q.parityFail || !b.good } → verdictDue s = false →
      ∃ t, exec .takeDataBeat s = .next t ∧ t.bus.takesGiven = s.bus.takesGiven + 1 ∧ t.bus.run = none ∧
        t.bus.stallTimer = some stallTime ∧
        SendsFrame t (.verdict ⟨(runEndVerdict body q').1, c.tag, c.gen, none, none⟩) ∧
        ConnResumeIs t u { body with bytesDone := (runEndVerdict body q').2.2 } left
          { q' with given := givenOf (runEndVerdict body q').1, outcome := some (runEndVerdict body q').2.1 }) ∧
    (∀ q q' d, n ≤ room s → s.bus.tenure ≠ .none → s.bus.runs = [q] → writerOf q.sink = some d →
      discards q.sink = false → (d = .serve → NoSwapGoesAhead s [q]) →
      q' = { q with
        received := q.received + n, bytes := q.bytes ++ [lowByte b.d, highByte b.d].take n,
        ended := q.ended || decide (r.taken + 1 = (r.length + 1) / 2) } →
      ∃ t, exec .takeDataBeat s = .next t ∧
        (∀ a m, txnOf s d = none → WriteReady q' d a m → WritePresented t q' d a m ∧ t.bus.runs.length = 1) ∧
        (txnOf s d ≠ none ∨ (∀ a m, ¬ WriteReady q' d a m) → t.bus.runs = [q'])) ∧
    (room s < n → ∃ t, exec .takeDataBeat s = .next t ∧ t.bus.takesGiven = s.bus.takesGiven ∧
      t.bus.capture = s.bus.capture ∧ t.bus.run = some r)

/-- R142: the last beat of a NOTE's run. A whole note with good parity joins the Inbox with its memo and INBOX_READY and is
answered DONE(OK); a repeat is answered DONE(OK) and placed nowhere; a parity failure gives DONE(CHECK). The stall timer starts
from zero with the verdict, whatever time the run had left (R15, R35). That the record takes the bytes that still stand in the
transit buffer, also behind an earlier run (R31), is the model's reading of R142 (log 19). -/
def Obligations.NoteRunEndsInTheInbox : Prop :=
  ∀ (s : State) (c : Callee) (r : Run) (b : Latched) (rest : List Latched) (v : Service) (place isRepeat parity : Bool)
      (payload bytes : List Byte),
    Serves s c → c.owner = some .serve → s.serve.service = some v → v.work = .note place isRepeat parity payload →
    s.bus.run = some r → r.sending = false → s.bus.capture = b :: rest → r.taken + 1 = (r.length + 1) / 2 →
    bytes = (if r.length % 2 = 1 then [lowByte b.d] else [lowByte b.d, highByte b.d]) → bytes.length ≤ room s →
    ∃ t, exec .takeDataBeat s = .next t ∧ t.bus.takesGiven = s.bus.takesGiven + 1 ∧ t.serve.reserved = false ∧
      t.bus.stallTimer = some stallTime ∧
      (place = true → isRepeat = false → parity = false → b.good = true →
        t.port.inbox = s.port.inbox ++
          [⟨v.head.source, v.head.tag, v.head.gen, payload ++ noteBytes (appendLast bytes s.bus.runs)⟩] ∧
        t.serve.noteMemo = s.serve.noteMemo.set v.head.source.toNat (some ⟨v.head.tag, v.head.gen⟩) v.head.source.isLt ∧
        noticeSet .inboxReady t = true ∧ SendsFrame t (.verdict ⟨.done .ok, v.head.tag, v.head.gen, none, none⟩)) ∧
      (place = true → isRepeat = false → parity = true ∨ b.good = false →
        t.port.inbox = s.port.inbox ∧ t.serve.noteMemo = s.serve.noteMemo ∧
        SendsFrame t (.verdict ⟨.done .check, v.head.tag, v.head.gen, none, none⟩)) ∧
      (isRepeat = true → t.port.inbox = s.port.inbox ∧ t.serve.noteMemo = s.serve.noteMemo ∧
        SendsFrame t (.verdict ⟨.done .ok, v.head.tag, v.head.gen, none, none⟩))

/-- R22, R30, R31 and R33: the next data beat is strobed while the count is below the pace window and its bytes stand in the
transit buffer, the earlier byte in D[7:0]; the last beat of a run of odd length carries one byte. The bytes that a short FETCH
placed before the FAULT of a read are strobed too (R139); the single odd byte that may be left is not (log 22). -/
def Obligations.DataBeatIsStrobed : Prop :=
  ∀ (s : State) (r : Run), s.bus.run = some r → r.sending = true → s.bus.tx = none →
    (verdictDue s = true → FetchFaulted s) →
    (∀ (lo hi : Byte) (rest : List Byte) (d : Beat), r.moved < (r.length + 1) / 2 → s.bus.count < paceWindow s (otherParty s) →
      (if r.moved + 1 = (r.length + 1) / 2 ∧ r.length % 2 = 1 then s.bus.outbound = lo :: rest ∧ d = 0#8 ++ lo
        else s.bus.outbound = lo :: hi :: rest ∧ d = hi ++ lo) →
      ∃ t, exec .strobeBeat s = .next t ∧ t.bus.strobesGiven = s.bus.strobesGiven + 1 ∧
        t.bus.count = s.bus.count + 1 ∧ t.bus.run = some { r with moved := r.moved + 1 } ∧
        (s.bus.view ≠ .idle → t.bus.drive.d = d ∧ t.bus.drive.dp = parityOf d ∧ t.bus.drive.mark = false)) ∧
    ((r.length + 1) / 2 ≤ r.moved ∨ paceWindow s (otherParty s) ≤ s.bus.count ∨
        s.bus.outbound.length < (if r.moved + 1 = (r.length + 1) / 2 ∧ r.length % 2 = 1 then 1 else 2) →
      (verdictDue s = true → s.bus.count = 0 → FaultedRunGoesOn s) → ∃ t, exec .strobeBeat s = .next t ∧ t.bus.strobesGiven = s.bus.strobesGiven ∧ t.bus.run = some r)

/-! ## Bus reset -/

/-- R19, R53, R65, R121, R146, R161 and R162: a bus reset. The transit buffer is emptied; the entries that complete join the
Report queue in order of acceptance, with their fields as they stand: the bytes done of an entry whose run the reset cuts are
the bytes taken (R107). -/
def Obligations.BusResetEndsEveryTenure : Prop :=
  ∀ s : State, s.bus.bresetDetect ≠ none → ∃ t, exec .bresetDetectTimerExpiry s = .next t ∧
    (OutOfTenure t ∧ t.bus.drive.breset = s.bus.drive.breset ∧ t.bus.drive.want = false ∧ t.bus.view = .reset ∧
      t.bus.bresetDetect = none ∧ t.bus.bresetDrive = s.bus.bresetDrive ∧ t.bus.callTimer = none ∧
      t.bus.stallTimer = none ∧ t.bus.interjectTimer = none ∧ t.bus.windowTimer = none ∧ t.bus.idleTimer = none ∧
      t.bus.contending = false ∧ t.bus.spent = false ∧ t.bus.count = 0 ∧ t.bus.nextGrantee = s.bus.nextGrantee ∧
      t.bus.runs = [] ∧ t.bus.outbound = [] ∧ t.bus.capture = [] ∧ t.bus.rx = []) ∧
    ((∀ a, termsOf t a = none) ∧ parkedRequests t = [] ∧ t.serve.service = none ∧ t.serve.reserved = false ∧
      t.serve.swapMemo = s.serve.swapMemo ∧ t.serve.noteMemo = s.serve.noteMemo ∧
      t.port.inbox = s.port.inbox ∧ t.port.fifo = s.port.fifo ∧ noticeSet .busResetSeen t = true) ∧
    ((∃ p, s.station.state = .joining p) → t.station.state = .joining .waiting) ∧
    (∀ u b p, slotOf s u = .live b p → p = .queued ∨ (∃ n, p = .held n) → slotOf t u = slotOf s u) ∧
    (∀ u b p st, slotOf s u = .live b p → ResetStatusIs b p st →
      slotOf t u = .reported { b with
        work := reportedWork b.work
        bytesDone := match s.bus.tenure, s.bus.run, p with
          | .caller c, some q, .connOpen _ _ =>
            if c.grantee = .launch u then min (2 * q.taken) q.length else b.bytesDone
          | _, _, _ => b.bytesDone } (finalStatus b.work st)) ∧
    (∃ tags, t.port.reports.map Report.tag = s.port.reports.map Report.tag ++ tags ∧ tags.Sublist (liveByAcc s) ∧
      ∀ u, u ∈ tags ↔ ∃ b p st, slotOf s u = .live b p ∧ ResetStatusIs b p st) ∧
    ∀ u, genOf t u = genOf s u

/-- R3, R18, R19 and R147: BRESET at this station: the detect timer starts at the first sight of an assertion, the view
leaves RESET when it ends; the BUS_RESET order drives the line for 25 µs in ONLINE and DRAINING alone; a record of an
unassigned kind is refused. -/
def Obligations.BresetLineFollowsItsTimers : Prop :=
  ∀ s : State,
    (s.bus.bresetSeen = false → exec .bresetSeenAsserted s = .next { s with
      bus.bresetSeen := true, bus.bresetDetect := some bresetDetectTime }) ∧
    (s.bus.bresetSeen = true → exec .bresetSeenAsserted s = .next s) ∧
    (s.bus.drive.breset = false → s.bus.view ≠ .reset → exec .bresetNegated s = .next { s with
      bus.bresetSeen := false, bus.bresetDetect := none }) ∧
    (s.bus.drive.breset = false → s.bus.view = .reset → exec .bresetNegated s = .next { s with
      bus.bresetSeen := false, bus.bresetDetect := none, bus.view := .settling, bus.idleTimer := some idleTime }) ∧
    (s.bus.bresetDrive ≠ none → exec .bresetDriveTimerExpiry s = .next { s with
      bus.bresetDrive := none, bus.drive.breset := false }) ∧
    ∀ w0 w1 : Word, s.port.urgent = .occupied w0 w1 →
      (w0.extractLsb' 0 4 = 2 → s.station.state = .online ∨ s.station.state = .draining →
        exec .busReset s = .next { s with
          port.urgent := .empty, station.lastResult := .accepted
          bus.drive.breset := true, bus.bresetDrive := some bresetDriveTime }) ∧
      (w0.extractLsb' 0 4 = 2 → s.station.state ≠ .online → s.station.state ≠ .draining →
        exec .busReset s = .next { s with port.urgent := .empty, station.lastResult := .refusedState }) ∧
      (w0.extractLsb' 0 4 ≠ 1 → w0.extractLsb' 0 4 ≠ 2 →
        exec .unassignedUrgent s = .next { s with port.urgent := .empty, station.lastResult := .refusedFormat })

/-! ## Orders -/

/-- R75, R76, R78, R79 and R81: a data order outside ONLINE, or malformed in its own words, completes at intake. -/
def Obligations.DataOrderCompletesAtIntake : Prop :=
  ∀ (s : State) (k : XKind) (o : Order) (rest : List Order) (u : Tag), s.launch.intake = none →
    s.port.fifo = o :: rest → orderKind o = .data k → LowestFree s u →
    (s.station.state ≠ .online → ∃ t, exec (dataCommand k) s = .next t ∧
      CompletedAtIntake s t u (intakeBody s k o []) .notOnline) ∧
    (s.station.state = .online → DataOrderMalformed s.station.strap k o →
      ∃ t, exec (dataCommand k) s = .next t ∧ CompletedAtIntake s t u (intakeBody s k o []) .rejected)

/-- R75 to R81: a data order that passes the checks in ONLINE: a SWAP is QUEUED at once under the lowest FREE tag; the gather
list of a FETCH, STORE or NOTE is read first, the order staying at the head. With no FREE entry the order waits. That the first
read takes the list up to the end of its first aligned block is the model's choice (log 46). -/
def Obligations.DataOrderEntersService : Prop :=
  ∀ (s : State) (k : XKind) (o : Order) (rest : List Order), s.launch.intake = none → s.port.fifo = o :: rest →
    orderKind o = .data k →
    (∀ u, LowestFree s u → s.station.state = .online → ¬ DataOrderMalformed s.station.strap k o →
      ∃ t, exec (dataCommand k) s = .next t ∧
        (k = .swap → Intaken s t u ∧ slotOf t u = .live (intakeBody s k o []) .queued) ∧
        (k ≠ .swap → t.port.fifo = s.port.fifo ∧ t.launch.accCount = s.launch.accCount ∧
          (∃ j, t.launch.intake = some (.gather k o j) ∧ j.base = o.listAddr ∧ j.total = 8 * o.segCount) ∧
          (s.mem.lister = none → t.mem.lister =
            some (readTxn o.listAddr (min (64 - o.listAddr.toNat % 64) (8 * o.segCount)))) ∧
          ∀ v, genOf t v = genOf s v)) ∧
    ((∀ v, slotOf s v ≠ .free) → ∃ t, exec (dataCommand k) s = .next t ∧ t.port.fifo = s.port.fifo ∧
      t.launch.intake = none ∧ t.launch.accCount = s.launch.accCount)

/-- R59, R61, R63, R68, R77 and R182: the control orders, and an order of an unassigned kind. That a LEAVE gives OFFLINE at once
where the drain condition holds and the role is NONE, as it is at a callee that has sent its closing verdict (R8), is the
model's reading of R69 (log 32). -/
def Obligations.ControlOrdersAreAnswered : Prop :=
  ∀ (s : State) (o : Order) (rest : List Order), s.launch.intake = none → s.port.fifo = o :: rest →
    (orderKind o = .setup → ∃ t, exec .setup s = .next t ∧ t.station.setup = s.station.setup ∧
      if setupMalformed o then ControlAnswered s t .refusedFormat
      else if s.station.state ≠ .offline then ControlAnswered s t .refusedState
      else if o.imageAddr.toNat % 4 ≠ 0 then ControlAnswered s t .refusedFormat
      else t.station.lastResult = s.station.lastResult ∧ t.port.fifo = s.port.fifo ∧
        ∃ j, t.launch.intake = some (.setupScalars o.imageAddr j) ∧ j.base = o.imageAddr ∧ j.total = 24) ∧
    (orderKind o = .join → ∃ t, exec .join s = .next t ∧
      if controlMalformed o then ControlAnswered s t .refusedFormat
      else if s.station.state = .offline ∧ s.station.setup.isSome then
        ControlAnswered s t .accepted ∧ t.station.state = .joining .waiting ∧ noticeSet .stateChanged t = true
      else ControlAnswered s t .refusedState ∧ (s.station.state ≠ .draining → t.station.state = s.station.state)) ∧
    (orderKind o = .leave → ∃ t, exec .leave s = .next t ∧
      if controlMalformed o then ControlAnswered s t .refusedFormat
      else if s.station.state = .online then
        ControlAnswered s t .accepted ∧ noticeSet .stateChanged t = true ∧
          t.station.state = if drainCondition t = true ∧ roleOf t = .none then .offline else .draining
      else ControlAnswered s t .refusedState) ∧
    (orderKind o = .unassigned → ∃ t, exec .unassignedOrder s = .next t ∧ ControlAnswered s t .refusedFormat ∧
      t.station.setup = s.station.setup)

/-- R80 and R81: the end of the reads of a gather list: REJECTED for a FAULT or a malformed list, ISOLATED in that state,
otherwise QUEUED with the segments of the list. That no further read of the list follows a FAULT is the model's choice
(log 23). -/
def Obligations.GatherListEndsTheIntake : Prop :=
  ∀ (s : State) (x : Txn) (k : XKind) (o : Order) (rest : List Order) (j : ReadJob) (sp : Span) (u : Tag)
      (result : Completion),
    s.mem.granted = some .lister → s.mem.lister = some x → x.isPair = false → completionFits x result = true →
    s.launch.intake = some (.gather k o j) → s.port.fifo = o :: rest → j.flight = some sp → j.fault = false →
    LowestFree s u →
    (result = .fault → ∃ t, exec (.memoryTransactionComplete result) s = .next t ∧
      CompletedAtIntake s t u (intakeBody s k o []) .rejected) ∧
    ∀ data segs, result = .ok data → j.total ≤ (j.got ++ sp.slice data).length →
      segs = listSegments o.segCount (j.got ++ sp.slice data) →
      ((∃ g ∈ segs, g.len = 0 ∨ 2 ^ 32 < g.addr.toNat + g.len) ∨ (segs.map Segment.len).sum ≠ o.length →
        ∃ t, exec (.memoryTransactionComplete result) s = .next t ∧
          CompletedAtIntake s t u (intakeBody s k o []) .rejected) ∧
      ((∀ g ∈ segs, g.len ≠ 0 ∧ g.addr.toNat + g.len ≤ 2 ^ 32) → (segs.map Segment.len).sum = o.length →
        ∃ t, exec (.memoryTransactionComplete result) s = .next t ∧
          if s.station.state = .isolated then CompletedAtIntake s t u (intakeBody s k o []) .isolated
          else Intaken s t u ∧ slotOf t u = .live (intakeBody s k o segs) .queued)

/-- R58, R59 and R183: the setup image. The reads of each of its two parts go on to the end of the part even after a FAULT. At
the end of the scalar words the SETUP is refused for a FAULT or a window count outside 1 to 8, or the window words are read. At
the end of those the record is replaced by a valid image, and stays on a FAULT or an image that is not valid. An image that is
valid lies in the ranges of R58. That the reads of an image that passes the top of memory go on at 0, and those of a part after
a FAULT to its end, is the model's choice (log 23), and so is that each read takes all up to the end of its aligned block (log
46). -/
def Obligations.SetupImageReplacesTheRecord : Prop :=
  (∀ (s : State) (image : Word) (j : ReadJob) (sp : Span) (result : Completion), Completes s .lister result →
    s.launch.intake = some (.setupScalars image j) → j.flight = some sp →
    ∃ t, exec (.memoryTransactionComplete result) s = .next t ∧ t.station.setup = s.station.setup ∧
      (j.issued < j.total → ReadGoesOn t (.setupScalars image) j sp result) ∧
      (j.total ≤ j.issued → j.fault = true ∨ result = .fault → ControlAnswered s t .refusedFormat) ∧
      ∀ data n, j.total ≤ j.issued → j.fault = false → result = .ok data →
        n = ((wordAt (j.got ++ sp.slice data) 5).extractLsb' 0 4).toNat →
        (1 ≤ n → n ≤ 8 → t.port.fifo = s.port.fifo ∧ t.station.lastResult = s.station.lastResult ∧
          (∃ j', t.launch.intake = some (.setupWindows (j.got ++ sp.slice data) j') ∧ j'.total = 20 * n) ∧
          t.mem.lister = some (nextRead (image + 24) (20 * n))) ∧
        (n < 1 ∨ 8 < n → ControlAnswered s t .refusedFormat)) ∧
  (∀ (s : State) (scalars : List Byte) (j : ReadJob) (sp : Span) (result : Completion), Completes s .lister result →
    s.launch.intake = some (.setupWindows scalars j) → j.flight = some sp →
    ∃ t, exec (.memoryTransactionComplete result) s = .next t ∧
      (j.issued < j.total → t.station.setup = s.station.setup ∧ ReadGoesOn t (.setupWindows scalars) j sp result) ∧
      (j.total ≤ j.issued → j.fault = true ∨ result = .fault →
        ControlAnswered s t .refusedFormat ∧ t.station.setup = s.station.setup) ∧
      ∀ data, j.total ≤ j.issued → j.fault = false → result = .ok data →
        match setupOfImage scalars (j.got ++ sp.slice data) with
        | some r => ControlAnswered s t .accepted ∧ t.station.setup = some r
        | none => ControlAnswered s t .refusedFormat ∧ t.station.setup = s.station.setup) ∧
  ∀ scalars windows r, setupOfImage scalars windows = some r → setupWithin r

/-! ## Cancellation and timers -/

/-- R147 to R153: a CANCEL by the state of the entry that it names. One that is CONNECTED with tenure OPEN gets the mark in
every case (R150): the agent interjects while the course is not finished, and the bytes taken of the run that this cuts are
handed (R37, R107); with the course finished, with INTERJECT already asserted, or while the entry waits for its run to drain
after its tenure, it does not. -/
def Obligations.CancelActsByState : Prop :=
  ∀ (s : State) (w0 w1 : Word) (n : BitVec 8) (u : Tag), s.port.urgent = .occupied w0 w1 → w0.extractLsb' 0 4 = 1 →
    n = w1.extractLsb' 0 8 →
    (31 < n.toNat →
      exec .cancel s = .next { s with port.urgent := .empty, station.lastResult := .refusedFormat }) ∧
    (n.toNat = u.toNat → ∃ t, exec .cancel s = .next t ∧ t.port.urgent = .empty ∧
      ((∀ b p, slotOf s u ≠ .live b p) → t.station.lastResult = .refusedState ∧ slotOf t u = slotOf s u) ∧
      ∀ b p, slotOf s u = .live b p → t.station.lastResult = .accepted ∧
        (p = .queued ∨ (∃ h, p = .held h) → CompletedAs s t u { b with bytesDone := 0 } .cancelled) ∧
        (∀ left, p = .parked left → slotOf t u = .live { b with cancel := true } (.withdrawing none)) ∧
        (p = .callingOpen ∨ p = .callingWithdraw ∨ (∃ o, p = .connWithdraw o) ∨ (∃ h, p = .withdrawing h) →
          slotOf t u = .live { b with cancel := true } p) ∧
        (∀ left r, p = .connResume left r → ¬ draining s u → slotOf t u = .live { b with cancel := true } p) ∧
        ∀ o r, p = .connOpen o r →
          (∀ c, CallsOn s c → c.grantee = .launch u → c.finished = false → Interjecting s t ∧
            (r.ended = false → ConnOpenIs t u { cutBody s b with cancel := true } o (cutRecord s r))) ∧
          (∀ c, CallsOn s c → c.grantee = .launch u → c.finished = true →
            t.bus.tenure = s.bus.tenure ∧ t.bus.run = s.bus.run ∧ t.bus.drive.interject = false ∧
            (r.ended = false → ConnOpenIs t u { b with cancel := true } o r)) ∧
          (∀ c, s.bus.tenure = .caller c → c.answered = true → s.bus.drive.interject = true →
            t.bus.tenure = s.bus.tenure ∧ t.bus.drive.interject = true ∧ t.bus.interjectTimer = s.bus.interjectTimer ∧
            (r.ended = false → ConnOpenIs t u { b with cancel := true } o r)) ∧
          ((∀ c, s.bus.tenure = .caller c → c.grantee ≠ .launch u) →
            t.bus.tenure = s.bus.tenure ∧ t.bus.drive.interject = s.bus.drive.interject ∧
            (HoldsBytes s u → slotOf t u = .live { b with cancel := true } p)))

/-- R106, R123, R138, R144 and R156: the timers of exchanges. The hold-off ends in QUEUED or in a WITHDRAWING entry that may be
chosen, the park timer in WITHDRAWING, the verdict timer in the DONE that the service can give. A locked pair not yet presented
is then not issued. That a pair presented counts as issued before its grant, so that it stays with its swap stage and runs on
although not yet granted, is the model's reading of R175 (log 18). -/
def Obligations.ExchangeTimersExpire : Prop :=
  (∀ (s : State) (u : Tag) (b : Body) (n : Time),
    (slotOf s u = .live b (.held n) → ∃ t, exec (.holdOffExpiry u) s = .next t ∧ slotOf t u = .live b .queued) ∧
    (slotOf s u = .live b (.withdrawing (some n)) → ∃ t, exec (.holdOffExpiry u) s = .next t ∧
      slotOf t u = .live b (.withdrawing none)) ∧
    (slotOf s u = .live b (.parked n) → ∃ t, exec (.parkTimerExpiry u) s = .next t ∧
      slotOf t u = .live b (.withdrawing none))) ∧
  ∀ (s : State) (c : Callee) (v : Service), s.serve.verdictTimer ≠ none → Serves s c → s.serve.service = some v →
    (∀ a b x parity y, v.work = .store a b x parity y → ∃ t, exec .verdictTimerExpiry s = .next t ∧
      SendsFrame t (.verdict ⟨.done (if parity then .check else .stall), v.head.tag, v.head.gen, none, none⟩)) ∧
    (∀ a ops issued, v.work = .swap a ops issued → ∃ t, exec .verdictTimerExpiry s = .next t ∧
      SendsFrame t (.verdict ⟨.done .stall, v.head.tag, v.head.gen,
        v.head.terms.map fun _ => BitVec.ofNat 5 (setupOf s).paceMax, none⟩) ∧
      t.serve.swapMemo = s.serve.swapMemo ∧ t.serve.swapStage = s.serve.swapStage ∧
      (∀ x, s.mem.serve = some x → t.mem.serve = some x) ∧
      ∀ x, t.mem.serve = some x → x.isPair = true → s.mem.serve = some x)

/-! ## The Memory Port -/

/-- R175 and R176: a completion frees the port, and the waiting client that comes first in the cycle from the pointer is
granted next: the pointer moves past it, and a locked pair takes the lock. What the client does with it: the fill of the park-
queue head from the window's base, the offset and the bytes accepted on (R114); the writes of a STORE and the reads of a short
FETCH (R137 to R139); the reads of the data mover for a run that is sent (R100, R102), and its writes for a run that is received
(R101, R103, R109, R127, R129, R130). The next read stands at the next byte of the range, or of the segments (R74, R100, R139).
The next write stands at the next byte of the run, or of the one behind it once that one is through (R101, R127, R137, R174); how
many bytes it takes, and that a run behind another waits, are the model's choices (logs 15 and 41). The FAULT of a write
whose exchange has completed changes no entry (R130), and a FAULT that cuts the run being sent hands its bytes taken (R37,
R107). That the DONE(MEMORY) of a short FETCH is given with a single odd byte still unsent is the model's choice (log 22). So
is when a FAULT that follows the end of a RESUME tenure with ACCEPTED of the last chunk is carried out: with the drain of that
chunk's run, be the write of this run or of an earlier chunk's (log 38), and with the outcome LOCAL_FAULT (log 20). That a read
takes all up to the end of its aligned block, and is issued while the transit buffer has room, are the model's choices too (logs
46 and 16). -/
def Obligations.CompletionGrantsTheNext : Prop :=
  (∀ (s : State) (result : Completion) (f : Fill) (sp : Span) (e : ParkEntry) (es : List ParkEntry),
    Completes s .serve result → NoWriteInFlight s .serve →
    (∀ v a n k l x y, s.serve.service = some v → v.work ≠ .fetch a n k l x (some y)) →
    s.serve.fill = some f → f.flight = some sp → s.serve.parkQueue = e :: es →
    ∃ t, exec (.memoryTransactionComplete result) s = .next t ∧
      (f.abandoned = false → result = .fault → t.serve.parkQueue = { e with chunk := .readyFault } :: es ∧
        t.serve.fill = none ∧ t.serve.staging = [] ∧ t.bus.claims.serve = true) ∧
      (∀ data, f.abandoned = false → result = .ok data → f.total ≤ f.issued →
        t.serve.parkQueue = { e with chunk := .readyData f.total } :: es ∧ t.serve.fill = none ∧
        t.serve.staging = s.serve.staging ++ sp.slice data ∧ t.bus.claims.serve = true) ∧
      (∀ data, f.abandoned = false → result = .ok data → f.issued < f.total →
        t.serve.parkQueue = e :: es ∧ t.serve.staging = s.serve.staging ++ sp.slice data ∧
        (s.serve.service = none → s.bus.runs = [] → t.mem.serve =
          some (nextRead (f.base + BitVec.ofNat 32 f.issued) (f.total - f.issued)))) ∧
      (f.abandoned = true → e.chunk = .empty → t.serve.staging = [] ∧
        t.serve.parkQueue = { e with chunk := .filling (min 1024 (e.total - e.sent)) } :: es ∧
        ∃ g, t.serve.fill = some g ∧ g.base = parkAddress s e ∧ g.total = min 1024 (e.total - e.sent) ∧
          ∀ w, windowOf s e.window.toNat = some w → g.base = w.base + BitVec.ofNat 32 (e.offset + e.sent))) ∧
  (∀ (s : State) (result : Completion) (c : Callee) (v : Service) (r : InRun) (rs : List InRun) (j : StoreJob)
      (n taken written : Nat) (fault parity ended : Bool),
    Completes s .serve result → Serves s c → s.serve.service = some v →
    v.work = .store taken written fault parity ended → v.closed = false → s.bus.runs = r :: rs → r.sink = .store j →
    r.flight = some n → j.serving = true →
    ∃ t, exec (.memoryTransactionComplete result) s = .next t ∧ t.bus.tenure = s.bus.tenure ∧
      (ended = false → t.serve.service = some { v with work :=
        match result with
        | .ok _ => .store taken (written + n) fault parity false
        | .fault => .store taken written true parity false }) ∧
      (ended = true → r.ended = true → (∀ q ∈ rs, isServingStore q = false) →
        (result = .fault → SendsFrame t (.verdict ⟨.done .memory, v.head.tag, v.head.gen, none, none⟩)) ∧
        (∀ data, result = .ok data → r.bytes = [] → SendsFrame t (.verdict
          ⟨.done (if fault then .memory else if parity then .check else .ok), v.head.tag, v.head.gen, none, none⟩)))) ∧
  (∀ (s : State) (result : Completion) (c : Callee) (v : Service) (base : Word) (issued placed : Nat)
      (held : List Byte) (sp : Span),
    Completes s .serve result → NoWriteInFlight s .serve → Serves s c → s.serve.service = some v →
    v.work = .fetch base issued placed held false (some sp) → s.serve.resume = none → s.launch.outJob = none →
    ∃ t v', exec (.memoryTransactionComplete result) s = .next t ∧ t.serve.service = some v' ∧
      (∀ data, result = .ok data → ∃ a k l x, v'.work = .fetch base a k l false x ∧
        t.bus.outbound ++ l = s.bus.outbound ++ held ++ sp.slice data) ∧
      (∀ data, result = .ok data → v.closed = false → s.bus.runs = [] → issued < v.head.length.toNat →
        (s.bus.outbound ++ held ++ sp.slice data).length < 512 →
        t.mem.serve = some (nextRead (base + BitVec.ofNat 32 issued) (v.head.length.toNat - issued))) ∧
      (result = .fault → ∃ k l, v'.work = .fetch base issued k l true none) ∧
      ∀ r, result = .fault → held = [] → v.closed = false → s.bus.run = some r → r.sending = true →
        s.bus.tx = none → s.bus.count = 0 → s.bus.outbound.length < 2 → t.bus.run = none ∧
        SendsFrame t (.verdict ⟨.done .memory, v.head.tag, v.head.gen, none, none⟩)) ∧
  (∀ (s : State) (result : Completion) (c : Caller) (j : OutJob) (sp : Span), Completes s .mover result →
    NoWriteInFlight s .mover → CallsOn s c → c.grantee = .launch j.tag → s.launch.outJob = some j → j.flight = some sp →
    s.serve.resume = none →
    ∃ t, exec (.memoryTransactionComplete result) s = .next t ∧
      (∀ data, result = .ok data → t.bus.tenure = s.bus.tenure ∧ ∃ k, t.launch.outJob = some k ∧ k.tag = j.tag ∧
        t.bus.outbound ++ k.held = s.bus.outbound ++ j.held ++ sp.slice data ∧
        ∀ a left, s.bus.runs = [] → j.stopped = false → j.pos < j.length → locate j.segs j.pos = some (a, left) →
          (s.bus.outbound ++ j.held ++ sp.slice data).length < 512 →
          t.mem.mover = some (nextRead a left) ∧ k.pos = j.pos + min (64 - a.toNat % 64) left) ∧
      (result = .fault → Interjecting s t ∧ t.launch.outJob = none ∧ t.bus.outbound = [] ∧
        ∀ b o q, slotOf s j.tag = .live b (.connOpen o q) → q.ended = false →
          BrokenOff s t j.tag b o { q with localFault := true })) ∧
  (∀ (s : State) (result : Completion) (r : InRun) (rs : List InRun) (i : MoverItem) (n : Nat) (b : Body),
    Completes s .mover result → s.bus.runs = r :: rs → r.sink = .mover i → r.flight = some n →
    ∃ t, exec (.memoryTransactionComplete result) s = .next t ∧
      t.bus.tenure = s.bus.tenure ∧
      (result = .fault → r.ended = false → NoneDrains rs i.tag → ∃ k, k.localFault = true ∧ t.bus.runs =
        { r with sink := .mover k, bytes := [], flight := none } :: rs.filter fun q => !runGone q) ∧
      (result = .fault → i.inService = false →
        (∀ u, ¬ draining s u → slotOf t u = slotOf s u) ∧
        (∀ u o q, slotOf s u = .live b (.connOpen o q) → q.ended = false → ConnOpenIs t u b o q) ∧
        ∀ u left q, slotOf s u = .live b (.connResume left q) → q.ended = false → ConnResumeIs t u b left q) ∧
      (result = .fault → i.inService = true →
        (∀ o q, slotOf s i.tag = .live b (.connOpen o q) → q.ended = false →
          ConnOpenIs t i.tag b o { q with localFault := true }) ∧
        (∀ o q, slotOf s i.tag = .live b (.connOpen o q) → q.ended = true → r.ended = true → NoneDrains rs i.tag →
          i.recordOpen = true → CompletedAs s t i.tag b .localFault) ∧
        (∀ left q, slotOf s i.tag = .live b (.connResume left q) → q.ended = false →
          ConnResumeIs t i.tag b left { q with localFault := true }) ∧
        (∀ left q, slotOf s i.tag = .live b (.connResume left q) → q.ended = true →
          (r.ended = true → NoneDrains rs i.tag → i.recordOpen = true → CompletedAs s t i.tag b .localFault) ∧
          (i.recordOpen = false → (∀ p ∈ rs, reportsTo p = some i.tag → Holding p) →
            slotOf t i.tag = .live b (.connResume left { q with localFault := true }))) ∧
        (∀ left x, slotOf s i.tag = .live b (.parked left) → b.work = .fetch x →
          slotOf t i.tag = .live { b with work := .fetch true } (.withdrawing none)) ∧
        (∀ p x, slotOf s i.tag = .live b p → b.work = .fetch x →
          p = .callingWithdraw ∨ (∃ h, p = .withdrawing h) ∨ (∃ o, p = .connWithdraw o) →
          slotOf t i.tag = .live { b with work := .fetch true } p)) ∧
      (∀ data, result = .ok data → r.ended = true → r.bytes = [] → NoneDrains rs i.tag → i.recordOpen = true →
        (∀ o q, slotOf s i.tag = .live b (.connOpen o q) → q.ended = true → CarriedOut s t i.tag b
          (if q.localFault then .final .localFault
          else if bodyKind b = .fetch ∧ q.parityFail = true then .retry .check
          else q.outcome.getD (.retry .stall))) ∧
        (∀ o q, slotOf s i.tag = .live b (.connOpen o q) → q.ended = false →
          slotOf t i.tag = .live b (.connOpen o { q with drained := true })) ∧
        (∀ left q, slotOf s i.tag = .live b (.connResume left q) → q.ended = true → q.localFault = false →
          q.outcome = some .accepted → b.bytesDone = b.length → CompletedAs s t i.tag b .ok) ∧
        (∀ left q, slotOf s i.tag = .live b (.connResume left q) → q.ended = true → q.localFault = true →
          CompletedAs s t i.tag b .localFault) ∧
        (∀ left q, slotOf s i.tag = .live b (.connResume left q) → q.ended = false →
          slotOf t i.tag = .live b (.connResume left { q with drained := true })))) ∧
  (∀ (s : State) (result : Completion) (c d : Client) (r q : InRun) (rs : List InRun) (a : Word) (n m : Nat),
    Completes s c result → s.bus.runs = r :: rs → writerOf r.sink = some c → r.flight = some n →
    (∃ data, result = .ok data) ∧ q = { r with flight := none } ∨
      r.ended = true ∧ (result = .fault ∨ r.bytes = []) ∧ rs.head? = some q ∧ (d = c ∨ txnOf s d = none) →
    WriteReady q d a m → (d = .serve → NoSwapGoesAhead s [q]) →
    ∃ t, exec (.memoryTransactionComplete result) s = .next t ∧ WritePresented t q d a m) ∧
  ∀ (s : State) (c d : Client) (x y : Txn) (result : Completion), s.mem.granted = some c → txnOf s c = some x →
    x.isPair = false → completionFits x result = true →
    (cycleFrom s.mem.pointer).find? (fun e => e != c && (txnOf s e).isSome) = some d → txnOf s d = some y →
    ∃ t, exec (.memoryTransactionComplete result) s = .next t ∧ t.mem.granted = some d ∧ t.mem.pointer = d.next ∧
      t.mem.lock = y.isPair ∧ txnOf t d = some y

/-- R143, R144 and R177: the completion of a locked pair: the memo of its requester takes the old value and the success,
unless the read or the write met a FAULT, and a service that waits for the pair gives its DONE. A later SWAP that waits for it
at step 1 of R143 then looks in the memo: it gives the result it finds there for its tag and generation, or issues its own pair,
once no leftover write of an earlier STORE stands ahead of it (R131). -/
def Obligations.LockedPairCompletes : Prop :=
  ∀ (s : State) (a : Word) (n : Nat) (compare new : Word) (g : SwapStage) (read : Option Word) (ok : Bool),
    s.mem.granted = some .serve → s.mem.serve = some ⟨a, n, .pair compare new⟩ → s.serve.swapStage = some g →
    ∃ t, exec (.lockedPairComplete read ok) s = .next t ∧ t.serve.noteMemo = s.serve.noteMemo ∧
      ((∀ v addr ops, s.serve.service = some v → v.work ≠ .swap addr ops false) → t.serve.swapStage = none) ∧
      (∀ w, read = some w → w ≠ compare ∨ ok = true → ∀ b, swapMemoOf t b =
        if b = g.requester then some ⟨g.tag, g.gen, ⟨w, w == compare⟩⟩ else swapMemoOf s b) ∧
      (read = none ∨ read = some compare ∧ ok = false → t.serve.swapMemo = s.serve.swapMemo) ∧
      ∀ c v addr ops terms, Serves s c → s.serve.service = some v → v.first = none →
        terms = (v.head.terms.map fun _ => BitVec.ofNat 5 (setupOf s).paceMax) →
        (v.work = .swap addr ops true →
          (∀ w, read = some w → w ≠ compare ∨ ok = true →
            SendsFrame t (.verdict ⟨.done .ok, v.head.tag, v.head.gen, terms, some ⟨w, w == compare⟩⟩)) ∧
          (read = none ∨ read = some compare ∧ ok = false →
            SendsFrame t (.verdict ⟨.done .memory, v.head.tag, v.head.gen, terms, none⟩))) ∧
        (v.work = .swap addr ops false →
          (∀ m, swapMemoOf t v.head.source = some m → m.tag = v.head.tag → m.gen = v.head.gen →
            t.serve.swapStage = none ∧
            SendsFrame t (.verdict ⟨.done .ok, v.head.tag, v.head.gen, terms, some m.result⟩)) ∧
          ((∀ m, swapMemoOf t v.head.source = some m → m.tag ≠ v.head.tag ∨ m.gen ≠ v.head.gen) →
            ((∀ q ∈ s.bus.runs, isLeftover q = false) →
              t.serve.service = some { v with work := .swap addr ops true } ∧
              t.serve.swapStage = some ⟨v.head.source, v.head.tag, v.head.gen⟩ ∧
              t.mem.serve = some ⟨addr, 1, .pair ops.compare ops.new⟩ ∧ t.bus.tenure = s.bus.tenure) ∧
            ((∃ q ∈ s.bus.runs, isLeftover q = true ∧ discards q.sink = false ∧ q.bytes ≠ []) →
              t.serve.service = some v ∧ t.serve.swapStage = none ∧ t.bus.tenure = s.bus.tenure)))

/-! ## Invariants that every step keeps -/

/-- R83 and R84: the Report queue holds exactly one record for each REPORTED entry. -/
def Obligations.StepKeepsReportsExact : Prop :=
  ∀ s t : State, ReportsExact s → step s = .next t → ReportsExact t

/-- R85: the launch queue holds exactly the entries that are QUEUED, HELD or WITHDRAWING, in increasing order of acceptance
number while the numbers in service and the next one lie within half the range (R76). -/
def Obligations.StepKeepsQueueExact : Prop :=
  ∀ s t : State, ReportsExact s ∧ QueueExact s → step s = .next t → ReportsExact t ∧ QueueExact t ∧
    ∀ base, TakenWithin base s → (s.launch.accCount - base).toNat < 2 ^ 31 → QueueOrdered base s → QueueOrdered base t

/-- R4: at the end of every step each claim stands exactly while its client has something to claim. R69 and R70: no step leaves
the station in DRAINING with the drain condition holding and the tenure role NONE, whichever completion, removal, end of a
tenure or bus reset brought that about; and a station that drains, and so calls no probe, leaves DRAINING by this alone, for
OFFLINE with its terms forgotten and STATE_CHANGED set (R54, R62), or else for ISOLATED, or by a device reset. That the test
stands at the end of every command, with the role as R8 gives it, is the model's reading (log 32). -/
def Obligations.StepKeepsClaimsAndEndsDrains : Prop :=
  ∀ s t : State, ReportsExact s ∧ ClaimsExact s ∧ DrainEnded s → step s = .next t →
    ReportsExact t ∧ ClaimsExact t ∧ DrainEnded t ∧
    (s.station.state = .draining → (∀ c, s.bus.tenure = .caller c → c.grantee ≠ .probe) →
      (∀ a q, s.pending ≠ .deviceReset a :: q) →
      t.station.state = .draining ∨ t.station.state = .isolated ∨ DrainedOut t)

/-- R141, R165, R166, R168 and R169: the counts and read positions of the Local Port, and the Inbox with its reservation. -/
def Obligations.StepKeepsPortBounds : Prop :=
  ∀ s t : State, InboxBounded s ∧ PortCounts s → step s = .next t → InboxBounded t ∧ PortCounts t

/-- R31: the transit buffer holds at most 512 bytes. -/
def Obligations.StepKeepsTransitBounded : Prop :=
  ∀ s t : State, TransitBounded s → step s = .next t → TransitBounded t

/-- R176 and R177: the port is granted exactly while a transaction is in progress, and locked exactly for a locked pair. -/
def Obligations.StepKeepsGrantExact : Prop :=
  ∀ s t : State, GrantExact s → step s = .next t → GrantExact t

/-- R20, R44, R58, R72, R74 and R105: the setup record stays valid, no entry is charged more than 7 attempts, the Terms Table
entry of the own address stays UNKNOWN, and a station that is ISOLATED does not drive BRESET. -/
def Obligations.StepKeepsRecordsInRange : Prop :=
  ∀ s t : State, SetupValid s ∧ AttemptsBounded s ∧ OwnTermsUnknown s ∧ IsolatedSilent s → step s = .next t →
    SetupValid t ∧ AttemptsBounded t ∧ OwnTermsUnknown t ∧ IsolatedSilent t
end

