-- ==== Sys2Proof/Laws/State.lean ====
section
/-! SUPPORT. What each named update leaves of State: one lemma per field per update, true by definition. -/

namespace Sys2Proof.Machine

@[simp] theorem setNotice_station (n : Notice) (s : State) : (setNotice n s).station = s.station := rfl
@[simp] theorem setNotice_bus (n : Notice) (s : State) : (setNotice n s).bus = s.bus := rfl
@[simp] theorem setNotice_terms (n : Notice) (s : State) : (setNotice n s).terms = s.terms := rfl
@[simp] theorem setNotice_launch (n : Notice) (s : State) : (setNotice n s).launch = s.launch := rfl
@[simp] theorem setNotice_serve (n : Notice) (s : State) : (setNotice n s).serve = s.serve := rfl
@[simp] theorem setNotice_mem (n : Notice) (s : State) : (setNotice n s).mem = s.mem := rfl
@[simp] theorem setNotice_choices (n : Notice) (s : State) : (setNotice n s).choices = s.choices := rfl
@[simp] theorem setNotice_pending (n : Notice) (s : State) : (setNotice n s).pending = s.pending := rfl
@[simp] theorem setNotice_port_notice (n : Notice) (s : State) : (setNotice n s).port.notice = s.port.notice ||| n.bit := rfl
@[simp] theorem setNotice_port_assembly (n : Notice) (s : State) : (setNotice n s).port.assembly = s.port.assembly := rfl
@[simp] theorem setNotice_port_fifo (n : Notice) (s : State) : (setNotice n s).port.fifo = s.port.fifo := rfl
@[simp] theorem setNotice_port_urgent (n : Notice) (s : State) : (setNotice n s).port.urgent = s.port.urgent := rfl
@[simp] theorem setNotice_port_reports (n : Notice) (s : State) : (setNotice n s).port.reports = s.port.reports := rfl
@[simp] theorem setNotice_port_reportPos (n : Notice) (s : State) : (setNotice n s).port.reportPos = s.port.reportPos := rfl
@[simp] theorem setNotice_port_inbox (n : Notice) (s : State) : (setNotice n s).port.inbox = s.port.inbox := rfl
@[simp] theorem setNotice_port_inboxPos (n : Notice) (s : State) : (setNotice n s).port.inboxPos = s.port.inboxPos := rfl
@[simp] theorem setNotice_port_mask (n : Notice) (s : State) : (setNotice n s).port.mask = s.port.mask := rfl
@[simp] theorem setNotice_port_readData (n : Notice) (s : State) : (setNotice n s).port.readData = s.port.readData := rfl

@[simp] theorem changeState_bus (st : StationState) (s : State) : (changeState st s).bus = s.bus := rfl
@[simp] theorem changeState_terms (st : StationState) (s : State) : (changeState st s).terms = s.terms := rfl
@[simp] theorem changeState_launch (st : StationState) (s : State) : (changeState st s).launch = s.launch := rfl
@[simp] theorem changeState_serve (st : StationState) (s : State) : (changeState st s).serve = s.serve := rfl
@[simp] theorem changeState_mem (st : StationState) (s : State) : (changeState st s).mem = s.mem := rfl
@[simp] theorem changeState_choices (st : StationState) (s : State) : (changeState st s).choices = s.choices := rfl
@[simp] theorem changeState_pending (st : StationState) (s : State) : (changeState st s).pending = s.pending := rfl
@[simp] theorem changeState_station_state (st : StationState) (s : State) : (changeState st s).station.state = st := rfl
@[simp] theorem changeState_station_strap (st : StationState) (s : State) : (changeState st s).station.strap = s.station.strap := rfl
@[simp] theorem changeState_station_setup (st : StationState) (s : State) : (changeState st s).station.setup = s.station.setup := rfl
@[simp] theorem changeState_station_lastResult (st : StationState) (s : State) : (changeState st s).station.lastResult = s.station.lastResult := rfl
@[simp] theorem changeState_port_notice (st : StationState) (s : State) : (changeState st s).port.notice = s.port.notice ||| Notice.stateChanged.bit := rfl
@[simp] theorem changeState_port_assembly (st : StationState) (s : State) : (changeState st s).port.assembly = s.port.assembly := rfl
@[simp] theorem changeState_port_fifo (st : StationState) (s : State) : (changeState st s).port.fifo = s.port.fifo := rfl
@[simp] theorem changeState_port_urgent (st : StationState) (s : State) : (changeState st s).port.urgent = s.port.urgent := rfl
@[simp] theorem changeState_port_reports (st : StationState) (s : State) : (changeState st s).port.reports = s.port.reports := rfl
@[simp] theorem changeState_port_reportPos (st : StationState) (s : State) : (changeState st s).port.reportPos = s.port.reportPos := rfl
@[simp] theorem changeState_port_inbox (st : StationState) (s : State) : (changeState st s).port.inbox = s.port.inbox := rfl
@[simp] theorem changeState_port_inboxPos (st : StationState) (s : State) : (changeState st s).port.inboxPos = s.port.inboxPos := rfl
@[simp] theorem changeState_port_mask (st : StationState) (s : State) : (changeState st s).port.mask = s.port.mask := rfl
@[simp] theorem changeState_port_readData (st : StationState) (s : State) : (changeState st s).port.readData = s.port.readData := rfl

@[simp] theorem setResult_bus (r : ControlResult) (s : State) : (setResult r s).bus = s.bus := rfl
@[simp] theorem setResult_terms (r : ControlResult) (s : State) : (setResult r s).terms = s.terms := rfl
@[simp] theorem setResult_launch (r : ControlResult) (s : State) : (setResult r s).launch = s.launch := rfl
@[simp] theorem setResult_serve (r : ControlResult) (s : State) : (setResult r s).serve = s.serve := rfl
@[simp] theorem setResult_port (r : ControlResult) (s : State) : (setResult r s).port = s.port := rfl
@[simp] theorem setResult_mem (r : ControlResult) (s : State) : (setResult r s).mem = s.mem := rfl
@[simp] theorem setResult_choices (r : ControlResult) (s : State) : (setResult r s).choices = s.choices := rfl
@[simp] theorem setResult_pending (r : ControlResult) (s : State) : (setResult r s).pending = s.pending := rfl
@[simp] theorem setResult_station_state (r : ControlResult) (s : State) : (setResult r s).station.state = s.station.state := rfl
@[simp] theorem setResult_station_strap (r : ControlResult) (s : State) : (setResult r s).station.strap = s.station.strap := rfl
@[simp] theorem setResult_station_setup (r : ControlResult) (s : State) : (setResult r s).station.setup = s.station.setup := rfl
@[simp] theorem setResult_station_lastResult (r : ControlResult) (s : State) : (setResult r s).station.lastResult = r := rfl

@[simp] theorem setTerms_station (a : Addr) (v : Option Nat) (s : State) : (setTerms a v s).station = s.station := rfl
@[simp] theorem setTerms_bus (a : Addr) (v : Option Nat) (s : State) : (setTerms a v s).bus = s.bus := rfl
@[simp] theorem setTerms_launch (a : Addr) (v : Option Nat) (s : State) : (setTerms a v s).launch = s.launch := rfl
@[simp] theorem setTerms_serve (a : Addr) (v : Option Nat) (s : State) : (setTerms a v s).serve = s.serve := rfl
@[simp] theorem setTerms_port (a : Addr) (v : Option Nat) (s : State) : (setTerms a v s).port = s.port := rfl
@[simp] theorem setTerms_mem (a : Addr) (v : Option Nat) (s : State) : (setTerms a v s).mem = s.mem := rfl
@[simp] theorem setTerms_choices (a : Addr) (v : Option Nat) (s : State) : (setTerms a v s).choices = s.choices := rfl
@[simp] theorem setTerms_pending (a : Addr) (v : Option Nat) (s : State) : (setTerms a v s).pending = s.pending := rfl

@[simp] theorem forgetTerms_station (s : State) : (forgetTerms s).station = s.station := rfl
@[simp] theorem forgetTerms_bus (s : State) : (forgetTerms s).bus = s.bus := rfl
@[simp] theorem forgetTerms_launch (s : State) : (forgetTerms s).launch = s.launch := rfl
@[simp] theorem forgetTerms_serve (s : State) : (forgetTerms s).serve = s.serve := rfl
@[simp] theorem forgetTerms_port (s : State) : (forgetTerms s).port = s.port := rfl
@[simp] theorem forgetTerms_mem (s : State) : (forgetTerms s).mem = s.mem := rfl
@[simp] theorem forgetTerms_choices (s : State) : (forgetTerms s).choices = s.choices := rfl
@[simp] theorem forgetTerms_pending (s : State) : (forgetTerms s).pending = s.pending := rfl
@[simp] theorem forgetTerms_terms (s : State) : (forgetTerms s).terms = Vector.replicate 16 none := rfl

@[simp] theorem setEntry_station (u : Tag) (e : Entry) (s : State) : (setEntry u e s).station = s.station := rfl
@[simp] theorem setEntry_bus (u : Tag) (e : Entry) (s : State) : (setEntry u e s).bus = s.bus := rfl
@[simp] theorem setEntry_terms (u : Tag) (e : Entry) (s : State) : (setEntry u e s).terms = s.terms := rfl
@[simp] theorem setEntry_serve (u : Tag) (e : Entry) (s : State) : (setEntry u e s).serve = s.serve := rfl
@[simp] theorem setEntry_port (u : Tag) (e : Entry) (s : State) : (setEntry u e s).port = s.port := rfl
@[simp] theorem setEntry_mem (u : Tag) (e : Entry) (s : State) : (setEntry u e s).mem = s.mem := rfl
@[simp] theorem setEntry_choices (u : Tag) (e : Entry) (s : State) : (setEntry u e s).choices = s.choices := rfl
@[simp] theorem setEntry_pending (u : Tag) (e : Entry) (s : State) : (setEntry u e s).pending = s.pending := rfl
@[simp] theorem setEntry_launch_queue (u : Tag) (e : Entry) (s : State) : (setEntry u e s).launch.queue = s.launch.queue := rfl
@[simp] theorem setEntry_launch_accCount (u : Tag) (e : Entry) (s : State) : (setEntry u e s).launch.accCount = s.launch.accCount := rfl
@[simp] theorem setEntry_launch_intake (u : Tag) (e : Entry) (s : State) : (setEntry u e s).launch.intake = s.launch.intake := rfl
@[simp] theorem setEntry_launch_outJob (u : Tag) (e : Entry) (s : State) : (setEntry u e s).launch.outJob = s.launch.outJob := rfl

@[simp] theorem setLive_station (u : Tag) (b : Body) (p : Phase) (s : State) : (setLive u b p s).station = s.station := rfl
@[simp] theorem setLive_bus (u : Tag) (b : Body) (p : Phase) (s : State) : (setLive u b p s).bus = s.bus := rfl
@[simp] theorem setLive_terms (u : Tag) (b : Body) (p : Phase) (s : State) : (setLive u b p s).terms = s.terms := rfl
@[simp] theorem setLive_serve (u : Tag) (b : Body) (p : Phase) (s : State) : (setLive u b p s).serve = s.serve := rfl
@[simp] theorem setLive_port (u : Tag) (b : Body) (p : Phase) (s : State) : (setLive u b p s).port = s.port := rfl
@[simp] theorem setLive_mem (u : Tag) (b : Body) (p : Phase) (s : State) : (setLive u b p s).mem = s.mem := rfl
@[simp] theorem setLive_choices (u : Tag) (b : Body) (p : Phase) (s : State) : (setLive u b p s).choices = s.choices := rfl
@[simp] theorem setLive_pending (u : Tag) (b : Body) (p : Phase) (s : State) : (setLive u b p s).pending = s.pending := rfl
@[simp] theorem setLive_launch_queue (u : Tag) (b : Body) (p : Phase) (s : State) : (setLive u b p s).launch.queue = s.launch.queue := rfl
@[simp] theorem setLive_launch_accCount (u : Tag) (b : Body) (p : Phase) (s : State) : (setLive u b p s).launch.accCount = s.launch.accCount := rfl
@[simp] theorem setLive_launch_intake (u : Tag) (b : Body) (p : Phase) (s : State) : (setLive u b p s).launch.intake = s.launch.intake := rfl
@[simp] theorem setLive_launch_outJob (u : Tag) (b : Body) (p : Phase) (s : State) : (setLive u b p s).launch.outJob = s.launch.outJob := rfl

@[simp] theorem enqueue_station (u : Tag) (s : State) : (enqueue u s).station = s.station := rfl
@[simp] theorem enqueue_bus (u : Tag) (s : State) : (enqueue u s).bus = s.bus := rfl
@[simp] theorem enqueue_terms (u : Tag) (s : State) : (enqueue u s).terms = s.terms := rfl
@[simp] theorem enqueue_serve (u : Tag) (s : State) : (enqueue u s).serve = s.serve := rfl
@[simp] theorem enqueue_port (u : Tag) (s : State) : (enqueue u s).port = s.port := rfl
@[simp] theorem enqueue_mem (u : Tag) (s : State) : (enqueue u s).mem = s.mem := rfl
@[simp] theorem enqueue_choices (u : Tag) (s : State) : (enqueue u s).choices = s.choices := rfl
@[simp] theorem enqueue_pending (u : Tag) (s : State) : (enqueue u s).pending = s.pending := rfl
@[simp] theorem enqueue_launch_entries (u : Tag) (s : State) : (enqueue u s).launch.entries = s.launch.entries := rfl
@[simp] theorem enqueue_launch_accCount (u : Tag) (s : State) : (enqueue u s).launch.accCount = s.launch.accCount := rfl
@[simp] theorem enqueue_launch_intake (u : Tag) (s : State) : (enqueue u s).launch.intake = s.launch.intake := rfl
@[simp] theorem enqueue_launch_outJob (u : Tag) (s : State) : (enqueue u s).launch.outJob = s.launch.outJob := rfl

@[simp] theorem dequeue_station (u : Tag) (s : State) : (dequeue u s).station = s.station := rfl
@[simp] theorem dequeue_bus (u : Tag) (s : State) : (dequeue u s).bus = s.bus := rfl
@[simp] theorem dequeue_terms (u : Tag) (s : State) : (dequeue u s).terms = s.terms := rfl
@[simp] theorem dequeue_serve (u : Tag) (s : State) : (dequeue u s).serve = s.serve := rfl
@[simp] theorem dequeue_port (u : Tag) (s : State) : (dequeue u s).port = s.port := rfl
@[simp] theorem dequeue_mem (u : Tag) (s : State) : (dequeue u s).mem = s.mem := rfl
@[simp] theorem dequeue_choices (u : Tag) (s : State) : (dequeue u s).choices = s.choices := rfl
@[simp] theorem dequeue_pending (u : Tag) (s : State) : (dequeue u s).pending = s.pending := rfl
@[simp] theorem dequeue_launch_entries (u : Tag) (s : State) : (dequeue u s).launch.entries = s.launch.entries := rfl
@[simp] theorem dequeue_launch_accCount (u : Tag) (s : State) : (dequeue u s).launch.accCount = s.launch.accCount := rfl
@[simp] theorem dequeue_launch_intake (u : Tag) (s : State) : (dequeue u s).launch.intake = s.launch.intake := rfl
@[simp] theorem dequeue_launch_outJob (u : Tag) (s : State) : (dequeue u s).launch.outJob = s.launch.outJob := rfl
@[simp] theorem dequeue_launch_queue (u : Tag) (s : State) : (dequeue u s).launch.queue = s.launch.queue.filter (· != u) := rfl

@[simp] theorem closeItems_station (x : Bool) (u : Tag) (s : State) : (closeItems x u s).station = s.station := rfl
@[simp] theorem closeItems_terms (x : Bool) (u : Tag) (s : State) : (closeItems x u s).terms = s.terms := rfl
@[simp] theorem closeItems_launch (x : Bool) (u : Tag) (s : State) : (closeItems x u s).launch = s.launch := rfl
@[simp] theorem closeItems_serve (x : Bool) (u : Tag) (s : State) : (closeItems x u s).serve = s.serve := rfl
@[simp] theorem closeItems_port (x : Bool) (u : Tag) (s : State) : (closeItems x u s).port = s.port := rfl
@[simp] theorem closeItems_mem (x : Bool) (u : Tag) (s : State) : (closeItems x u s).mem = s.mem := rfl
@[simp] theorem closeItems_choices (x : Bool) (u : Tag) (s : State) : (closeItems x u s).choices = s.choices := rfl
@[simp] theorem closeItems_pending (x : Bool) (u : Tag) (s : State) : (closeItems x u s).pending = s.pending := rfl
@[simp] theorem closeItems_bus_view (x : Bool) (u : Tag) (s : State) : (closeItems x u s).bus.view = s.bus.view := rfl
@[simp] theorem closeItems_bus_idleTimer (x : Bool) (u : Tag) (s : State) : (closeItems x u s).bus.idleTimer = s.bus.idleTimer := rfl
@[simp] theorem closeItems_bus_windowTimer (x : Bool) (u : Tag) (s : State) : (closeItems x u s).bus.windowTimer = s.bus.windowTimer := rfl
@[simp] theorem closeItems_bus_contending (x : Bool) (u : Tag) (s : State) : (closeItems x u s).bus.contending = s.bus.contending := rfl
@[simp] theorem closeItems_bus_spent (x : Bool) (u : Tag) (s : State) : (closeItems x u s).bus.spent = s.bus.spent := rfl
@[simp] theorem closeItems_bus_claims (x : Bool) (u : Tag) (s : State) : (closeItems x u s).bus.claims = s.bus.claims := rfl
@[simp] theorem closeItems_bus_nextGrantee (x : Bool) (u : Tag) (s : State) : (closeItems x u s).bus.nextGrantee = s.bus.nextGrantee := rfl
@[simp] theorem closeItems_bus_tenure (x : Bool) (u : Tag) (s : State) : (closeItems x u s).bus.tenure = s.bus.tenure := rfl
@[simp] theorem closeItems_bus_callTimer (x : Bool) (u : Tag) (s : State) : (closeItems x u s).bus.callTimer = s.bus.callTimer := rfl
@[simp] theorem closeItems_bus_stallTimer (x : Bool) (u : Tag) (s : State) : (closeItems x u s).bus.stallTimer = s.bus.stallTimer := rfl
@[simp] theorem closeItems_bus_interjectTimer (x : Bool) (u : Tag) (s : State) : (closeItems x u s).bus.interjectTimer = s.bus.interjectTimer := rfl
@[simp] theorem closeItems_bus_bresetDrive (x : Bool) (u : Tag) (s : State) : (closeItems x u s).bus.bresetDrive = s.bus.bresetDrive := rfl
@[simp] theorem closeItems_bus_bresetDetect (x : Bool) (u : Tag) (s : State) : (closeItems x u s).bus.bresetDetect = s.bus.bresetDetect := rfl
@[simp] theorem closeItems_bus_bresetSeen (x : Bool) (u : Tag) (s : State) : (closeItems x u s).bus.bresetSeen = s.bus.bresetSeen := rfl
@[simp] theorem closeItems_bus_runs (x : Bool) (u : Tag) (s : State) : (closeItems x u s).bus.runs = s.bus.runs.map (closeItem x u) := rfl
@[simp] theorem closeItems_bus_outbound (x : Bool) (u : Tag) (s : State) : (closeItems x u s).bus.outbound = s.bus.outbound := rfl
@[simp] theorem closeItems_bus_count (x : Bool) (u : Tag) (s : State) : (closeItems x u s).bus.count = s.bus.count := rfl
@[simp] theorem closeItems_bus_capture (x : Bool) (u : Tag) (s : State) : (closeItems x u s).bus.capture = s.bus.capture := rfl
@[simp] theorem closeItems_bus_rx (x : Bool) (u : Tag) (s : State) : (closeItems x u s).bus.rx = s.bus.rx := rfl
@[simp] theorem closeItems_bus_tx (x : Bool) (u : Tag) (s : State) : (closeItems x u s).bus.tx = s.bus.tx := rfl
@[simp] theorem closeItems_bus_run (x : Bool) (u : Tag) (s : State) : (closeItems x u s).bus.run = s.bus.run := rfl
@[simp] theorem closeItems_bus_observed (x : Bool) (u : Tag) (s : State) : (closeItems x u s).bus.observed = s.bus.observed := rfl
@[simp] theorem closeItems_bus_drive (x : Bool) (u : Tag) (s : State) : (closeItems x u s).bus.drive = s.bus.drive := rfl
@[simp] theorem closeItems_bus_strobesGiven (x : Bool) (u : Tag) (s : State) : (closeItems x u s).bus.strobesGiven = s.bus.strobesGiven := rfl
@[simp] theorem closeItems_bus_takesGiven (x : Bool) (u : Tag) (s : State) : (closeItems x u s).bus.takesGiven = s.bus.takesGiven := rfl

@[simp] theorem releaseOrder_station (s : State) : (releaseOrder s).station = s.station := rfl
@[simp] theorem releaseOrder_bus (s : State) : (releaseOrder s).bus = s.bus := rfl
@[simp] theorem releaseOrder_terms (s : State) : (releaseOrder s).terms = s.terms := rfl
@[simp] theorem releaseOrder_serve (s : State) : (releaseOrder s).serve = s.serve := rfl
@[simp] theorem releaseOrder_mem (s : State) : (releaseOrder s).mem = s.mem := rfl
@[simp] theorem releaseOrder_choices (s : State) : (releaseOrder s).choices = s.choices := rfl
@[simp] theorem releaseOrder_pending (s : State) : (releaseOrder s).pending = s.pending := rfl
@[simp] theorem releaseOrder_port_fifo (s : State) : (releaseOrder s).port.fifo = s.port.fifo.tail := rfl
@[simp] theorem releaseOrder_launch_intake (s : State) : (releaseOrder s).launch.intake = none := rfl
@[simp] theorem releaseOrder_launch_entries (s : State) : (releaseOrder s).launch.entries = s.launch.entries := rfl
@[simp] theorem releaseOrder_launch_queue (s : State) : (releaseOrder s).launch.queue = s.launch.queue := rfl
@[simp] theorem releaseOrder_launch_accCount (s : State) : (releaseOrder s).launch.accCount = s.launch.accCount := rfl
@[simp] theorem releaseOrder_launch_outJob (s : State) : (releaseOrder s).launch.outJob = s.launch.outJob := rfl
@[simp] theorem releaseOrder_port_assembly (s : State) : (releaseOrder s).port.assembly = s.port.assembly := rfl
@[simp] theorem releaseOrder_port_urgent (s : State) : (releaseOrder s).port.urgent = s.port.urgent := rfl
@[simp] theorem releaseOrder_port_reports (s : State) : (releaseOrder s).port.reports = s.port.reports := rfl
@[simp] theorem releaseOrder_port_reportPos (s : State) : (releaseOrder s).port.reportPos = s.port.reportPos := rfl
@[simp] theorem releaseOrder_port_inbox (s : State) : (releaseOrder s).port.inbox = s.port.inbox := rfl
@[simp] theorem releaseOrder_port_inboxPos (s : State) : (releaseOrder s).port.inboxPos = s.port.inboxPos := rfl
@[simp] theorem releaseOrder_port_notice (s : State) : (releaseOrder s).port.notice = s.port.notice := rfl
@[simp] theorem releaseOrder_port_mask (s : State) : (releaseOrder s).port.mask = s.port.mask := rfl
@[simp] theorem releaseOrder_port_readData (s : State) : (releaseOrder s).port.readData = s.port.readData := rfl

@[simp] theorem openRun_station (k : Sink) (n : Nat) (s : State) : (openRun k n s).station = s.station := rfl
@[simp] theorem openRun_terms (k : Sink) (n : Nat) (s : State) : (openRun k n s).terms = s.terms := rfl
@[simp] theorem openRun_launch (k : Sink) (n : Nat) (s : State) : (openRun k n s).launch = s.launch := rfl
@[simp] theorem openRun_serve (k : Sink) (n : Nat) (s : State) : (openRun k n s).serve = s.serve := rfl
@[simp] theorem openRun_port (k : Sink) (n : Nat) (s : State) : (openRun k n s).port = s.port := rfl
@[simp] theorem openRun_mem (k : Sink) (n : Nat) (s : State) : (openRun k n s).mem = s.mem := rfl
@[simp] theorem openRun_choices (k : Sink) (n : Nat) (s : State) : (openRun k n s).choices = s.choices := rfl
@[simp] theorem openRun_pending (k : Sink) (n : Nat) (s : State) : (openRun k n s).pending = s.pending := rfl
@[simp] theorem openRun_bus_view (k : Sink) (n : Nat) (s : State) : (openRun k n s).bus.view = s.bus.view := rfl
@[simp] theorem openRun_bus_idleTimer (k : Sink) (n : Nat) (s : State) : (openRun k n s).bus.idleTimer = s.bus.idleTimer := rfl
@[simp] theorem openRun_bus_windowTimer (k : Sink) (n : Nat) (s : State) : (openRun k n s).bus.windowTimer = s.bus.windowTimer := rfl
@[simp] theorem openRun_bus_contending (k : Sink) (n : Nat) (s : State) : (openRun k n s).bus.contending = s.bus.contending := rfl
@[simp] theorem openRun_bus_spent (k : Sink) (n : Nat) (s : State) : (openRun k n s).bus.spent = s.bus.spent := rfl
@[simp] theorem openRun_bus_claims (k : Sink) (n : Nat) (s : State) : (openRun k n s).bus.claims = s.bus.claims := rfl
@[simp] theorem openRun_bus_nextGrantee (k : Sink) (n : Nat) (s : State) : (openRun k n s).bus.nextGrantee = s.bus.nextGrantee := rfl
@[simp] theorem openRun_bus_tenure (k : Sink) (n : Nat) (s : State) : (openRun k n s).bus.tenure = s.bus.tenure := rfl
@[simp] theorem openRun_bus_callTimer (k : Sink) (n : Nat) (s : State) : (openRun k n s).bus.callTimer = s.bus.callTimer := rfl
@[simp] theorem openRun_bus_stallTimer (k : Sink) (n : Nat) (s : State) : (openRun k n s).bus.stallTimer = s.bus.stallTimer := rfl
@[simp] theorem openRun_bus_interjectTimer (k : Sink) (n : Nat) (s : State) : (openRun k n s).bus.interjectTimer = s.bus.interjectTimer := rfl
@[simp] theorem openRun_bus_bresetDrive (k : Sink) (n : Nat) (s : State) : (openRun k n s).bus.bresetDrive = s.bus.bresetDrive := rfl
@[simp] theorem openRun_bus_bresetDetect (k : Sink) (n : Nat) (s : State) : (openRun k n s).bus.bresetDetect = s.bus.bresetDetect := rfl
@[simp] theorem openRun_bus_bresetSeen (k : Sink) (n : Nat) (s : State) : (openRun k n s).bus.bresetSeen = s.bus.bresetSeen := rfl
@[simp] theorem openRun_bus_runs (k : Sink) (n : Nat) (s : State) : (openRun k n s).bus.runs = s.bus.runs ++ [⟨k, n, 0, [], false, none⟩] := rfl
@[simp] theorem openRun_bus_outbound (k : Sink) (n : Nat) (s : State) : (openRun k n s).bus.outbound = s.bus.outbound := rfl
@[simp] theorem openRun_bus_count (k : Sink) (n : Nat) (s : State) : (openRun k n s).bus.count = s.bus.count := rfl
@[simp] theorem openRun_bus_capture (k : Sink) (n : Nat) (s : State) : (openRun k n s).bus.capture = s.bus.capture := rfl
@[simp] theorem openRun_bus_rx (k : Sink) (n : Nat) (s : State) : (openRun k n s).bus.rx = s.bus.rx := rfl
@[simp] theorem openRun_bus_tx (k : Sink) (n : Nat) (s : State) : (openRun k n s).bus.tx = s.bus.tx := rfl
@[simp] theorem openRun_bus_run (k : Sink) (n : Nat) (s : State) : (openRun k n s).bus.run = s.bus.run := rfl
@[simp] theorem openRun_bus_observed (k : Sink) (n : Nat) (s : State) : (openRun k n s).bus.observed = s.bus.observed := rfl
@[simp] theorem openRun_bus_drive (k : Sink) (n : Nat) (s : State) : (openRun k n s).bus.drive = s.bus.drive := rfl
@[simp] theorem openRun_bus_strobesGiven (k : Sink) (n : Nat) (s : State) : (openRun k n s).bus.strobesGiven = s.bus.strobesGiven := rfl
@[simp] theorem openRun_bus_takesGiven (k : Sink) (n : Nat) (s : State) : (openRun k n s).bus.takesGiven = s.bus.takesGiven := rfl

@[simp] theorem releaseLines_station (s : State) : (releaseLines s).station = s.station := rfl
@[simp] theorem releaseLines_terms (s : State) : (releaseLines s).terms = s.terms := rfl
@[simp] theorem releaseLines_launch (s : State) : (releaseLines s).launch = s.launch := rfl
@[simp] theorem releaseLines_serve (s : State) : (releaseLines s).serve = s.serve := rfl
@[simp] theorem releaseLines_port (s : State) : (releaseLines s).port = s.port := rfl
@[simp] theorem releaseLines_mem (s : State) : (releaseLines s).mem = s.mem := rfl
@[simp] theorem releaseLines_choices (s : State) : (releaseLines s).choices = s.choices := rfl
@[simp] theorem releaseLines_pending (s : State) : (releaseLines s).pending = s.pending := rfl
@[simp] theorem releaseLines_bus_view (s : State) : (releaseLines s).bus.view = s.bus.view := rfl
@[simp] theorem releaseLines_bus_idleTimer (s : State) : (releaseLines s).bus.idleTimer = s.bus.idleTimer := rfl
@[simp] theorem releaseLines_bus_windowTimer (s : State) : (releaseLines s).bus.windowTimer = s.bus.windowTimer := rfl
@[simp] theorem releaseLines_bus_contending (s : State) : (releaseLines s).bus.contending = s.bus.contending := rfl
@[simp] theorem releaseLines_bus_spent (s : State) : (releaseLines s).bus.spent = s.bus.spent := rfl
@[simp] theorem releaseLines_bus_claims (s : State) : (releaseLines s).bus.claims = s.bus.claims := rfl
@[simp] theorem releaseLines_bus_nextGrantee (s : State) : (releaseLines s).bus.nextGrantee = s.bus.nextGrantee := rfl
@[simp] theorem releaseLines_bus_tenure (s : State) : (releaseLines s).bus.tenure = s.bus.tenure := rfl
@[simp] theorem releaseLines_bus_callTimer (s : State) : (releaseLines s).bus.callTimer = s.bus.callTimer := rfl
@[simp] theorem releaseLines_bus_stallTimer (s : State) : (releaseLines s).bus.stallTimer = s.bus.stallTimer := rfl
@[simp] theorem releaseLines_bus_interjectTimer (s : State) : (releaseLines s).bus.interjectTimer = s.bus.interjectTimer := rfl
@[simp] theorem releaseLines_bus_bresetDrive (s : State) : (releaseLines s).bus.bresetDrive = s.bus.bresetDrive := rfl
@[simp] theorem releaseLines_bus_bresetDetect (s : State) : (releaseLines s).bus.bresetDetect = s.bus.bresetDetect := rfl
@[simp] theorem releaseLines_bus_bresetSeen (s : State) : (releaseLines s).bus.bresetSeen = s.bus.bresetSeen := rfl
@[simp] theorem releaseLines_bus_runs (s : State) : (releaseLines s).bus.runs = s.bus.runs := rfl
@[simp] theorem releaseLines_bus_outbound (s : State) : (releaseLines s).bus.outbound = s.bus.outbound := rfl
@[simp] theorem releaseLines_bus_count (s : State) : (releaseLines s).bus.count = s.bus.count := rfl
@[simp] theorem releaseLines_bus_capture (s : State) : (releaseLines s).bus.capture = s.bus.capture := rfl
@[simp] theorem releaseLines_bus_rx (s : State) : (releaseLines s).bus.rx = s.bus.rx := rfl
@[simp] theorem releaseLines_bus_tx (s : State) : (releaseLines s).bus.tx = s.bus.tx := rfl
@[simp] theorem releaseLines_bus_run (s : State) : (releaseLines s).bus.run = s.bus.run := rfl
@[simp] theorem releaseLines_bus_observed (s : State) : (releaseLines s).bus.observed = s.bus.observed := rfl
@[simp] theorem releaseLines_bus_strobesGiven (s : State) : (releaseLines s).bus.strobesGiven = s.bus.strobesGiven := rfl
@[simp] theorem releaseLines_bus_takesGiven (s : State) : (releaseLines s).bus.takesGiven = s.bus.takesGiven := rfl

@[simp] theorem releaseBeat_station (s : State) : (releaseBeat s).station = s.station := rfl
@[simp] theorem releaseBeat_terms (s : State) : (releaseBeat s).terms = s.terms := rfl
@[simp] theorem releaseBeat_launch (s : State) : (releaseBeat s).launch = s.launch := rfl
@[simp] theorem releaseBeat_serve (s : State) : (releaseBeat s).serve = s.serve := rfl
@[simp] theorem releaseBeat_port (s : State) : (releaseBeat s).port = s.port := rfl
@[simp] theorem releaseBeat_mem (s : State) : (releaseBeat s).mem = s.mem := rfl
@[simp] theorem releaseBeat_choices (s : State) : (releaseBeat s).choices = s.choices := rfl
@[simp] theorem releaseBeat_pending (s : State) : (releaseBeat s).pending = s.pending := rfl
@[simp] theorem releaseBeat_bus_view (s : State) : (releaseBeat s).bus.view = s.bus.view := rfl
@[simp] theorem releaseBeat_bus_idleTimer (s : State) : (releaseBeat s).bus.idleTimer = s.bus.idleTimer := rfl
@[simp] theorem releaseBeat_bus_windowTimer (s : State) : (releaseBeat s).bus.windowTimer = s.bus.windowTimer := rfl
@[simp] theorem releaseBeat_bus_contending (s : State) : (releaseBeat s).bus.contending = s.bus.contending := rfl
@[simp] theorem releaseBeat_bus_spent (s : State) : (releaseBeat s).bus.spent = s.bus.spent := rfl
@[simp] theorem releaseBeat_bus_claims (s : State) : (releaseBeat s).bus.claims = s.bus.claims := rfl
@[simp] theorem releaseBeat_bus_nextGrantee (s : State) : (releaseBeat s).bus.nextGrantee = s.bus.nextGrantee := rfl
@[simp] theorem releaseBeat_bus_tenure (s : State) : (releaseBeat s).bus.tenure = s.bus.tenure := rfl
@[simp] theorem releaseBeat_bus_callTimer (s : State) : (releaseBeat s).bus.callTimer = s.bus.callTimer := rfl
@[simp] theorem releaseBeat_bus_stallTimer (s : State) : (releaseBeat s).bus.stallTimer = s.bus.stallTimer := rfl
@[simp] theorem releaseBeat_bus_interjectTimer (s : State) : (releaseBeat s).bus.interjectTimer = s.bus.interjectTimer := rfl
@[simp] theorem releaseBeat_bus_bresetDrive (s : State) : (releaseBeat s).bus.bresetDrive = s.bus.bresetDrive := rfl
@[simp] theorem releaseBeat_bus_bresetDetect (s : State) : (releaseBeat s).bus.bresetDetect = s.bus.bresetDetect := rfl
@[simp] theorem releaseBeat_bus_bresetSeen (s : State) : (releaseBeat s).bus.bresetSeen = s.bus.bresetSeen := rfl
@[simp] theorem releaseBeat_bus_runs (s : State) : (releaseBeat s).bus.runs = s.bus.runs := rfl
@[simp] theorem releaseBeat_bus_outbound (s : State) : (releaseBeat s).bus.outbound = s.bus.outbound := rfl
@[simp] theorem releaseBeat_bus_count (s : State) : (releaseBeat s).bus.count = s.bus.count := rfl
@[simp] theorem releaseBeat_bus_capture (s : State) : (releaseBeat s).bus.capture = s.bus.capture := rfl
@[simp] theorem releaseBeat_bus_rx (s : State) : (releaseBeat s).bus.rx = s.bus.rx := rfl
@[simp] theorem releaseBeat_bus_tx (s : State) : (releaseBeat s).bus.tx = s.bus.tx := rfl
@[simp] theorem releaseBeat_bus_run (s : State) : (releaseBeat s).bus.run = s.bus.run := rfl
@[simp] theorem releaseBeat_bus_observed (s : State) : (releaseBeat s).bus.observed = s.bus.observed := rfl
@[simp] theorem releaseBeat_bus_strobesGiven (s : State) : (releaseBeat s).bus.strobesGiven = s.bus.strobesGiven := rfl
@[simp] theorem releaseBeat_bus_takesGiven (s : State) : (releaseBeat s).bus.takesGiven = s.bus.takesGiven := rfl

@[simp] theorem strobe_station (d : Beat) (mark : Bool) (s : State) : (strobe d mark s).station = s.station := rfl
@[simp] theorem strobe_terms (d : Beat) (mark : Bool) (s : State) : (strobe d mark s).terms = s.terms := rfl
@[simp] theorem strobe_launch (d : Beat) (mark : Bool) (s : State) : (strobe d mark s).launch = s.launch := rfl
@[simp] theorem strobe_serve (d : Beat) (mark : Bool) (s : State) : (strobe d mark s).serve = s.serve := rfl
@[simp] theorem strobe_port (d : Beat) (mark : Bool) (s : State) : (strobe d mark s).port = s.port := rfl
@[simp] theorem strobe_mem (d : Beat) (mark : Bool) (s : State) : (strobe d mark s).mem = s.mem := rfl
@[simp] theorem strobe_choices (d : Beat) (mark : Bool) (s : State) : (strobe d mark s).choices = s.choices := rfl
@[simp] theorem strobe_pending (d : Beat) (mark : Bool) (s : State) : (strobe d mark s).pending = s.pending := rfl
@[simp] theorem strobe_bus_view (d : Beat) (mark : Bool) (s : State) : (strobe d mark s).bus.view = s.bus.view := rfl
@[simp] theorem strobe_bus_idleTimer (d : Beat) (mark : Bool) (s : State) : (strobe d mark s).bus.idleTimer = s.bus.idleTimer := rfl
@[simp] theorem strobe_bus_windowTimer (d : Beat) (mark : Bool) (s : State) : (strobe d mark s).bus.windowTimer = s.bus.windowTimer := rfl
@[simp] theorem strobe_bus_contending (d : Beat) (mark : Bool) (s : State) : (strobe d mark s).bus.contending = s.bus.contending := rfl
@[simp] theorem strobe_bus_spent (d : Beat) (mark : Bool) (s : State) : (strobe d mark s).bus.spent = s.bus.spent := rfl
@[simp] theorem strobe_bus_claims (d : Beat) (mark : Bool) (s : State) : (strobe d mark s).bus.claims = s.bus.claims := rfl
@[simp] theorem strobe_bus_nextGrantee (d : Beat) (mark : Bool) (s : State) : (strobe d mark s).bus.nextGrantee = s.bus.nextGrantee := rfl
@[simp] theorem strobe_bus_tenure (d : Beat) (mark : Bool) (s : State) : (strobe d mark s).bus.tenure = s.bus.tenure := rfl
@[simp] theorem strobe_bus_callTimer (d : Beat) (mark : Bool) (s : State) : (strobe d mark s).bus.callTimer = s.bus.callTimer := rfl
@[simp] theorem strobe_bus_stallTimer (d : Beat) (mark : Bool) (s : State) : (strobe d mark s).bus.stallTimer = s.bus.stallTimer := rfl
@[simp] theorem strobe_bus_interjectTimer (d : Beat) (mark : Bool) (s : State) : (strobe d mark s).bus.interjectTimer = s.bus.interjectTimer := rfl
@[simp] theorem strobe_bus_bresetDrive (d : Beat) (mark : Bool) (s : State) : (strobe d mark s).bus.bresetDrive = s.bus.bresetDrive := rfl
@[simp] theorem strobe_bus_bresetDetect (d : Beat) (mark : Bool) (s : State) : (strobe d mark s).bus.bresetDetect = s.bus.bresetDetect := rfl
@[simp] theorem strobe_bus_bresetSeen (d : Beat) (mark : Bool) (s : State) : (strobe d mark s).bus.bresetSeen = s.bus.bresetSeen := rfl
@[simp] theorem strobe_bus_runs (d : Beat) (mark : Bool) (s : State) : (strobe d mark s).bus.runs = s.bus.runs := rfl
@[simp] theorem strobe_bus_outbound (d : Beat) (mark : Bool) (s : State) : (strobe d mark s).bus.outbound = s.bus.outbound := rfl
@[simp] theorem strobe_bus_count (d : Beat) (mark : Bool) (s : State) : (strobe d mark s).bus.count = s.bus.count + 1 := rfl
@[simp] theorem strobe_bus_capture (d : Beat) (mark : Bool) (s : State) : (strobe d mark s).bus.capture = s.bus.capture := rfl
@[simp] theorem strobe_bus_rx (d : Beat) (mark : Bool) (s : State) : (strobe d mark s).bus.rx = s.bus.rx := rfl
@[simp] theorem strobe_bus_tx (d : Beat) (mark : Bool) (s : State) : (strobe d mark s).bus.tx = s.bus.tx := rfl
@[simp] theorem strobe_bus_run (d : Beat) (mark : Bool) (s : State) : (strobe d mark s).bus.run = s.bus.run := rfl
@[simp] theorem strobe_bus_observed (d : Beat) (mark : Bool) (s : State) : (strobe d mark s).bus.observed = s.bus.observed := rfl
@[simp] theorem strobe_bus_strobesGiven (d : Beat) (mark : Bool) (s : State) : (strobe d mark s).bus.strobesGiven = s.bus.strobesGiven + 1 := rfl
@[simp] theorem strobe_bus_takesGiven (d : Beat) (mark : Bool) (s : State) : (strobe d mark s).bus.takesGiven = s.bus.takesGiven := rfl

@[simp] theorem giveTake_station (s : State) : (giveTake s).station = s.station := rfl
@[simp] theorem giveTake_terms (s : State) : (giveTake s).terms = s.terms := rfl
@[simp] theorem giveTake_launch (s : State) : (giveTake s).launch = s.launch := rfl
@[simp] theorem giveTake_serve (s : State) : (giveTake s).serve = s.serve := rfl
@[simp] theorem giveTake_port (s : State) : (giveTake s).port = s.port := rfl
@[simp] theorem giveTake_mem (s : State) : (giveTake s).mem = s.mem := rfl
@[simp] theorem giveTake_choices (s : State) : (giveTake s).choices = s.choices := rfl
@[simp] theorem giveTake_pending (s : State) : (giveTake s).pending = s.pending := rfl
@[simp] theorem giveTake_bus_view (s : State) : (giveTake s).bus.view = s.bus.view := rfl
@[simp] theorem giveTake_bus_idleTimer (s : State) : (giveTake s).bus.idleTimer = s.bus.idleTimer := rfl
@[simp] theorem giveTake_bus_windowTimer (s : State) : (giveTake s).bus.windowTimer = s.bus.windowTimer := rfl
@[simp] theorem giveTake_bus_contending (s : State) : (giveTake s).bus.contending = s.bus.contending := rfl
@[simp] theorem giveTake_bus_spent (s : State) : (giveTake s).bus.spent = s.bus.spent := rfl
@[simp] theorem giveTake_bus_claims (s : State) : (giveTake s).bus.claims = s.bus.claims := rfl
@[simp] theorem giveTake_bus_nextGrantee (s : State) : (giveTake s).bus.nextGrantee = s.bus.nextGrantee := rfl
@[simp] theorem giveTake_bus_tenure (s : State) : (giveTake s).bus.tenure = s.bus.tenure := rfl
@[simp] theorem giveTake_bus_callTimer (s : State) : (giveTake s).bus.callTimer = s.bus.callTimer := rfl
@[simp] theorem giveTake_bus_stallTimer (s : State) : (giveTake s).bus.stallTimer = s.bus.stallTimer := rfl
@[simp] theorem giveTake_bus_interjectTimer (s : State) : (giveTake s).bus.interjectTimer = s.bus.interjectTimer := rfl
@[simp] theorem giveTake_bus_bresetDrive (s : State) : (giveTake s).bus.bresetDrive = s.bus.bresetDrive := rfl
@[simp] theorem giveTake_bus_bresetDetect (s : State) : (giveTake s).bus.bresetDetect = s.bus.bresetDetect := rfl
@[simp] theorem giveTake_bus_bresetSeen (s : State) : (giveTake s).bus.bresetSeen = s.bus.bresetSeen := rfl
@[simp] theorem giveTake_bus_runs (s : State) : (giveTake s).bus.runs = s.bus.runs := rfl
@[simp] theorem giveTake_bus_outbound (s : State) : (giveTake s).bus.outbound = s.bus.outbound := rfl
@[simp] theorem giveTake_bus_count (s : State) : (giveTake s).bus.count = s.bus.count := rfl
@[simp] theorem giveTake_bus_capture (s : State) : (giveTake s).bus.capture = s.bus.capture := rfl
@[simp] theorem giveTake_bus_rx (s : State) : (giveTake s).bus.rx = s.bus.rx := rfl
@[simp] theorem giveTake_bus_tx (s : State) : (giveTake s).bus.tx = s.bus.tx := rfl
@[simp] theorem giveTake_bus_run (s : State) : (giveTake s).bus.run = s.bus.run := rfl
@[simp] theorem giveTake_bus_observed (s : State) : (giveTake s).bus.observed = s.bus.observed := rfl
@[simp] theorem giveTake_bus_drive (s : State) : (giveTake s).bus.drive = s.bus.drive := rfl
@[simp] theorem giveTake_bus_strobesGiven (s : State) : (giveTake s).bus.strobesGiven = s.bus.strobesGiven := rfl
@[simp] theorem giveTake_bus_takesGiven (s : State) : (giveTake s).bus.takesGiven = s.bus.takesGiven + 1 := rfl

@[simp] theorem grant_station (c : Client) (s : State) : (grant c s).station = s.station := rfl
@[simp] theorem grant_bus (c : Client) (s : State) : (grant c s).bus = s.bus := rfl
@[simp] theorem grant_terms (c : Client) (s : State) : (grant c s).terms = s.terms := rfl
@[simp] theorem grant_launch (c : Client) (s : State) : (grant c s).launch = s.launch := rfl
@[simp] theorem grant_serve (c : Client) (s : State) : (grant c s).serve = s.serve := rfl
@[simp] theorem grant_port (c : Client) (s : State) : (grant c s).port = s.port := rfl
@[simp] theorem grant_choices (c : Client) (s : State) : (grant c s).choices = s.choices := rfl
@[simp] theorem grant_pending (c : Client) (s : State) : (grant c s).pending = s.pending := rfl

@[simp] theorem updateClaims_station (s : State) : (updateClaims s).station = s.station := rfl
@[simp] theorem updateClaims_terms (s : State) : (updateClaims s).terms = s.terms := rfl
@[simp] theorem updateClaims_launch (s : State) : (updateClaims s).launch = s.launch := rfl
@[simp] theorem updateClaims_serve (s : State) : (updateClaims s).serve = s.serve := rfl
@[simp] theorem updateClaims_port (s : State) : (updateClaims s).port = s.port := rfl
@[simp] theorem updateClaims_mem (s : State) : (updateClaims s).mem = s.mem := rfl
@[simp] theorem updateClaims_choices (s : State) : (updateClaims s).choices = s.choices := rfl
@[simp] theorem updateClaims_pending (s : State) : (updateClaims s).pending = s.pending := rfl
@[simp] theorem updateClaims_bus_view (s : State) : (updateClaims s).bus.view = s.bus.view := rfl
@[simp] theorem updateClaims_bus_idleTimer (s : State) : (updateClaims s).bus.idleTimer = s.bus.idleTimer := rfl
@[simp] theorem updateClaims_bus_windowTimer (s : State) : (updateClaims s).bus.windowTimer = s.bus.windowTimer := rfl
@[simp] theorem updateClaims_bus_contending (s : State) : (updateClaims s).bus.contending = s.bus.contending := rfl
@[simp] theorem updateClaims_bus_spent (s : State) : (updateClaims s).bus.spent = s.bus.spent := rfl
@[simp] theorem updateClaims_bus_nextGrantee (s : State) : (updateClaims s).bus.nextGrantee = s.bus.nextGrantee := rfl
@[simp] theorem updateClaims_bus_tenure (s : State) : (updateClaims s).bus.tenure = s.bus.tenure := rfl
@[simp] theorem updateClaims_bus_callTimer (s : State) : (updateClaims s).bus.callTimer = s.bus.callTimer := rfl
@[simp] theorem updateClaims_bus_stallTimer (s : State) : (updateClaims s).bus.stallTimer = s.bus.stallTimer := rfl
@[simp] theorem updateClaims_bus_interjectTimer (s : State) : (updateClaims s).bus.interjectTimer = s.bus.interjectTimer := rfl
@[simp] theorem updateClaims_bus_bresetDrive (s : State) : (updateClaims s).bus.bresetDrive = s.bus.bresetDrive := rfl
@[simp] theorem updateClaims_bus_bresetDetect (s : State) : (updateClaims s).bus.bresetDetect = s.bus.bresetDetect := rfl
@[simp] theorem updateClaims_bus_bresetSeen (s : State) : (updateClaims s).bus.bresetSeen = s.bus.bresetSeen := rfl
@[simp] theorem updateClaims_bus_runs (s : State) : (updateClaims s).bus.runs = s.bus.runs := rfl
@[simp] theorem updateClaims_bus_outbound (s : State) : (updateClaims s).bus.outbound = s.bus.outbound := rfl
@[simp] theorem updateClaims_bus_count (s : State) : (updateClaims s).bus.count = s.bus.count := rfl
@[simp] theorem updateClaims_bus_capture (s : State) : (updateClaims s).bus.capture = s.bus.capture := rfl
@[simp] theorem updateClaims_bus_rx (s : State) : (updateClaims s).bus.rx = s.bus.rx := rfl
@[simp] theorem updateClaims_bus_tx (s : State) : (updateClaims s).bus.tx = s.bus.tx := rfl
@[simp] theorem updateClaims_bus_run (s : State) : (updateClaims s).bus.run = s.bus.run := rfl
@[simp] theorem updateClaims_bus_observed (s : State) : (updateClaims s).bus.observed = s.bus.observed := rfl
@[simp] theorem updateClaims_bus_drive (s : State) : (updateClaims s).bus.drive = s.bus.drive := rfl
@[simp] theorem updateClaims_bus_strobesGiven (s : State) : (updateClaims s).bus.strobesGiven = s.bus.strobesGiven := rfl
@[simp] theorem updateClaims_bus_takesGiven (s : State) : (updateClaims s).bus.takesGiven = s.bus.takesGiven := rfl

@[simp] theorem endRuns_station (s : State) : (endRuns s).station = s.station := rfl
@[simp] theorem endRuns_terms (s : State) : (endRuns s).terms = s.terms := rfl
@[simp] theorem endRuns_launch (s : State) : (endRuns s).launch = s.launch := rfl
@[simp] theorem endRuns_serve (s : State) : (endRuns s).serve = s.serve := rfl
@[simp] theorem endRuns_port (s : State) : (endRuns s).port = s.port := rfl
@[simp] theorem endRuns_mem (s : State) : (endRuns s).mem = s.mem := rfl
@[simp] theorem endRuns_choices (s : State) : (endRuns s).choices = s.choices := rfl
@[simp] theorem endRuns_pending (s : State) : (endRuns s).pending = s.pending := rfl
@[simp] theorem endRuns_bus_view (s : State) : (endRuns s).bus.view = s.bus.view := rfl
@[simp] theorem endRuns_bus_idleTimer (s : State) : (endRuns s).bus.idleTimer = s.bus.idleTimer := rfl
@[simp] theorem endRuns_bus_windowTimer (s : State) : (endRuns s).bus.windowTimer = s.bus.windowTimer := rfl
@[simp] theorem endRuns_bus_contending (s : State) : (endRuns s).bus.contending = s.bus.contending := rfl
@[simp] theorem endRuns_bus_spent (s : State) : (endRuns s).bus.spent = s.bus.spent := rfl
@[simp] theorem endRuns_bus_claims (s : State) : (endRuns s).bus.claims = s.bus.claims := rfl
@[simp] theorem endRuns_bus_nextGrantee (s : State) : (endRuns s).bus.nextGrantee = s.bus.nextGrantee := rfl
@[simp] theorem endRuns_bus_tenure (s : State) : (endRuns s).bus.tenure = s.bus.tenure := rfl
@[simp] theorem endRuns_bus_callTimer (s : State) : (endRuns s).bus.callTimer = s.bus.callTimer := rfl
@[simp] theorem endRuns_bus_stallTimer (s : State) : (endRuns s).bus.stallTimer = s.bus.stallTimer := rfl
@[simp] theorem endRuns_bus_interjectTimer (s : State) : (endRuns s).bus.interjectTimer = s.bus.interjectTimer := rfl
@[simp] theorem endRuns_bus_bresetDrive (s : State) : (endRuns s).bus.bresetDrive = s.bus.bresetDrive := rfl
@[simp] theorem endRuns_bus_bresetDetect (s : State) : (endRuns s).bus.bresetDetect = s.bus.bresetDetect := rfl
@[simp] theorem endRuns_bus_bresetSeen (s : State) : (endRuns s).bus.bresetSeen = s.bus.bresetSeen := rfl
@[simp] theorem endRuns_bus_outbound (s : State) : (endRuns s).bus.outbound = s.bus.outbound := rfl
@[simp] theorem endRuns_bus_count (s : State) : (endRuns s).bus.count = s.bus.count := rfl
@[simp] theorem endRuns_bus_capture (s : State) : (endRuns s).bus.capture = s.bus.capture := rfl
@[simp] theorem endRuns_bus_rx (s : State) : (endRuns s).bus.rx = s.bus.rx := rfl
@[simp] theorem endRuns_bus_tx (s : State) : (endRuns s).bus.tx = s.bus.tx := rfl
@[simp] theorem endRuns_bus_run (s : State) : (endRuns s).bus.run = s.bus.run := rfl
@[simp] theorem endRuns_bus_observed (s : State) : (endRuns s).bus.observed = s.bus.observed := rfl
@[simp] theorem endRuns_bus_drive (s : State) : (endRuns s).bus.drive = s.bus.drive := rfl
@[simp] theorem endRuns_bus_strobesGiven (s : State) : (endRuns s).bus.strobesGiven = s.bus.strobesGiven := rfl
@[simp] theorem endRuns_bus_takesGiven (s : State) : (endRuns s).bus.takesGiven = s.bus.takesGiven := rfl

@[simp] theorem clearBeats_station (s : State) : (clearBeats s).station = s.station := rfl
@[simp] theorem clearBeats_terms (s : State) : (clearBeats s).terms = s.terms := rfl
@[simp] theorem clearBeats_serve (s : State) : (clearBeats s).serve = s.serve := rfl
@[simp] theorem clearBeats_port (s : State) : (clearBeats s).port = s.port := rfl
@[simp] theorem clearBeats_mem (s : State) : (clearBeats s).mem = s.mem := rfl
@[simp] theorem clearBeats_choices (s : State) : (clearBeats s).choices = s.choices := rfl
@[simp] theorem clearBeats_pending (s : State) : (clearBeats s).pending = s.pending := rfl
@[simp] theorem clearBeats_bus_view (s : State) : (clearBeats s).bus.view = s.bus.view := rfl
@[simp] theorem clearBeats_bus_idleTimer (s : State) : (clearBeats s).bus.idleTimer = s.bus.idleTimer := rfl
@[simp] theorem clearBeats_bus_windowTimer (s : State) : (clearBeats s).bus.windowTimer = s.bus.windowTimer := rfl
@[simp] theorem clearBeats_bus_contending (s : State) : (clearBeats s).bus.contending = s.bus.contending := rfl
@[simp] theorem clearBeats_bus_spent (s : State) : (clearBeats s).bus.spent = s.bus.spent := rfl
@[simp] theorem clearBeats_bus_claims (s : State) : (clearBeats s).bus.claims = s.bus.claims := rfl
@[simp] theorem clearBeats_bus_nextGrantee (s : State) : (clearBeats s).bus.nextGrantee = s.bus.nextGrantee := rfl
@[simp] theorem clearBeats_bus_tenure (s : State) : (clearBeats s).bus.tenure = s.bus.tenure := rfl
@[simp] theorem clearBeats_bus_callTimer (s : State) : (clearBeats s).bus.callTimer = s.bus.callTimer := rfl
@[simp] theorem clearBeats_bus_stallTimer (s : State) : (clearBeats s).bus.stallTimer = s.bus.stallTimer := rfl
@[simp] theorem clearBeats_bus_interjectTimer (s : State) : (clearBeats s).bus.interjectTimer = s.bus.interjectTimer := rfl
@[simp] theorem clearBeats_bus_bresetDrive (s : State) : (clearBeats s).bus.bresetDrive = s.bus.bresetDrive := rfl
@[simp] theorem clearBeats_bus_bresetDetect (s : State) : (clearBeats s).bus.bresetDetect = s.bus.bresetDetect := rfl
@[simp] theorem clearBeats_bus_bresetSeen (s : State) : (clearBeats s).bus.bresetSeen = s.bus.bresetSeen := rfl
@[simp] theorem clearBeats_bus_runs (s : State) : (clearBeats s).bus.runs = s.bus.runs := rfl
@[simp] theorem clearBeats_bus_outbound (s : State) : (clearBeats s).bus.outbound = [] := rfl
@[simp] theorem clearBeats_bus_count (s : State) : (clearBeats s).bus.count = 0 := rfl
@[simp] theorem clearBeats_bus_capture (s : State) : (clearBeats s).bus.capture = [] := rfl
@[simp] theorem clearBeats_bus_rx (s : State) : (clearBeats s).bus.rx = [] := rfl
@[simp] theorem clearBeats_bus_tx (s : State) : (clearBeats s).bus.tx = none := rfl
@[simp] theorem clearBeats_bus_run (s : State) : (clearBeats s).bus.run = none := rfl
@[simp] theorem clearBeats_bus_observed (s : State) : (clearBeats s).bus.observed = s.bus.observed := rfl
@[simp] theorem clearBeats_bus_drive (s : State) : (clearBeats s).bus.drive = s.bus.drive := rfl
@[simp] theorem clearBeats_bus_strobesGiven (s : State) : (clearBeats s).bus.strobesGiven = s.bus.strobesGiven := rfl
@[simp] theorem clearBeats_bus_takesGiven (s : State) : (clearBeats s).bus.takesGiven = s.bus.takesGiven := rfl
@[simp] theorem clearBeats_launch_entries (s : State) : (clearBeats s).launch.entries = s.launch.entries := rfl
@[simp] theorem clearBeats_launch_queue (s : State) : (clearBeats s).launch.queue = s.launch.queue := rfl
@[simp] theorem clearBeats_launch_accCount (s : State) : (clearBeats s).launch.accCount = s.launch.accCount := rfl
@[simp] theorem clearBeats_launch_intake (s : State) : (clearBeats s).launch.intake = s.launch.intake := rfl
@[simp] theorem clearBeats_launch_outJob (s : State) : (clearBeats s).launch.outJob = none := rfl

@[simp] theorem restartStall_station (s : State) : (restartStall s).station = s.station := rfl
@[simp] theorem restartStall_terms (s : State) : (restartStall s).terms = s.terms := rfl
@[simp] theorem restartStall_launch (s : State) : (restartStall s).launch = s.launch := rfl
@[simp] theorem restartStall_serve (s : State) : (restartStall s).serve = s.serve := rfl
@[simp] theorem restartStall_port (s : State) : (restartStall s).port = s.port := rfl
@[simp] theorem restartStall_mem (s : State) : (restartStall s).mem = s.mem := rfl
@[simp] theorem restartStall_choices (s : State) : (restartStall s).choices = s.choices := rfl
@[simp] theorem restartStall_pending (s : State) : (restartStall s).pending = s.pending := rfl
@[simp] theorem restartStall_bus_view (s : State) : (restartStall s).bus.view = s.bus.view := rfl
@[simp] theorem restartStall_bus_idleTimer (s : State) : (restartStall s).bus.idleTimer = s.bus.idleTimer := rfl
@[simp] theorem restartStall_bus_windowTimer (s : State) : (restartStall s).bus.windowTimer = s.bus.windowTimer := rfl
@[simp] theorem restartStall_bus_contending (s : State) : (restartStall s).bus.contending = s.bus.contending := rfl
@[simp] theorem restartStall_bus_spent (s : State) : (restartStall s).bus.spent = s.bus.spent := rfl
@[simp] theorem restartStall_bus_claims (s : State) : (restartStall s).bus.claims = s.bus.claims := rfl
@[simp] theorem restartStall_bus_nextGrantee (s : State) : (restartStall s).bus.nextGrantee = s.bus.nextGrantee := rfl
@[simp] theorem restartStall_bus_tenure (s : State) : (restartStall s).bus.tenure = s.bus.tenure := rfl
@[simp] theorem restartStall_bus_callTimer (s : State) : (restartStall s).bus.callTimer = s.bus.callTimer := rfl
@[simp] theorem restartStall_bus_stallTimer (s : State) : (restartStall s).bus.stallTimer = none := rfl
@[simp] theorem restartStall_bus_interjectTimer (s : State) : (restartStall s).bus.interjectTimer = s.bus.interjectTimer := rfl
@[simp] theorem restartStall_bus_bresetDrive (s : State) : (restartStall s).bus.bresetDrive = s.bus.bresetDrive := rfl
@[simp] theorem restartStall_bus_bresetDetect (s : State) : (restartStall s).bus.bresetDetect = s.bus.bresetDetect := rfl
@[simp] theorem restartStall_bus_bresetSeen (s : State) : (restartStall s).bus.bresetSeen = s.bus.bresetSeen := rfl
@[simp] theorem restartStall_bus_runs (s : State) : (restartStall s).bus.runs = s.bus.runs := rfl
@[simp] theorem restartStall_bus_outbound (s : State) : (restartStall s).bus.outbound = s.bus.outbound := rfl
@[simp] theorem restartStall_bus_count (s : State) : (restartStall s).bus.count = s.bus.count := rfl
@[simp] theorem restartStall_bus_capture (s : State) : (restartStall s).bus.capture = s.bus.capture := rfl
@[simp] theorem restartStall_bus_rx (s : State) : (restartStall s).bus.rx = s.bus.rx := rfl
@[simp] theorem restartStall_bus_tx (s : State) : (restartStall s).bus.tx = s.bus.tx := rfl
@[simp] theorem restartStall_bus_run (s : State) : (restartStall s).bus.run = s.bus.run := rfl
@[simp] theorem restartStall_bus_observed (s : State) : (restartStall s).bus.observed = s.bus.observed := rfl
@[simp] theorem restartStall_bus_drive (s : State) : (restartStall s).bus.drive = s.bus.drive := rfl
@[simp] theorem restartStall_bus_strobesGiven (s : State) : (restartStall s).bus.strobesGiven = s.bus.strobesGiven := rfl
@[simp] theorem restartStall_bus_takesGiven (s : State) : (restartStall s).bus.takesGiven = s.bus.takesGiven := rfl

@[simp] theorem emptyRegister_station (s : State) : (emptyRegister s).station = s.station := rfl
@[simp] theorem emptyRegister_terms (s : State) : (emptyRegister s).terms = s.terms := rfl
@[simp] theorem emptyRegister_launch (s : State) : (emptyRegister s).launch = s.launch := rfl
@[simp] theorem emptyRegister_serve (s : State) : (emptyRegister s).serve = s.serve := rfl
@[simp] theorem emptyRegister_port (s : State) : (emptyRegister s).port = s.port := rfl
@[simp] theorem emptyRegister_mem (s : State) : (emptyRegister s).mem = s.mem := rfl
@[simp] theorem emptyRegister_choices (s : State) : (emptyRegister s).choices = s.choices := rfl
@[simp] theorem emptyRegister_pending (s : State) : (emptyRegister s).pending = s.pending := rfl
@[simp] theorem emptyRegister_bus_view (s : State) : (emptyRegister s).bus.view = s.bus.view := rfl
@[simp] theorem emptyRegister_bus_idleTimer (s : State) : (emptyRegister s).bus.idleTimer = s.bus.idleTimer := rfl
@[simp] theorem emptyRegister_bus_windowTimer (s : State) : (emptyRegister s).bus.windowTimer = s.bus.windowTimer := rfl
@[simp] theorem emptyRegister_bus_contending (s : State) : (emptyRegister s).bus.contending = s.bus.contending := rfl
@[simp] theorem emptyRegister_bus_spent (s : State) : (emptyRegister s).bus.spent = s.bus.spent := rfl
@[simp] theorem emptyRegister_bus_claims (s : State) : (emptyRegister s).bus.claims = s.bus.claims := rfl
@[simp] theorem emptyRegister_bus_nextGrantee (s : State) : (emptyRegister s).bus.nextGrantee = s.bus.nextGrantee := rfl
@[simp] theorem emptyRegister_bus_tenure (s : State) : (emptyRegister s).bus.tenure = s.bus.tenure := rfl
@[simp] theorem emptyRegister_bus_callTimer (s : State) : (emptyRegister s).bus.callTimer = s.bus.callTimer := rfl
@[simp] theorem emptyRegister_bus_stallTimer (s : State) : (emptyRegister s).bus.stallTimer = s.bus.stallTimer := rfl
@[simp] theorem emptyRegister_bus_interjectTimer (s : State) : (emptyRegister s).bus.interjectTimer = s.bus.interjectTimer := rfl
@[simp] theorem emptyRegister_bus_bresetDrive (s : State) : (emptyRegister s).bus.bresetDrive = s.bus.bresetDrive := rfl
@[simp] theorem emptyRegister_bus_bresetDetect (s : State) : (emptyRegister s).bus.bresetDetect = s.bus.bresetDetect := rfl
@[simp] theorem emptyRegister_bus_bresetSeen (s : State) : (emptyRegister s).bus.bresetSeen = s.bus.bresetSeen := rfl
@[simp] theorem emptyRegister_bus_runs (s : State) : (emptyRegister s).bus.runs = s.bus.runs := rfl
@[simp] theorem emptyRegister_bus_outbound (s : State) : (emptyRegister s).bus.outbound = s.bus.outbound := rfl
@[simp] theorem emptyRegister_bus_count (s : State) : (emptyRegister s).bus.count = s.bus.count := rfl
@[simp] theorem emptyRegister_bus_capture (s : State) : (emptyRegister s).bus.capture = s.bus.capture := rfl
@[simp] theorem emptyRegister_bus_rx (s : State) : (emptyRegister s).bus.rx = [] := rfl
@[simp] theorem emptyRegister_bus_tx (s : State) : (emptyRegister s).bus.tx = s.bus.tx := rfl
@[simp] theorem emptyRegister_bus_run (s : State) : (emptyRegister s).bus.run = s.bus.run := rfl
@[simp] theorem emptyRegister_bus_observed (s : State) : (emptyRegister s).bus.observed = s.bus.observed := rfl
@[simp] theorem emptyRegister_bus_drive (s : State) : (emptyRegister s).bus.drive = s.bus.drive := rfl
@[simp] theorem emptyRegister_bus_strobesGiven (s : State) : (emptyRegister s).bus.strobesGiven = s.bus.strobesGiven := rfl
@[simp] theorem emptyRegister_bus_takesGiven (s : State) : (emptyRegister s).bus.takesGiven = s.bus.takesGiven := rfl

@[simp] theorem register_station (d : Beat) (dp : BitVec 2) (s : State) : (register d dp s).station = s.station := rfl
@[simp] theorem register_terms (d : Beat) (dp : BitVec 2) (s : State) : (register d dp s).terms = s.terms := rfl
@[simp] theorem register_launch (d : Beat) (dp : BitVec 2) (s : State) : (register d dp s).launch = s.launch := rfl
@[simp] theorem register_serve (d : Beat) (dp : BitVec 2) (s : State) : (register d dp s).serve = s.serve := rfl
@[simp] theorem register_port (d : Beat) (dp : BitVec 2) (s : State) : (register d dp s).port = s.port := rfl
@[simp] theorem register_mem (d : Beat) (dp : BitVec 2) (s : State) : (register d dp s).mem = s.mem := rfl
@[simp] theorem register_choices (d : Beat) (dp : BitVec 2) (s : State) : (register d dp s).choices = s.choices := rfl
@[simp] theorem register_pending (d : Beat) (dp : BitVec 2) (s : State) : (register d dp s).pending = s.pending := rfl
@[simp] theorem register_bus_view (d : Beat) (dp : BitVec 2) (s : State) : (register d dp s).bus.view = s.bus.view := rfl
@[simp] theorem register_bus_idleTimer (d : Beat) (dp : BitVec 2) (s : State) : (register d dp s).bus.idleTimer = s.bus.idleTimer := rfl
@[simp] theorem register_bus_windowTimer (d : Beat) (dp : BitVec 2) (s : State) : (register d dp s).bus.windowTimer = s.bus.windowTimer := rfl
@[simp] theorem register_bus_contending (d : Beat) (dp : BitVec 2) (s : State) : (register d dp s).bus.contending = s.bus.contending := rfl
@[simp] theorem register_bus_spent (d : Beat) (dp : BitVec 2) (s : State) : (register d dp s).bus.spent = s.bus.spent := rfl
@[simp] theorem register_bus_claims (d : Beat) (dp : BitVec 2) (s : State) : (register d dp s).bus.claims = s.bus.claims := rfl
@[simp] theorem register_bus_nextGrantee (d : Beat) (dp : BitVec 2) (s : State) : (register d dp s).bus.nextGrantee = s.bus.nextGrantee := rfl
@[simp] theorem register_bus_tenure (d : Beat) (dp : BitVec 2) (s : State) : (register d dp s).bus.tenure = s.bus.tenure := rfl
@[simp] theorem register_bus_callTimer (d : Beat) (dp : BitVec 2) (s : State) : (register d dp s).bus.callTimer = s.bus.callTimer := rfl
@[simp] theorem register_bus_stallTimer (d : Beat) (dp : BitVec 2) (s : State) : (register d dp s).bus.stallTimer = s.bus.stallTimer := rfl
@[simp] theorem register_bus_interjectTimer (d : Beat) (dp : BitVec 2) (s : State) : (register d dp s).bus.interjectTimer = s.bus.interjectTimer := rfl
@[simp] theorem register_bus_bresetDrive (d : Beat) (dp : BitVec 2) (s : State) : (register d dp s).bus.bresetDrive = s.bus.bresetDrive := rfl
@[simp] theorem register_bus_bresetDetect (d : Beat) (dp : BitVec 2) (s : State) : (register d dp s).bus.bresetDetect = s.bus.bresetDetect := rfl
@[simp] theorem register_bus_bresetSeen (d : Beat) (dp : BitVec 2) (s : State) : (register d dp s).bus.bresetSeen = s.bus.bresetSeen := rfl
@[simp] theorem register_bus_runs (d : Beat) (dp : BitVec 2) (s : State) : (register d dp s).bus.runs = s.bus.runs := rfl
@[simp] theorem register_bus_outbound (d : Beat) (dp : BitVec 2) (s : State) : (register d dp s).bus.outbound = s.bus.outbound := rfl
@[simp] theorem register_bus_count (d : Beat) (dp : BitVec 2) (s : State) : (register d dp s).bus.count = s.bus.count := rfl
@[simp] theorem register_bus_capture (d : Beat) (dp : BitVec 2) (s : State) : (register d dp s).bus.capture = s.bus.capture := rfl
@[simp] theorem register_bus_tx (d : Beat) (dp : BitVec 2) (s : State) : (register d dp s).bus.tx = s.bus.tx := rfl
@[simp] theorem register_bus_run (d : Beat) (dp : BitVec 2) (s : State) : (register d dp s).bus.run = s.bus.run := rfl
@[simp] theorem register_bus_observed (d : Beat) (dp : BitVec 2) (s : State) : (register d dp s).bus.observed = s.bus.observed := rfl
@[simp] theorem register_bus_drive (d : Beat) (dp : BitVec 2) (s : State) : (register d dp s).bus.drive = s.bus.drive := rfl
@[simp] theorem register_bus_strobesGiven (d : Beat) (dp : BitVec 2) (s : State) : (register d dp s).bus.strobesGiven = s.bus.strobesGiven := rfl
@[simp] theorem register_bus_takesGiven (d : Beat) (dp : BitVec 2) (s : State) : (register d dp s).bus.takesGiven = s.bus.takesGiven := rfl

@[simp] theorem leaveWindow_station (s : State) : (leaveWindow s).station = s.station := rfl
@[simp] theorem leaveWindow_terms (s : State) : (leaveWindow s).terms = s.terms := rfl
@[simp] theorem leaveWindow_launch (s : State) : (leaveWindow s).launch = s.launch := rfl
@[simp] theorem leaveWindow_serve (s : State) : (leaveWindow s).serve = s.serve := rfl
@[simp] theorem leaveWindow_port (s : State) : (leaveWindow s).port = s.port := rfl
@[simp] theorem leaveWindow_mem (s : State) : (leaveWindow s).mem = s.mem := rfl
@[simp] theorem leaveWindow_choices (s : State) : (leaveWindow s).choices = s.choices := rfl
@[simp] theorem leaveWindow_pending (s : State) : (leaveWindow s).pending = s.pending := rfl
@[simp] theorem leaveWindow_bus_view (s : State) : (leaveWindow s).bus.view = s.bus.view := rfl
@[simp] theorem leaveWindow_bus_idleTimer (s : State) : (leaveWindow s).bus.idleTimer = s.bus.idleTimer := rfl
@[simp] theorem leaveWindow_bus_windowTimer (s : State) : (leaveWindow s).bus.windowTimer = none := rfl
@[simp] theorem leaveWindow_bus_contending (s : State) : (leaveWindow s).bus.contending = false := rfl
@[simp] theorem leaveWindow_bus_spent (s : State) : (leaveWindow s).bus.spent = s.bus.spent := rfl
@[simp] theorem leaveWindow_bus_claims (s : State) : (leaveWindow s).bus.claims = s.bus.claims := rfl
@[simp] theorem leaveWindow_bus_nextGrantee (s : State) : (leaveWindow s).bus.nextGrantee = s.bus.nextGrantee := rfl
@[simp] theorem leaveWindow_bus_tenure (s : State) : (leaveWindow s).bus.tenure = s.bus.tenure := rfl
@[simp] theorem leaveWindow_bus_callTimer (s : State) : (leaveWindow s).bus.callTimer = s.bus.callTimer := rfl
@[simp] theorem leaveWindow_bus_stallTimer (s : State) : (leaveWindow s).bus.stallTimer = s.bus.stallTimer := rfl
@[simp] theorem leaveWindow_bus_interjectTimer (s : State) : (leaveWindow s).bus.interjectTimer = s.bus.interjectTimer := rfl
@[simp] theorem leaveWindow_bus_bresetDrive (s : State) : (leaveWindow s).bus.bresetDrive = s.bus.bresetDrive := rfl
@[simp] theorem leaveWindow_bus_bresetDetect (s : State) : (leaveWindow s).bus.bresetDetect = s.bus.bresetDetect := rfl
@[simp] theorem leaveWindow_bus_bresetSeen (s : State) : (leaveWindow s).bus.bresetSeen = s.bus.bresetSeen := rfl
@[simp] theorem leaveWindow_bus_runs (s : State) : (leaveWindow s).bus.runs = s.bus.runs := rfl
@[simp] theorem leaveWindow_bus_outbound (s : State) : (leaveWindow s).bus.outbound = s.bus.outbound := rfl
@[simp] theorem leaveWindow_bus_count (s : State) : (leaveWindow s).bus.count = s.bus.count := rfl
@[simp] theorem leaveWindow_bus_capture (s : State) : (leaveWindow s).bus.capture = s.bus.capture := rfl
@[simp] theorem leaveWindow_bus_rx (s : State) : (leaveWindow s).bus.rx = s.bus.rx := rfl
@[simp] theorem leaveWindow_bus_tx (s : State) : (leaveWindow s).bus.tx = s.bus.tx := rfl
@[simp] theorem leaveWindow_bus_run (s : State) : (leaveWindow s).bus.run = s.bus.run := rfl
@[simp] theorem leaveWindow_bus_observed (s : State) : (leaveWindow s).bus.observed = s.bus.observed := rfl
@[simp] theorem leaveWindow_bus_strobesGiven (s : State) : (leaveWindow s).bus.strobesGiven = s.bus.strobesGiven := rfl
@[simp] theorem leaveWindow_bus_takesGiven (s : State) : (leaveWindow s).bus.takesGiven = s.bus.takesGiven := rfl

@[simp] theorem callPresented_station (g : Grantee) (a : Addr) (s : State) : (callPresented g a s).station = s.station := rfl
@[simp] theorem callPresented_terms (g : Grantee) (a : Addr) (s : State) : (callPresented g a s).terms = s.terms := rfl
@[simp] theorem callPresented_launch (g : Grantee) (a : Addr) (s : State) : (callPresented g a s).launch = s.launch := rfl
@[simp] theorem callPresented_serve (g : Grantee) (a : Addr) (s : State) : (callPresented g a s).serve = s.serve := rfl
@[simp] theorem callPresented_port (g : Grantee) (a : Addr) (s : State) : (callPresented g a s).port = s.port := rfl
@[simp] theorem callPresented_mem (g : Grantee) (a : Addr) (s : State) : (callPresented g a s).mem = s.mem := rfl
@[simp] theorem callPresented_choices (g : Grantee) (a : Addr) (s : State) : (callPresented g a s).choices = s.choices := rfl
@[simp] theorem callPresented_pending (g : Grantee) (a : Addr) (s : State) : (callPresented g a s).pending = s.pending := rfl
@[simp] theorem callPresented_bus_view (g : Grantee) (a : Addr) (s : State) : (callPresented g a s).bus.view = s.bus.view := rfl
@[simp] theorem callPresented_bus_idleTimer (g : Grantee) (a : Addr) (s : State) : (callPresented g a s).bus.idleTimer = s.bus.idleTimer := rfl
@[simp] theorem callPresented_bus_windowTimer (g : Grantee) (a : Addr) (s : State) : (callPresented g a s).bus.windowTimer = s.bus.windowTimer := rfl
@[simp] theorem callPresented_bus_contending (g : Grantee) (a : Addr) (s : State) : (callPresented g a s).bus.contending = s.bus.contending := rfl
@[simp] theorem callPresented_bus_spent (g : Grantee) (a : Addr) (s : State) : (callPresented g a s).bus.spent = s.bus.spent := rfl
@[simp] theorem callPresented_bus_claims (g : Grantee) (a : Addr) (s : State) : (callPresented g a s).bus.claims = s.bus.claims := rfl
@[simp] theorem callPresented_bus_nextGrantee (g : Grantee) (a : Addr) (s : State) : (callPresented g a s).bus.nextGrantee = s.bus.nextGrantee := rfl
@[simp] theorem callPresented_bus_stallTimer (g : Grantee) (a : Addr) (s : State) : (callPresented g a s).bus.stallTimer = s.bus.stallTimer := rfl
@[simp] theorem callPresented_bus_interjectTimer (g : Grantee) (a : Addr) (s : State) : (callPresented g a s).bus.interjectTimer = s.bus.interjectTimer := rfl
@[simp] theorem callPresented_bus_bresetDrive (g : Grantee) (a : Addr) (s : State) : (callPresented g a s).bus.bresetDrive = s.bus.bresetDrive := rfl
@[simp] theorem callPresented_bus_bresetDetect (g : Grantee) (a : Addr) (s : State) : (callPresented g a s).bus.bresetDetect = s.bus.bresetDetect := rfl
@[simp] theorem callPresented_bus_bresetSeen (g : Grantee) (a : Addr) (s : State) : (callPresented g a s).bus.bresetSeen = s.bus.bresetSeen := rfl
@[simp] theorem callPresented_bus_runs (g : Grantee) (a : Addr) (s : State) : (callPresented g a s).bus.runs = s.bus.runs := rfl
@[simp] theorem callPresented_bus_outbound (g : Grantee) (a : Addr) (s : State) : (callPresented g a s).bus.outbound = s.bus.outbound := rfl
@[simp] theorem callPresented_bus_count (g : Grantee) (a : Addr) (s : State) : (callPresented g a s).bus.count = s.bus.count := rfl
@[simp] theorem callPresented_bus_capture (g : Grantee) (a : Addr) (s : State) : (callPresented g a s).bus.capture = s.bus.capture := rfl
@[simp] theorem callPresented_bus_rx (g : Grantee) (a : Addr) (s : State) : (callPresented g a s).bus.rx = s.bus.rx := rfl
@[simp] theorem callPresented_bus_tx (g : Grantee) (a : Addr) (s : State) : (callPresented g a s).bus.tx = s.bus.tx := rfl
@[simp] theorem callPresented_bus_run (g : Grantee) (a : Addr) (s : State) : (callPresented g a s).bus.run = s.bus.run := rfl
@[simp] theorem callPresented_bus_observed (g : Grantee) (a : Addr) (s : State) : (callPresented g a s).bus.observed = s.bus.observed := rfl
@[simp] theorem callPresented_bus_strobesGiven (g : Grantee) (a : Addr) (s : State) : (callPresented g a s).bus.strobesGiven = s.bus.strobesGiven := rfl
@[simp] theorem callPresented_bus_takesGiven (g : Grantee) (a : Addr) (s : State) : (callPresented g a s).bus.takesGiven = s.bus.takesGiven := rfl

end Sys2Proof.Machine
end

