-- ==== Sys2Proof/Laws/Entries.lean ====
section
/-! SUPPORT. The exchange table: what each operation on an entry does to every entry, the queue and the Report queue. -/

namespace Sys2Proof.Machine

theorem entryOf_setEntry (t u : Tag) (e : Entry) (s : State) :
    entryOf (setEntry t e s) u = if u = t then e else entryOf s u := by
  have h : (u = t) ↔ (t.toNat = u.toNat) := by
    constructor
    · intro h; rw [h]
    · intro h; exact (BitVec.eq_of_toNat_eq h).symm
  simp only [entryOf, setEntry, Vector.getElem_set, h]

@[simp] theorem slotOf_setEntry (t u : Tag) (e : Entry) (s : State) :
    slotOf (setEntry t e s) u = if u = t then e.slot else slotOf s u := by
  simp only [slotOf, entryOf_setEntry]; split <;> rfl

@[simp] theorem genOf_setEntry (t u : Tag) (e : Entry) (s : State) :
    genOf (setEntry t e s) u = if u = t then e.gen else genOf s u := by
  simp only [genOf, entryOf_setEntry]; split <;> rfl

@[simp] theorem slotOf_setLive (t u : Tag) (b : Body) (p : Phase) (s : State) :
    slotOf (setLive t b p s) u = if u = t then .live b p else slotOf s u := slotOf_setEntry _ _ _ _

@[simp] theorem genOf_setLive (t u : Tag) (b : Body) (p : Phase) (s : State) :
    genOf (setLive t b p s) u = genOf s u := by
  simp only [setLive, genOf_setEntry]; split
  · next h => rw [h]
  · rfl

theorem liveOf_eq_some {s : State} {t : Tag} {b : Body} {p : Phase} :
    liveOf s t = some (b, p) ↔ slotOf s t = .live b p := by
  unfold liveOf; split <;> simp_all

theorem liveOf_eq_none {s : State} {t : Tag} :
    liveOf s t = none ↔ ∀ b p, slotOf s t ≠ .live b p := by
  unfold liveOf; split <;> simp_all

/-- Operations that leave `launch.entries` leave every slot and generation. -/
theorem slotOf_congr {s s' : State} (h : s'.launch.entries = s.launch.entries) (t : Tag) : slotOf s' t = slotOf s t := by
  simp only [slotOf, entryOf, h]

theorem genOf_congr {s s' : State} (h : s'.launch.entries = s.launch.entries) (t : Tag) : genOf s' t = genOf s t := by
  simp only [genOf, entryOf, h]

theorem liveOf_congr {s s' : State} (h : s'.launch.entries = s.launch.entries) (t : Tag) : liveOf s' t = liveOf s t := by
  simp only [liveOf, slotOf_congr h]

/-! ## Order of acceptance (R83, R85) -/

theorem mem_insertByAcc {α : Type} (acc : α → BitVec 32) (t u : α) (l : List α) :
    u ∈ insertByAcc acc t l ↔ u = t ∨ u ∈ l := by
  induction l with
  | nil => simp [insertByAcc]
  | cons v l ih =>
    unfold insertByAcc
    split
    · simp
    · simp only [List.mem_cons, ih]
      constructor
      · rintro (h | h | h) <;> simp [h]
      · rintro (h | h | h) <;> simp [h]

theorem nodup_insertByAcc {α : Type} (acc : α → BitVec 32) {t : α} {l : List α} (hl : l.Nodup) (ht : t ∉ l) :
    (insertByAcc acc t l).Nodup := by
  induction l with
  | nil => simp [insertByAcc]
  | cons v l ih =>
    unfold insertByAcc
    split
    · exact List.nodup_cons.mpr ⟨ht, hl⟩
    · rw [List.nodup_cons] at hl ⊢
      rw [List.mem_cons, not_or] at ht
      refine ⟨?_, ih hl.2 ht.2⟩
      rw [mem_insertByAcc]
      rintro (h | h)
      · exact ht.1 h.symm
      · exact hl.1 h

/-- Within half the range above a base, the number taken earlier is the smaller (R76). -/
theorem earlier_iff {a b base : BitVec 32} (ha : (a - base).toNat < 2 ^ 31) (hb : (b - base).toNat < 2 ^ 31) :
    earlier a b = true ↔ (a - base).toNat < (b - base).toNat := by
  have h := a.isLt; have h' := b.isLt; have h'' := base.isLt
  have e : a ≠ b ↔ a.toNat ≠ b.toNat := not_congr ⟨congrArg _, BitVec.eq_of_toNat_eq⟩
  simp only [earlier, Bool.and_eq_true, bne_iff_ne, decide_eq_true_eq, e]
  simp only [BitVec.toNat_sub] at ha hb ⊢
  omega

/-- An item inserted into a list in increasing order leaves it so. -/
theorem pairwise_insertByAcc {α : Type} {acc : α → BitVec 32} {base : BitVec 32} {t : α} {l : List α}
    (ht : (acc t - base).toNat < 2 ^ 31) (hl : ∀ u ∈ l, (acc u - base).toNat < 2 ^ 31)
    (h : l.Pairwise fun u v => (acc u - base).toNat ≤ (acc v - base).toNat) :
    (insertByAcc acc t l).Pairwise fun u v => (acc u - base).toNat ≤ (acc v - base).toNat := by
  induction l with
  | nil => exact List.pairwise_singleton ..
  | cons v l ih =>
    obtain ⟨hv, h⟩ := List.pairwise_cons.mp h
    have e := earlier_iff ht (hl v (List.mem_cons_self ..))
    unfold insertByAcc
    split
    · next he =>
      have he := Nat.le_of_lt (e.mp he)
      refine List.pairwise_cons.mpr ⟨fun u hu => ?_, List.pairwise_cons.mpr ⟨hv, h⟩⟩
      rcases List.mem_cons.mp hu with rfl | hu
      · exact he
      · exact Nat.le_trans he (hv u hu)
    · next he =>
      have he := Nat.le_of_not_lt (mt e.mpr he)
      refine List.pairwise_cons.mpr ⟨fun u hu => ?_, ih (fun u hu => hl u (List.mem_cons_of_mem _ hu)) h⟩
      rcases (mem_insertByAcc acc t u l).mp hu with rfl | hu
      · exact he
      · exact hv u hu

theorem mem_foldl_insertByAcc {α : Type} (acc : α → BitVec 32) (u : α) (l m : List α) :
    u ∈ l.foldl (fun ts t => insertByAcc acc t ts) m ↔ u ∈ l ∨ u ∈ m := by
  induction l generalizing m with
  | nil => simp
  | cons t l ih =>
    rw [List.foldl_cons, ih, mem_insertByAcc, List.mem_cons]
    constructor
    · rintro (h | h | h) <;> simp [h]
    · rintro ((h | h) | h) <;> simp [h]

/-! ## Completion (R83) -/

/-- What completion does to an entry in service, whole. -/
theorem complete_eq {s : State} {t : Tag} {b : Body} {p : Phase} (h : slotOf s t = .live b p) (st : Status) :
    complete t st s =
      setNotice .reportReady (closeItems true t (addReport (reportOf t (genOf s t) b (finalStatus b.work st))
        (reportEntry t (genOf s t) b (finalStatus b.work st) (dequeue t s)))) := by
  simp only [complete, liveOf_eq_some.mpr h]

theorem complete_of_not_live {s : State} {t : Tag} (h : liveOf s t = none) (st : Status) : complete t st s = s := by
  simp only [complete, h]

theorem slotOf_complete {s : State} {t : Tag} {b : Body} {p : Phase} (h : slotOf s t = .live b p) (st : Status) (u : Tag) :
    slotOf (complete t st s) u =
      if u = t then .reported { b with work := reportedWork b.work } (finalStatus b.work st) else slotOf s u := by
  rw [complete_eq h]
  exact slotOf_setEntry _ _ _ _

theorem genOf_complete (t : Tag) (st : Status) (s : State) (u : Tag) : genOf (complete t st s) u = genOf s u := by
  cases h : liveOf s t with
  | none => rw [complete_of_not_live h]
  | some bp =>
    obtain ⟨b, p⟩ := bp
    rw [complete_eq (liveOf_eq_some.mp h)]
    refine (genOf_setEntry _ _ _ _).trans ?_
    split
    · next hu => rw [hu]
    · rfl

theorem reports_complete {s : State} {t : Tag} {b : Body} {p : Phase} (h : slotOf s t = .live b p) (st : Status) :
    (complete t st s).port.reports = s.port.reports ++ [reportOf t (genOf s t) b (finalStatus b.work st)] := by
  rw [complete_eq h]; rfl

end Sys2Proof.Machine
end

