-- ==== Sys2Proof/Laws/Settle.lean ====
section
/-! SUPPORT. What `settle` can change, said once: every operation it is made of is related to its argument by `Settles`. -/

namespace Sys2Proof.Machine

set_option Elab.async false

/-- The fields that nothing after an event changes. -/
def untouched (s : State) :=
  (s.station.strap, s.station.setup, s.station.lastResult,
    (s.bus.spent, s.bus.nextGrantee, s.bus.tenure, s.bus.callTimer, s.bus.interjectTimer, s.bus.bresetDrive,
      s.bus.bresetDetect, s.bus.bresetSeen, s.bus.capture, s.bus.rx, s.bus.observed, s.bus.takesGiven),
    (s.bus.drive.busy, s.bus.drive.call, s.bus.drive.answer, s.bus.drive.interject, s.bus.drive.breset),
    s.launch.accCount, (s.serve.reserved, s.serve.swapMemo, s.serve.noteMemo),
    (s.port.assembly, s.port.fifo, s.port.urgent, s.port.reportPos, s.port.inbox, s.port.inboxPos, s.port.mask,
      s.port.readData), s.pending)

/-- The frame and the run being sent, which only a callee's client changes. -/
def sending (s : State) := (s.bus.tx, s.bus.count, s.bus.strobesGiven, s.bus.run)

/-- The window's state, which changes only from IDLE. -/
def windowing (s : State) := (s.bus.view, s.bus.windowTimer, s.bus.idleTimer, s.bus.contending)

/-- The grant in progress. -/
def granting (s : State) := (s.mem.granted, s.mem.pointer, s.mem.lock)

theorem parkedRequests_congr {s t : State} (h : t.serve.parkQueue = s.serve.parkQueue) :
    parkedRequests t = parkedRequests s := by
  simp only [parkedRequests, h]

/-- The entry is CONNECTED with a tenure record that what follows an event may close. -/
def connected : Slot → Bool
  | .live _ (.connOpen _ _) | .live _ (.connResume _ _) => true
  | _ => false

/-- The intake stage but for how far its read has come. -/
def intakeStage (s : State) : Option Intake :=
  s.launch.intake.map fun i => withJob (readJob (intakeJob i).base (intakeJob i).total) i

/-- The received run stands: what follows an event ends no run that this station receives. -/
def receiving (s : State) (r : Run) : Prop := s.bus.run = some r ∧ r.sending = false

/-- A drain can end: the station is in DRAINING and its tenure role is NONE (R69). -/
def mayLeave (s : State) : Prop := s.station.state = .draining ∧ roleOf s = .none

/-- What `t` may differ from `s` in, when it follows from `s` without a further event; `P` holds of the tags whose entries it
may change. -/
structure Settles (P : Tag → Prop) (s t : State) : Prop where
  base : untouched t = untouched s
  gen : ∀ u, genOf t u = genOf s u
  slot : ∀ u, connected (slotOf s u) = false → slotOf t u = slotOf s u
  drain : ∀ u, draining t u → draining s u
  record : ∀ u, ¬ P u → slotOf t u = slotOf s u
  reports : s.port.reports <+: t.port.reports
  reportsSame : (∀ u, ¬ P u) → t.port.reports = s.port.reports
  notice : t.port.notice ||| s.port.notice = t.port.notice
  window : s.bus.view ≠ .idle → windowing t = windowing s
  silent : verdictDue s = false → verdictDue t = false
  sends : verdictDue s = false → sending t = sending s
  receives : ∀ r, receiving s r → receiving t r
  drive : verdictDue s = false → s.bus.view ≠ .idle → t.bus.drive = s.bus.drive
  state : ¬ mayLeave s → t.station.state = s.station.state
  ends : t.station.state = s.station.state ∨ t.station.state = .offline
  terms : verdictDue s = false → ¬ mayLeave s → t.terms = s.terms
  forgets : verdictDue s = false → ∀ a, termsOf t a = termsOf s a ∨ termsOf t a = none
  grant : s.mem.granted ≠ none → granting t = granting s
  issued : ∀ c x, txnOf s c = some x → txnOf t c = some x
  service : s.serve.service = none → t.serve.service = none
  parked : parkedRequests t = parkedRequests s
  intake : intakeStage t = intakeStage s

variable {P : Tag → Prop}

theorem untouched_tenure {s t : State} (h : untouched t = untouched s) : t.bus.tenure = s.bus.tenure := by
  simp only [untouched, Prod.mk.injEq] at h; exact h.2.2.2.1.2.2.1

theorem verdictDue_of_no_callee {s : State} (h : activeCallee s = none) : verdictDue s = false := by
  simp [verdictDue, h]

theorem activeCallee_congr {s t : State} (h : t.bus.tenure = s.bus.tenure) : activeCallee t = activeCallee s := by
  simp only [activeCallee, h]

theorem Settles.tenure {s t : State} (h : Settles P s t) : t.bus.tenure = s.bus.tenure := untouched_tenure h.base

theorem roleOf_congr {s t : State} (h : t.bus.tenure = s.bus.tenure) : roleOf t = roleOf s := by
  simp only [roleOf, h]

theorem Settles.callee {s t : State} (h : Settles P s t) : activeCallee t = activeCallee s := activeCallee_congr h.tenure

theorem Settles.view {s t : State} (h : Settles P s t) (hv : s.bus.view ≠ .idle) : t.bus.view ≠ .idle := by
  have h1 := h.window hv
  simp only [windowing, Prod.mk.injEq] at h1; rw [h1.1]; exact hv

theorem Settles.granted {s t : State} (h : Settles P s t) (hg : s.mem.granted ≠ none) : t.mem.granted ≠ none := by
  have h1 := h.grant hg
  simp only [granting, Prod.mk.injEq] at h1; rw [h1.1]; exact hg

theorem Settles.mayLeave {s t : State} (h : Settles P s t) (hs : ¬ mayLeave s) : ¬ mayLeave t := by
  rw [Machine.mayLeave, h.state hs, roleOf_congr h.tenure]; exact hs

theorem Settles.refl (s : State) : Settles P s s where
  base := rfl
  gen := fun _ => rfl
  slot := fun _ _ => rfl
  drain := fun _ h => h
  record := fun _ _ => rfl
  reports := List.prefix_rfl
  reportsSame := fun _ => rfl
  notice := by simp
  window := fun _ => rfl
  silent := fun h => h
  sends := fun _ => rfl
  receives := fun _ h => h
  drive := fun _ _ => rfl
  state := fun _ => rfl
  ends := .inl rfl
  terms := fun _ _ => rfl
  forgets := fun _ _ => .inl rfl
  grant := fun _ => rfl
  issued := fun _ _ h => h
  service := fun h => h
  parked := rfl
  intake := rfl

theorem Settles.trans {s t u : State} (h : Settles P s t) (k : Settles P t u) : Settles P s u where
  base := k.base.trans h.base
  gen := fun v => (k.gen v).trans (h.gen v)
  slot := fun v hv => (k.slot v (by rw [h.slot v hv]; exact hv)).trans (h.slot v hv)
  drain := fun v hv => h.drain v (k.drain v hv)
  record := fun v hv => (k.record v hv).trans (h.record v hv)
  reports := h.reports.trans k.reports
  reportsSame := fun hp => (k.reportsSame hp).trans (h.reportsSame hp)
  notice := by
    have h1 := h.notice; have h2 := k.notice
    calc u.port.notice ||| s.port.notice
        = (u.port.notice ||| t.port.notice) ||| s.port.notice := by rw [h2]
      _ = u.port.notice ||| (t.port.notice ||| s.port.notice) := by rw [BitVec.or_assoc]
      _ = u.port.notice := by rw [h1, h2]
  window := fun hv => (k.window (h.view hv)).trans (h.window hv)
  silent := fun hc => k.silent (h.silent hc)
  sends := fun hc => (k.sends (h.silent hc)).trans (h.sends hc)
  receives := fun r hr => k.receives r (h.receives r hr)
  drive := fun hc hv => (k.drive (h.silent hc) (h.view hv)).trans (h.drive hc hv)
  state := fun hs => (k.state (h.mayLeave hs)).trans (h.state hs)
  ends := by
    rcases k.ends with e | e
    · rw [e]; exact h.ends
    · exact .inr e
  terms := fun hc hs =>
    (k.terms (h.silent hc) (h.mayLeave hs)).trans (h.terms hc hs)
  forgets := fun hc a => by
    rcases k.forgets (h.silent hc) a with e | e
    · rw [e]; exact h.forgets hc a
    · exact .inr e
  grant := fun hg => (k.grant (h.granted hg)).trans (h.grant hg)
  issued := fun c x hx => k.issued c x (h.issued c x hx)
  service := fun hs => k.service (h.service hs)
  parked := k.parked.trans h.parked
  intake := k.intake.trans h.intake

theorem txnOf_congr {s t : State} (h : t.mem = s.mem) (c : Client) : txnOf t c = txnOf s c := by
  cases c <;> simp only [txnOf, h]

/-- The fields that an operation of the Serve Engine, of the transit buffer or of the jobs leaves. -/
def steady (s : State) :=
  (windowing s, s.launch.entries, s.port.reports, s.port.notice, s.station.state, s.mem, s.bus.runs, intakeStage s)

theorem Settles.of_steady {s t : State} (base : untouched t = untouched s) (rest : steady t = steady s)
    (parked : parkedRequests t = parkedRequests s) (service : s.serve.service = none → t.serve.service = none)
    (receives : ∀ r, receiving s r → receiving t r)
    (mute : verdictDue s = false →
      verdictDue t = false ∧ sending t = sending s ∧ t.bus.drive = s.bus.drive ∧ t.terms = s.terms) :
    Settles P s t := by
  simp only [steady, Prod.mk.injEq] at rest
  obtain ⟨hw, he, hr, hn, hs, hm, hb, hi⟩ := rest
  exact {
    base := base
    gen := fun u => genOf_congr he u
    slot := fun u _ => slotOf_congr he u
    drain := fun u h => by simpa only [draining, hb] using h
    record := fun u _ => slotOf_congr he u
    reports := ⟨[], by simp [hr]⟩
    reportsSame := fun _ => hr
    notice := by rw [hn]; simp
    window := fun _ => hw
    silent := fun h => (mute h).1
    sends := fun h => (mute h).2.1
    receives := receives
    drive := fun h _ => (mute h).2.2.1
    state := fun _ => hs
    ends := .inl hs
    terms := fun h _ => (mute h).2.2.2
    forgets := fun h a => .inl (by simp only [termsOf, (mute h).2.2.2])
    grant := fun _ => by simp only [granting, hm]
    issued := fun c x h => by rw [txnOf_congr hm]; exact h
    service := service
    parked := parked
    intake := hi }

/-- An update of fields that `Settles` leaves free: jobs, the Serve Engine's work, the claims, the stall timer. -/
theorem Settles.of_free {s t : State} (base : untouched t = untouched s) (rest : steady t = steady s)
    (parked : parkedRequests t = parkedRequests s) (service : s.serve.service = none → t.serve.service = none)
    (silent : verdictDue s = false → verdictDue t = false) (sends : sending t = sending s)
    (drive : t.bus.drive = s.bus.drive) (terms : t.terms = s.terms) : Settles P s t :=
  .of_steady base rest parked service
    (fun r h => by
      simp only [sending, Prod.mk.injEq] at sends
      exact ⟨sends.2.2.2.trans h.1, h.2⟩)
    (fun h => ⟨silent h, sends, drive, terms⟩)

/-- An update of the inbound runs alone, by which no run comes to report to a tag. -/
theorem Settles.of_runs {s : State} (runs : List InRun)
    (h : ∀ u, (∃ r ∈ runs, reportsTo r = some u) → draining s u) :
    Settles P s { s with bus.runs := runs } where
  base := rfl
  gen := fun _ => rfl
  slot := fun _ _ => rfl
  drain := h
  record := fun _ _ => rfl
  reports := List.prefix_rfl
  reportsSame := fun _ => rfl
  notice := by simp
  window := fun _ => rfl
  silent := fun h => h
  sends := fun _ => rfl
  receives := fun _ h => h
  drive := fun _ _ => rfl
  state := fun _ => rfl
  ends := .inl rfl
  terms := fun _ _ => rfl
  forgets := fun _ _ => .inl rfl
  grant := fun _ => rfl
  issued := fun _ _ h => h
  service := fun h => h
  parked := rfl
  intake := rfl

/-- A weaker claim about the entries. -/
theorem Settles.mono {Q : Tag → Prop} {s t : State} (h : Settles P s t) (k : ∀ u, P u → Q u) : Settles Q s t :=
  { h with
    record := fun u hu => h.record u fun hp => hu (k u hp)
    reportsSame := fun hq => h.reportsSame fun u hp => hq u (k u hp) }

/-! ## The Launch Engine's part -/

/-- An operation on the entry `t`, CONNECTED, that leaves the rest. -/
theorem Settles.setLive {s : State} {t : Tag} (hP : P t) (h : connected (slotOf s t) = true) (b : Body) (p : Phase) :
    Settles P s (setLive t b p s) where
  base := rfl
  gen := fun u => genOf_setLive t u b p s
  slot := fun u hu => by
    rw [slotOf_setLive]; split
    · next e => subst e; rw [h] at hu; cases hu
    · rfl
  drain := fun _ h => h
  record := fun u hu => by
    rw [slotOf_setLive]; split
    · next e => subst e; exact absurd hP hu
    · rfl
  reports := List.prefix_rfl
  reportsSame := fun _ => rfl
  notice := by simp
  window := fun _ => rfl
  silent := fun h => h
  sends := fun _ => rfl
  receives := fun _ h => h
  drive := fun _ _ => rfl
  state := fun _ => rfl
  ends := .inl rfl
  terms := fun _ _ => rfl
  forgets := fun _ _ => .inl rfl
  grant := fun _ => rfl
  issued := fun c _ h => by cases c <;> exact h
  service := fun h => h
  parked := rfl
  intake := rfl

theorem reportsTo_closeItem {x : Bool} {t u : Tag} {r : InRun} (h : reportsTo (closeItem x t r) = some u) : reportsTo r = some u := by
  unfold closeItem at h
  split at h
  · next i hi =>
    split at h
    · simp [reportsTo] at h
    · exact h
  all_goals exact h

theorem Settles.closeItems (x : Bool) (t : Tag) (s : State) : Settles P s (closeItems x t s) :=
  .of_runs _ fun u ⟨r, hr, hu⟩ => by
    obtain ⟨r', h', rfl⟩ := List.mem_map.mp hr
    exact ⟨r', h', reportsTo_closeItem hu⟩

theorem Settles.reportEntry {s : State} {t : Tag} (hP : P t) (h : connected (slotOf s t) = true) (b : Body)
    (st : Status) : Settles P s (reportEntry t (genOf s t) b st s) where
  base := rfl
  gen := fun u => by
    refine (genOf_setEntry _ _ _ _).trans ?_
    split
    · next hu => rw [hu]
    · rfl
  slot := fun u hu => by
    refine (slotOf_setEntry _ _ _ _).trans ?_
    split
    · next e => subst e; rw [h] at hu; cases hu
    · rfl
  drain := fun _ h => h
  record := fun u hu => by
    refine (slotOf_setEntry _ _ _ _).trans ?_
    split
    · next e => subst e; exact absurd hP hu
    · rfl
  reports := List.prefix_rfl
  reportsSame := fun _ => rfl
  notice := BitVec.or_self
  window := fun _ => rfl
  silent := fun h => h
  sends := fun _ => rfl
  receives := fun _ h => h
  drive := fun _ _ => rfl
  state := fun _ => rfl
  ends := .inl rfl
  terms := fun _ _ => rfl
  forgets := fun _ _ => .inl rfl
  grant := fun _ => rfl
  issued := fun c _ h => by cases c <;> exact h
  service := fun h => h
  parked := rfl
  intake := rfl

theorem Settles.dequeue (t : Tag) (s : State) : Settles P s (dequeue t s) :=
  .of_free rfl rfl rfl id id rfl rfl rfl

theorem Settles.addReport {t : Tag} (hP : P t) (r : Report) (s : State) : Settles P s (addReport r s) :=
  { Settles.refl (P := P) s with reports := List.prefix_append _ _, reportsSame := fun h => absurd hP (h t) }

theorem or_notice (a b : BitVec 6) : (a ||| b) ||| a = a ||| b := by
  rw [BitVec.or_comm (a ||| b), ← BitVec.or_assoc, BitVec.or_self]

theorem Settles.setNotice (n : Notice) (s : State) : Settles P s (setNotice n s) :=
  { Settles.refl (P := P) s with notice := or_notice _ _ }

theorem Settles.complete {s : State} {t : Tag} (hP : P t) (h : connected (slotOf s t) = true) (st : Status) :
    Settles P s (complete t st s) := by
  cases hl : liveOf s t with
  | none => rw [complete_of_not_live hl]; exact Settles.refl s
  | some bp =>
    obtain ⟨b, p⟩ := bp
    rw [complete_eq (liveOf_eq_some.mp hl)]
    exact (Settles.dequeue t s).trans ((Settles.reportEntry (s := Machine.dequeue t s) hP h _ _).trans
      ((Settles.addReport hP _ _).trans ((Settles.closeItems _ _ _).trans (.setNotice _ _))))

theorem Settles.enqueue (t : Tag) (s : State) : Settles P s (enqueue t s) :=
  .of_free rfl rfl rfl id id rfl rfl rfl

theorem Settles.retryOpen {s : State} {t : Tag} (hP : P t) (h : connected (slotOf s t) = true) (b : Body)
    (f : RetryFault) : Settles P s (retryOpen t b f s) := by
  unfold Machine.retryOpen; split
  · exact ((Settles.setLive hP h _ _).trans (.closeItems _ _ _)).trans (.enqueue _ _)
  · exact .complete hP h _

theorem Settles.withdraw {s : State} {t : Tag} (hP : P t) (h : connected (slotOf s t) = true) (b : Body) :
    Settles P s (withdraw t b s) :=
  ((Settles.setLive hP h _ _).trans (.closeItems _ _ _)).trans (.enqueue _ _)

theorem Settles.carryOpen {s : State} {t : Tag} (hP : P t) (h : connected (slotOf s t) = true) (b : Body)
    (r : OpenRecord) : Settles P s (carryOpen t b r s) := by
  unfold Machine.carryOpen
  split
  · exact .complete hP h _
  · exact .complete hP h _
  · split
    · exact .withdraw hP h _
    · exact .setLive hP h _ _
  · split
    · exact .complete hP h _
    · exact (Settles.setLive hP h _ _).trans (.enqueue _ _)
  · split
    · exact .complete hP h _
    · exact .retryOpen hP h _ _
  · split
    · exact .complete hP h _
    · exact .retryOpen hP h _ _

theorem Settles.settleOpen {t : Tag} (hP : P t) (s : State) : Settles P s (settleOpen t s) := by
  unfold Machine.settleOpen
  split
  · next b o r hl =>
    split
    · exact .carryOpen hP (by rw [liveOf_eq_some.mp hl]; rfl) _ _
    · exact .refl s
  · exact .refl s

theorem Settles.carryResume {s : State} {t : Tag} (hP : P t) (h : connected (slotOf s t) = true) (b : Body)
    (left : Time) (r : ResumeRecord) : Settles P s (carryResume t b left r s) := by
  have hp : ∀ n, Settles P s (park t b n s) := fun n => (Settles.setLive hP h _ _).trans (.closeItems _ _ _)
  unfold Machine.carryResume
  split
  · exact .complete hP h _
  · exact .complete hP h _
  · exact .complete hP h _
  · split
    · exact .complete hP h _
    · split
      · exact .withdraw hP h _
      · exact hp _
  · split
    · exact .withdraw hP h _
    · exact hp _
  · split
    · exact .withdraw hP h _
    · exact hp _

theorem Settles.settleResume {t : Tag} (hP : P t) (s : State) : Settles P s (settleResume t s) := by
  unfold Machine.settleResume
  split
  · next b l r hl =>
    split
    · exact .carryResume hP (by rw [liveOf_eq_some.mp hl]; rfl) _ _ _
    · exact .refl s
  · exact .refl s

theorem Settles.modifyOpen {t : Tag} (hP : P t) (f : OpenRecord → OpenRecord) (s : State) :
    Settles P s (modifyOpen t f s) := by
  unfold Machine.modifyOpen
  split
  · next b o r hl => exact .setLive hP (by rw [liveOf_eq_some.mp hl]; rfl) _ _
  · exact .refl s

theorem Settles.modifyResume {t : Tag} (hP : P t) (f : ResumeRecord → ResumeRecord) (s : State) :
    Settles P s (modifyResume t f s) := by
  unfold Machine.modifyResume
  split
  · next b l r hl => exact .setLive hP (by rw [liveOf_eq_some.mp hl]; rfl) _ _
  · exact .refl s

theorem Settles.itemDrained {i : MoverItem} (hP : i.recordOpen = true → P i.tag) (s : State) :
    Settles P s (itemDrained i s) := by
  unfold Machine.itemDrained
  split
  · next h =>
    have hp : P i.tag := hP h
    exact (((Settles.modifyOpen hp _ _).trans (.modifyResume hp _ _)).trans (.settleOpen hp _)).trans
      (.settleResume hp _)
  · exact .refl s

theorem Settles.foldl {α : Type} (f : State → α → State) (l : List α) (h : ∀ a ∈ l, ∀ s, Settles P s (f s a))
    (s : State) : Settles P s (l.foldl f s) := by
  induction l generalizing s with
  | nil => exact .refl s
  | cons a l ih =>
    exact (h a (List.mem_cons_self ..) s).trans (ih (fun b hb => h b (List.mem_cons_of_mem _ hb)) _)

/-! ## The transit buffer -/

/-- An update of the Serve Engine's part alone. -/
theorem Settles.of_serve {s t : State} (serve : { t with serve := s.serve } = s)
    (kept : (t.serve.reserved, t.serve.swapMemo, t.serve.noteMemo) = (s.serve.reserved, s.serve.swapMemo, s.serve.noteMemo))
    (parked : parkedRequests t = parkedRequests s) (service : s.serve.service = none → t.serve.service = none)
    (silent : verdictDue s = false → verdictDue t = false) : Settles P s t := by
  have e : t = { s with serve := t.serve } := by rw [← serve]
  rw [e] at parked silent ⊢
  simp only [Prod.mk.injEq] at kept
  refine .of_free ?_ rfl parked service silent rfl rfl rfl
  simp only [untouched, kept]

/-- An update of the work of the service record, by which no verdict comes to be due. -/
theorem Settles.modifyWork (f : ServiceWork → ServiceWork) (s : State)
    (h : ∀ v, serviceOpen { v with work := f v.work } = true → serviceOpen v = true) : Settles P s (modifyWork f s) := by
  unfold Machine.modifyWork
  split
  · next v hv =>
    refine .of_serve rfl rfl rfl (fun hn => by rw [hv] at hn; cases hn) fun hd => ?_
    rw [Bool.eq_false_iff] at hd ⊢
    intro hw
    apply hd
    simp only [verdictDue, Option.any_some, Bool.and_eq_true] at hw
    simp only [verdictDue, hv, Option.any_some, Bool.and_eq_true]
    exact ⟨hw.1, h v hw.2⟩
  · exact .refl s

theorem Settles.feedNote (s : State) : Settles P s (feedNote s) := by
  unfold Machine.feedNote
  split
  · next r rs hr =>
    split
    · next hs =>
      refine Settles.trans ?_ (.modifyWork _ _ fun v hv => by
        revert hv; simp only [serviceOpen]; cases v.work <;> simp)
      refine .of_runs _ fun u ⟨r', h', hu⟩ => ?_
      rcases List.mem_cons.mp h' with rfl | h'
      · simp [reportsTo, hs] at hu
      · exact ⟨r', by rw [hr]; exact List.mem_cons_of_mem _ h', hu⟩
    · exact .refl s
  · exact .refl s

theorem reportsTo_discardBytes (r : InRun) : reportsTo (discardBytes r) = reportsTo r := by
  unfold discardBytes; split <;> rfl

theorem sink_of_mem_itemsOf {i : MoverItem} {k : Sink} (h : i ∈ itemsOf k) : k = .mover i := by
  unfold itemsOf at h
  split at h
  · rw [List.mem_singleton.mp h]
  all_goals cases h

/-- The runs that stay report where they did; the items that leave were items of the runs. -/
theorem drainRuns_spec (rs : List InRun) :
    (∀ r ∈ (drainRuns rs).1, ∃ r' ∈ rs, reportsTo r = reportsTo r') ∧
      ∀ i ∈ (drainRuns rs).2, ∃ r' ∈ rs, r'.sink = .mover i := by
  induction rs with
  | nil => constructor <;> intro _ h <;> cases h
  | cons r rs ih =>
    unfold drainRuns
    split
    · constructor
      · intro x hx
        obtain ⟨y, hy, e⟩ := ih.1 x hx
        exact ⟨y, List.mem_cons_of_mem _ hy, e⟩
      · intro i hi
        rcases List.mem_append.mp hi with h | h
        · refine ⟨r, List.mem_cons_self .., ?_⟩
          exact sink_of_mem_itemsOf h
        · obtain ⟨y, hy, e⟩ := ih.2 i h
          exact ⟨y, List.mem_cons_of_mem _ hy, e⟩
    · constructor
      · intro x hx
        rcases List.mem_cons.mp hx with rfl | h
        · exact ⟨r, List.mem_cons_self .., reportsTo_discardBytes r⟩
        · exact ⟨x, List.mem_cons_of_mem _ (List.mem_filter.mp h).1, rfl⟩
      · intro i hi
        obtain ⟨q, hq, h⟩ := List.mem_flatMap.mp hi
        exact ⟨q, List.mem_cons_of_mem _ (List.mem_filter.mp hq).1, sink_of_mem_itemsOf h⟩

theorem mem_itemsByAcc {s : State} {i : MoverItem} {is : List MoverItem} :
    i ∈ itemsByAcc s is ↔ i ∈ is ∧ i.recordOpen = true := by
  simp [itemsByAcc, mem_foldl_insertByAcc]

theorem Settles.pump (s : State) : Settles (draining s) s (pump s) := by
  have hf := Settles.feedNote (P := draining s) s
  refine hf.trans ?_
  have hd := drainRuns_spec (Machine.feedNote s).bus.runs
  refine Settles.trans (Settles.of_runs (drainRuns (Machine.feedNote s).bus.runs).1 ?_) (.foldl _ _ ?_ _)
  · rintro u ⟨r, hr, hu⟩
    obtain ⟨r', h', e⟩ := hd.1 r hr
    exact ⟨r', h', e ▸ hu⟩
  · intro i hi t
    refine .itemDrained (fun ho => hf.drain _ ?_) _
    obtain ⟨r', h', e⟩ := hd.2 i (mem_itemsByAcc.mp hi).1
    exact ⟨r', h', by simp [reportsTo, e, ho]⟩

/-! ## The Serve Engine's part -/

/-- An operation by which the callee's client gives a verdict that was due. -/
theorem Settles.of_due {s t : State} (hd : verdictDue s = true) (base : untouched t = untouched s)
    (rest : steady t = steady s) (parked : parkedRequests t = parkedRequests s)
    (service : s.serve.service = none → t.serve.service = none) (receives : ∀ r, receiving s r → receiving t r) :
    Settles P s t :=
  .of_steady base rest parked service receives fun h => by rw [hd] at h; cases h

/-- What giving a verdict leaves. -/
theorem giveVerdict_spec (v : Verdict) (s : State) :
    untouched (giveVerdict v s) = untouched s ∧ steady (giveVerdict v s) = steady s ∧
      (giveVerdict v s).serve = s.serve ∧ (giveVerdict v s).bus.run = s.bus.run := by
  unfold giveVerdict
  split
  · unfold sendFrame; split <;> exact ⟨rfl, rfl, rfl, rfl⟩
  · exact ⟨rfl, rfl, rfl, rfl⟩

theorem writeTermsFor_spec (h : OpenHead) (s : State) :
    untouched (writeTermsFor h s) = untouched s ∧ steady (writeTermsFor h s) = steady s ∧
      (writeTermsFor h s).serve = s.serve ∧ (writeTermsFor h s).bus = s.bus := by
  unfold writeTermsFor agreeTerms
  split
  · split <;> exact ⟨rfl, rfl, rfl, rfl⟩
  · exact ⟨rfl, rfl, rfl, rfl⟩

theorem Settles.giveClosing {s : State} (hd : verdictDue s = true) (k : VerdictKind) :
    Settles P s (giveClosing k s) := by
  unfold Machine.giveClosing
  split
  · exact .refl s
  · next v hv =>
    have g := giveVerdict_spec ⟨k, v.head.tag, v.head.gen, none, none⟩
      { s with serve.service := some { v with closed := true }, serve.verdictTimer := none }
    refine .of_due hd (g.1.trans rfl) (g.2.1.trans rfl) ?_ (fun hn => by rw [hv] at hn; cases hn)
      (fun r hr => ⟨g.2.2.2.trans hr.1, hr.2⟩)
    have e := congrArg Serve.parkQueue g.2.2.1
    exact parkedRequests_congr e

theorem Settles.giveFirst {s : State} (hd : verdictDue s = true) (k : VerdictKind) (r : Option SwapResult) :
    Settles P s (giveFirst k r s) := by
  unfold Machine.giveFirst
  split
  · exact .refl s
  · next v hv =>
    have w := writeTermsFor_spec v.head s
    have g := giveVerdict_spec ⟨k, v.head.tag, v.head.gen, v.head.terms.map fun _ => ownTerms s, r⟩
      { writeTermsFor v.head s with
        serve.service := some { v with first := some k, closed := k != .proceed }
        serve.verdictTimer := none }
    refine .of_due hd (g.1.trans ?_) (g.2.1.trans ?_) ?_ (fun hn => by rw [hv] at hn; cases hn)
      (fun r hr => ⟨g.2.2.2.trans ?_, hr.2⟩)
    · refine Eq.trans ?_ w.1
      simp only [untouched]
    · refine Eq.trans ?_ w.2.1
      simp only [steady, windowing, intakeStage]
    · have e := congrArg Serve.parkQueue g.2.2.1
      have e' := congrArg Serve.parkQueue w.2.2.1
      exact parkedRequests_congr (e.trans e')
    · simp only [w.2.2.2]; exact hr.1

theorem verdictDue_of {s : State} {v : Service} {c : Callee} (hv : s.serve.service = some v)
    (hc : activeCallee s = some c) (ho : serviceOpen v = true) : verdictDue s = true := by
  simp [verdictDue, hv, hc, ho]

theorem Settles.storeProgress (s : State) : Settles P s (storeProgress s) := by
  unfold Machine.storeProgress
  split
  · next v c h1 h2 =>
    split
    · next hw =>
      split
      · exact .refl s
      · next hg =>
        refine .giveClosing (verdictDue_of h1 h2 ?_) _
        simp only [Bool.or_eq_true, not_or, Bool.not_eq_true] at hg
        simp [serviceOpen, hw, hg.1]
    · exact .refl s
  · exact .refl s

theorem Settles.fetchProgress (s : State) : Settles P s (fetchProgress s) := by
  unfold Machine.fetchProgress
  split
  · next v c r h1 h2 h3 =>
    split
    · next hw =>
      split
      · exact .refl s
      · next hg =>
        have hclosed : v.closed = false := by
          cases hc : v.closed with
          | false => rfl
          | true => simp [hc] at hg
        have hd : verdictDue s = true := verdictDue_of h1 h2 (by simp [serviceOpen, hw, hclosed])
        refine Settles.trans (t := { s with bus.run := none, bus.outbound := [] }) ?_ (.giveClosing (by exact hd) _)
        refine .of_due hd rfl rfl rfl id fun r' hr => ?_
        have e : r' = r := by
          have := hr.1; rw [h3] at this; exact (Option.some.inj this).symm
        have hs := hr.2
        subst e
        simp [hs] at hg
    · exact .refl s
  · exact .refl s

/-- A client with nothing issued presents a transaction. -/
theorem Settles.present {s : State} {c : Client} (h : txnOf s c = none) (x : Txn) : Settles P s (present c x s) where
  base := by cases c <;> rfl
  gen := fun u => by cases c <;> rfl
  slot := fun u _ => by cases c <;> rfl
  drain := fun u h => by cases c <;> exact h
  record := fun u _ => by cases c <;> rfl
  reports := by cases c <;> exact List.prefix_rfl
  reportsSame := fun _ => by cases c <;> rfl
  notice := by cases c <;> simp [Machine.present, setTxn]
  window := fun _ => by cases c <;> rfl
  silent := fun hd => by cases c <;> exact hd
  sends := fun _ => by cases c <;> rfl
  receives := fun r hr => by cases c <;> exact hr
  drive := fun _ _ => by cases c <;> rfl
  state := fun _ => by cases c <;> rfl
  ends := .inl (by cases c <;> rfl)
  forgets := fun _ _ => .inl (by cases c <;> rfl)
  terms := fun _ _ => by cases c <;> rfl
  grant := fun _ => by cases c <;> rfl
  issued := fun c' x' h' => by
    cases c <;> cases c' <;> first | exact h' | (rw [h] at h'; cases h')
  service := fun h' => by cases c <;> exact h'
  parked := by cases c <;> rfl
  intake := by cases c <;> rfl

theorem Settles.swapProgress (s : State) : Settles P s (swapProgress s) := by
  unfold Machine.swapProgress
  split
  · next v c h1 h2 h3 =>
    split
    · next hw hf =>
      have hd : verdictDue s = true := verdictDue_of h1 h2 (by simp [serviceOpen, hw, hf])
      split
      · exact .giveFirst hd _ _
      · split
        · exact .refl s
        · next hg =>
          have hm : s.mem.serve = none := by
            cases hx : s.mem.serve with
            | none => rfl
            | some x => simp [hx] at hg
          refine Settles.trans ?_ (.present (by exact hm) _)
          exact .of_due hd rfl rfl rfl (fun hn => by rw [h1] at hn; cases hn) fun _ h => h
    · exact .refl s
  · exact .refl s

theorem Settles.startFill (s : State) : Settles P s (startFill s) := by
  unfold Machine.startFill
  split
  · next e es hq _ =>
    split
    · exact .of_serve rfl rfl (by simp [parkedRequests, hq]) id id
    · exact .refl s
  · exact .refl s

/-- A sending client places bytes, or a job moves on. -/
theorem Settles.placeOutJob (s : State) : Settles P s (placeOutJob s) := by
  unfold Machine.placeOutJob
  split
  · exact .refl s
  · split
    · exact .of_free rfl rfl rfl id id rfl rfl rfl
    · exact .refl s

theorem Settles.placeFetch (s : State) : Settles P s (placeFetch s) := by
  unfold Machine.placeFetch
  split
  · next v h =>
    split
    · next base issued placed held fault flight hw =>
      split
      · refine .of_free rfl rfl rfl (fun hn => by rw [h] at hn; cases hn) (fun hd => ?_) rfl rfl rfl
        have e : ∀ n x, serviceOpen { v with work := .fetch base issued n x fault flight } = serviceOpen v := by
          intro n x
          simp only [serviceOpen, hw]
          cases fault <;> cases flight <;> rfl
        revert hd
        simp only [verdictDue, h, Option.any_some, e]
        exact id
      · exact .refl s
    · exact .refl s
  · exact .refl s

theorem Settles.placeChunk (s : State) : Settles P s (placeChunk s) := by
  unfold Machine.placeChunk
  split
  · split
    · exact .of_free rfl rfl rfl id id rfl rfl rfl
    · exact .refl s
  · exact .refl s

theorem Settles.presentFill {s : State} (hm : s.mem.serve = none) : Settles P s (presentFill s) := by
  unfold Machine.presentFill
  split
  · split
    · exact .refl s
    · refine Settles.trans ?_ (.present (by exact hm) _)
      exact .of_serve rfl rfl rfl id id
  · exact .refl s

theorem Settles.storeWrite {s t : State} (hm : s.mem.serve = none) (h : storeWrite s = some t) : Settles P s t := by
  unfold Machine.storeWrite at h
  split at h
  · next r rs hr =>
    split at h
    · next j hj _ =>
      dsimp only at h
      split at h
      · cases h
      · cases h
        refine Settles.trans ?_ (.present (by exact hm) _)
        refine .of_runs _ fun u ⟨r', h', hu⟩ => ?_
        rcases List.mem_cons.mp h' with rfl | h'
        · simp [reportsTo] at hu
        · exact ⟨r', by rw [hr]; exact List.mem_cons_of_mem _ h', hu⟩
    · cases h
  · cases h

theorem Settles.fetchRead {s t : State} (hm : s.mem.serve = none) (h : fetchRead s = some t) : Settles P s t := by
  unfold Machine.fetchRead at h
  split at h
  · next v c hv _ =>
    split at h
    · dsimp only at h
      split at h
      · cases h
      · cases h
        refine Settles.trans ?_ (.present (by exact hm) _)
        exact .of_serve rfl rfl rfl (fun hn => by rw [hv] at hn; cases hn)
          (fun _ => by simp [verdictDue, serviceOpen])
    · cases h
  · cases h

theorem Settles.presentServe (s : State) : Settles P s (presentServe s) := by
  unfold Machine.presentServe
  split
  · exact .refl s
  · next hm =>
    split
    · next h => exact .storeWrite hm h
    · split
      · exact .refl s
      · split
        · next h => exact .fetchRead hm h
        · split
          · exact .refl s
          · exact .presentFill hm

theorem Settles.presentOutRead {s : State} (hm : s.mem.mover = none) : Settles P s (presentOutRead s) := by
  unfold Machine.presentOutRead
  split
  · exact .refl s
  · split
    · split
      · exact .refl s
      · refine Settles.trans ?_ (.present (by exact hm) _)
        exact .of_free rfl rfl rfl id id rfl rfl rfl
    · exact .refl s

theorem Settles.presentMover (s : State) : Settles P s (presentMover s) := by
  unfold Machine.presentMover
  split
  · exact .refl s
  · next hm _ => exact .presentOutRead hm
  · next r rs hm hr =>
    split
    · next i hi _ =>
      split
      · exact .presentOutRead hm
      · dsimp only
        split
        · exact .presentOutRead hm
        · refine Settles.trans ?_ (.present (by exact hm) _)
          refine .of_runs _ fun u ⟨r', h', hu⟩ => ?_
          rcases List.mem_cons.mp h' with rfl | h'
          · exact ⟨r, by rw [hr]; exact List.mem_cons_self .., by simpa [reportsTo, hi] using hu⟩
          · exact ⟨r', by rw [hr]; exact List.mem_cons_of_mem _ h', hu⟩
    · exact .presentOutRead hm

theorem intakeJob_withJob (j : ReadJob) (i : Intake) : intakeJob (withJob j i) = j := by
  cases i <;> rfl

theorem withJob_withJob (j j' : ReadJob) (i : Intake) : withJob j (withJob j' i) = withJob j i := by
  cases i <;> rfl

theorem Settles.presentLister (s : State) : Settles P s (presentLister s) := by
  unfold Machine.presentLister
  split
  · next i hm hi =>
    dsimp only
    split
    · exact .refl s
    · refine Settles.trans ?_ (.present (by exact hm) _)
      refine .of_free rfl ?_ rfl id id rfl rfl rfl
      simp only [steady, windowing, intakeStage, hi, Option.map_some, withJob_withJob, intakeJob_withJob]
  · exact .refl s

theorem Settles.serveProgress (s : State) : Settles P s (Machine.serveProgress s) :=
  (Settles.storeProgress _).trans ((Settles.fetchProgress _).trans ((Settles.swapProgress _).trans (.startFill _)))

theorem Settles.afterPump (s : State) : Settles P s (presentAll (placeOutbound (Machine.serveProgress s))) := by
  refine Settles.trans ?_ ((Settles.presentServe _).trans ((Settles.presentMover _).trans (.presentLister _)))
  exact (Settles.serveProgress _).trans ((Settles.placeOutJob _).trans ((Settles.placeFetch _).trans (.placeChunk _)))

/-- One pass over the blocks. -/
theorem Settles.pass (s : State) : Settles (draining s) s (pass s) := (Settles.pump s).trans (.afterPump _)

/-! ## After the passes -/

/-- The arbiter acts on a free port alone. -/
theorem Settles.arbitrate (s : State) : Settles P s (arbitrate s) := by
  have hg : ∀ (n : Nat) (c : Client), s.mem.granted = none → Settles P s (Machine.grant c { s with choices := n }) :=
    fun n c h =>
      { Settles.refl (P := P) s with
        grant := fun hn => absurd h hn
        issued := fun c' x' hx => by cases c' <;> exact hx }
  unfold Machine.arbitrate
  split
  · exact .refl s
  · next h =>
    split
    · exact .refl s
    · exact hg s.choices _ h
    · exact hg (s.choices + 1) _ h

theorem Settles.drainToOffline (s : State) : Settles P s (drainToOffline s) := by
  unfold Machine.drainToOffline
  split
  · next h =>
    exact { Settles.refl (P := P) s with
      notice := or_notice _ _
      state := fun hs => absurd ⟨h.1, h.2.2⟩ hs
      ends := .inr rfl
      terms := fun _ hs => absurd ⟨h.1, h.2.2⟩ hs
      forgets := fun _ a => .inr (by simp [termsOf, Machine.changeState, Machine.setNotice, Machine.forgetTerms])
      issued := fun c _ hx => by cases c <;> exact hx }
  · exact .refl s

theorem Settles.updateClaims (s : State) : Settles P s (updateClaims s) :=
  .of_free rfl rfl rfl id id rfl rfl rfl

theorem Settles.contendInIdle (s : State) : Settles P s (contendInIdle s) := by
  unfold Machine.contendInIdle
  split
  · next h =>
    unfold openWindow
    dsimp only
    split
    · exact { Settles.refl (P := P) s with
        window := fun hv => absurd h.1 hv
        drive := fun _ hv => absurd h.1 hv
        issued := fun c _ hx => by cases c <;> exact hx }
    · exact { Settles.refl (P := P) s with
        window := fun hv => absurd h.1 hv
        issued := fun c _ hx => by cases c <;> exact hx }
  · exact .refl s

theorem Settles.updateStall (s : State) : Settles P s (updateStall s) := by
  unfold Machine.updateStall
  split <;> exact .of_free rfl rfl rfl id id rfl rfl rfl

theorem Settles.afterPasses (s : State) :
    Settles P s (Machine.updateStall (Machine.contendInIdle (Machine.updateClaims (Machine.drainToOffline
      (Machine.arbitrate s))))) :=
  (Settles.arbitrate _).trans ((Settles.drainToOffline _).trans ((Settles.updateClaims _).trans
    ((Settles.contendInIdle _).trans (.updateStall _))))

/-- Everything that follows at once from an event, whole. -/
theorem settles (s : State) : Settles (draining s) s (settle s) := by
  have h1 := Settles.pass s
  have h2 := (Settles.pass (Machine.pass s)).mono h1.drain
  have h12 := h1.trans h2
  have h3 := (Settles.pass (Machine.pass (Machine.pass s))).mono h12.drain
  exact (h12.trans h3).trans (.afterPasses _)

/-! ## What holds at the end of every settling -/

theorem stallWaits_updateStall (s : State) : stallWaits (updateStall s) = stallWaits s := by
  unfold updateStall; split <;> rfl

/-- The stall timer runs exactly while this party waits (R15). -/
theorem settle_stallTimer_isSome (s : State) : (settle s).bus.stallTimer.isSome = stallWaits (settle s) := by
  unfold settle
  rw [stallWaits_updateStall]
  generalize contendInIdle _ = t
  unfold updateStall
  split
  · next h => simp [h]
  · next h => simp at h; simp [h]

/-! ## What `settle` leaves, field by field -/

theorem settle_untouched (s : State) : untouched (settle s) = untouched s := (settles s).base

@[simp] theorem settle_station_strap (s : State) : (settle s).station.strap = s.station.strap := by
  have h := settle_untouched s; simp only [untouched, Prod.mk.injEq] at h; simp only [h]

@[simp] theorem settle_station_setup (s : State) : (settle s).station.setup = s.station.setup := by
  have h := settle_untouched s; simp only [untouched, Prod.mk.injEq] at h; simp only [h]

@[simp] theorem settle_station_lastResult (s : State) : (settle s).station.lastResult = s.station.lastResult := by
  have h := settle_untouched s; simp only [untouched, Prod.mk.injEq] at h; simp only [h]

@[simp] theorem settle_bus_spent (s : State) : (settle s).bus.spent = s.bus.spent := by
  have h := settle_untouched s; simp only [untouched, Prod.mk.injEq] at h; simp only [h]

@[simp] theorem settle_bus_nextGrantee (s : State) : (settle s).bus.nextGrantee = s.bus.nextGrantee := by
  have h := settle_untouched s; simp only [untouched, Prod.mk.injEq] at h; simp only [h]

@[simp] theorem settle_bus_tenure (s : State) : (settle s).bus.tenure = s.bus.tenure := by
  have h := settle_untouched s; simp only [untouched, Prod.mk.injEq] at h; simp only [h]

@[simp] theorem settle_bus_callTimer (s : State) : (settle s).bus.callTimer = s.bus.callTimer := by
  have h := settle_untouched s; simp only [untouched, Prod.mk.injEq] at h; simp only [h]

@[simp] theorem settle_bus_interjectTimer (s : State) : (settle s).bus.interjectTimer = s.bus.interjectTimer := by
  have h := settle_untouched s; simp only [untouched, Prod.mk.injEq] at h; simp only [h]

@[simp] theorem settle_bus_bresetDrive (s : State) : (settle s).bus.bresetDrive = s.bus.bresetDrive := by
  have h := settle_untouched s; simp only [untouched, Prod.mk.injEq] at h; simp only [h]

@[simp] theorem settle_bus_bresetDetect (s : State) : (settle s).bus.bresetDetect = s.bus.bresetDetect := by
  have h := settle_untouched s; simp only [untouched, Prod.mk.injEq] at h; simp only [h]

@[simp] theorem settle_bus_bresetSeen (s : State) : (settle s).bus.bresetSeen = s.bus.bresetSeen := by
  have h := settle_untouched s; simp only [untouched, Prod.mk.injEq] at h; simp only [h]

@[simp] theorem settle_bus_capture (s : State) : (settle s).bus.capture = s.bus.capture := by
  have h := settle_untouched s; simp only [untouched, Prod.mk.injEq] at h; simp only [h]

@[simp] theorem settle_bus_rx (s : State) : (settle s).bus.rx = s.bus.rx := by
  have h := settle_untouched s; simp only [untouched, Prod.mk.injEq] at h; simp only [h]

@[simp] theorem settle_bus_observed (s : State) : (settle s).bus.observed = s.bus.observed := by
  have h := settle_untouched s; simp only [untouched, Prod.mk.injEq] at h; simp only [h]

@[simp] theorem settle_bus_takesGiven (s : State) : (settle s).bus.takesGiven = s.bus.takesGiven := by
  have h := settle_untouched s; simp only [untouched, Prod.mk.injEq] at h; simp only [h]

@[simp] theorem settle_bus_drive_breset (s : State) : (settle s).bus.drive.breset = s.bus.drive.breset := by
  have h := settle_untouched s; simp only [untouched, Prod.mk.injEq] at h; simp only [h]

@[simp] theorem settle_bus_drive_busy (s : State) : (settle s).bus.drive.busy = s.bus.drive.busy := by
  have h := settle_untouched s; simp only [untouched, Prod.mk.injEq] at h; simp only [h]

@[simp] theorem settle_bus_drive_call (s : State) : (settle s).bus.drive.call = s.bus.drive.call := by
  have h := settle_untouched s; simp only [untouched, Prod.mk.injEq] at h; simp only [h]

@[simp] theorem settle_bus_drive_answer (s : State) : (settle s).bus.drive.answer = s.bus.drive.answer := by
  have h := settle_untouched s; simp only [untouched, Prod.mk.injEq] at h; simp only [h]

@[simp] theorem settle_bus_drive_interject (s : State) : (settle s).bus.drive.interject = s.bus.drive.interject := by
  have h := settle_untouched s; simp only [untouched, Prod.mk.injEq] at h; simp only [h]

@[simp] theorem settle_launch_accCount (s : State) : (settle s).launch.accCount = s.launch.accCount := by
  have h := settle_untouched s; simp only [untouched, Prod.mk.injEq] at h; simp only [h]

@[simp] theorem settle_serve_reserved (s : State) : (settle s).serve.reserved = s.serve.reserved := by
  have h := settle_untouched s; simp only [untouched, Prod.mk.injEq] at h; simp only [h]

@[simp] theorem settle_serve_swapMemo (s : State) : (settle s).serve.swapMemo = s.serve.swapMemo := by
  have h := settle_untouched s; simp only [untouched, Prod.mk.injEq] at h; simp only [h]

@[simp] theorem settle_serve_noteMemo (s : State) : (settle s).serve.noteMemo = s.serve.noteMemo := by
  have h := settle_untouched s; simp only [untouched, Prod.mk.injEq] at h; simp only [h]

@[simp] theorem settle_port_assembly (s : State) : (settle s).port.assembly = s.port.assembly := by
  have h := settle_untouched s; simp only [untouched, Prod.mk.injEq] at h; simp only [h]

@[simp] theorem settle_port_fifo (s : State) : (settle s).port.fifo = s.port.fifo := by
  have h := settle_untouched s; simp only [untouched, Prod.mk.injEq] at h; simp only [h]

@[simp] theorem settle_port_urgent (s : State) : (settle s).port.urgent = s.port.urgent := by
  have h := settle_untouched s; simp only [untouched, Prod.mk.injEq] at h; simp only [h]

@[simp] theorem settle_port_reportPos (s : State) : (settle s).port.reportPos = s.port.reportPos := by
  have h := settle_untouched s; simp only [untouched, Prod.mk.injEq] at h; simp only [h]

@[simp] theorem settle_port_inbox (s : State) : (settle s).port.inbox = s.port.inbox := by
  have h := settle_untouched s; simp only [untouched, Prod.mk.injEq] at h; simp only [h]

@[simp] theorem settle_port_inboxPos (s : State) : (settle s).port.inboxPos = s.port.inboxPos := by
  have h := settle_untouched s; simp only [untouched, Prod.mk.injEq] at h; simp only [h]

@[simp] theorem settle_port_mask (s : State) : (settle s).port.mask = s.port.mask := by
  have h := settle_untouched s; simp only [untouched, Prod.mk.injEq] at h; simp only [h]

@[simp] theorem settle_port_readData (s : State) : (settle s).port.readData = s.port.readData := by
  have h := settle_untouched s; simp only [untouched, Prod.mk.injEq] at h; simp only [h]

@[simp] theorem settle_pending (s : State) : (settle s).pending = s.pending := by
  have h := settle_untouched s; simp only [untouched, Prod.mk.injEq] at h; simp only [h]

@[simp] theorem genOf_settle (s : State) (t : Tag) : genOf (settle s) t = genOf s t := (settles s).gen t

theorem slotOf_settle {s : State} {t : Tag} (h : connected (slotOf s t) = false) : slotOf (settle s) t = slotOf s t :=
  (settles s).slot t h

/-! ## A tenure record that still runs keeps all but its mark run drained -/

/-- CONNECTED, in a tenure that has not ended. -/
def tenureRuns : Slot → Bool
  | .live _ (.connOpen _ r) => !r.ended
  | .live _ (.connResume _ r) => !r.ended
  | _ => false

/-- The slot with the mark run drained cleared. -/
def undrained : Slot → Slot
  | .live b (.connOpen o r) => .live b (.connOpen o { r with drained := false })
  | .live b (.connResume l r) => .live b (.connResume l { r with drained := false })
  | x => x

theorem tenureRuns_undrained (x : Slot) : tenureRuns (undrained x) = tenureRuns x := by
  unfold undrained; split <;> rfl

def KeepsRecords (s t : State) : Prop :=
  ∀ u, tenureRuns (slotOf s u) = true → undrained (slotOf t u) = undrained (slotOf s u)

theorem KeepsRecords.trans {s t u : State} (h : KeepsRecords s t) (k : KeepsRecords t u) : KeepsRecords s u := fun v hv =>
  (k v (by rw [← tenureRuns_undrained, h v hv, tenureRuns_undrained]; exact hv)).trans (h v hv)

theorem Settles.keepsRecords {s t : State} (h : Settles (fun _ => False) s t) : KeepsRecords s t :=
  fun u _ => congrArg undrained (h.record u id)

theorem KeepsRecords.itemDrained (i : MoverItem) (s : State) : KeepsRecords s (itemDrained i s) := by
  intro u hu
  by_cases hi : u = i.tag
  · subst hi
    unfold Machine.itemDrained
    split
    · cases hs : slotOf s i.tag with
      | live b p =>
        rw [hs] at hu
        cases p <;> simp_all [tenureRuns, undrained, modifyOpen, modifyResume, settleOpen, settleResume, liveOf, openOver,
          resumeOver]
      | _ => rw [hs] at hu; cases hu
    · rfl
  · exact congrArg undrained ((Settles.itemDrained (P := (· = i.tag)) (fun _ => rfl) s).record u hi)

theorem KeepsRecords.pump (s : State) : KeepsRecords s (pump s) := by
  refine (Settles.feedNote s).keepsRecords.trans ?_
  show KeepsRecords _ (List.foldl _ { Machine.feedNote s with bus.runs := _ } _)
  generalize itemsByAcc _ _ = is
  refine KeepsRecords.trans (t := { Machine.feedNote s with bus.runs := (drainRuns (Machine.feedNote s).bus.runs).1 })
    (fun _ _ => rfl) ?_
  generalize ({ Machine.feedNote s with bus.runs := (drainRuns (Machine.feedNote s).bus.runs).1 } : State) = t
  induction is generalizing t with
  | nil => exact fun _ _ => rfl
  | cons i is ih => exact (KeepsRecords.itemDrained i t).trans (ih _)

theorem KeepsRecords.pass (s : State) : KeepsRecords s (pass s) :=
  (KeepsRecords.pump s).trans (Settles.afterPump _).keepsRecords

theorem keepsRecords_settle (s : State) : KeepsRecords s (settle s) :=
  ((((KeepsRecords.pass s).trans (.pass _)).trans (.pass _))).trans (Settles.afterPasses _).keepsRecords

theorem connOpenIs_settle {s : State} {u : Tag} {b : Body} {o : Bool} {r : OpenRecord}
    (h : slotOf s u = .live b (.connOpen o r)) (hr : r.ended = false) : ConnOpenIs (settle s) u b o r := by
  have k := keepsRecords_settle s u (by rw [h]; simp [tenureRuns, hr])
  rw [h] at k
  unfold undrained at k
  split at k
  · next b' o' r' e =>
    simp only [Slot.live.injEq, Phase.connOpen.injEq, OpenRecord.mk.injEq] at k
    refine ⟨r'.drained, e.trans ?_⟩
    obtain ⟨rfl, rfl, k⟩ := k
    cases r; cases r'; simp_all
  · cases k
  · next h1 h2 => exact absurd k (h1 _ _ _)

theorem connResumeIs_settle {s : State} {u : Tag} {b : Body} {left : Time} {r : ResumeRecord}
    (h : slotOf s u = .live b (.connResume left r)) (hr : r.ended = false) : ConnResumeIs (settle s) u b left r := by
  have k := keepsRecords_settle s u (by rw [h]; simp [tenureRuns, hr])
  rw [h] at k
  unfold undrained at k
  split at k
  · cases k
  · next b' l' r' e =>
    simp only [Slot.live.injEq, Phase.connResume.injEq, ResumeRecord.mk.injEq] at k
    refine ⟨r'.drained, e.trans ?_⟩
    obtain ⟨rfl, rfl, k⟩ := k
    cases r; cases r'; simp_all
  · next h1 h2 => exact absurd k (h2 _ _ _)

/-! ## What it leaves under a condition -/

theorem settle_view {s : State} (h : s.bus.view ≠ .idle) : (settle s).bus.view = s.bus.view := by
  have k := (settles s).window h; simp only [windowing, Prod.mk.injEq] at k; exact k.1

theorem settle_windowTimer {s : State} (h : s.bus.view ≠ .idle) : (settle s).bus.windowTimer = s.bus.windowTimer := by
  have k := (settles s).window h; simp only [windowing, Prod.mk.injEq] at k; exact k.2.1

theorem settle_idleTimer {s : State} (h : s.bus.view ≠ .idle) : (settle s).bus.idleTimer = s.bus.idleTimer := by
  have k := (settles s).window h; simp only [windowing, Prod.mk.injEq] at k; exact k.2.2.1

theorem settle_contending {s : State} (h : s.bus.view ≠ .idle) : (settle s).bus.contending = s.bus.contending := by
  have k := (settles s).window h; simp only [windowing, Prod.mk.injEq] at k; exact k.2.2.2

theorem settle_drive {s : State} (hc : verdictDue s = false) (h : s.bus.view ≠ .idle) :
    (settle s).bus.drive = s.bus.drive := (settles s).drive hc h

theorem settle_tx {s : State} (h : verdictDue s = false) : (settle s).bus.tx = s.bus.tx := by
  have k := (settles s).sends h; simp only [sending, Prod.mk.injEq] at k; exact k.1

theorem settle_count {s : State} (h : verdictDue s = false) : (settle s).bus.count = s.bus.count := by
  have k := (settles s).sends h; simp only [sending, Prod.mk.injEq] at k; exact k.2.1

theorem settle_strobesGiven {s : State} (h : verdictDue s = false) :
    (settle s).bus.strobesGiven = s.bus.strobesGiven := by
  have k := (settles s).sends h; simp only [sending, Prod.mk.injEq] at k; exact k.2.2.1

theorem settle_run {s : State} (h : verdictDue s = false) : (settle s).bus.run = s.bus.run := by
  have k := (settles s).sends h; simp only [sending, Prod.mk.injEq] at k; exact k.2.2.2

theorem settle_state {s : State} (h : s.station.state ≠ .draining ∨ roleOf s ≠ .none) :
    (settle s).station.state = s.station.state :=
  (settles s).state fun k => h.elim (absurd k.1) (absurd k.2)

theorem settle_terms {s : State} (hv : verdictDue s = false) (h : s.station.state ≠ .draining ∨ roleOf s ≠ .none) :
    (settle s).terms = s.terms :=
  (settles s).terms hv fun k => h.elim (absurd k.1) (absurd k.2)

theorem settle_reports (s : State) : s.port.reports <+: (settle s).port.reports := (settles s).reports

theorem settle_noticeSet {s : State} {n : Notice} (h : noticeSet n s = true) : noticeSet n (settle s) = true := by
  have k := (settles s).notice
  unfold noticeSet at h ⊢
  simp only [bne_iff_ne, ne_eq] at h ⊢
  intro e
  apply h
  have h1 : (settle s).port.notice &&& n.bit ||| s.port.notice &&& n.bit = (settle s).port.notice &&& n.bit := by
    rw [← BitVec.and_or_distrib_right, k]
  rw [e] at h1
  rw [← h1]; simp

/-! ## The claims at the end of every settling (R4, R63, R88, R115) -/

theorem choice_congr {s t : State} (he : t.launch.entries = s.launch.entries) (hq : t.launch.queue = s.launch.queue) :
    choice t = choice s := by
  have hs := slotOf_congr (s := s) (s' := t) he
  have h1 : withdrawReady t = withdrawReady s := by funext u; simp only [withdrawReady, hs]
  have h2 : openReady t = openReady s := by
    funext u
    have : eligible t = eligible s := by
      funext b
      have a1 : heldBackBy t b = heldBackBy s b := by funext v; simp only [heldBackBy, hs]
      have a2 : fencedBy t b = fencedBy s b := by funext v; simp only [fencedBy, hs]
      simp only [eligible, a1, a2]
    simp only [openReady, hs, this]
  simp only [choice, hq, h1, h2]

theorem claimsExact_congr {s t : State} (hb : t.bus.claims = s.bus.claims) (he : t.launch.entries = s.launch.entries)
    (hq : t.launch.queue = s.launch.queue) (hp : t.serve.parkQueue = s.serve.parkQueue)
    (hs : t.station.state = s.station.state) (h : ClaimsExact s) : ClaimsExact t := by
  simp only [ClaimsExact, headReady, hb, choice_congr he hq, hp, hs] at h ⊢
  exact h

theorem claimsExact_settle (s : State) : ClaimsExact (settle s) := by
  unfold settle
  generalize hd : drainToOffline _ = d
  have h0 : ClaimsExact (updateClaims d) := by
    simp only [ClaimsExact, updateClaims]
    rw [choice_congr (s := d) rfl rfl]; rfl
  have h1 : ClaimsExact (contendInIdle (updateClaims d)) := by
    unfold contendInIdle openWindow
    split
    · dsimp only; split <;> exact claimsExact_congr rfl rfl rfl rfl rfl h0
    · exact h0
  unfold updateStall
  split <;> exact claimsExact_congr rfl rfl rfl rfl rfl h1

/-! ## The drain at the end of every settling (R69) -/

theorem mem_allTags (u : Tag) : u ∈ allTags := by
  simp only [allTags, List.mem_map, List.mem_range]
  exact ⟨u.toNat, u.isLt, by simp⟩

theorem drainCondition_iff (s : State) : drainCondition s = true ↔ DrainCondition s := by
  simp only [drainCondition, nothingLive, DrainCondition, Bool.and_eq_true, List.all_eq_true, Option.isNone_iff_eq_none,
    List.isEmpty_iff]
  refine and_congr ⟨fun h u b p e => ?_, fun h u _ => ?_⟩ Iff.rfl
  · have := h u (mem_allTags u)
    rw [liveOf_eq_some.mpr e] at this; cases this
  · exact liveOf_eq_none.mpr fun b p => h u b p

/-- What the drain is judged by. -/
def drainView (s : State) := (s.station.state, s.launch.entries, s.serve.parkQueue, s.bus.tenure)

theorem drainCondition_congr {s t : State} (h : drainView t = drainView s) : DrainCondition t ↔ DrainCondition s := by
  simp only [drainView, Prod.mk.injEq] at h
  simp only [DrainCondition, slotOf_congr h.2.1, h.2.2.1]

theorem drainEnded_congr {s t : State} (h : drainView t = drainView s) (k : DrainEnded s) : DrainEnded t := by
  have hc := drainCondition_congr h
  simp only [drainView, Prod.mk.injEq] at h
  simp only [DrainEnded, h.1, roleOf_congr h.2.2.2, hc]; exact k

/-- The state in which a settling looks at the drain. -/
def beforeDrain (s : State) : State := arbitrate (pass (pass (pass s)))

/-- What follows the drain leaves what it is judged by, the terms and the notices. -/
theorem settle_afterDrain (s : State) : drainView (settle s) = drainView (drainToOffline (beforeDrain s)) ∧
    (settle s).terms = (drainToOffline (beforeDrain s)).terms ∧ (settle s).port = (drainToOffline (beforeDrain s)).port := by
  unfold settle beforeDrain
  generalize drainToOffline _ = d
  have h : ∀ x : State, drainView (updateStall x) = drainView x ∧ (updateStall x).terms = x.terms ∧
      (updateStall x).port = x.port := fun x => by unfold updateStall; split <;> exact ⟨rfl, rfl, rfl⟩
  have k : drainView (contendInIdle (updateClaims d)) = drainView d ∧ (contendInIdle (updateClaims d)).terms = d.terms ∧
      (contendInIdle (updateClaims d)).port = d.port := by
    unfold contendInIdle openWindow
    split
    · dsimp only; split <;> exact ⟨rfl, rfl, rfl⟩
    · exact ⟨rfl, rfl, rfl⟩
  obtain ⟨h1, h2, h3⟩ := h (contendInIdle (updateClaims d))
  exact ⟨h1.trans k.1, h2.trans k.2.1, h3.trans k.2.2⟩

theorem drainEnded_drainToOffline (s : State) : DrainEnded (drainToOffline s) := by
  unfold drainToOffline
  split
  · intro h; cases h
  · next h => exact fun h1 h2 h3 => h ⟨h1, (drainCondition_iff s).mpr h2, h3⟩

/-- No settling leaves a drain that could have ended. -/
theorem drainEnded_settle (s : State) : DrainEnded (settle s) :=
  drainEnded_congr (settle_afterDrain s).1 (drainEnded_drainToOffline _)

end Sys2Proof.Machine
end

