-- ==== Sys2Proof/Laws/Acts.lean ====
section
/-! SUPPORT. What the operations of the station can change, said once: every operation between two events, `settle` among
them, is related to its argument by `Acts`, which also carries over the invariants. -/

namespace Sys2Proof.Machine

set_option Elab.async false

/-- The fields that the operations of a tenure and of the tables leave. -/
def kept (s : State) :=
  (s.station.strap, s.station.setup, s.station.lastResult,
    s.bus.bresetSeen, s.launch.accCount, s.serve.swapMemo,
    (s.port.assembly, s.port.fifo, s.port.urgent, s.port.reportPos, s.port.inboxPos, s.port.mask, s.port.readData),
    s.pending)

/-- The fields that only a window's end and a bus reset change. -/
def bids (s : State) := (s.bus.nextGrantee, s.bus.spent, s.bus.bresetDetect)

/-- What only the placing of a note changes. -/
def placed (s : State) := (s.port.inbox, s.serve.noteMemo)

/-- DRAINING, or ISOLATED, in which a drain may end as well (R70). -/
def closing (s : State) : Prop := s.station.state = .draining ∨ s.station.state = .isolated

/-- What `t` may differ from `s` in, when operations other than the writing of an entry lead from `s` to `t`. `P` holds of the
tags whose entries they may change, `K` says that they touch no bid, `N` that they place no note, `G` that they grant no
transaction and make the station OFFLINE by no drain, `I` that they may isolate the station and make it leave ISOLATED never. -/
structure Acts (P : Tag → Prop) (K N G I : Prop) (s t : State) : Prop where
  kept : kept t = kept s
  drives : ¬ I → resetDrive t = resetDrive s
  isolates : I → (s.station.state = .isolated → t.station.state = .isolated) ∧
    (resetDrive t = resetDrive s ∨ t.station.state = .isolated ∧ resetDrive t = (false, none))
  silent : IsolatedSilent s → IsolatedSilent t
  phase : G → closing s → closing t
  fresh : StallFresh s → StallFresh t
  bids : K → bids t = bids s
  placed : N → placed t = placed s
  gen : ∀ u, genOf t u = genOf s u
  settled : ∀ u, liveOf s u = none → slotOf t u = slotOf s u
  record : ∀ u, ¬ P u → slotOf t u = slotOf s u
  drain : ∀ u, draining t u → draining s u ∨ P u
  reports : s.port.reports <+: t.port.reports
  notice : t.port.notice ||| s.port.notice = t.port.notice
  inbox : s.port.inbox <+: t.port.inbox
  issued : ∀ c x, txnOf s c = some x → txnOf t c = some x
  grant : G ∨ s.mem.granted ≠ none → granting t = granting s
  exact : ReportsExact s → ReportsExact t
  queue : QueueExact s → QueueExact t
  order : ∀ base, QueueExact s → TakenWithin base s → QueueOrdered base s →
    TakenWithin base t ∧ QueueOrdered base t
  attempts : SetupValid s → AttemptsBounded s → AttemptsBounded t
  transit : TransitBounded s → TransitBounded t
  own : OwnTermsUnknown s → OwnTermsUnknown t
  bounded : InboxBounded s → InboxBounded t

variable {P : Tag → Prop} {K N G I : Prop}

theorem Acts.granted {s t : State} (h : Acts P K N G I s t) (hg : s.mem.granted ≠ none) : t.mem.granted ≠ none := by
  have h1 := h.grant (.inr hg)
  simp only [granting, Prod.mk.injEq] at h1; rw [h1.1]; exact hg

theorem Acts.setup {s t : State} (h : Acts P K N G I s t) : t.station.setup = s.station.setup := by
  have h1 := h.kept
  simp only [Machine.kept, Prod.mk.injEq] at h1; exact h1.2.1

theorem Acts.strap {s t : State} (h : Acts P K N G I s t) : t.station.strap = s.station.strap := by
  have h1 := h.kept
  simp only [Machine.kept, Prod.mk.injEq] at h1; exact h1.1

theorem Acts.refl (s : State) : Acts P K N G I s s where
  kept := rfl
  drives := fun _ => rfl
  isolates := fun _ => ⟨id, .inl rfl⟩
  silent := id
  phase := fun _ h => h
  fresh := id
  bids := fun _ => rfl
  placed := fun _ => rfl
  gen := fun _ => rfl
  settled := fun _ _ => rfl
  record := fun _ _ => rfl
  drain := fun _ h => .inl h
  reports := List.prefix_rfl
  notice := by simp
  inbox := List.prefix_rfl
  issued := fun _ _ h => h
  grant := fun _ => rfl
  exact := id
  queue := id
  order := fun _ _ hw ho => ⟨hw, ho⟩
  attempts := fun _ => id
  transit := id
  own := id
  bounded := id

theorem liveOf_none_congr {s t : State} {u : Tag} (h : slotOf t u = slotOf s u) (k : liveOf s u = none) :
    liveOf t u = none := by
  simp only [liveOf, h] at k ⊢; exact k

theorem Acts.trans {s t u : State} (h : Acts P K N G I s t) (k : Acts P K N G I t u) : Acts P K N G I s u where
  kept := k.kept.trans h.kept
  drives := fun hi => (k.drives hi).trans (h.drives hi)
  isolates := fun hi => by
    obtain ⟨h1, h2⟩ := h.isolates hi
    obtain ⟨k1, k2⟩ := k.isolates hi
    refine ⟨k1 ∘ h1, ?_⟩
    rcases k2 with k2 | k2
    · rw [k2]; exact h2.imp_right fun h => ⟨k1 h.1, h.2⟩
    · exact .inr k2
  silent := k.silent ∘ h.silent
  phase := fun hg => k.phase hg ∘ h.phase hg
  fresh := k.fresh ∘ h.fresh
  bids := fun hk => (k.bids hk).trans (h.bids hk)
  placed := fun hn => (k.placed hn).trans (h.placed hn)
  gen := fun v => (k.gen v).trans (h.gen v)
  settled := fun v hv => (k.settled v (liveOf_none_congr (h.settled v hv) hv)).trans (h.settled v hv)
  record := fun v hv => (k.record v hv).trans (h.record v hv)
  drain := fun v hv => (k.drain v hv).elim (h.drain v) .inr
  reports := h.reports.trans k.reports
  notice := by
    have h1 := h.notice; have h2 := k.notice
    calc u.port.notice ||| s.port.notice
        = (u.port.notice ||| t.port.notice) ||| s.port.notice := by rw [h2]
      _ = u.port.notice ||| (t.port.notice ||| s.port.notice) := by rw [BitVec.or_assoc]
      _ = u.port.notice := by rw [h1, h2]
  inbox := h.inbox.trans k.inbox
  issued := fun c x hx => k.issued c x (h.issued c x hx)
  grant := fun hg => (k.grant (hg.imp_right h.granted)).trans (h.grant hg)
  exact := k.exact ∘ h.exact
  queue := k.queue ∘ h.queue
  order := fun base hq hw ho => (h.order base hq hw ho).elim (k.order base (h.queue hq))
  attempts := fun hs ha => k.attempts (fun r hr => hs r (h.setup ▸ hr)) (h.attempts hs ha)
  transit := k.transit ∘ h.transit
  own := k.own ∘ h.own
  bounded := k.bounded ∘ h.bounded

/-- A weaker claim. -/
theorem Acts.mono {Q : Tag → Prop} {K' N' G' : Prop} {s t : State} (h : Acts P K N G I s t) (hp : ∀ u, P u → Q u)
    (hk : K' → K) (hn : N' → N)
    (hg : G' → G) : Acts Q K' N' G' I s t :=
  { h with
    bids := fun k => h.bids (hk k)
    placed := fun n => h.placed (hn n)
    record := fun u hu => h.record u fun p => hu (hp u p)
    phase := fun k => h.phase (hg k)
    grant := fun k => h.grant (k.imp_left hg)
    drain := fun u hd => (h.drain u hd).imp_right (hp u) }

theorem Acts.foldl {α : Type} (f : State → α → State) (l : List α) (h : ∀ a ∈ l, ∀ s, Acts P K N G I s (f s a))
    (s : State) : Acts P K N G I s (l.foldl f s) := by
  induction l generalizing s with
  | nil => exact .refl s
  | cons a l ih =>
    exact (h a (List.mem_cons_self ..) s).trans (ih (fun b hb => h b (List.mem_cons_of_mem _ hb)) _)

/-! ## Updates that leave the tables -/

/-- The reservation and the place that the service record holds. -/
def places (s : State) := (s.serve.reserved, s.serve.service.any holdsPlace)

/-- The fields that an operation of a job, of a line or of the Serve Engine leaves. -/
def resting (s : State) :=
  (kept s, (s.station.state, resetDrive s), bids s, placed s, s.launch.entries, s.launch.queue, s.port.reports,
    s.port.notice, s.mem, s.terms, places s)

theorem reportsExact_congr {s t : State} (he : t.launch.entries = s.launch.entries)
    (hr : t.port.reports = s.port.reports) (h : ReportsExact s) : ReportsExact t := by
  simpa only [ReportsExact, isReported, slotOf, genOf, entryOf, he, hr] using h

theorem queueExact_congr {s t : State} (he : t.launch.entries = s.launch.entries)
    (hq : t.launch.queue = s.launch.queue) (h : QueueExact s) : QueueExact t := by
  simpa only [QueueExact, slotOf, entryOf, he, hq] using h

theorem queueOrdered_congr {base : BitVec 32} {s t : State} (he : t.launch.entries = s.launch.entries)
    (hq : t.launch.queue = s.launch.queue) (hw : TakenWithin base s) (ho : QueueOrdered base s) :
    TakenWithin base t ∧ QueueOrdered base t := by
  have hs := slotOf_congr (s := s) (s' := t) he
  refine ⟨fun u b p h => hw u b p (by rw [← hs u]; exact h), ?_⟩
  have ha : accOf t = accOf s := by funext u; simp only [accOf, hs]
  simpa only [QueueOrdered, hq, ha] using ho

theorem Acts.of_resting {s t : State} (h : resting t = resting s) (drain : ∀ u, draining t u → draining s u ∨ P u)
    (transit : TransitBounded s → TransitBounded t)
    (fresh : StallFresh s → StallFresh t := by first | exact id | exact fun _ _ h => nomatch h) :
    Acts P K N G I s t := by
  simp only [resting, Prod.mk.injEq] at h
  obtain ⟨hk, ⟨hi, hd⟩, hb, hp, he, hq, hr, hn, hm, ht, hs⟩ := h
  have hst : t.station.strap = s.station.strap := by
    have h1 := hk
    simp only [Machine.kept, Prod.mk.injEq] at h1; exact h1.1
  have hin : t.port.inbox = s.port.inbox := congrArg Prod.fst hp
  exact {
    kept := hk
    drives := fun _ => hd
    isolates := fun _ => ⟨fun h => hi.trans h, .inl hd⟩
    silent := fun h k => hd.trans (h (hi.symm.trans k))
    phase := fun _ h => h.imp hi.trans hi.trans
    fresh := fresh
    bids := fun _ => hb
    placed := fun _ => hp
    gen := fun u => genOf_congr he u
    settled := fun u _ => slotOf_congr he u
    record := fun u _ => slotOf_congr he u
    drain := drain
    reports := hr ▸ List.prefix_rfl
    notice := by rw [hn]; simp
    inbox := hin ▸ List.prefix_rfl
    issued := fun c x h => by rw [txnOf_congr hm]; exact h
    grant := fun _ => by simp only [granting, hm]
    exact := reportsExact_congr he hr
    queue := queueExact_congr he hq
    order := fun _ _ => queueOrdered_congr he hq
    attempts := fun _ ha u => by rw [slotOf_congr he]; exact ha u
    transit := transit
    own := fun h => by simpa only [OwnTermsUnknown, termsOf, ht, hst] using h
    bounded := fun h => by
      simp only [places, Prod.mk.injEq] at hs
      simpa only [InboxBounded, inboxLoad, hs, hin] using h }

/-- An update that leaves the transit buffer as well. -/
theorem Acts.of_still {s t : State} (h : resting t = resting s) (hr : t.bus.runs = s.bus.runs)
    (ho : t.bus.outbound.length ≤ s.bus.outbound.length)
    (fresh : StallFresh s → StallFresh t := by first | exact id | exact fun _ _ h => nomatch h) :
    Acts P K N G I s t :=
  .of_resting h (fun u hu => .inl (by simpa only [draining, hr] using hu))
    (fun ht => by simp only [TransitBounded, hr] at ht ⊢; omega) fresh

/-! ## Runs of the transit buffer -/

/-- Runs that hold no more bytes than others, and report to no tag that those do not report to. -/
def runsWithin (rs rs' : List InRun) : Prop :=
  inboundHeld rs ≤ inboundHeld rs' ∧ ∀ r ∈ rs, ∀ u, reportsTo r = some u → ∃ r' ∈ rs', reportsTo r' = some u

theorem inboundHeld_cons (r : InRun) (rs : List InRun) : inboundHeld (r :: rs) = r.bytes.length + inboundHeld rs := rfl

theorem runsWithin.refl (rs : List InRun) : runsWithin rs rs := ⟨Nat.le_refl _, fun r hr _ hu => ⟨r, hr, hu⟩⟩

theorem runsWithin.map (f : InRun → InRun) (hb : ∀ r, (f r).bytes.length ≤ r.bytes.length)
    (hr : ∀ r u, reportsTo (f r) = some u → reportsTo r = some u) (rs : List InRun) : runsWithin (rs.map f) rs := by
  constructor
  · induction rs with
    | nil => exact Nat.le_refl _
    | cons r rs ih =>
      rw [List.map_cons, inboundHeld_cons, inboundHeld_cons]
      have := hb r; omega
  · intro r h u hu
    obtain ⟨r', h', rfl⟩ := List.mem_map.mp h
    exact ⟨r', h', hr r' u hu⟩

theorem runsWithin.head {r r' : InRun} (rs : List InRun) (hb : r.bytes.length ≤ r'.bytes.length)
    (hr : ∀ u, reportsTo r = some u → reportsTo r' = some u) : runsWithin (r :: rs) (r' :: rs) := by
  constructor
  · rw [inboundHeld_cons, inboundHeld_cons]; omega
  · intro x hx u hu
    rcases List.mem_cons.mp hx with rfl | hx
    · exact ⟨r', List.mem_cons_self .., hr u hu⟩
    · exact ⟨x, List.mem_cons_of_mem _ hx, hu⟩

theorem runsWithin.nil (rs : List InRun) : runsWithin [] rs := ⟨Nat.zero_le _, fun _ h => by cases h⟩

/-- An update of the runs and of what leaves the tables. -/
theorem Acts.of_runs {s t : State} (h : resting t = resting s) (hr : runsWithin t.bus.runs s.bus.runs)
    (ho : t.bus.outbound.length ≤ s.bus.outbound.length)
    (fresh : StallFresh s → StallFresh t := by first | exact id | exact fun _ _ h => nomatch h) :
    Acts P K N G I s t :=
  .of_resting h
    (fun u ⟨r, hm, hu⟩ => .inl (by
      obtain ⟨r', h', hu'⟩ := hr.2 r hm u hu
      exact ⟨r', h', hu'⟩))
    (fun ht => by
      have := hr.1
      simp only [TransitBounded] at ht ⊢; omega) fresh

theorem Acts.endRuns (s : State) : Acts P K N G I s (endRuns s) :=
  .of_runs rfl (runsWithin.map (fun r => { r with ended := true }) (fun _ => Nat.le_refl _) (fun _ _ h => h) _)
    (Nat.le_refl _)

theorem Acts.closeItems (x : Bool) (t : Tag) (s : State) : Acts P K N G I s (closeItems x t s) := by
  refine .of_runs rfl (runsWithin.map _ (fun r => ?_) (fun r u h => reportsTo_closeItem h) _) (Nat.le_refl _)
  unfold closeItem
  split
  · split <;> exact Nat.le_refl _
  all_goals exact Nat.le_refl _

theorem Acts.openRun {s : State} (sink : Sink) (n : Nat) (h : ∀ i, sink = .mover i → P i.tag) :
    Acts P K N G I s (openRun sink n s) := by
  refine .of_resting rfl (fun u ⟨r, hm, hu⟩ => ?_) (fun ht => ?_)
  · rcases List.mem_append.mp hm with hm | hm
    · exact .inl ⟨r, hm, hu⟩
    · rw [List.mem_singleton.mp hm] at hu
      cases sink with
      | mover i =>
        simp only [reportsTo] at hu
        split at hu
        · cases hu; exact .inr (h i rfl)
        · cases hu
      | store => simp [reportsTo] at hu
      | note => simp [reportsTo] at hu
      | dropped => simp [reportsTo] at hu
  · simpa [TransitBounded, Machine.openRun, inboundHeld] using ht

/-! ## The exchange table -/

theorem Acts.setNotice (n : Notice) (s : State) : Acts P K N G I s (setNotice n s) :=
  { Acts.refl (P := P) (K := K) (N := N) (G := G) (I := I) s with notice := or_notice _ _ }

/-- The queue after `t` left it or joined it, over entries in which only that of `t` differs. -/
theorem queueExact_of {s t : State} {u : Tag} (hs : ∀ v, v ≠ u → slotOf t v = slotOf s v)
    (hq : t.launch.queue = if inQueueState (slotOf t u)
      then insertByAcc (accOf t) u (s.launch.queue.filter (· != u)) else s.launch.queue.filter (· != u))
    (h : QueueExact s) : QueueExact t := by
  have hn : (s.launch.queue.filter (· != u)).Nodup := h.1.filter _
  have hu : u ∉ s.launch.queue.filter (· != u) := by simp
  constructor
  · rw [hq]; split
    · exact nodup_insertByAcc _ hn hu
    · exact hn
  · intro v
    rw [hq]
    by_cases hv : v = u
    · subst hv
      split
      · next he => simp [mem_insertByAcc, he]
      · next he => simp [he]
    · rw [hs v hv, ← h.2 v]
      split <;> simp [mem_insertByAcc, hv]

/-- Its order, if the entry that joins was taken within the range. -/
theorem queueOrdered_of {base : BitVec 32} {s t : State} {u : Tag} (hs : ∀ v, v ≠ u → slotOf t v = slotOf s v)
    (hq : t.launch.queue = if inQueueState (slotOf t u)
      then insertByAcc (accOf t) u (s.launch.queue.filter (· != u)) else s.launch.queue.filter (· != u))
    (hx : QueueExact s) (hw : TakenWithin base s) (hu : ∀ b p, slotOf t u = .live b p → (b.acc - base).toNat < 2 ^ 31)
    (ho : QueueOrdered base s) : TakenWithin base t ∧ QueueOrdered base t := by
  have within : TakenWithin base t := fun v b p h => by
    by_cases hv : v = u
    · exact hu b p (hv ▸ h)
    · exact hw v b p (by rw [← hs v hv]; exact h)
  have mem : ∀ v ∈ s.launch.queue.filter (· != u), v ∈ s.launch.queue ∧ v ≠ u := fun v hv =>
    ⟨(List.mem_filter.mp hv).1, by simpa using (List.mem_filter.mp hv).2⟩
  have queued : ∀ v, inQueueState (slotOf t v) = true → (accOf t v - base).toNat < 2 ^ 31 := fun v hv => by
    cases h : slotOf t v with
    | live b p => simpa only [accOf, h] using within v b p h
    | _ => rw [h] at hv; cases hv
  have rest : (s.launch.queue.filter (· != u)).Pairwise fun v w => (accOf t v - base).toNat ≤ (accOf t w - base).toNat := by
    have same : ∀ v ∈ s.launch.queue.filter (· != u), accOf t v = accOf s v := fun v hv => by
      simp only [accOf, hs v (mem v hv).2]
    exact (ho.filter _).imp_of_mem fun {v w} hv hw h => by rw [same v hv, same w hw]; exact h
  refine ⟨within, ?_⟩
  unfold QueueOrdered
  rw [hq]
  split
  · next he =>
    refine pairwise_insertByAcc (queued u he) (fun v hv => queued v ?_) rest
    rw [hs v (mem v hv).2]; exact (hx.2 v).mp (mem v hv).1
  · exact rest

/-- Within `P`, only the entry of `u` in service changes, and stays in service; the queue may follow it. -/
theorem Acts.of_live {s : State} {u : Tag} (hP : P u) {b b' : Body} {p p' : Phase} (h : slotOf s u = .live b p)
    (q : List Tag) (hq : q = s.launch.queue ∧ inQueueState (.live b' p') = inQueueState (.live b p) ∨
      q = if inQueueState (.live b' p') = true
        then insertByAcc (accOf (setLive u b' p' s)) u (s.launch.queue.filter (· != u))
        else s.launch.queue.filter (· != u))
    (ha : SetupValid s → b.attempts ≤ 7 → b'.attempts ≤ 7) (hacc : b'.acc = b.acc) :
    Acts P K N G I s { setLive u b' p' s with launch.queue := q } := by
  have slot : ∀ v, slotOf (setLive u b' p' s) v = if v = u then .live b' p' else slotOf s v :=
    fun v => slotOf_setLive u v b' p' s
  exact {
    kept := rfl
    drives := fun _ => rfl
    isolates := fun _ => ⟨id, .inl rfl⟩
    silent := id
    phase := fun _ h => h
    fresh := id
    bids := fun _ => rfl
    placed := fun _ => rfl
    gen := fun v => genOf_setLive u v b' p' s
    settled := fun v hv => (slot v).trans (by
      split
      · next e => rw [e, liveOf_eq_some.mpr h] at hv; cases hv
      · rfl)
    record := fun v hv => (slot v).trans (by
      split
      · next e => exact absurd (e ▸ hP) hv
      · rfl)
    drain := fun v hv => .inl hv
    reports := List.prefix_rfl
    notice := BitVec.or_self
    inbox := List.prefix_rfl
    issued := fun c x hx => by cases c <;> exact hx
    grant := fun _ => rfl
    exact := fun ⟨h1, h2, h3⟩ => by
      have hrep : ∀ v, isReported (setLive u b' p' s) v = isReported s v := fun v => by
        unfold isReported
        rw [slot]
        by_cases hv : v = u
        · rw [if_pos hv, hv, h]
        · rw [if_neg hv]
      refine ⟨h1, fun r hr => ⟨(hrep _).trans (h2 r hr).1, (genOf_setLive ..).trans (h2 r hr).2⟩, fun v hv => ?_⟩
      exact h3 v ((hrep v).symm.trans hv)
    queue := fun hx => by
      rcases hq with ⟨hq, hi⟩ | hq
      · constructor
        · show q.Nodup
          rw [hq]; exact hx.1
        · intro v
          show v ∈ q ↔ inQueueState (slotOf (setLive u b' p' s) v) = true
          rw [hq, hx.2 v, slot]
          by_cases hv : v = u
          · rw [if_pos hv, hv, h, hi]
          · rw [if_neg hv]
      · refine queueExact_of (u := u) (fun v hv => (slot v).trans (by rw [if_neg hv])) ?_ hx
        show q = if inQueueState (slotOf (setLive u b' p' s) u) = true then _ else _
        rw [slot, if_pos rfl]; exact hq
    order := fun base hx hw ho => by
      have hu : ∀ b'' p'', slotOf (setLive u b' p' s) u = .live b'' p'' → (b''.acc - base).toNat < 2 ^ 31 := by
        intro b'' p'' e
        rw [slot, if_pos rfl] at e
        cases e
        rw [hacc]; exact hw u b p h
      rcases hq with ⟨hq, hi⟩ | hq
      · have acc : ∀ v, accOf (setLive u b' p' s) v = accOf s v := fun v => by
          simp only [accOf, slot]
          by_cases hv : v = u
          · rw [if_pos hv, hv, h]; exact hacc
          · rw [if_neg hv]
        refine ⟨fun v b'' p'' e => ?_, ?_⟩
        · by_cases hv : v = u
          · subst hv; exact hu _ _ e
          · exact hw v _ _ (((slot v).trans (if_neg hv)).symm.trans e)
        · show q.Pairwise fun v w => (accOf (setLive u b' p' s) v - base).toNat ≤ (accOf (setLive u b' p' s) w - base).toNat
          simp only [acc, hq]; exact ho
      · refine queueOrdered_of (u := u) (fun v hv => (slot v).trans (by rw [if_neg hv])) ?_ hx hw hu ho
        show q = if inQueueState (slotOf (setLive u b' p' s) u) = true then _ else _
        rw [slot, if_pos rfl]; exact hq
    attempts := fun hs hx v => by
      show attemptsOf (slotOf (setLive u b' p' s) v) ≤ 7
      rw [slot]
      split
      · have := hx u
        rw [h] at this
        exact ha hs this
      · exact hx v
    transit := id
    own := id
    bounded := id }

/-- An entry in service gets other fields or another phase, and neither joins nor leaves the launch queue. -/
theorem Acts.setLive {s : State} {t : Tag} (hP : P t) {b b' : Body} {p p' : Phase} (h : slotOf s t = .live b p)
    (hq : inQueueState (.live b' p') = inQueueState (.live b p)) (ha : b'.attempts = b.attempts)
    (hacc : b'.acc = b.acc := by rfl) : Acts P K N G I s (setLive t b' p' s) :=
  .of_live hP h s.launch.queue (.inl ⟨rfl, hq⟩) (fun _ h => ha ▸ h) hacc

/-- An entry in service joins the launch queue at its place. -/
theorem Acts.enqueue {s : State} {t : Tag} (hP : P t) {b b' : Body} {p p' : Phase} (h : slotOf s t = .live b p)
    (hq : inQueueState (.live b' p') = true) (ha : SetupValid s → b.attempts ≤ 7 → b'.attempts ≤ 7)
    (hacc : b'.acc = b.acc := by rfl) : Acts P K N G I s (enqueue t (Machine.setLive t b' p' s)) :=
  .of_live hP h _ (.inr (by rw [if_pos hq]; rfl)) ha hacc

/-- An entry in service leaves the launch queue. -/
theorem Acts.dequeue {s : State} {t : Tag} (hP : P t) {b b' : Body} {p p' : Phase} (h : slotOf s t = .live b p)
    (hq : inQueueState (.live b' p') = false) (ha : b'.attempts = b.attempts)
    (hacc : b'.acc = b.acc := by rfl) : Acts P K N G I s (dequeue t (Machine.setLive t b' p' s)) :=
  .of_live hP h _ (.inr (by rw [hq]; rfl)) (fun _ h => ha ▸ h) hacc

/-- Closing the items of a tag and joining the queue touch different parts. -/
theorem enqueue_closeItems (x : Bool) (t u : Tag) (s : State) :
    Machine.enqueue t (Machine.closeItems x u s) = Machine.closeItems x u (Machine.enqueue t s) := rfl

theorem Acts.complete {t : Tag} (hP : P t) (st : Status) (s : State) : Acts P K N G I s (complete t st s) := by
  cases hl : liveOf s t with
  | none => rw [complete_of_not_live hl]; exact .refl s
  | some bp =>
    obtain ⟨b, p⟩ := bp
    have h := liveOf_eq_some.mp hl
    have slot := slotOf_complete h st
    have gen := genOf_complete t st s
    have rep := reports_complete h st
    rw [complete_eq h] at slot gen rep ⊢
    refine Acts.trans (t := Machine.addReport (reportOf t (genOf s t) b (finalStatus b.work st))
      (Machine.reportEntry t (genOf s t) b (finalStatus b.work st) (Machine.dequeue t s))) ?_
      ((Acts.closeItems true t _).trans (.setNotice _ _))
    exact {
      kept := rfl
      drives := fun _ => rfl
      isolates := fun _ => ⟨id, .inl rfl⟩
      silent := id
      phase := fun _ h => h
      fresh := id
      bids := fun _ => rfl
      placed := fun _ => rfl
      gen := gen
      settled := fun u hu => (slot u).trans (by
        split
        · next e => rw [e, hl] at hu; cases hu
        · rfl)
      record := fun u hu => (slot u).trans (by
        split
        · next e => exact absurd (e ▸ hP) hu
        · rfl)
      drain := fun u hu => .inl hu
      reports := List.prefix_append _ _
      notice := BitVec.or_self
      inbox := List.prefix_rfl
      issued := fun c x hx => by cases c <;> exact hx
      grant := fun _ => rfl
      exact := fun ⟨h1, h2, h3⟩ => by
        have isRep : ∀ u, isReported (addReport (reportOf t (genOf s t) b (finalStatus b.work st))
            (Machine.reportEntry t (genOf s t) b (finalStatus b.work st) (Machine.dequeue t s))) u =
            if u = t then true else isReported s u := fun u => by
          unfold isReported
          rw [show slotOf (addReport (reportOf t (genOf s t) b (finalStatus b.work st))
            (Machine.reportEntry t (genOf s t) b (finalStatus b.work st) (Machine.dequeue t s))) u = _ from slot u]
          by_cases hu : u = t <;> simp [hu]
        have hnot : isReported s t = false := by simp [isReported, h]
        refine ⟨?_, ?_, ?_⟩
        · show (List.map Report.tag (s.port.reports ++ [_])).Nodup
          rw [List.map_append, List.nodup_append]
          refine ⟨h1, by simp, ?_⟩
          intro a ha b' hb' e
          rw [List.map_singleton, List.mem_singleton] at hb'
          obtain ⟨r, hr, e'⟩ := List.mem_map.mp ha
          have := (h2 r hr).1
          rw [e', e, hb'] at this
          exact absurd this (by simpa [reportOf] using hnot)
        · intro r hr
          rcases List.mem_append.mp (show r ∈ s.port.reports ++ [_] from hr) with hr | hr
          · obtain ⟨hr1, hr2⟩ := h2 r hr
            refine ⟨?_, (gen _).trans hr2⟩
            rw [isRep]; split
            · rfl
            · exact hr1
          · rw [List.mem_singleton.mp hr]
            refine ⟨?_, gen _⟩
            rw [isRep]; simp [reportOf]
        · intro u hu
          show u ∈ List.map Report.tag (s.port.reports ++ [_])
          rw [isRep] at hu
          rw [List.map_append, List.mem_append]
          split at hu
          · next e => right; simp [e, reportOf]
          · exact .inl (h3 u hu)
      queue := fun hx => by
        refine queueExact_of (u := t) (fun v hv => (slot v).trans (by rw [if_neg hv])) ?_ hx
        rw [show slotOf (addReport (reportOf t (genOf s t) b (finalStatus b.work st))
            (Machine.reportEntry t (genOf s t) b (finalStatus b.work st) (Machine.dequeue t s))) t = _ from slot t]
        simp only [if_true, inQueueState]
        rfl
      order := fun base hx hw ho => by
        refine queueOrdered_of (u := t) (fun v hv => (slot v).trans (by rw [if_neg hv])) ?_ hx hw (fun b' p' e => ?_) ho
        · rw [show slotOf (addReport (reportOf t (genOf s t) b (finalStatus b.work st))
              (Machine.reportEntry t (genOf s t) b (finalStatus b.work st) (Machine.dequeue t s))) t = _ from slot t]
          simp only [if_true, inQueueState]
          rfl
        · have e' := slot t
          rw [if_pos rfl] at e'
          exact absurd (e'.symm.trans e) nofun
      attempts := fun _ ha u => by
        rw [show slotOf (addReport (reportOf t (genOf s t) b (finalStatus b.work st))
            (Machine.reportEntry t (genOf s t) b (finalStatus b.work st) (Machine.dequeue t s))) u = _ from slot u]
        split
        · have := ha t
          rw [h] at this; exact this
        · exact ha u
      transit := id
      own := id
      bounded := id }

theorem budget_le {s : State} (h : SetupValid s) : (setupOf s).retryBudget ≤ 7 := by
  unfold setupOf
  cases hs : s.station.setup with
  | none => simp [Setup.defaults]
  | some r => exact (h r hs).2.1

theorem Acts.modifyBody {t : Tag} (hP : P t) (f : Body → Body) (hf : ∀ b, (f b).attempts = b.attempts)
    (hacc : ∀ b, (f b).acc = b.acc) (s : State) :
    Acts P K N G I s (modifyBody t f s) := by
  unfold Machine.modifyBody
  split
  · next b p hl =>
    exact .setLive hP (liveOf_eq_some.mp hl) (by cases p <;> rfl) (hf b) (hacc b)
  · exact .refl s

theorem Acts.completeCancelledAtZero {t : Tag} (hP : P t) (s : State) : Acts P K N G I s (completeCancelledAtZero t s) :=
  (Acts.modifyBody hP (fun b => { b with bytesDone := 0 }) (fun _ => rfl) (fun _ => rfl) s).trans (.complete hP _ _)

theorem Acts.retryOpen {s : State} {t : Tag} (hP : P t) {b : Body} {p : Phase} (h : slotOf s t = .live b p)
    (f : RetryFault) : Acts P K N G I s (retryOpen t b f s) := by
  unfold Machine.retryOpen; split
  · next hb =>
    refine (Acts.enqueue hP h (b' := { b with attempts := b.attempts + 1 })
      (p' := .held (holdOffTime (b.attempts + 1))) rfl (fun hs _ => Nat.le_trans hb (budget_le hs))).trans ?_
    exact .closeItems _ _ _
  · exact .complete hP _ s

theorem Acts.failWithdraw {s : State} {t : Tag} (hP : P t) {b : Body} {p : Phase} (h : slotOf s t = .live b p) :
    Acts P K N G I s (failWithdraw t b s) := by
  unfold Machine.failWithdraw; split
  · next hb =>
    exact .enqueue hP h (b' := { b with attempts := b.attempts + 1 })
      (p' := .withdrawing (some (holdOffTime (b.attempts + 1)))) rfl (fun hs _ => Nat.le_trans hb (budget_le hs))
  · exact .complete hP _ s

theorem Acts.withdraw {s : State} {t : Tag} (hP : P t) {b b' : Body} {p : Phase} (h : slotOf s t = .live b p)
    (ha : b'.attempts = b.attempts) (hacc : b'.acc = b.acc := by rfl) : Acts P K N G I s (withdraw t b' s) :=
  (Acts.enqueue hP h (b' := b') (p' := .withdrawing none) rfl (fun _ hb => ha ▸ hb) hacc).trans (.closeItems _ _ _)

end Sys2Proof.Machine
end

