-- ==== Sys2Proof/Laws/Engines.lean ====
section
/-! SUPPORT. What the operations of the Launch Engine, the Serve Engine and the Memory Port can change: `Acts` for each. -/

namespace Sys2Proof.Machine

set_option Elab.async false

variable {P : Tag → Prop} {K N G I : Prop}

/-! ## The Launch Engine -/

/-- An update of the Terms Table that leaves the own entry UNKNOWN if it was. -/
theorem Acts.of_terms {s : State} (x : Vector (Option Nat) 16)
    (h : OwnTermsUnknown s → OwnTermsUnknown { s with terms := x }) : Acts P K N G I s { s with terms := x } :=
  { Acts.refl (P := P) (K := K) (N := N) (G := G) (I := I) s with own := h, issued := fun c _ hx => by cases c <;> exact hx }

theorem termsOf_setTerms (a b : Addr) (v : Option Nat) (s : State) :
    termsOf (setTerms a v s) b = if b = a then v else termsOf s b := by
  have h : (b = a) ↔ (a.toNat = b.toNat) :=
    ⟨fun h => by rw [h], fun h => (BitVec.eq_of_toNat_eq h).symm⟩
  simp only [termsOf, setTerms, Vector.getElem_set, h]

theorem Acts.forget (a : Addr) (s : State) : Acts P K N G I s (setTerms a none s) := by
  refine .of_terms _ fun h => ?_
  show termsOf (setTerms a none s) s.station.strap = none
  rw [termsOf_setTerms]; split
  · rfl
  · exact h

theorem Acts.agreeTerms (a : Addr) (m : BitVec 5) (s : State) : Acts P K N G I s (agreeTerms a m s) := by
  unfold Machine.agreeTerms
  split
  · exact .refl s
  · next hne =>
    refine .of_terms _ fun h => ?_
    show termsOf (setTerms a _ s) s.station.strap = none
    rw [termsOf_setTerms, if_neg fun e => hne e.symm]; exact h

theorem Acts.forgetTerms (s : State) : Acts P K N G I s (forgetTerms s) :=
  .of_terms _ fun _ => by simp [OwnTermsUnknown, termsOf]

theorem Acts.modifyOpen {t : Tag} (hP : P t) (f : OpenRecord → OpenRecord) (s : State) :
    Acts P K N G I s (modifyOpen t f s) := by
  unfold Machine.modifyOpen
  split
  · next hl => exact .setLive hP (liveOf_eq_some.mp hl) rfl rfl
  · exact .refl s

theorem Acts.modifyResume {t : Tag} (hP : P t) (f : ResumeRecord → ResumeRecord) (s : State) :
    Acts P K N G I s (modifyResume t f s) := by
  unfold Machine.modifyResume
  split
  · next hl => exact .setLive hP (liveOf_eq_some.mp hl) rfl rfl
  · exact .refl s

theorem attempts_noteDone (v : Verdict) (b : Body) : (noteDone v b).attempts = b.attempts := by
  unfold noteDone; split <;> rfl

theorem attempts_setChunkFault (b : Body) : (setChunkFault b).attempts = b.attempts := by
  unfold setChunkFault; split <;> rfl

theorem acc_setChunkFault (b : Body) : (setChunkFault b).acc = b.acc := by
  unfold setChunkFault; split <;> rfl

theorem acc_noteDone (v : Verdict) (b : Body) : (noteDone v b).acc = b.acc := by
  unfold noteDone; split <;> rfl

theorem Acts.readOpenVerdict {t : Tag} (hP : P t) (v : Verdict) (s : State) :
    Acts P K N G I s (readOpenVerdict t v s) := by
  unfold Machine.readOpenVerdict
  split
  · next hl =>
    split
    · have h : ∀ o r, Acts P K N G I s (Machine.setLive t (noteDone v _) (.connOpen o r) s) :=
        fun o r => .setLive hP (liveOf_eq_some.mp hl) rfl (attempts_noteDone v _) (acc_noteDone v _)
      dsimp only
      split
      · exact (h _ _).trans (.forget _ _)
      · exact h _ _
    · exact .refl s
  · exact .refl s

theorem Acts.readWithdrawVerdict {t : Tag} (hP : P t) (v : Verdict) (s : State) :
    Acts P K N G I s (readWithdrawVerdict t v s) := by
  unfold Machine.readWithdrawVerdict
  split
  · next hl =>
    split
    · exact .setLive hP (liveOf_eq_some.mp hl) rfl rfl
    · exact .setLive hP (liveOf_eq_some.mp hl) rfl rfl
    · exact .refl s
  · exact .refl s

theorem Acts.launchFault {t : Tag} (hP : P t) (f : RetryFault) (s : State) : Acts P K N G I s (launchFault t f s) := by
  unfold Machine.launchFault
  split
  · next hl => exact .setLive hP (liveOf_eq_some.mp hl) rfl rfl
  · next hl => exact .setLive hP (liveOf_eq_some.mp hl) rfl rfl
  · exact .refl s

theorem Acts.carryOpen {s : State} {t : Tag} (hP : P t) {b : Body} {p : Phase} (h : slotOf s t = .live b p)
    (hp : inQueueState (.live b p) = false) (r : OpenRecord) : Acts P K N G I s (carryOpen t b r s) := by
  unfold Machine.carryOpen
  split
  · exact .complete hP _ s
  · exact .complete hP _ s
  · split
    · exact .withdraw hP h rfl
    · exact .setLive hP h hp.symm rfl
  · split
    · exact .complete hP _ s
    · exact .enqueue hP h rfl fun _ h => h
  · split
    · exact .complete hP _ s
    · exact .retryOpen hP h _
  · split
    · exact .complete hP _ s
    · exact .retryOpen hP h _

theorem Acts.settleOpen {t : Tag} (hP : P t) (s : State) : Acts P K N G I s (settleOpen t s) := by
  unfold Machine.settleOpen
  split
  · next hl =>
    split
    · exact .carryOpen hP (liveOf_eq_some.mp hl) rfl _
    · exact .refl s
  · exact .refl s

theorem Acts.launchEnd {t : Tag} (hP : P t) (s : State) : Acts P K N G I s (launchEnd t s) := by
  unfold Machine.launchEnd
  split
  · next hl =>
    refine Acts.trans ?_ (.settleOpen hP _)
    exact .setLive hP (liveOf_eq_some.mp hl) rfl rfl
  · exact .complete hP _ s
  · next hl => exact .failWithdraw hP (liveOf_eq_some.mp hl)
  · exact .completeCancelledAtZero hP s
  · exact .refl s

theorem Acts.launchCallTimeout {t : Tag} (hP : P t) (s : State) : Acts P K N G I s (launchCallTimeout t s) := by
  unfold Machine.launchCallTimeout
  split
  · next hl =>
    split
    · exact .completeCancelledAtZero hP s
    · exact .retryOpen hP (liveOf_eq_some.mp hl) _
  · next hl => exact .failWithdraw hP (liveOf_eq_some.mp hl)
  · exact .refl s

theorem Acts.launchRunEnd {t : Tag} (hP : P t) (n : Nat) (short : Bool) (s : State) :
    Acts P K N G I s (launchRunEnd t n short s) := by
  unfold Machine.launchRunEnd
  split
  · next hl => exact .setLive hP (liveOf_eq_some.mp hl) rfl rfl
  · exact .refl s

theorem Acts.applyResume {h : ResumeHead} (hP : P h.tag) (a : ResumeAnswer) (s : State) :
    Acts P K N G I s (applyResume h a s) := by
  unfold Machine.applyResume
  split
  · exact .complete hP _ s
  · next hl => exact .setLive hP (liveOf_eq_some.mp hl) rfl rfl
  · next hl =>
    refine Acts.trans ?_ (.openRun _ _ fun i hi => ?_)
    · exact .setLive hP (liveOf_eq_some.mp hl) rfl rfl
    · cases hi; exact hP
  · exact .refl s

theorem Acts.applyRunEnd {t : Tag} (hP : P t) (s : State) : Acts P K N G I s (applyRunEnd t s) := by
  unfold Machine.applyRunEnd
  split
  · next hl => exact .setLive hP (liveOf_eq_some.mp hl) rfl rfl
  · exact .refl s

theorem Acts.carryResume {s : State} {t : Tag} (hP : P t) {b : Body} {p : Phase} (h : slotOf s t = .live b p)
    (hp : inQueueState (.live b p) = false) (left : Time) (r : ResumeRecord) :
    Acts P K N G I s (carryResume t b left r s) := by
  have park : ∀ n, Acts P K N G I s (Machine.park t b n s) := fun n =>
    (Acts.setLive hP h (p' := .parked n) hp.symm rfl).trans (.closeItems _ _ _)
  unfold Machine.carryResume
  split
  · exact .complete hP _ s
  · exact .complete hP _ s
  · exact .complete hP _ s
  · split
    · exact .complete hP _ s
    · split
      · exact .withdraw hP h rfl
      · exact park _
  · split
    · exact .withdraw hP h rfl
    · exact park _
  · split
    · exact .withdraw hP h rfl
    · exact park _

theorem Acts.settleResume {t : Tag} (hP : P t) (s : State) : Acts P K N G I s (settleResume t s) := by
  unfold Machine.settleResume
  split
  · next hl =>
    split
    · exact .carryResume hP (liveOf_eq_some.mp hl) rfl _ _
    · exact .refl s
  · exact .refl s

theorem Acts.resumeTenureEnd {t : Tag} (hP : P t) (s : State) : Acts P K N G I s (resumeTenureEnd t s) :=
  (Acts.modifyResume hP _ s).trans (.settleResume hP _)

theorem Acts.launchParityFail {t : Tag} (hP : P t) (s : State) : Acts P K N G I s (launchParityFail t s) :=
  (Acts.modifyOpen hP _ s).trans (.modifyResume hP _ _)

theorem Acts.itemDrained {i : MoverItem} (hP : i.recordOpen = true → P i.tag) (s : State) :
    Acts P K N G I s (itemDrained i s) := by
  unfold Machine.itemDrained
  split
  · next h =>
    have hp : P i.tag := hP h
    exact (((Acts.modifyOpen hp _ s).trans (.modifyResume hp _ _)).trans (.settleOpen hp _)).trans (.settleResume hp _)
  · exact .refl s

theorem Acts.itemFault {i : MoverItem} (hP : P i.tag) (s : State) : Acts P K N G I s (itemFault i s) := by
  unfold Machine.itemFault
  split
  · split
    · next hl => exact .setLive hP (liveOf_eq_some.mp hl) rfl rfl
    · next hl => exact .setLive hP (liveOf_eq_some.mp hl) rfl rfl
    · next hl => exact .withdraw hP (liveOf_eq_some.mp hl) (attempts_setChunkFault _) (acc_setChunkFault _)
    · next hl => exact .setLive hP (liveOf_eq_some.mp hl) rfl (attempts_setChunkFault _) (acc_setChunkFault _)
    · next hl => exact .setLive hP (liveOf_eq_some.mp hl) rfl (attempts_setChunkFault _) (acc_setChunkFault _)
    · next hl => exact .setLive hP (liveOf_eq_some.mp hl) rfl (attempts_setChunkFault _) (acc_setChunkFault _)
    · exact .refl s
  · exact .refl s

/-! ## The Memory Port -/

theorem Acts.present {s : State} {c : Client} (h : txnOf s c = none) (x : Txn) : Acts P K N G I s (present c x s) where
  kept := by cases c <;> rfl
  drives := fun _ => by cases c <;> rfl
  isolates := fun _ => by cases c <;> exact ⟨id, .inl rfl⟩
  silent := fun k => by cases c <;> exact k
  phase := fun _ k => by cases c <;> exact k
  fresh := fun k => by cases c <;> exact k
  bids := fun _ => by cases c <;> rfl
  placed := fun _ => by cases c <;> rfl
  gen := fun _ => by cases c <;> rfl
  settled := fun _ _ => by cases c <;> rfl
  record := fun _ _ => by cases c <;> rfl
  drain := fun u h => .inl (by cases c <;> exact h)
  reports := by cases c <;> exact List.prefix_rfl
  notice := by cases c <;> exact BitVec.or_self
  inbox := by cases c <;> exact List.prefix_rfl
  issued := fun c' x' h' => by
    cases c <;> cases c' <;> first | exact h' | (rw [h] at h'; cases h')
  grant := fun _ => by cases c <;> rfl
  exact := fun k => by cases c <;> exact k
  queue := fun k => by cases c <;> exact k
  order := fun _ _ hw ho => by cases c <;> exact ⟨hw, ho⟩
  attempts := fun _ k => by cases c <;> exact k
  transit := fun k => by cases c <;> exact k
  own := fun k => by cases c <;> exact k
  bounded := fun k => by cases c <;> exact k

theorem Acts.arbitrate (hG : ¬ G) (s : State) : Acts P K N G I s (arbitrate s) := by
  have hg : ∀ (n : Nat) (c : Client), s.mem.granted = none → Acts P K N G I s (Machine.grant c { s with choices := n }) :=
    fun n c h =>
      { Acts.refl (P := P) (K := K) (N := N) (G := G) (I := I) s with
        grant := fun hn => hn.elim (absurd · hG) (absurd h)
        issued := fun c' x' hx => by cases c' <;> exact hx }
  unfold Machine.arbitrate
  split
  · exact .refl s
  · next h =>
    split
    · exact .refl s
    · exact hg s.choices _ h
    · exact hg (s.choices + 1) _ h

/-- The data mover and the List Reader present transactions. -/
theorem Acts.presentOutRead {s : State} (hm : s.mem.mover = none) : Acts P K N G I s (presentOutRead s) := by
  unfold Machine.presentOutRead
  split
  · exact .refl s
  · split
    · split
      · exact .refl s
      · refine Acts.trans ?_ (.present (by exact hm) _)
        exact .of_still rfl rfl (Nat.le_refl _)
    · exact .refl s

theorem Acts.presentMover (s : State) : Acts P K N G I s (presentMover s) := by
  unfold Machine.presentMover
  split
  · exact .refl s
  · next hm _ => exact .presentOutRead hm
  · next r rs hm hr =>
    split
    · next i hi _ =>
      split
      · exact .presentOutRead hm
      · dsimp only
        split
        · exact .presentOutRead hm
        · refine Acts.trans ?_ (.present (by exact hm) _)
          refine .of_runs rfl ?_ (Nat.le_refl _)
          rw [hr]
          refine .head rs ?_ fun u hu => ?_
          · simp
          · simpa [reportsTo, hi] using hu
    · exact .presentOutRead hm

theorem Acts.presentLister (s : State) : Acts P K N G I s (presentLister s) := by
  unfold Machine.presentLister
  split
  · next i hm hi =>
    dsimp only
    split
    · exact .refl s
    · refine Acts.trans ?_ (.present (by exact hm) _)
      exact .of_still rfl rfl (Nat.le_refl _)
  · exact .refl s

/-- Bytes are placed in the transit buffer as far as it has room. -/
theorem Acts.placeBytes {s t : State} (h : resting t = resting s) (hr : t.bus.runs = s.bus.runs) {bytes : List Byte}
    (ho : t.bus.outbound = s.bus.outbound ++ bytes) (hn : bytes.length ≤ room s)
    (fresh : StallFresh s → StallFresh t := by exact id) : Acts P K N G I s t :=
  .of_resting h (fun u hu => .inl (by simpa only [draining, hr] using hu)) (fun ht => by
    simp only [TransitBounded, hr, ho, List.length_append, room] at ht hn ⊢; omega) fresh

theorem Acts.placeOutJob (s : State) : Acts P K N G I s (placeOutJob s) := by
  unfold Machine.placeOutJob
  split
  · exact .refl s
  · split
    · refine .placeBytes rfl rfl rfl ?_
      rw [List.length_take]; omega
    · exact .refl s

/-! ## Verdicts and the service -/

theorem Acts.sendFrame (f : Frame) (s : State) : Acts P K N G I s (sendFrame f s) := by
  unfold Machine.sendFrame
  split
  · exact .of_still rfl rfl (Nat.le_refl _)
  · exact .refl s

theorem Acts.giveVerdict (v : Verdict) (s : State) : Acts P K N G I s (giveVerdict v s) := by
  unfold Machine.giveVerdict
  split
  · exact .sendFrame _ s
  · exact .refl s

theorem Acts.writeTermsFor (h : OpenHead) (s : State) : Acts P K N G I s (writeTermsFor h s) := by
  unfold Machine.writeTermsFor
  split
  · exact .agreeTerms _ _ s
  · exact .refl s

/-- The service record changes, and holds a place if it held one; the rest of the Serve Engine's part may change too. -/
theorem Acts.of_service {s t : State} (rest : { t with serve := s.serve } = s)
    (hp : Machine.placed t = Machine.placed s) (hm : t.serve.swapMemo = s.serve.swapMemo) (hs : places t = places s) :
    Acts P K N G I s t := by
  have e : t = { s with serve := t.serve } := by rw [← rest]
  rw [e] at hp hm hs ⊢
  refine .of_still ?_ rfl (Nat.le_refl _)
  have hm : t.serve.swapMemo = s.serve.swapMemo := hm
  simp only [resting, hp, hs, Machine.kept, hm, Machine.bids, resetDrive]

theorem Acts.modifyWork (f : ServiceWork → ServiceWork) (s : State)
    (hf : ∀ v, holdsPlace { v with work := f v.work } = holdsPlace v) : Acts P K N G I s (modifyWork f s) := by
  unfold Machine.modifyWork
  split
  · next v hv => exact .of_service rfl rfl rfl (by simp [places, hv, hf])
  · exact .refl s

theorem Acts.giveClosing (k : VerdictKind) (s : State) : Acts P K N G I s (giveClosing k s) := by
  unfold Machine.giveClosing
  split
  · exact .refl s
  · next v hv =>
    refine Acts.trans ?_ (.giveVerdict _ _)
    exact .of_service rfl rfl rfl (by simp [places, hv, holdsPlace])

theorem serve_writeTermsFor (h : OpenHead) (s : State) : (writeTermsFor h s).serve = s.serve :=
  (writeTermsFor_spec h s).2.2.1

theorem Acts.giveFirst (k : VerdictKind) (r : Option SwapResult) (s : State) : Acts P K N G I s (giveFirst k r s) := by
  unfold Machine.giveFirst
  split
  · exact .refl s
  · next v hv =>
    refine Acts.trans (.writeTermsFor v.head s) (Acts.trans ?_ (.giveVerdict _ _))
    refine .of_service rfl rfl rfl ?_
    have e : (Machine.writeTermsFor v.head s).serve.service = some v := by rw [serve_writeTermsFor]; exact hv
    simp [places, e, holdsPlace]

theorem reportsTo_leaveRun {r : InRun} {u : Tag} (h : reportsTo (leaveRun r) = some u) : reportsTo r = some u := by
  unfold leaveRun at h
  split at h
  · simp [reportsTo] at h
  · simp [reportsTo] at h
  all_goals exact h

theorem Acts.leaveRuns (s : State) : Acts P K N G I s { s with bus.runs := s.bus.runs.map leaveRun } := by
  refine .of_runs rfl (runsWithin.map _ (fun r => ?_) (fun _ _ h => reportsTo_leaveRun h) _) (Nat.le_refl _)
  unfold leaveRun; split <;> exact Nat.le_refl _

/-- An update of the Serve Engine's part in which the reservation follows the service record. -/
theorem Acts.of_places {s t : State} (rest : { t with serve := s.serve } = s)
    (hp : Machine.placed t = Machine.placed s) (hm : t.serve.swapMemo = s.serve.swapMemo)
    (hs : InboxBounded s → InboxBounded t) : Acts P K N G I s t := by
  have e : t = { s with serve := t.serve } := by rw [← rest]
  rw [e] at hp hm hs ⊢
  exact { Acts.refl (P := P) (K := K) (N := N) (G := G) (I := I) s with
    kept := by
      have hm : t.serve.swapMemo = s.serve.swapMemo := hm
      simp only [Machine.kept, hm]
    placed := fun _ => hp
    issued := fun c _ hx => by cases c <;> exact hx
    bounded := hs }

theorem Acts.serviceEnd (s : State) : Acts P K N G I s (serviceEnd s) := by
  unfold Machine.serviceEnd
  split
  · exact .refl s
  · next v hv =>
    refine Acts.trans (t := { s with
      serve.service := none, serve.verdictTimer := none, serve.reserved := s.serve.reserved && !holdsPlace v }) ?_
      (.leaveRuns _)
    refine .of_places rfl rfl rfl fun ⟨h1, h2⟩ => ?_
    simp only [InboxBounded, inboxLoad, hv, Option.any_some, Option.any_none] at h1 h2 ⊢
    rw [h1] at h2 ⊢
    cases holdsPlace v <;> simp_all <;> omega

theorem service_serviceEnd (s : State) : (serviceEnd s).serve.service = none := by
  unfold serviceEnd; split
  · next h => exact h
  · rfl

/-- The service opened for an answer, and what the answer takes. -/
theorem Acts.openService {s : State} (hn : s.serve.service = none) (h : OpenHead) :
    Acts P K N G I s ((openAnswer s h).prepare h
      { s with serve.service := some ⟨h, none, false, (openAnswer s h).work h⟩ }) := by
  have plain : ∀ w : ServiceWork, (∀ v, v.work = w → holdsPlace v = false) → ∀ x : Timer,
      Acts P K N G I s { s with serve.service := some ⟨h, none, false, w⟩, serve.verdictTimer := x } := fun w hw x =>
    .of_service rfl rfl rfl (by simp [places, hn, hw ⟨h, none, false, w⟩ rfl])
  cases ha : openAnswer s h with
  | refuse r => exact plain .refused (fun v e => by simp [holdsPlace, e]) s.serve.verdictTimer
  | park => exact plain .park (fun v e => by simp [holdsPlace, e]) s.serve.verdictTimer
  | fetch base => exact plain _ (fun v e => by simp [holdsPlace, e, OpenAnswer.work]) s.serve.verdictTimer
  | swap addr => exact plain _ (fun v e => by simp [holdsPlace, e, OpenAnswer.work]) (some verdictTime)
  | store base =>
    exact (plain _ (fun v e => by simp [holdsPlace, e, OpenAnswer.work]) s.serve.verdictTimer).trans
      (.openRun _ _ fun i hi => by cases hi)
  | note isRepeat =>
    refine Acts.trans (t := { s with
      serve.service := some ⟨h, none, false, .note (!isRepeat) isRepeat false []⟩
      serve.reserved := s.serve.reserved || !isRepeat }) ?_ (.openRun _ _ fun i hi => by cases hi)
    refine .of_places rfl rfl rfl fun ⟨h1, h2⟩ => ?_
    have hroom : isRepeat = false → inboxLoad s < 16 := by
      intro hr
      unfold openAnswer serviceAnswer at ha
      repeat' split at ha
      all_goals cases ha
      all_goals first | assumption | (cases hr)
    simp only [InboxBounded, inboxLoad, hn, Option.any_none, Option.any_some, holdsPlace] at h1 h2 hroom ⊢
    rw [h1] at h2 hroom ⊢
    cases isRepeat
    · have := hroom rfl
      refine ⟨by simp, ?_⟩
      simp only [Bool.false_or, Bool.not_false, Bool.toNat_true, Bool.toNat_false] at this ⊢
      omega
    · simp_all

theorem Acts.takeOpen (h : OpenHead) (s : State) : Acts P K N G I s (takeOpen h s) := by
  unfold Machine.takeOpen
  refine Acts.trans (.serviceEnd s) ?_
  have ho := Acts.openService (P := P) (K := K) (N := N) (G := G) (I := I) (service_serviceEnd s) h
  dsimp only
  split
  · exact ho.trans (.giveFirst _ _ _)
  · exact ho

theorem holdsPlace_workTake (n : Nat) (good : Bool) (v : Service) :
    holdsPlace { v with work := workTake n good v.work } = holdsPlace v := by
  simp only [holdsPlace]
  cases v.work <;> rfl

theorem reportsTo_dropNote {r : InRun} {u : Tag} (h : reportsTo (dropNote r) = some u) : reportsTo r = some u := by
  unfold dropNote at h
  split at h
  · simp [reportsTo] at h
  · exact h

theorem Acts.dropNotes (s : State) : Acts P K N G I s { s with bus.runs := s.bus.runs.map dropNote } := by
  refine .of_runs rfl (runsWithin.map _ (fun r => ?_) (fun _ _ h => reportsTo_dropNote h) _) (Nat.le_refl _)
  unfold dropNote; split <;> exact Nat.le_refl _

/-- The end of a NOTE's run places the note only if it is new, holds a place and has good parity. -/
theorem Acts.noteRunEnd {s : State} {v : Service} (hv : s.serve.service = some v) {place isRepeat parity : Bool}
    {payload : List Byte} (hw : v.work = .note place isRepeat parity payload)
    (parity' : Bool) (hN : N → parity' = true) : Acts P K N G I s (noteRunEnd v place isRepeat parity' payload s) := by
  have drop : ∀ p, Acts P K N G I s { s with
      bus.runs := s.bus.runs.map dropNote
      serve.service := some { v with work := .note false isRepeat p [] }
      serve.reserved := false } := fun p => by
    refine Acts.trans (.dropNotes s) (.of_places rfl rfl rfl fun ⟨h1, h2⟩ => ?_)
    simp only [InboxBounded, inboxLoad, holdsPlace, Option.any_some, Bool.toNat_false] at h1 h2 ⊢
    exact ⟨trivial, by omega⟩
  unfold Machine.noteRunEnd
  dsimp only
  split
  · exact (drop _).trans (.giveClosing _ _)
  · next hg =>
    split
    · exact (drop _).trans (.giveClosing _ _)
    · next hp =>
      refine Acts.trans ?_ (.giveClosing _ _)
      refine (Acts.dropNotes s).trans ?_
      have hplace : place = true := by
        cases place with
        | true => rfl
        | false => simp at hg
      exact { Acts.refl (P := P) (K := K) (N := N) (G := G) (I := I) s with
        placed := fun hn => absurd (hN hn) hp
        drain := fun u hu => .inl hu
        notice := or_notice _ _
        inbox := List.prefix_append _ _
        issued := fun c _ hx => by cases c <;> exact hx
        transit := id
        bounded := fun ⟨h1, h2⟩ => by
          have h1 : s.serve.reserved = holdsPlace v := by simpa [hv] using h1
          have h2 : s.port.inbox.length + s.serve.reserved.toNat ≤ 16 := h2
          have : s.serve.reserved = true := by rw [h1]; simp [holdsPlace, hw, hplace]
          rw [this] at h2
          refine ⟨rfl, ?_⟩
          show (s.port.inbox ++ [_]).length + 0 ≤ 16
          rw [List.length_append]; exact h2 }

theorem Acts.serveRunEnd (short : Bool) (hN : N → short = true) (s : State) : Acts P K N G I s (serveRunEnd short s) := by
  unfold Machine.serveRunEnd
  split
  · exact .refl s
  · next v hv =>
    split
    · next taken written fault parity x hw =>
      have h1 : ∀ p x, Acts P K N G I s
          { s with
            serve.service := some { v with work := .store taken written fault p true }, serve.verdictTimer := x } :=
        fun p x => .of_service rfl rfl rfl (by simp [places, hv, holdsPlace, hw])
      dsimp only
      split
      · exact (h1 _ s.serve.verdictTimer).trans (.giveClosing _ _)
      · exact h1 _ _
    · next hw => exact .noteRunEnd hv hw _ fun hn => by simp [hN hn]
    · exact .giveClosing _ s
    all_goals exact .refl s

/-! ## The services that wait -/

theorem Acts.storeProgress (s : State) : Acts P K N G I s (storeProgress s) := by
  unfold Machine.storeProgress
  split
  · split
    · split
      · exact .refl s
      · exact .giveClosing _ s
    · exact .refl s
  · exact .refl s

theorem Acts.fetchProgress (s : State) : Acts P K N G I s (fetchProgress s) := by
  unfold Machine.fetchProgress
  split
  · split
    · split
      · exact .refl s
      · refine Acts.trans (t := { s with bus.run := none, bus.outbound := [] }) ?_ (.giveClosing _ _)
        exact .of_still rfl rfl (Nat.zero_le _)
    · exact .refl s
  · exact .refl s

theorem Acts.swapProgress (s : State) : Acts P K N G I s (swapProgress s) := by
  unfold Machine.swapProgress
  split
  · next v c h1 h2 h3 =>
    split
    · next hw hf =>
      split
      · exact .giveFirst _ _ s
      · split
        · exact .refl s
        · next hg =>
          have hm : s.mem.serve = none := by
            cases hx : s.mem.serve with
            | none => rfl
            | some x => simp [hx] at hg
          refine Acts.trans ?_ (.present (by exact hm) _)
          exact .of_service rfl rfl rfl (by simp [places, h1, holdsPlace, hw])
    · exact .refl s
  · exact .refl s

theorem Acts.startFill (s : State) : Acts P K N G I s (startFill s) := by
  unfold Machine.startFill
  split
  · split
    · exact .of_still rfl rfl (Nat.le_refl _)
    · exact .refl s
  · exact .refl s

theorem Acts.placeFetch (s : State) : Acts P K N G I s (placeFetch s) := by
  unfold Machine.placeFetch
  split
  · next v h =>
    split
    · next base issued placed held fault flight hw =>
      split
      · refine .placeBytes ?_ rfl rfl ?_
        · simp [resting, places, h, holdsPlace, hw, Machine.kept, Machine.bids, Machine.placed, resetDrive]
        · rw [List.length_take]; omega
      · exact .refl s
    · exact .refl s
  · exact .refl s

theorem Acts.placeChunk (s : State) : Acts P K N G I s (placeChunk s) := by
  unfold Machine.placeChunk
  split
  · split
    · refine .placeBytes rfl rfl rfl ?_
      rw [List.length_take]; omega
    · exact .refl s
  · exact .refl s

theorem Acts.presentFill {s : State} (hm : s.mem.serve = none) : Acts P K N G I s (presentFill s) := by
  unfold Machine.presentFill
  split
  · split
    · exact .refl s
    · refine Acts.trans ?_ (.present (by exact hm) _)
      exact .of_still rfl rfl (Nat.le_refl _)
  · exact .refl s

theorem Acts.storeWrite {s t : State} (hm : s.mem.serve = none) (h : storeWrite s = some t) : Acts P K N G I s t := by
  unfold Machine.storeWrite at h
  split at h
  · next r rs hr =>
    split at h
    · next j hj _ =>
      dsimp only at h
      split at h
      · cases h
      · cases h
        refine Acts.trans ?_ (.present (by exact hm) _)
        refine .of_runs rfl ?_ (Nat.le_refl _)
        rw [hr]
        refine .head rs ?_ fun u hu => ?_
        · simp
        · simp [reportsTo] at hu
    · cases h
  · cases h

theorem Acts.fetchRead {s t : State} (hm : s.mem.serve = none) (h : fetchRead s = some t) : Acts P K N G I s t := by
  unfold Machine.fetchRead at h
  split at h
  · next v c hv _ =>
    split at h
    · next hw =>
      dsimp only at h
      split at h
      · cases h
      · cases h
        refine Acts.trans ?_ (.present (by exact hm) _)
        exact .of_service rfl rfl rfl (by simp [places, hv, holdsPlace, hw])
    · cases h
  · cases h

theorem Acts.presentServe (s : State) : Acts P K N G I s (presentServe s) := by
  unfold Machine.presentServe
  split
  · exact .refl s
  · next hm =>
    split
    · next h => exact .storeWrite hm h
    · split
      · exact .refl s
      · split
        · next h => exact .fetchRead hm h
        · split
          · exact .refl s
          · exact .presentFill hm

/-! ## Completions -/

theorem Acts.storeWriteDone {s : State} {j : StoreJob} {r : InRun} {rs : List InRun} (hr : s.bus.runs = r :: rs)
    (n : Nat) (result : Completion) : Acts P K N G I s (storeWriteDone j r rs n result s) := by
  have run : ∀ j', Acts P K N G I s { s with bus.runs := { r with sink := .store j', flight := none } :: rs } := fun j' => by
    refine .of_runs rfl ?_ (Nat.le_refl _)
    rw [hr]
    exact .head rs (Nat.le_refl _) fun u hu => by simp [reportsTo] at hu
  unfold Machine.storeWriteDone
  split <;> dsimp only <;> split
  · refine (run _).trans (.modifyWork _ _ fun v => ?_)
    simp only [holdsPlace]; cases v.work <;> rfl
  · exact run _
  · refine (run _).trans (.modifyWork _ _ fun v => ?_)
    simp only [holdsPlace]; cases v.work <;> rfl
  · exact run _

theorem Acts.setHeadChunk (c : Chunk) (s : State) : Acts P K N G I s (setHeadChunk c s) := by
  unfold Machine.setHeadChunk
  split
  · exact .of_still rfl rfl (Nat.le_refl _)
  · exact .refl s

theorem Acts.fillRead (f : Fill) (sp : Span) (result : Completion) (s : State) :
    Acts P K N G I s (fillRead f sp result s) := by
  unfold Machine.fillRead
  split
  · exact .of_still rfl rfl (Nat.le_refl _)
  · split
    · refine Acts.trans ?_ (.setHeadChunk _ _)
      exact .of_still rfl rfl (Nat.le_refl _)
    · dsimp only
      split
      · exact .of_still rfl rfl (Nat.le_refl _)
      · refine Acts.trans ?_ (.setHeadChunk _ _)
        exact .of_still rfl rfl (Nat.le_refl _)

theorem Acts.serveReadDone (result : Completion) (s : State) : Acts P K N G I s (serveReadDone result s) := by
  unfold Machine.serveReadDone
  split
  · next _ _ base issued placed held fault sp hw =>
    cases hv : s.serve.service with
    | none => rw [hv] at hw; cases hw
    | some v =>
      rw [hv] at hw
      have e : v.work = .fetch base issued placed held fault (some sp) := Option.some.inj hw
      split
      · unfold Machine.modifyWork
        rw [hv]
        exact .of_service rfl rfl rfl (by simp [places, hv, holdsPlace, e])
      · unfold Machine.modifyWork
        rw [hv]
        exact .of_service rfl rfl rfl (by simp [places, hv, holdsPlace, e])
  · split
    · exact .fillRead _ _ _ s
    · exact .refl s
  · exact .refl s

theorem Acts.serveTxnDone (result : Completion) (s : State) : Acts P K N G I s (serveTxnDone result s) := by
  unfold Machine.serveTxnDone
  split
  · next hr =>
    split
    · exact .storeWriteDone hr _ _
    · exact .serveReadDone _ s
  · exact .serveReadDone _ s

/-- A locked pair's completion, but for the memo that it writes. -/
theorem Acts.pairDone (result : Option SwapResult) (s : State) :
    ∃ m, Acts P K N G I { s with serve.swapMemo := m } (pairDone result s) := by
  unfold Machine.pairDone
  split
  · exact ⟨s.serve.swapMemo, .refl s⟩
  · next g _ =>
    dsimp only
    split
    · next r =>
      refine ⟨s.serve.swapMemo.set g.requester.toNat (some ⟨g.tag, g.gen, r⟩) g.requester.isLt, ?_⟩
      split
      · refine Acts.trans ?_ (.giveFirst _ _ _)
        exact .of_still rfl rfl (Nat.le_refl _)
      · exact .of_still rfl rfl (Nat.le_refl _)
    · refine ⟨s.serve.swapMemo, ?_⟩
      split
      · refine Acts.trans ?_ (.giveFirst _ _ _)
        exact .of_still rfl rfl (Nat.le_refl _)
      · exact .of_still rfl rfl (Nat.le_refl _)

theorem Acts.verdictExpiry (s : State) : Acts P K N G I s (verdictExpiry s) := by
  unfold Machine.verdictExpiry
  split
  · exact .refl s
  · split
    · exact .giveClosing _ s
    · exact .giveFirst _ _ s
    · exact .refl s

/-! ## The park queue -/

theorem Acts.abandonFill (s : State) : Acts P K N G I s (abandonFill s) := by
  unfold Machine.abandonFill
  split
  · split <;> exact .of_still rfl rfl (Nat.le_refl _)
  · exact .of_still rfl rfl (Nat.le_refl _)

theorem Acts.parkRequest (h : OpenHead) (s : State) : Acts P K N G I s (parkRequest h s) := by
  unfold Machine.parkRequest
  split
  · dsimp only
    split
    · exact (Acts.abandonFill s).trans (.of_still rfl rfl (Nat.le_refl _))
    · exact .of_still rfl rfl (Nat.le_refl _)
  · exact .of_still rfl rfl (Nat.le_refl _)

theorem Acts.takeWithdraw (h : WithdrawHead) (s : State) : Acts P K N G I s (takeWithdraw h s) := by
  unfold Machine.takeWithdraw
  refine Acts.trans ?_ (.giveVerdict _ _)
  dsimp only
  split
  · exact (Acts.abandonFill s).trans (.of_still rfl rfl (Nat.le_refl _))
  · exact .of_still rfl rfl (Nat.le_refl _)

theorem Acts.requeueHead (f : ParkEntry → ParkEntry) (s : State) : Acts P K N G I s (requeueHead f s) := by
  unfold Machine.requeueHead
  split
  · exact .of_still rfl rfl (Nat.le_refl _)
  · exact .refl s

theorem Acts.removeHead (s : State) : Acts P K N G I s (removeHead s) := .of_still rfl rfl (Nat.le_refl _)

theorem Acts.chargeHead (s : State) : Acts P K N G I s (chargeHead s) := by
  unfold Machine.chargeHead
  split
  · split
    · exact .requeueHead _ s
    · exact .removeHead s
  · exact .refl s

theorem Acts.acceptHead (s : State) : Acts P K N G I s (acceptHead s) := by
  unfold Machine.acceptHead
  split
  · split
    · split
      · exact .requeueHead _ s
      · exact .removeHead s
    all_goals exact .removeHead s
  · exact .refl s

theorem Acts.decideResume (o : ServeOutcome) (s : State) : Acts P K N G I s (decideResume o s) := by
  unfold Machine.decideResume
  split
  · exact .of_still rfl rfl (Nat.le_refl _)
  · exact .refl s

theorem Acts.serveResumeEnd (s : State) : Acts P K N G I s (serveResumeEnd s) := by
  unfold Machine.serveResumeEnd
  split
  · exact .refl s
  · refine Acts.trans (t := { s with serve.resume := none }) (.of_still rfl rfl (Nat.le_refl _)) ?_
    dsimp only
    split
    · exact .acceptHead _
    · exact .removeHead _
    · exact .removeHead _
    all_goals exact .chargeHead _

end Sys2Proof.Machine
end

