-- ==== Sys2Proof/Laws/Tenure.lean ====
section
/-! SUPPORT. What the operations of a tenure, of its beats, of the window and of the bus reset can change, and what `settle`
can: `Acts` for each. -/

namespace Sys2Proof.Machine

set_option Elab.async false

variable {P : Tag → Prop} {K N G I : Prop}

/-! ## Ends of runs and of tenures -/

/-- The tag whose entry the tenure in progress serves or engages. -/
def engages (s : State) (u : Tag) : Prop :=
  match s.bus.tenure with
  | .none => False
  | .caller c => c.grantee = .launch u
  | .callee c => c.owner = some (.launch (some u))

theorem Acts.clearBeats (s : State) : Acts P K N G I s (clearBeats s) := .of_still rfl rfl (Nat.zero_le _)

theorem Acts.handCutRun {s : State} (hP : ∀ u, engages s u → P u) : Acts P K N G I s (handCutRun s) := by
  unfold Machine.handCutRun
  split
  · next c _ hc =>
    split
    · next t ht => exact .launchRunEnd (hP t (by simp only [engages, hc]; exact ht)) _ _ s
    · exact .refl s
    · exact .refl s
  · exact .refl s

theorem Acts.cutRun {s : State} (hP : ∀ u, engages s u → P u) : Acts P K N G I s (cutRun s) :=
  ((Acts.handCutRun hP).trans (.endRuns _)).trans (.clearBeats _)

theorem Acts.leaveTenure {s : State} (hP : ∀ u, engages s u → P u) : Acts P K N G I s (leaveTenure s) :=
  (Acts.cutRun hP).trans (.of_still rfl rfl (Nat.le_refl _))

theorem Acts.changeState (st : StationState) (s : State) (hI : I → s.station.state ≠ .isolated)
    (hs : st ≠ .isolated) (hG : G → ¬ closing s) : Acts P K N G I s (changeState st s) :=
  { Acts.refl (P := P) (K := K) (N := N) (G := G) (I := I) s with
    isolates := fun i => ⟨fun h => absurd h (hI i), .inl rfl⟩
    silent := fun _ h => absurd h hs
    phase := fun g h => absurd h (hG g)
    notice := or_notice _ _
    own := id
    issued := fun c _ hx => by cases c <;> exact hx }

theorem Acts.fallSilent (hI : I) (s : State) : Acts P K N G I s (fallSilent s) :=
  { Acts.refl (P := P) (K := K) (N := N) (G := G) (I := I) s with
    drives := fun h => absurd hI h
    isolates := fun _ => ⟨fun _ => rfl, .inr ⟨rfl, rfl⟩⟩
    silent := fun _ _ => rfl
    phase := fun _ _ => .inr rfl
    notice := or_notice _ _
    own := id
    issued := fun c _ hx => by cases c <;> exact hx }

/-- The service and the park queue are gone, and nothing is reserved. -/
theorem Acts.emptyServe {s t : State} (rest : { t with serve := s.serve } = s)
    (hs : t.serve.service = none ∧ t.serve.reserved = false) (hp : Machine.placed t = Machine.placed s)
    (hm : t.serve.swapMemo = s.serve.swapMemo) : Acts P K N G I s t :=
  .of_places rest hp hm fun ⟨_, h2⟩ => by
    have hport : t.port.inbox = s.port.inbox := congrArg Prod.fst hp
    refine ⟨by rw [hs.1, hs.2]; rfl, ?_⟩
    simp only [inboxLoad, hs.2, hport, Bool.toNat_false] at h2 ⊢; omega

/-- The inbound runs, the park queue and the service are discarded. -/
theorem Acts.discardService (s : State) : Acts P K N G I s { s with
    bus.runs := []
    serve.parkQueue := []
    serve.resume := none
    serve.service := none
    serve.reserved := false
    serve.verdictTimer := none } :=
  Acts.trans (t := { s with bus.runs := [] }) (.of_runs rfl (.nil _) (Nat.le_refl _)) (.emptyServe rfl ⟨rfl, rfl⟩ rfl rfl)

theorem Acts.enterIsolated (hI : I) (hP : ∀ u, P u) (s : State) : Acts P K N G I s (enterIsolated s) := by
  have h : Acts P K N G I s { Machine.leaveTenure s with bus.contending := false } :=
    (Acts.leaveTenure fun u _ => hP u).trans (.of_still rfl rfl (Nat.le_refl _))
  have hf := h.trans (Acts.foldl (fun s t => Machine.complete t .isolated s)
    (liveByAcc { Machine.leaveTenure s with bus.contending := false }) (fun t _ s => .complete (hP t) _ s) _)
  exact hf.trans ((Acts.discardService _).trans ((Acts.abandonFill _).trans (.fallSilent hI _)))

theorem Acts.takeClash (hI : I) (hP : ∀ u, P u) (s : State) : Acts P K N G I s (takeClash s) := by
  unfold Machine.takeClash
  split
  all_goals first | exact .enterIsolated hI hP s | exact .refl s

theorem Acts.handCallerEnd {c : Caller} (hP : ∀ u, c.grantee = .launch u → P u) (hI : c.grantee = .probe → I ∧ ∀ u, P u)
    (s : State) : Acts P K N G I s (handCallerEnd c s) := by
  unfold Machine.handCallerEnd
  split
  · next h => exact .launchEnd (hP _ h) s
  · exact .serveResumeEnd s
  · next h => exact .enterIsolated (hI h).1 (hI h).2 s

theorem Acts.handCallerFault {c : Caller} (hP : ∀ u, c.grantee = .launch u → P u) (f : RetryFault) (s : State) :
    Acts P K N G I s (handCallerFault c f s) := by
  unfold Machine.handCallerFault
  split
  · next h => exact .launchFault (hP _ h) f s
  · exact .decideResume _ s
  · exact .refl s

theorem Acts.handCalleeEnd {c : Callee} (hP : ∀ u, c.owner = some (.launch (some u)) → P u) (s : State) :
    Acts P K N G I s (handCalleeEnd c s) := by
  unfold Machine.handCalleeEnd
  split
  · exact .serviceEnd s
  · next h => exact .resumeTenureEnd (hP _ h) s
  all_goals exact .refl s

theorem Acts.endCaller {c : Caller} {s : State} (hT : ∀ u, engages s u → P u)
    (hP : ∀ u, c.grantee = .launch u → P u) (hI : c.grantee = .probe → I ∧ ∀ u, P u) :
    Acts P K N G I s (endCaller c s) :=
  (Acts.leaveTenure hT).trans (.handCallerEnd hP hI _)

theorem Acts.endCallee {c : Callee} {s : State} (hT : ∀ u, engages s u → P u)
    (hP : ∀ u, c.owner = some (.launch (some u)) → P u) : Acts P K N G I s (endCallee c s) :=
  (Acts.leaveTenure hT).trans (.handCalleeEnd hP _)

theorem Acts.flushFinished {s : State} (hP : ∀ u, engages s u → P u) : Acts P K N G I s (flushFinished s) := by
  unfold Machine.flushFinished
  split
  · next c hc =>
    split
    · refine Acts.trans (t := { s with bus.tenure := .none }) (.of_still rfl rfl (Nat.le_refl _)) ?_
      exact .handCalleeEnd (fun u hu => hP u (by simp only [engages, hc]; exact hu)) _
    · exact .refl s
  all_goals exact .refl s

theorem Acts.interject {s : State} (hP : ∀ u, engages s u → P u) : Acts P K N G I s (interject s) := by
  unfold Machine.interject
  split
  · exact .refl s
  · exact (Acts.cutRun hP).trans (.of_still rfl rfl (Nat.le_refl _))

/-! ## Beats, for tags that may all change -/

theorem Acts.damagedVerdict (hP : ∀ u, P u) (c : Caller) (s : State) : Acts P K N G I s (damagedVerdict c s) := by
  unfold Machine.damagedVerdict
  refine Acts.trans (t := { s with bus.tenure := .caller { c with finished := true } })
    (.of_still rfl rfl (Nat.le_refl _)) ?_
  exact (Acts.handCallerFault (fun u _ => hP u) _ _).trans (.interject fun u _ => hP u)

theorem Acts.overrun (hP : ∀ u, P u) (s : State) : Acts P K N G I s (overrun s) := by
  unfold Machine.overrun
  split
  · exact (Acts.handCallerFault (fun u _ => hP u) _ s).trans (.interject fun u _ => hP u)
  · exact .endCallee (fun u _ => hP u) (fun u _ => hP u)
  · exact .refl s

theorem Acts.giveAfterChunk (hP : ∀ u, P u) (t : Tag) (c : Callee) (s : State) :
    Acts P K N G I s (giveAfterChunk t c s) := by
  unfold Machine.giveAfterChunk
  split
  · exact (Acts.applyRunEnd (hP t) s).trans (.giveVerdict _ _)
  · exact .refl s

theorem Acts.handCalleeRunEnd (hP : ∀ u, P u) (c : Callee) (short : Bool) (hN : N → short = true) (s : State) :
    Acts P K N G I s (handCalleeRunEnd c short s) := by
  unfold Machine.handCalleeRunEnd
  split
  · exact .serveRunEnd short hN s
  · refine Acts.trans ?_ (.giveAfterChunk hP _ _ _)
    split
    · exact .modifyResume (hP _) _ s
    · exact .refl s
  all_goals exact .refl s

theorem Acts.closeRun (s : State) : Acts P K N G I s (closeRun s) :=
  Acts.trans (t := { s with bus.run := none, bus.capture := [], bus.count := 0 })
    (.of_still rfl rfl (Nat.le_refl _)) (.endRuns _)

theorem Acts.callerRunEnd (hP : ∀ u, P u) (c : Caller) (n : Nat) (short : Bool) (s : State) :
    Acts P K N G I s (callerRunEnd c n short s) := by
  unfold Machine.callerRunEnd
  have h : Acts P K N G I s { Machine.closeRun s with
      bus.tenure := .caller { c with point := .second }, launch.outJob := none } :=
    (Acts.closeRun s).trans (.of_still rfl rfl (Nat.le_refl _))
  dsimp only
  split
  · exact h.trans (.launchRunEnd (hP _) _ _ _)
  all_goals exact h

theorem Acts.runComplete (hP : ∀ u, P u) (hN : ¬ N) (r : Run) (s : State) : Acts P K N G I s (runComplete r s) := by
  unfold Machine.runComplete
  split
  · exact .callerRunEnd hP _ _ _ s
  · refine Acts.trans (.closeRun s) (Acts.trans ?_ (.handCalleeRunEnd hP _ _ (fun h => absurd h hN) _))
    exact .of_still rfl rfl (Nat.le_refl _)
  · exact .refl s

theorem Acts.handBeat (hP : ∀ u, P u) (n : Nat) (good : Bool) (s : State) : Acts P K N G I s (handBeat n good s) := by
  unfold Machine.handBeat
  split
  · split
    · split
      · exact .refl s
      · exact .launchParityFail (hP _) s
    all_goals exact .refl s
  · split
    · exact .modifyWork _ s (holdsPlace_workTake n good)
    · split
      · exact .refl s
      · exact .launchParityFail (hP _) s
    all_goals exact .refl s
  · exact .refl s

theorem inboundHeld_appendLast (bytes : List Byte) (rs : List InRun) :
    inboundHeld (appendLast bytes rs) ≤ inboundHeld rs + bytes.length := by
  induction rs with
  | nil => simp [appendLast, inboundHeld]
  | cons r rs ih =>
    cases rs with
    | nil => simp [appendLast, inboundHeld]
    | cons r' rs =>
      simp only [appendLast, inboundHeld_cons] at ih ⊢; omega

theorem reportsTo_appendLast (bytes : List Byte) (rs : List InRun) {r : InRun} (h : r ∈ appendLast bytes rs) {u : Tag}
    (hu : reportsTo r = some u) : ∃ r' ∈ rs, reportsTo r' = some u := by
  induction rs with
  | nil => cases h
  | cons x rs ih =>
    cases rs with
    | nil =>
      rw [List.mem_singleton.mp h] at hu
      exact ⟨x, List.mem_cons_self .., hu⟩
    | cons y rs =>
      rcases List.mem_cons.mp h with rfl | h
      · exact ⟨r, List.mem_cons_self .., hu⟩
      · obtain ⟨r', h', e⟩ := ih h
        exact ⟨r', List.mem_cons_of_mem _ h', e⟩

/-- Bytes taken from the bus join the last run, within the room of the transit buffer. -/
theorem Acts.of_append {s t : State} (h : resting t = resting s) (bytes : List Byte)
    (hr : t.bus.runs = appendLast bytes s.bus.runs) (ho : t.bus.outbound = s.bus.outbound)
    (hn : bytes.length ≤ room s) (fresh : StallFresh s → StallFresh t := by exact id) : Acts P K N G I s t :=
  .of_resting h
    (fun u ⟨r, hm, hu⟩ => .inl (reportsTo_appendLast bytes s.bus.runs (hr ▸ hm) hu))
    (fun ht => by
      have := inboundHeld_appendLast bytes s.bus.runs
      simp only [TransitBounded, room, hr, ho] at ht hn ⊢; omega)
    fresh

theorem Acts.takeCaptured (hP : ∀ u, P u) (hN : ¬ N) (s : State) : Acts P K N G I s (takeCaptured s) := by
  unfold Machine.takeCaptured
  split
  · next r b rest _ _ =>
    dsimp only
    generalize hn : (if oddFinal r r.taken = true then 1 else 2) = n
    split
    · exact .refl s
    · next hg =>
      have hroom : n ≤ room s := by
        simp only [Bool.or_eq_true, decide_eq_true_eq, not_or, Nat.not_lt] at hg; exact hg.2
      have h : Acts P K N G I s (Machine.handBeat n b.good (giveTake
          { s with
            bus.capture := rest
            bus.count := s.bus.count - 1
            bus.run := some { r with taken := r.taken + 1 }
            bus.runs := appendLast ([lowByte b.d, highByte b.d].take n) s.bus.runs })) := by
        refine Acts.trans ?_ (.handBeat hP _ _ _)
        refine .of_append rfl ([lowByte b.d, highByte b.d].take n) rfl rfl ?_
        rw [List.length_take]; omega
      split
      · exact h.trans (.runComplete hP hN _ _)
      · exact h
  · exact .refl s

theorem Acts.strobeNext (s : State) : Acts P K N G I s (strobeNext s) := by
  unfold Machine.strobeNext
  split
  · next r _ =>
    dsimp only
    generalize (if oddFinal r r.moved = true then 1 else 2) = n
    split
    · refine .of_still rfl rfl ?_
      show (List.drop _ s.bus.outbound).length ≤ _
      rw [List.length_drop]; omega
    · exact .refl s
  · exact .refl s

theorem Acts.captureBeat (hP : ∀ u, P u) (r : Run) (d : Beat) (dp : BitVec 2) (s : State) :
    Acts P K N G I s (captureBeat r d dp s) := by
  unfold Machine.captureBeat
  split
  · exact .overrun hP s
  · exact .of_still rfl rfl (Nat.le_refl _)

/-! ## Frames sent -/

theorem Acts.markDelivered {t : Tag} (hP : P t) (s : State) : Acts P K N G I s (markDelivered t s) :=
  .modifyBody hP _ (fun b => by split <;> rfl) (fun b => by split <;> rfl) s

theorem Acts.headSent (hI : I) (hP : ∀ u, P u) (c : Caller) (s : State) : Acts P K N G I s (headSent c s) := by
  have h : Acts P K N G I s { s with bus.tenure := .caller { c with point := .first } } :=
    .of_still rfl rfl (Nat.le_refl _)
  unfold Machine.headSent
  split
  · exact h.trans (.markDelivered (hP _) _)
  · exact .endCaller (fun u _ => hP u) (fun u _ => hP u) (fun _ => ⟨hI, hP⟩)
  all_goals exact h

theorem Acts.parkIfPark (k : VerdictKind) (s : State) : Acts P K N G I s (parkIfPark k s) := by
  unfold Machine.parkIfPark
  split
  · exact .parkRequest _ s
  · exact .refl s

theorem Acts.verdictSent (hP : ∀ u, P u) (c : Callee) (v : Verdict) (s : State) : Acts P K N G I s (verdictSent c v s) := by
  unfold Machine.verdictSent
  split
  · exact .endCallee (fun u _ => hP u) (fun u _ => hP u)
  · split
    · exact .of_still rfl rfl (Nat.le_refl _)
    · have h := (Acts.parkIfPark (P := P) (K := K) (N := N) (G := G) (I := I) v.kind s).trans (.leaveTenure fun u _ => hP u)
      exact h.trans (.of_still rfl rfl (Nat.le_refl _))

theorem Acts.frameSent (hI : I) (hP : ∀ u, P u) (f : Frame) (s : State) : Acts P K N G I s (frameSent f s) := by
  unfold Machine.frameSent
  have h : Acts P K N G I s (releaseBeat { s with bus.tx := none, bus.count := 0 }) :=
    .of_still rfl rfl (Nat.le_refl _)
  dsimp only
  split
  · exact h.trans (.verdictSent hP _ _ _)
  · exact h.trans (.headSent hI hP _ _)
  · exact h

theorem Acts.partyTake (hI : I) (hP : ∀ u, P u) (hN : ¬ N) (s : State) : Acts P K N G I s (partyTake s) := by
  unfold Machine.partyTake
  split
  · dsimp only
    split
    · exact .of_still rfl rfl (Nat.le_refl _)
    · exact Acts.trans (t := restartStall s) (.of_still rfl rfl (Nat.le_refl _)) (.frameSent hI hP _ _)
  · next r _ _ =>
    split
    · exact .refl s
    · split
      · exact .overrun hP s
      · dsimp only
        split
        · refine Acts.trans ?_ (.runComplete hP hN _ _)
          exact .of_still rfl rfl (Nat.le_refl _)
        · exact .of_still rfl rfl (Nat.le_refl _)
  · split
    · exact .overrun hP s
    · exact .refl s

/-! ## Frames taken -/

theorem Acts.startOpenRun {t : Tag} (hP : P t) (s : State) : Acts P K N G I s (startOpenRun t s) := by
  unfold Machine.startOpenRun
  split
  · next b o r hl =>
    have h : Acts P K N G I s (Machine.setLive t b (.connOpen o { r with proceedTaken := true }) s) :=
      .setLive hP (liveOf_eq_some.mp hl) rfl rfl
    dsimp only
    split
    · refine h.trans (Acts.trans ?_ (.openRun _ _ fun i hi => by cases hi; exact hP))
      exact .of_still rfl rfl (Nat.le_refl _)
    · exact h.trans (.of_still rfl rfl (Nat.le_refl _))
  · exact .refl s

theorem Acts.startChunkRun (c : Caller) (s : State) : Acts P K N G I s (startChunkRun c s) := by
  unfold Machine.startChunkRun
  split
  · exact .of_still rfl rfl (Nat.le_refl _)
  · exact .refl s

theorem Acts.handVerdict (hP : ∀ u, P u) (c : Caller) (v : Verdict) (s : State) :
    Acts P K N G I s (handVerdict c v s) := by
  unfold Machine.handVerdict
  split
  · split
    · exact .startOpenRun (hP _) s
    · exact (Acts.readOpenVerdict (hP _) v s).trans (.readWithdrawVerdict (hP _) v _)
  · split
    · exact .startChunkRun c s
    · split
      · exact .decideResume _ s
      · exact .refl s
  · exact .refl s

theorem Acts.takeVerdict (hP : ∀ u, P u) (c : Caller) (v : Verdict) (s : State) :
    Acts P K N G I s (takeVerdict c v s) := by
  unfold Machine.takeVerdict takeTermsOf
  dsimp only
  refine Acts.trans ?_ (.handVerdict hP _ _ _)
  split
  · exact (Acts.agreeTerms _ _ s).trans (.of_still rfl rfl (Nat.le_refl _))
  · exact .of_still rfl rfl (Nat.le_refl _)

theorem Acts.callerFrame (hP : ∀ u, P u) (c : Caller) (f : Option Frame) (s : State) :
    Acts P K N G I s (callerFrame c f s) := by
  unfold Machine.callerFrame
  split
  · split
    · split
      · exact .of_still rfl rfl (Nat.le_refl _)
      · exact .damagedVerdict hP c s
    · split
      · exact .takeVerdict hP c _ s
      · exact .damagedVerdict hP c s
  all_goals exact .damagedVerdict hP c s

theorem Acts.damagedHead (c : Callee) (s : State) : Acts P K N G I s (damagedHead c s) := by
  unfold Machine.damagedHead
  refine Acts.trans ?_ (.giveVerdict _ _)
  exact .of_still rfl rfl (Nat.le_refl _)

theorem Acts.takeResume (hP : ∀ u, P u) (c : Callee) (h : ResumeHead) (s : State) :
    Acts P K N G I s (takeResume c h s) := by
  unfold Machine.takeResume
  dsimp only
  refine Acts.trans (Acts.trans ?_ (.applyResume (hP _) _ _)) (.giveVerdict _ _)
  exact .of_still rfl rfl (Nat.le_refl _)

theorem Acts.handHead (hP : ∀ u, P u) (c : Callee) (h : Head) (s : State) : Acts P K N G I s (handHead c h s) := by
  unfold Machine.handHead
  dsimp only
  split
  · refine Acts.trans ?_ (.takeOpen _ _)
    exact .of_still rfl rfl (Nat.le_refl _)
  · refine Acts.trans ?_ (.takeWithdraw _ _)
    exact .of_still rfl rfl (Nat.le_refl _)
  · exact .takeResume hP _ _ s
  · exact .of_still rfl rfl (Nat.le_refl _)

theorem Acts.takeHead (hP : ∀ u, P u) (c : Callee) (f : Option Frame) (s : State) :
    Acts P K N G I s (takeHead c f s) := by
  unfold Machine.takeHead
  split
  · split
    · exact .handHead hP c _ s
    · exact .damagedHead c s
  all_goals exact .damagedHead c s

theorem Acts.calleeHead (hI : I) (hP : ∀ u, P u) (c : Callee) (f : Option Frame) (s : State) :
    Acts P K N G I s (calleeHead c f s) := by
  have h : Acts P K N G I s { s with choices := s.choices + 1 } := .of_still rfl rfl (Nat.le_refl _)
  unfold Machine.calleeHead
  split
  · split
    · exact h.trans (.takeClash hI hP _)
    · exact h.trans ((Acts.takeHead hP c f _).trans (.takeClash hI hP _))
  · exact .takeHead hP c f s

theorem Acts.callerFrameBeat (hP : ∀ u, P u) (c : Caller) (d : Beat) (dp : BitVec 2) (s : State) :
    Acts P K N G I s (callerFrameBeat c d dp s) := by
  unfold Machine.callerFrameBeat
  have h : Acts P K N G I s (giveTake (register d dp s)) := .of_still rfl rfl (Nat.le_refl _)
  dsimp only
  split
  · refine h.trans (Acts.trans ?_ (.callerFrame hP _ _ _))
    exact .of_still rfl rfl (Nat.le_refl _)
  · exact h

theorem Acts.callerMark (hP : ∀ u, P u) (c : Caller) (d : Beat) (dp : BitVec 2) (s : State) :
    Acts P K N G I s (callerMark c d dp s) := by
  unfold Machine.callerMark
  split
  · split
    · exact .callerFrameBeat hP c d dp s
    · exact (Acts.callerRunEnd hP _ _ _ s).trans (.callerFrameBeat hP _ _ _ _)
  · exact .callerFrameBeat hP c d dp s

theorem Acts.cutFrame (hP : ∀ u, P u) (c : Caller) (s : State) : Acts P K N G I s (cutFrame c s) :=
  Acts.trans (t := giveTake (emptyRegister s)) (.of_still rfl rfl (Nat.le_refl _))
    (.damagedVerdict hP _ _)

theorem Acts.callerData (hP : ∀ u, P u) (c : Caller) (d : Beat) (dp : BitVec 2) (s : State) :
    Acts P K N G I s (callerData c d dp s) := by
  unfold Machine.callerData
  split
  · exact .cutFrame hP c s
  · split
    · split
      · exact .refl s
      · exact .captureBeat hP _ _ _ s
    · split
      · exact .overrun hP s
      · split
        · exact Acts.trans (t := giveTake s) (.of_still rfl rfl (Nat.le_refl _))
            (.damagedVerdict hP _ _)
        · exact .refl s

theorem Acts.callerBeat (hP : ∀ u, P u) (c : Caller) (d : Beat) (dp : BitVec 2) (mark : Bool) (s : State) :
    Acts P K N G I s (callerBeat c d dp mark s) := by
  unfold Machine.callerBeat
  split
  · split
    · exact .callerFrameBeat hP c d dp s
    · split
      · exact .refl s
      · exact .cutFrame hP c s
  · split
    · exact .callerMark hP c d dp s
    · exact .callerData hP c d dp s

theorem Acts.calleeHeadBeat (hI : I) (hP : ∀ u, P u) (c : Callee) (d : Beat) (dp : BitVec 2) (mark : Bool) (s : State) :
    Acts P K N G I s (calleeHeadBeat c d dp mark s) := by
  unfold Machine.calleeHeadBeat
  have h : Acts P K N G I s (register d dp (giveTake s)) := .of_still rfl rfl (Nat.le_refl _)
  dsimp only
  split
  · split
    · refine h.trans (Acts.trans ?_ (.calleeHead hI hP _ _ _))
      exact .of_still rfl rfl (Nat.le_refl _)
    · exact h
  · refine Acts.trans ?_ (.damagedHead _ _)
    exact .of_still rfl rfl (Nat.le_refl _)

theorem Acts.calleeRunShort (hP : ∀ u, P u) (c : Callee) (s : State) : Acts P K N G I s (calleeRunShort c s) := by
  unfold Machine.calleeRunShort
  refine Acts.trans (Acts.trans (Acts.trans (t := emptyRegister s) ?_ (.closeRun _)) ?_)
    (.handCalleeRunEnd hP _ _ (fun _ => rfl) _)
  · exact .of_still rfl rfl (Nat.le_refl _)
  · exact .of_still rfl rfl (Nat.le_refl _)

theorem Acts.calleeRunBeat (hP : ∀ u, P u) (c : Callee) (r : Run) (d : Beat) (dp : BitVec 2) (mark : Bool) (s : State) :
    Acts P K N G I s (calleeRunBeat c r d dp mark s) := by
  unfold Machine.calleeRunBeat
  have h : Acts P K N G I s (giveTake (register d dp { s with bus.capture := [], bus.count := 0 })) :=
    .of_still rfl rfl (Nat.le_refl _)
  split
  · dsimp only
    split
    · exact h.trans (.calleeRunShort hP _ _)
    · exact h
  · split
    · exact Acts.trans (t := giveTake s) (.of_still rfl rfl (Nat.le_refl _)) (.calleeRunShort hP _ _)
    · exact .captureBeat hP _ _ _ s

theorem Acts.calleeBeat (hI : I) (hP : ∀ u, P u) (c : Callee) (d : Beat) (dp : BitVec 2) (mark : Bool) (s : State) :
    Acts P K N G I s (calleeBeat c d dp mark s) := by
  unfold Machine.calleeBeat
  split
  · exact .refl s
  · split
    · exact .calleeHeadBeat hI hP c d dp mark s
    · split
      · split
        · exact .refl s
        · exact .calleeRunBeat hP c _ d dp mark s
      · split
        · exact .overrun hP s
        · exact .refl s

theorem Acts.observeBeat (hI : I) (hP : ∀ u, P u) (d : Beat) (dp : BitVec 2) (mark : Bool) (s : State) :
    Acts P K N G I s (observeBeat d dp mark s) := by
  unfold Machine.observeBeat
  split
  · exact .refl s
  · split
    · dsimp only
      split
      · have h : Acts P K N G I s { emptyRegister (register d dp s) with bus.observed := true } :=
          .of_still rfl rfl (Nat.le_refl _)
        split
        · exact h.trans (.takeClash hI hP _)
        · exact h
      · exact .of_still rfl rfl (Nat.le_refl _)
    · split
      · exact .refl s
      · exact .of_still rfl rfl (Nat.le_refl _)

/-! ## The window and the grant -/

theorem Acts.openWindow (s : State) : Acts P K N G I s (openWindow s) := by
  unfold Machine.openWindow
  dsimp only
  split <;> exact .of_still rfl rfl (Nat.le_refl _)

theorem Acts.leaveWindow (s : State) : Acts P K N G I s (leaveWindow s) := .of_still rfl rfl (Nat.le_refl _)

/-- A station that is not ISOLATED afterwards changed its state alone. -/
theorem Acts.of_state {s : State} (x : StationState) (hs : x ≠ .isolated) (hI : I → s.station.state ≠ .isolated)
    (hG : G → ¬ closing s) : Acts P K N G I s { s with station.state := x } :=
  { Acts.refl (P := P) (K := K) (N := N) (G := G) (I := I) s with
    isolates := fun i => ⟨fun h => absurd h (hI i), .inl rfl⟩
    silent := fun _ h => absurd h hs
    phase := fun g h => absurd h (hG g)
    own := id
    issued := fun c _ hx => by cases c <;> exact hx }

/-- An update of the bids and of what else the tables do not hold. -/
theorem Acts.of_bids (hK : ¬ K) {s : State} (x : Bif)
    (hd : resetDrive { s with bus := x } = resetDrive s) (h : x.bresetSeen = s.bus.bresetSeen)
    (hr : x.runs = s.bus.runs) (ho : x.outbound = s.bus.outbound)
    (fresh : StallFresh s → StallFresh { s with bus := x } := by first | exact id | exact fun _ _ h => nomatch h) :
    Acts P K N G I s { s with bus := x } :=
  { Acts.refl (P := P) (K := K) (N := N) (G := G) (I := I) s with
    kept := by simp only [Machine.kept]; rw [h]
    drives := fun _ => hd
    isolates := fun _ => ⟨id, .inl hd⟩
    silent := fun hs k => hd.trans (hs k)
    fresh := fresh
    bids := fun k => absurd k hK
    drain := fun u hu => .inl (by simpa only [draining, hr] using hu)
    issued := fun c _ hx => by cases c <;> exact hx
    transit := fun ht => by simpa only [TransitBounded, hr, ho] using ht }

theorem Acts.callPresented (g : Grantee) (a : Addr) (s : State) : Acts P K N G I s (callPresented g a s) :=
  .of_still rfl rfl (Nat.le_refl _)

theorem Acts.grantLaunch (hK : ¬ K) {s t : State} (hP : ∀ u, choice s = some u → P u) (h : grantLaunch s = some t) :
    Acts P K N G I s t := by
  unfold Machine.grantLaunch at h
  split at h
  · cases h
  · next u hu =>
    have h0 : Acts P K N G I s { s with bus.nextGrantee := .serve } := .of_bids hK _ rfl rfl rfl rfl
    split at h
    · next hl =>
      cases h
      refine h0.trans (Acts.trans ?_ (.callPresented _ _ _))
      exact .dequeue (hP u hu) (liveOf_eq_some.mp hl) rfl rfl
    · next hl =>
      cases h
      refine h0.trans (Acts.trans ?_ (.callPresented _ _ _))
      exact .dequeue (hP u hu) (liveOf_eq_some.mp hl) rfl rfl
    · cases h

theorem Acts.grantServe (hK : ¬ K) {s t : State} (h : grantServe s = some t) : Acts P K N G I s t := by
  unfold Machine.grantServe at h
  split at h
  · split at h
    · cases h
      exact Acts.trans (t := { s with bus.nextGrantee := .launch }) (.of_bids hK _ rfl rfl rfl rfl) (.callPresented _ _ _)
    · cases h
  · cases h

theorem Acts.emptyTenure (s : State) : Acts P K N G I s (emptyTenure s) := .of_still rfl rfl (Nat.le_refl _)

theorem Acts.makeGrant (hK : ¬ K) (hI : ¬ I) {s : State} (hP : ∀ u, choice s = some u → P u)
    (hG : G → closing s → s.bus.claims.probe = false) : Acts P K N G I s (makeGrant s) := by
  unfold Machine.makeGrant
  have hl : ∀ t, (if s.bus.claims.launch = true then Machine.grantLaunch s else none) = some t → Acts P K N G I s t := by
    intro t ht; split at ht
    · exact .grantLaunch hK hP ht
    · cases ht
  have hs : ∀ t, (if s.bus.claims.serve = true then Machine.grantServe s else none) = some t → Acts P K N G I s t := by
    intro t ht; split at ht
    · exact .grantServe hK ht
    · cases ht
  dsimp only
  split
  · next hp =>
    refine (Acts.of_state (.joining .calling) nofun (fun i => absurd i hI) fun g h => ?_).trans (.callPresented _ _ _)
    rw [hG g h] at hp; cases hp
  · split
    all_goals first | exact hl _ (by assumption) | exact hs _ (by assumption) | exact .emptyTenure s

theorem Acts.winWindow (hK : ¬ K) (hI : ¬ I) {s : State} (hP : ∀ u, choice s = some u → P u)
    (hG : G → closing s → s.bus.claims.probe = false) : Acts P K N G I s (winWindow s) := by
  unfold Machine.winWindow
  refine Acts.trans ?_ (.makeGrant hK hI (fun u hu => hP u ((choice_congr (s := s) rfl rfl).symm.trans hu)) hG)
  exact .of_bids hK _ rfl rfl rfl rfl

theorem Acts.endWindow (hK : ¬ K) (hI : ¬ I) {s : State} (hP : ∀ u, choice s = some u → P u)
    (hG : G → closing s → s.bus.claims.probe = false) (want : Bool) (d : Beat) :
    Acts P K N G I s (endWindow want d s) := by
  unfold Machine.endWindow
  split
  · exact (Acts.leaveWindow s).trans (.of_still rfl rfl (Nat.le_refl _))
  · split
    · refine (Acts.leaveWindow s).trans (Acts.trans ?_ (.openWindow _))
      exact .of_bids hK _ rfl rfl rfl rfl
    · split
      · exact (Acts.leaveWindow s).trans
          (.winWindow hK hI (fun u hu => hP u ((choice_congr (s := s) rfl rfl).symm.trans hu)) hG)
      · exact (Acts.leaveWindow s).trans (.of_still rfl rfl (Nat.le_refl _))

/-! ## The bus reset -/

theorem Acts.resetEntry (hP : ∀ u, P u) (t : Tag) (s : State) : Acts P K N G I s (resetEntry s t) := by
  unfold Machine.resetEntry
  split
  · split
    · exact .complete (hP t) _ s
    · exact .refl s
  · exact .refl s

theorem Acts.resetBif (hP : ∀ u, P u) (hK : ¬ K) (s : State) : Acts P K N G I s (resetBif s) := by
  unfold Machine.resetBif
  refine Acts.trans (Acts.leaveTenure fun u _ => hP u) ?_
  refine Acts.trans (t := { Machine.leaveTenure s with bus.runs := [] }) (.of_runs rfl (.nil _) (Nat.le_refl _)) ?_
  exact .of_bids hK _ rfl rfl rfl rfl

theorem Acts.resetServe (s : State) : Acts P K N G I s (resetServe s) := by
  unfold Machine.resetServe
  refine Acts.trans ?_ (.abandonFill _)
  exact .emptyServe rfl ⟨rfl, rfl⟩ rfl rfl

theorem Acts.resetStation (s : State) : Acts P K N G I s (resetStation s) := by
  unfold Machine.resetStation
  split
  · next h => exact .of_state _ nofun (fun _ => by rw [h]; nofun) fun _ k => by simp [closing, h] at k
  all_goals exact .refl s

theorem Acts.busResetSeen (hP : ∀ u, P u) (hK : ¬ K) (s : State) : Acts P K N G I s (busResetSeen s) := by
  have h := (Acts.resetBif (P := P) (N := N) (G := G) (I := I) hP hK s).trans (.foldl Machine.resetEntry
    (liveByAcc (Machine.resetBif s)) (fun t _ s => .resetEntry hP t s) _)
  exact h.trans ((Acts.forgetTerms _).trans ((Acts.resetServe _).trans ((Acts.resetStation _).trans (.setNotice _ _))))

/-! ## What follows an event -/

theorem Acts.feedNote (s : State) : Acts P K N G I s (feedNote s) := by
  unfold Machine.feedNote
  split
  · next r rs hr =>
    split
    · next hs =>
      refine Acts.trans (t := { s with bus.runs := { r with bytes := [] } :: rs }) ?_ (.modifyWork _ _ fun v => ?_)
      · refine .of_runs rfl ?_ (Nat.le_refl _)
        rw [hr]
        exact .head rs (Nat.zero_le _) fun u hu => by simp [reportsTo, hs] at hu
      · simp only [holdsPlace]; cases v.work <;> rfl
    · exact .refl s
  · exact .refl s

theorem inboundHeld_filter (f : InRun → Bool) (rs : List InRun) : inboundHeld (rs.filter f) ≤ inboundHeld rs := by
  induction rs with
  | nil => exact Nat.le_refl _
  | cons r rs ih =>
    rw [List.filter_cons]
    split
    · rw [inboundHeld_cons, inboundHeld_cons]; omega
    · rw [inboundHeld_cons]; omega

theorem inboundHeld_drainRuns (rs : List InRun) : inboundHeld (drainRuns rs).1 ≤ inboundHeld rs := by
  have hd : ∀ r, (discardBytes r).bytes.length ≤ r.bytes.length := fun r => by
    unfold discardBytes; split
    · exact Nat.zero_le _
    · exact Nat.le_refl _
  induction rs with
  | nil => exact Nat.le_refl _
  | cons r rs ih =>
    unfold drainRuns
    have := hd r
    split
    · rw [inboundHeld_cons]; dsimp only; omega
    · have hf := inboundHeld_filter (fun q => !runGone q) rs
      rw [inboundHeld_cons, inboundHeld_cons]; omega

theorem Acts.pump {s : State} (hP : ∀ u, draining s u → P u) : Acts P K N G I s (pump s) := by
  have hf := Acts.feedNote (P := P) (K := K) (N := N) (G := G) (I := I) s
  have hf' := Settles.feedNote (P := P) s
  refine hf.trans ?_
  have hd := drainRuns_spec (Machine.feedNote s).bus.runs
  refine Acts.trans (t := { Machine.feedNote s with bus.runs := (drainRuns (Machine.feedNote s).bus.runs).1 }) ?_
    (.foldl _ _ ?_ _)
  · refine .of_runs rfl ⟨inboundHeld_drainRuns _, fun r hr u hu => ?_⟩ (Nat.le_refl _)
    obtain ⟨r', h', e⟩ := hd.1 r hr
    exact ⟨r', h', e ▸ hu⟩
  · intro i hi t
    refine .itemDrained (fun ho => hP _ (hf'.drain _ ?_)) _
    obtain ⟨r', h', e⟩ := hd.2 i (mem_itemsByAcc.mp hi).1
    exact ⟨r', h', by simp [reportsTo, e, ho]⟩

theorem Acts.pass {s : State} (hP : ∀ u, draining s u → P u) : Acts P K N G I s (pass s) := by
  refine (Acts.pump hP).trans ?_
  refine Acts.trans ?_ ((Acts.presentServe _).trans ((Acts.presentMover _).trans (.presentLister _)))
  refine Acts.trans ?_ ((Acts.placeOutJob _).trans ((Acts.placeFetch _).trans (.placeChunk _)))
  exact (Acts.storeProgress _).trans ((Acts.fetchProgress _).trans ((Acts.swapProgress _).trans (.startFill _)))

theorem Acts.drainToOffline (hG : ¬ G) (s : State) : Acts P K N G I s (drainToOffline s) := by
  unfold Machine.drainToOffline
  split
  · next h =>
    refine (Acts.forgetTerms s).trans (.changeState _ _ (fun _ => ?_) nofun fun g => absurd g hG)
    show s.station.state ≠ _
    rw [h.1]; nofun
  · exact .refl s

theorem Acts.updateClaims (s : State) : Acts P K N G I s (updateClaims s) := .of_still rfl rfl (Nat.le_refl _)

theorem Acts.contendInIdle (s : State) : Acts P K N G I s (contendInIdle s) := by
  unfold Machine.contendInIdle
  split
  · exact .openWindow s
  · exact .refl s

theorem Acts.updateStall (s : State) : Acts P K N G I s (updateStall s) := by
  unfold Machine.updateStall
  split
  · refine .of_still rfl rfl (Nat.le_refl _) fun h n hn => ?_
    cases hs : s.bus.stallTimer with
    | none => simpa [hs] using hn.symm
    | some m =>
      rw [hs] at hn
      exact (Option.some.inj hn).symm.trans (h m hs)
  · exact .of_still rfl rfl (Nat.le_refl _)

/-- Everything that follows at once from an event, whole. -/
theorem Acts.settle (hG : ¬ G) {s : State} (hP : ∀ u, draining s u → P u) : Acts P K N G I s (settle s) := by
  have h1 := Acts.pass (P := P) (K := K) (N := N) (G := G) (I := I) hP
  have hP1 : ∀ u, draining (Machine.pass s) u → P u := fun u hu => (h1.drain u hu).elim (hP u) id
  have h2 := Acts.pass (P := P) (K := K) (N := N) (G := G) (I := I) hP1
  have hP2 : ∀ u, draining (Machine.pass (Machine.pass s)) u → P u := fun u hu => (h2.drain u hu).elim (hP1 u) id
  have h3 := Acts.pass (P := P) (K := K) (N := N) (G := G) (I := I) hP2
  refine ((h1.trans h2).trans h3).trans ?_
  refine (Acts.arbitrate hG _).trans ((Acts.drainToOffline hG _).trans ((Acts.updateClaims _).trans ?_))
  exact (Acts.contendInIdle _).trans (.updateStall _)

/-- An operation and what follows it. -/
theorem Acts.settled_by (hG : ¬ G) {s t : State} (h : Acts P K N G I s t) (hP : ∀ u, draining s u → P u) :
    Acts P K N G I s (Machine.settle t) :=
  h.trans (.settle hG fun u hu => (h.drain u hu).elim (hP u) id)

/-- What a settling does up to the test of the drain leaves the station in DRAINING, or ISOLATED. -/
theorem closing_beforeDrain {s : State} (h : closing s) : closing (beforeDrain s) := by
  have hp : ∀ s : State, closing s → closing (Machine.pass s) := fun s =>
    (Acts.pass (P := fun _ => True) (K := False) (N := False) (G := True) (I := False) (fun _ _ => trivial)).phase trivial
  have ha : ∀ s : State, closing s → closing (Machine.arbitrate s) := fun s k => by
    unfold Machine.arbitrate
    split
    · exact k
    · split <;> exact k
  exact ha _ (hp _ (hp _ (hp _ h)))

/-- A settling leaves DRAINING, or ISOLATED, by the end of the drain alone. -/
theorem drainedOut_settle {s : State} (h : closing s) : closing (Machine.settle s) ∨ DrainedOut (Machine.settle s) := by
  obtain ⟨hv, ht, hp⟩ := settle_afterDrain s
  have hd := closing_beforeDrain h
  generalize beforeDrain s = d at hv ht hp hd
  have hc := drainCondition_congr hv
  simp only [drainView, Prod.mk.injEq] at hv
  simp only [DrainedOut, closing, hc, hv.1, roleOf_congr hv.2.2.2, noticeSet, termsOf, hp, ht]
  unfold Machine.drainToOffline
  split
  · next k =>
    refine .inr ⟨rfl, (drainCondition_iff d).mp k.2.1, k.2.2, ?_, fun a => ?_⟩
    · have k : ∀ n : BitVec 6, (n ||| Notice.stateChanged.bit) &&& Notice.stateChanged.bit != 0 := by decide
      exact k _
    · simp [Machine.changeState, Machine.setNotice, Machine.forgetTerms]
  · exact .inl hd

/-! ## A tenure broken off, and the turn of the callee -/

theorem slotOf_launchRunEnd {s : State} {u : Tag} {b : Body} {o : Bool} {r : OpenRecord}
    (h : slotOf s u = .live b (.connOpen o r)) (taken : Nat) (short : Bool) :
    slotOf (launchRunEnd u taken short s) u =
      .live { b with bytesDone := taken } (.connOpen o { r with bytesTaken := taken, short := short }) := by
  simp only [launchRunEnd, liveOf_eq_some.mpr h, slotOf_setLive, if_true]

/-- The run that an interject cuts hands its bytes taken (R37, R107). -/
theorem slotOf_interject {s : State} {c : Caller} {u : Tag} {b : Body} {o : Bool} {r : OpenRecord}
    (hc : s.bus.tenure = .caller c) (hg : c.grantee = .launch u) (h : slotOf s u = .live b (.connOpen o r)) :
    slotOf (interject s) u =
      if s.bus.drive.interject then .live b (.connOpen o r)
      else .live (cutBody s b) (.connOpen o (cutRecord s r)) := by
  unfold interject
  split
  · exact h
  · show slotOf (handCutRun s) u = _
    unfold handCutRun cutBody cutRecord
    rw [hc]
    cases s.bus.run with
    | none => exact h
    | some q => simp only [hg]; exact slotOf_launchRunEnd h _ _

/-- A tenure broken off leaves the entry so after everything that follows at once (R16, R37). -/
theorem brokenOff_settle_interject {s : State} {c : Caller} {u : Tag} {b : Body} {o : Bool} {r : OpenRecord}
    (hc : s.bus.tenure = .caller c) (hg : c.grantee = .launch u) (h : slotOf s u = .live b (.connOpen o r))
    (hr : r.ended = false) : BrokenOff s (settle (interject s)) u b o r := by
  have k := slotOf_interject hc hg h
  unfold BrokenOff
  split <;> rename_i hi
  · exact connOpenIs_settle (by rw [k, if_pos hi]) hr
  · exact connOpenIs_settle (by rw [k, if_neg hi]) (by unfold cutRecord; split <;> exact hr)

/-- A fault handed to an OPEN tenure decides its outcome if none is decided (R94). -/
theorem slotOf_handCallerFault {s : State} {c : Caller} {u : Tag} {b : Body} {o : Bool} {r : OpenRecord}
    (hg : c.grantee = .launch u) (h : slotOf s u = .live b (.connOpen o r)) (f : RetryFault) :
    slotOf (handCallerFault c f s) u =
      .live b (.connOpen o { r with outcome := some (r.outcome.getD (.retry f)) }) := by
  simp only [handCallerFault, hg, launchFault, liveOf_eq_some.mpr h, slotOf_setLive, if_true, OpenRecord.decide]

/-- A fault and the interject that follows it, after everything that follows at once. -/
theorem brokenOff_settle_fault {s : State} {c : Caller} {u : Tag} {b : Body} {o : Bool} {r : OpenRecord}
    (hc : s.bus.tenure = .caller c) (hg : c.grantee = .launch u) (h : slotOf s u = .live b (.connOpen o r))
    (hr : r.ended = false) (f : RetryFault) :
    BrokenOff s (settle (interject (handCallerFault c f s))) u b o
      { r with outcome := some (r.outcome.getD (.retry f)) } := by
  have hb : (handCallerFault c f s).bus = s.bus := by
    simp only [handCallerFault, hg, launchFault, liveOf_eq_some.mpr h, setLive_bus]
  have k := brokenOff_settle_interject (s := handCallerFault c f s) (by rw [hb]; exact hc) hg
    (slotOf_handCallerFault hg h f) hr
  simpa only [BrokenOff, cutBody, cutRecord, hb] using k

/-- At the end of its run the callee's stall timer stands, so that it starts from zero with the verdict (R15, R35). -/
theorem stallFresh_settle_runComplete {s : State} {c : Callee} (hc : s.bus.tenure = .callee c) (r : Run) :
    StallFresh (settle (runComplete r s)) := by
  have h : StallFresh (runComplete r s) := by
    unfold Machine.runComplete
    rw [hc]
    exact (Acts.handCalleeRunEnd (P := fun _ => True) (K := False) (N := False) (G := False) (I := False)
      (fun _ => trivial) _ _ (fun h => h.elim) _).fresh nofun
  exact (Acts.settle (P := fun _ => True) (K := False) (N := False) (G := False) (I := False) id
    (fun _ _ => trivial)).fresh h

end Sys2Proof.Machine
end

