-- ==== Sys2Proof/Laws/Commands.lean ====
section
/-! SUPPORT. What the commands can change: `Acts` for the operations that only they use, and for the commands that write no
entry, no control result and no register of the Local Port. -/

namespace Sys2Proof.Machine

set_option Elab.async false

variable {P : Tag → Prop} {K N G I : Prop}

/-! ## Operations of the commands of a tenure -/

theorem Acts.armObserver (s : State) : Acts P K N G I s (armObserver s) := by
  unfold Machine.armObserver
  split
  · exact .of_still rfl rfl (Nat.le_refl _)
  · exact .refl s

theorem Acts.leaveActive (s : State) : Acts P K N G I s (leaveActive s) := by
  unfold Machine.leaveActive
  split
  · exact .of_still rfl rfl (Nat.le_refl _)
  · exact .refl s

theorem Acts.seeCall (s : State) : Acts P K N G I s (seeCall s) := by
  unfold Machine.seeCall
  refine Acts.trans ?_ (.armObserver _)
  split
  · exact .of_still rfl rfl (Nat.le_refl _)
  · exact .refl s

theorem Acts.answerCall (word : Beat) (s : State) : Acts P K N G I s (answerCall word s) :=
  .of_still rfl rfl (Nat.le_refl _) fun _ _ h => (Option.some.inj h).symm

theorem Acts.giveHead (h : Head) (s : State) : Acts P K N G I s (giveHead h s) := by
  unfold Machine.giveHead
  split
  · refine Acts.trans ?_ (.sendFrame _ _)
    exact .of_still rfl rfl (Nat.le_refl _)
  all_goals exact .refl s

theorem Acts.launchAnswered {c : Caller} {t : Tag} {s : State} (hg : c.grantee = .launch t) (hP : P t)
    (hT : ∀ u, engages s u → P u)
    (hC : ∀ u, c.grantee = .launch u → P u) :
    Acts P K N G I s (launchAnswered c t s) := by
  unfold Machine.launchAnswered
  split
  · next hl =>
    split
    · exact .endCaller hT hC (by rw [hg]; nofun)
    · dsimp only
      refine Acts.trans ?_ (.giveHead _ _)
      exact .setLive hP (liveOf_eq_some.mp hl) rfl rfl
  · next hl =>
    refine Acts.trans ?_ (.giveHead _ _)
    exact .setLive hP (liveOf_eq_some.mp hl) rfl rfl
  · exact .refl s

theorem Acts.serveAnswered (s : State) : Acts P K N G I s (serveAnswered s) := by
  unfold Machine.serveAnswered
  split
  · refine Acts.trans ?_ (.giveHead _ _)
    exact .of_still rfl rfl (Nat.le_refl _)
  · exact .refl s

theorem Acts.takeAnswer {c : Caller} {s : State} (hC : ∀ u, c.grantee = .launch u → P u) :
    Acts P K N G I s (takeAnswer c s) := by
  have h : Acts P K N G I s (callAnswered c s) :=
    .of_still rfl rfl (Nat.le_refl _) fun _ _ h => (Option.some.inj h).symm
  unfold Machine.takeAnswer
  dsimp only
  split
  · next t ht => exact h.trans (.launchAnswered ht (hC t ht) (fun u hu => hC u hu) hC)
  · exact h.trans (.serveAnswered _)
  · exact h.trans (.giveHead _ _)

theorem Acts.handCallTimeout {c : Caller} (hI : ¬ I) (hC : ∀ u, c.grantee = .launch u → P u)
    (hG : G → c.grantee ≠ .probe) (s : State) : Acts P K N G I s (handCallTimeout c s) := by
  unfold Machine.handCallTimeout
  split
  · next h => exact .launchCallTimeout (hC _ h) s
  · exact .chargeHead s
  · next h => exact .changeState _ s (fun i => absurd i hI) nofun fun g => absurd h (hG g)

theorem Acts.abandonVerdict {c : Callee} (hC : ∀ u, c.owner = some (.launch (some u)) → P u) (s : State) :
    Acts P K N G I s (abandonVerdict c s) := by
  unfold Machine.abandonVerdict
  split
  · next h => exact .modifyResume (hC _ h) _ s
  all_goals exact .refl s

theorem Acts.answerInterject (hP : ∀ u, P u) (c : Callee) (s : State) : Acts P K N G I s (answerInterject c s) := by
  unfold Machine.answerInterject
  have h : Acts P K N G I s (if s.bus.tx.isSome = true then Machine.abandonVerdict c s else s) := by
    split
    · exact .abandonVerdict (fun u _ => hP u) s
    · exact .refl s
  dsimp only
  split
  · refine (h.trans (.cutRun fun u _ => hP u)).trans (Acts.trans ?_ (.sendFrame _ _))
    exact .of_still rfl rfl (Nat.le_refl _)
  · exact h.trans (.leaveTenure fun u _ => hP u)

theorem Acts.restartStall (s : State) : Acts P K N G I s (restartStall s) := .of_still rfl rfl (Nat.le_refl _)

theorem Acts.latchBeat (hI : I) (hP : ∀ u, P u) (d : Beat) (dp : BitVec 2) (mark : Bool) (s : State) :
    Acts P K N G I s (latchBeat d dp mark s) := by
  unfold Machine.latchBeat
  split
  · exact .observeBeat hI hP d dp mark s
  · split
    · exact (Acts.restartStall s).trans (.callerBeat hP _ d dp mark _)
    · exact .refl s
  · split
    · exact .observeBeat hI hP d dp mark s
    · exact (Acts.restartStall s).trans (.calleeBeat hI hP _ d dp mark _)

theorem Acts.seeTake (hI : I) (hP : ∀ u, P u) (hN : ¬ N) (s : State) : Acts P K N G I s (seeTake s) := by
  unfold Machine.seeTake
  split
  · exact .refl s
  · split
    · exact .partyTake hI hP hN s
    · exact .refl s
  · split
    · exact .refl s
    · exact .partyTake hI hP hN s

/-! ## Operations of the timers, of CANCEL and of the Memory Port's commands -/

theorem Acts.endHoldOff {t : Tag} (hP : P t) (s : State) : Acts P K N G I s (endHoldOff t s) := by
  unfold Machine.endHoldOff
  split
  · next hl => exact .setLive hP (liveOf_eq_some.mp hl) rfl rfl
  · next hl => exact .setLive hP (liveOf_eq_some.mp hl) rfl rfl
  · exact .refl s

theorem Acts.endPark {t : Tag} (hP : P t) (s : State) : Acts P K N G I s (endPark t s) := by
  unfold Machine.endPark
  split
  · next hl => exact .withdraw hP (liveOf_eq_some.mp hl) rfl
  · exact .refl s

theorem Acts.cancelEntry {t : Tag} {s : State} (hP : P t) (hT : ∀ u, engages s u → P u) {b : Body} {p : Phase}
    (h : slotOf s t = .live b p) : Acts P K N G I s (cancelEntry t b p s) := by
  have live : inQueueState (.live { b with cancel := true } p) = inQueueState (.live b p) →
      Acts P K N G I s (Machine.setLive t { b with cancel := true } p s) := fun hq => .setLive hP h hq rfl
  unfold Machine.cancelEntry
  dsimp only
  split
  · exact .completeCancelledAtZero hP s
  · exact .completeCancelledAtZero hP s
  · split
    · exact (live rfl).trans (.interject fun u hu => hT u hu)
    · exact live rfl
  · exact .withdraw hP h rfl
  all_goals exact live rfl

/-- A CANCEL that names a tag acts on the state in which its record has been taken. -/
theorem Acts.cancelTag {t : Tag} {s : State} (hP : P t) (hT : ∀ u, engages s u → P u) :
    ∃ r, Acts P K N G I (takeUrgent r s) (cancelTag t s) := by
  unfold Machine.cancelTag
  split
  · next hl => exact ⟨.accepted, .cancelEntry (s := takeUrgent .accepted s) hP hT (liveOf_eq_some.mp hl)⟩
  · exact ⟨.refusedState, .refl _⟩

theorem Acts.outReadDone {s : State} (hP : ∀ j, s.launch.outJob = some j → P j.tag) (hT : ∀ u, engages s u → P u)
    (result : Completion) : Acts P K N G I s (outReadDone result s) := by
  unfold Machine.outReadDone
  split
  · exact .refl s
  · next j hj =>
    split
    · exact .refl s
    · exact .of_still rfl rfl (Nat.le_refl _)
    · unfold outReadFault
      refine Acts.trans (t := { s with launch.outJob := some { j with flight := none, stopped := true } })
        (.of_still rfl rfl (Nat.le_refl _)) ?_
      refine (Acts.modifyOpen (hP j hj) _ _).trans (.interject fun u hu => hT u ?_)
      revert hu
      unfold Machine.modifyOpen
      split <;> exact id

theorem Acts.itemWriteDone {s : State} {i : MoverItem} {r : InRun} {rs : List InRun} (hP : P i.tag)
    (hr : s.bus.runs = r :: rs) (hi : r.sink = .mover i) (n : Nat) (result : Completion) :
    Acts P K N G I s (itemWriteDone i r rs n result s) := by
  have run : ∀ j : MoverItem, j.recordOpen = i.recordOpen → j.tag = i.tag →
      Acts P K N G I s { s with bus.runs := { r with sink := .mover j, flight := none } :: rs } := fun j h1 h2 => by
    refine .of_runs rfl ?_ (Nat.le_refl _)
    rw [hr]
    refine .head rs (Nat.le_refl _) fun u hu => ?_
    simpa [reportsTo, hi, h1, h2] using hu
  unfold Machine.itemWriteDone
  split
  · exact run { i with written := i.written + n } rfl rfl
  · exact (run { i with localFault := true } rfl rfl).trans (.itemFault hP _)

theorem Acts.moverTxnDone (hP : ∀ u, P u) (result : Completion) (s : State) :
    Acts P K N G I s (moverTxnDone result s) := by
  unfold Machine.moverTxnDone
  split
  · next hr =>
    split
    · next hi _ => exact .itemWriteDone (hP _) hr hi _ _
    · exact .outReadDone (fun j _ => hP j.tag) (fun u _ => hP u) _
  · exact .outReadDone (fun j _ => hP j.tag) (fun u _ => hP u) _

/-- The release of the port changes the Memory Port alone. -/
theorem releasePort_mem (c : Client) (s : State) : ∃ m, releasePort c s = { s with mem := m } := by
  unfold releasePort grantWaiting
  split
  · cases c <;> exact ⟨_, rfl⟩
  · cases c <;> exact ⟨_, rfl⟩

/-! ## The commands whole -/

/-- The commands that write no entry, no control result and no register of the Local Port. -/
def tenureCommand : Instr → Bool
  | .idleTimerExpiry | .wantSeenInIdle | .busyOrCallSeenInIdle | .busyNegatedSeen | .windowTimerExpiry _ _ | .callSeen _ _
  | .answerSeen | .callTimerExpiry | .answerNegatedSeen | .busyNegatedAtCallee | .stallTimerExpiry
  | .interjectTimerExpiry | .interjectSeen | .beatLatched _ _ _ | .takeSeen | .takeDataBeat | .strobeBeat
  | .bresetDetectTimerExpiry | .holdOffExpiry _ | .parkTimerExpiry _ | .verdictTimerExpiry | .ignoredWrite _ _
  | .idleTimerRestarted => true
  | _ => false

/-- The commands that may change a bid. -/
def bidCommand : Instr → Bool
  | .windowTimerExpiry _ _ | .bresetDetectTimerExpiry => true
  | _ => false

/-- The commands that may place a note. -/
def noteCommand : Instr → Bool
  | .takeSeen | .takeDataBeat => true
  | _ => false

/-- The commands that may isolate the station. -/
def isolatingCommand : Instr → Bool
  | .answerNegatedSeen | .interjectTimerExpiry | .beatLatched _ _ _ | .takeSeen => true
  | _ => false

theorem drainView_armObserver (s : State) : drainView (armObserver s) = drainView s := by
  unfold armObserver; split <;> rfl

/-- The station calls no probe. -/
def probesNot (s : State) : Prop := ∀ c, s.bus.tenure = .caller c → c.grantee ≠ .probe

/-- Such a command answers a next state `m` that differs from the state before it as `Acts` allows, or the state that `m`
settles to. Without a settling it leaves what the drain is judged by. -/
theorem exec_act {i : Instr} (h : tenureCommand i = true) (s : State) :
    ∃ m, (exec i s = .next m ∧ drainView m = drainView s ∨ exec i s = .next (Machine.settle m)) ∧
      Acts (fun _ => True) (bidCommand i = false) (noteCommand i = false) (probesNot s) (isolatingCommand i = true) s m := by
  have all : ∀ u : Tag, (fun _ => True) u := fun _ => trivial
  have same : ∀ {K N G I : Prop}, ∃ m, ((Host.Outcome.next s : Host.Outcome State Fault Refusal) = .next m ∧
      drainView m = drainView s ∨
        (Host.Outcome.next s : Host.Outcome State Fault Refusal) = .next (Machine.settle m)) ∧
      Acts (fun _ => True) K N G I s m := ⟨s, .inl ⟨rfl, rfl⟩, .refl s⟩
  cases i
  all_goals try cases h
  case idleTimerExpiry =>
    simp only [exec, execIdleTimerExpiry]; split
    · exact ⟨_, .inr rfl, (Acts.flushFinished fun u _ => all u).trans ((Acts.updateClaims _).trans (.openWindow _))⟩
    · exact same
  case wantSeenInIdle =>
    simp only [exec, execWantSeenInIdle]; split
    · exact ⟨_, .inr rfl, .openWindow s⟩
    · exact same
  case busyOrCallSeenInIdle =>
    simp only [exec, execBusyOrCallSeenInIdle]; split
    · exact ⟨_, .inl ⟨rfl, drainView_armObserver _⟩, Acts.trans (t := { s with bus.view := .active, bus.idleTimer := none })
        (.of_still rfl rfl (Nat.le_refl _)) (.armObserver _)⟩
    · exact same
  case busyNegatedSeen =>
    simp only [exec, execBusyNegatedSeen]; split
    · exact same
    · exact ⟨_, .inr rfl, (Acts.flushFinished fun u _ => all u).trans ((Acts.armObserver _).trans (.leaveActive _))⟩
  case windowTimerExpiry want d =>
    have hK : ¬ bidCommand (.windowTimerExpiry want d) = false := Bool.noConfusion
    have hI : ¬ isolatingCommand (.windowTimerExpiry want d) = true := Bool.noConfusion
    have h : ∀ {K N G I : Prop}, Acts (fun _ => True) K N G I s (Machine.updateClaims (Machine.flushFinished s)) :=
      (Acts.flushFinished fun u _ => all u).trans (.updateClaims _)
    simp only [exec, execWindowTimerExpiry]; split
    · refine ⟨_, .inr rfl, h.trans (.endWindow hK hI (fun u _ => all u) (fun _ k => ?_) _ _)⟩
      show (_ == StationState.joining .waiting) = false
      rcases k with k | k <;> exact beq_false_of_ne fun e => by cases k.symm.trans e
    · exact same
  case callSeen word dp =>
    have h : ∀ {K N G I : Prop}, Acts (fun _ => True) K N G I s (Machine.seeCall (Machine.flushFinished s)) :=
      (Acts.flushFinished fun u _ => all u).trans (.seeCall _)
    simp only [exec, execCallSeen]; split
    · exact ⟨_, .inr rfl, h.trans (.answerCall _ _)⟩
    · exact ⟨_, .inr rfl, h⟩
  case answerSeen =>
    simp only [exec, execAnswerSeen]; split
    · split
      · exact same
      · exact ⟨_, .inr rfl, .takeAnswer fun u _ => all u⟩
    all_goals exact ⟨_, .inl ⟨rfl, drainView_armObserver s⟩, .armObserver s⟩
  case callTimerExpiry =>
    simp only [exec, execCallTimerExpiry]; split
    · next hc _ =>
      split
      · exact same
      · refine ⟨_, .inr rfl, (Acts.trans ((Acts.leaveTenure fun u _ => all u).trans ?_)
          (.handCallTimeout (nofun : ¬ isolatingCommand .callTimerExpiry = true) (fun u _ => all u) (fun g => g _ hc) _))⟩
        exact .of_still rfl rfl (Nat.le_refl _)
    · exact same
  case answerNegatedSeen =>
    simp only [exec, execAnswerNegatedSeen]; split
    · split
      · exact same
      · split
        · exact ⟨_, .inr rfl, .endCaller (fun u _ => all u) (fun u _ => all u) (fun _ => ⟨rfl, all⟩)⟩
        · exact ⟨_, .inr rfl, ((Acts.handCallerFault (fun u _ => all u) _ s).trans
            (.endCaller (fun u _ => all u) (fun u _ => all u) (fun _ => ⟨rfl, all⟩)))⟩
    all_goals exact same
  case busyNegatedAtCallee =>
    simp only [exec, execBusyNegatedAtCallee]; split
    · exact ⟨_, .inr rfl, .endCallee (fun u _ => all u) (fun u _ => all u)⟩
    all_goals exact same
  case stallTimerExpiry =>
    simp only [exec, execStallTimerExpiry]; split
    · refine ⟨_, .inr rfl, (Acts.trans (t := { s with bus.stallTimer := none }) ?_
        ((Acts.handCallerFault (fun u _ => all u) _ _).trans (.interject fun u _ => all u)))⟩
      exact .of_still rfl rfl (Nat.le_refl _)
    · exact ⟨_, .inr rfl, .endCallee (fun u _ => all u) (fun u _ => all u)⟩
    · exact same
  case interjectTimerExpiry =>
    simp only [exec, execInterjectTimerExpiry]; split
    · exact ⟨_, .inr rfl, .endCaller (fun u _ => all u) (fun u _ => all u) (fun _ => ⟨rfl, all⟩)⟩
    · exact same
  case interjectSeen =>
    simp only [exec, execInterjectSeen]; split
    · exact ⟨_, .inr rfl, .answerInterject all _ s⟩
    · exact same
  case beatLatched d dp mark => exact ⟨_, .inr rfl, .latchBeat rfl all d dp mark s⟩
  case takeSeen => exact ⟨_, .inr rfl, .seeTake rfl all Bool.noConfusion s⟩
  case takeDataBeat => exact ⟨_, .inr rfl, .takeCaptured all Bool.noConfusion s⟩
  case strobeBeat => exact ⟨_, .inr rfl, .strobeNext s⟩
  case bresetDetectTimerExpiry =>
    have hK : ¬ bidCommand .bresetDetectTimerExpiry = false := Bool.noConfusion
    simp only [exec, execBresetDetectTimerExpiry]; split
    · exact ⟨_, .inr rfl, .busResetSeen all hK s⟩
    · exact same
  case holdOffExpiry t => exact ⟨_, .inr rfl, .endHoldOff (all t) s⟩
  case parkTimerExpiry t => exact ⟨_, .inr rfl, .endPark (all t) s⟩
  case verdictTimerExpiry =>
    simp only [exec, execVerdictTimerExpiry]; split
    · exact ⟨_, .inr rfl, (Acts.trans (t := { s with serve.verdictTimer := none })
        (.of_still rfl rfl (Nat.le_refl _)) (.verdictExpiry _))⟩
    · exact same
  case ignoredWrite => exact same
  case idleTimerRestarted =>
    simp only [exec, execIdleTimerRestarted]; split
    · exact ⟨_, .inl ⟨rfl, rfl⟩, .of_still rfl rfl (Nat.le_refl _)⟩
    · exact same

/-- The same, with what has settled. -/
theorem exec_acts {i : Instr} (h : tenureCommand i = true) (s : State) :
    ∃ t, exec i s = .next t ∧ Acts (fun _ => True) (bidCommand i = false) (noteCommand i = false) False
      (isolatingCommand i = true) s t := by
  obtain ⟨m, hm, a⟩ := exec_act h s
  have a' := a.mono (Q := fun _ => True) (fun _ => id) id id (G' := False) nofun
  rcases hm with ⟨hm, _⟩ | hm
  · exact ⟨m, hm, a'⟩
  · exact ⟨_, hm, a'.settled_by id fun _ _ => trivial⟩

end Sys2Proof.Machine
end

