-- ==== Sys2Proof/Laws/Intake.lean ====
section
/-! SUPPORT. What the taking of an order and the List Reader can change, said once: each is related to its argument by
`Intakes`. Also what half a microsecond changes, and the grant that a settling leaves. -/

namespace Sys2Proof.Machine

set_option Elab.async false

/-- The fields that intake leaves. -/
def intakeKept (s : State) :=
  (s.station.strap, (s.bus.drive.breset, s.bus.bresetDrive, s.bus.bresetSeen), s.serve.swapMemo,
    (s.port.assembly, s.port.urgent, s.port.reportPos, s.port.inboxPos, s.port.mask, s.port.readData),
    s.pending, bids s, placed s, s.mem, s.terms, places s, (s.bus.outbound, s.bus.tenure))

/-- What `t` may differ from `s` in, when an order was taken or a read of the List Reader was worked off. -/
structure Intakes (s t : State) : Prop where
  kept : intakeKept t = intakeKept s
  silent : IsolatedSilent s → IsolatedSilent t
  phase : closing s → closing t
  setup : t.station.setup = s.station.setup ∨
    ∃ scalars windows r, setupOfImage scalars windows = some r ∧ t.station.setup = some r
  fifo : t.port.fifo = s.port.fifo ∨ t.port.fifo = s.port.fifo.tail
  record : ∀ u, slotOf s u ≠ .free → slotOf t u = slotOf s u ∧ genOf t u = genOf s u
  runs : runsWithin t.bus.runs s.bus.runs
  reports : s.port.reports <+: t.port.reports
  notice : t.port.notice ||| s.port.notice = t.port.notice
  exact : ReportsExact s → ReportsExact t
  queue : QueueExact s → QueueExact t
  order : ∀ base, QueueExact s → TakenWithin base s → (s.launch.accCount - base).toNat < 2 ^ 31 → QueueOrdered base s →
    TakenWithin base t ∧ QueueOrdered base t
  attempts : AttemptsBounded s → AttemptsBounded t

theorem Intakes.refl (s : State) : Intakes s s where
  kept := rfl
  silent := id
  phase := id
  setup := .inl rfl
  fifo := .inl rfl
  record := fun _ _ => ⟨rfl, rfl⟩
  runs := .refl _
  reports := List.prefix_rfl
  notice := by simp
  exact := id
  queue := id
  order := fun _ _ hw _ ho => ⟨hw, ho⟩
  attempts := id

/-- What the invariants of the buffers and of the tables take from it. -/
theorem Intakes.transit {s t : State} (h : Intakes s t) (ht : TransitBounded s) : TransitBounded t := by
  have h1 := h.kept
  simp only [intakeKept, Prod.mk.injEq] at h1
  have h2 := h.runs.1
  simp only [TransitBounded, h1.2.2.2.2.2.2.2.2.2.2.1] at ht ⊢; omega

theorem Intakes.own {s t : State} (h : Intakes s t) (ho : OwnTermsUnknown s) : OwnTermsUnknown t := by
  have h1 := h.kept
  simp only [intakeKept, Prod.mk.injEq] at h1
  simpa only [OwnTermsUnknown, termsOf, h1.1, h1.2.2.2.2.2.2.2.2.1] using ho

theorem Intakes.bounded {s t : State} (h : Intakes s t) (hb : InboxBounded s) : InboxBounded t := by
  have h1 := h.kept
  simp only [intakeKept, placed, places, Prod.mk.injEq] at h1
  obtain ⟨_, _, _, _, _, _, ⟨hi, _⟩, _, _, ⟨hr, hs⟩, _⟩ := h1
  simpa only [InboxBounded, inboxLoad, hi, hr, hs] using hb

theorem Intakes.drain {s t : State} (h : Intakes s t) {u : Tag} (hu : draining t u) : draining s u := by
  obtain ⟨r, hr, e⟩ := hu
  obtain ⟨r', hr', e'⟩ := h.runs.2 r hr u e
  exact ⟨r', hr', e'⟩

theorem Intakes.finishControl (r : ControlResult) (s : State) : Intakes s (finishControl r s) :=
  { Intakes.refl s with fifo := .inr rfl }

theorem Intakes.changeState {s t : State} (h : Intakes s t) (st : StationState) (hs : st ≠ .isolated)
    (hc : ¬ closing s) : Intakes s (changeState st t) :=
  { h with
    silent := fun _ k => absurd k hs
    phase := fun k => absurd k hc
    notice := by
      show (t.port.notice ||| Notice.stateChanged.bit) ||| s.port.notice = t.port.notice ||| Notice.stateChanged.bit
      rw [BitVec.or_assoc, BitVec.or_comm _ s.port.notice, ← BitVec.or_assoc, h.notice] }

/-- The stage of a read changes. -/
theorem Intakes.stage (s : State) (i : Option Intake) : Intakes s { s with launch.intake := i } :=
  { Intakes.refl s with }

/-! ## The writing of an entry -/

theorem lowestFree_spec {s : State} {t : Tag} (h : lowestFree s = some t) : slotOf s t = .free := by
  have h1 := List.find?_some h
  unfold isFree at h1
  split at h1
  · assumption
  all_goals cases h1

/-- The entry of an order in service, before it is queued or completed. -/
def written (s : State) (t : Tag) (b : Body) : State :=
  { setEntry t ⟨genOf s t + 1, .live b .queued⟩ s with launch.accCount := s.launch.accCount + 1 }

theorem slotOf_written (s : State) (t : Tag) (b : Body) (u : Tag) :
    slotOf (written s t b) u = if u = t then .live b .queued else slotOf s u := slotOf_setEntry _ _ _ _

theorem genOf_written (s : State) (t : Tag) (b : Body) (u : Tag) :
    genOf (written s t b) u = if u = t then genOf s t + 1 else genOf s u := genOf_setEntry _ _ _ _

/-- The entry written is taken within the range, as the acceptance count is. -/
theorem takenWithin_written {base : BitVec 32} {s : State} {t : Tag} {b : Body} (hb : b.acc = s.launch.accCount)
    (hc : (s.launch.accCount - base).toNat < 2 ^ 31) (hw : TakenWithin base s) : TakenWithin base (written s t b) := by
  intro u b' p' h
  rw [slotOf_written] at h
  split at h
  · cases h; rw [hb]; exact hc
  · exact hw u b' p' h

theorem exact_written {s : State} {t : Tag} (hf : slotOf s t = .free) (b : Body) (h : ReportsExact s) :
    ReportsExact (written s t b) := by
  obtain ⟨h1, h2, h3⟩ := h
  have rep : ∀ u, isReported (written s t b) u = isReported s u := by
    intro u
    unfold isReported
    rw [slotOf_written]
    by_cases hu : u = t
    · rw [if_pos hu, hu, hf]
    · rw [if_neg hu]
  have ne : ∀ r ∈ s.port.reports, r.tag ≠ t := fun r hr e => by
    have := (h2 r hr).1
    rw [e] at this; simp [isReported, hf] at this
  refine ⟨h1, fun r hr => ⟨(rep _).trans (h2 r hr).1, ?_⟩, fun u hu => h3 u ((rep u).symm.trans hu)⟩
  rw [genOf_written, if_neg (ne r hr)]; exact (h2 r hr).2

/-- The entry is QUEUED. -/
theorem Intakes.queued {s : State} {t : Tag} (hf : slotOf s t = .free) {b : Body} (hb : b.attempts = 0)
    (hacc : b.acc = s.launch.accCount) : Intakes s (releaseOrder (enqueue t (written s t b))) where
  kept := rfl
  silent := id
  phase := id
  setup := .inl rfl
  fifo := .inr rfl
  record := fun u hu => by
    have hne : u ≠ t := fun e => hu (e ▸ hf)
    exact ⟨(slotOf_written s t b u).trans (if_neg hne), (genOf_written s t b u).trans (if_neg hne)⟩
  runs := .refl _
  reports := List.prefix_rfl
  notice := BitVec.or_self
  exact := exact_written hf b
  queue := fun hq => by
    refine queueExact_of (u := t) (fun v hv => (slotOf_written s t b v).trans (if_neg hv)) ?_ hq
    have e : slotOf (releaseOrder (enqueue t (written s t b))) t = .live b .queued :=
      (slotOf_written s t b t).trans (if_pos rfl)
    rw [e]; rfl
  order := fun base hq hw hc ho => by
    have e : slotOf (releaseOrder (enqueue t (written s t b))) t = .live b .queued :=
      (slotOf_written s t b t).trans (if_pos rfl)
    refine queueOrdered_of (u := t) (fun v hv => (slotOf_written s t b v).trans (if_neg hv)) ?_ hq hw
      (takenWithin_written hacc hc hw t) ho
    rw [e]; rfl
  attempts := fun ha u => by
    have e : slotOf (releaseOrder (enqueue t (written s t b))) u = if u = t then .live b .queued else slotOf s u :=
      slotOf_written s t b u
    rw [e]
    split
    · simp [attemptsOf, hb]
    · exact ha u

/-- The entry is completed at once. -/
theorem Intakes.completed {s : State} {t : Tag} (hf : slotOf s t = .free) {b : Body} (hb : b.attempts = 0)
    (st : Status) : Intakes s (releaseOrder (complete t st (written s t b))) := by
  have hl : slotOf (written s t b) t = .live b .queued := (slotOf_written s t b t).trans (if_pos rfl)
  have a := Acts.complete (P := fun u => u = t) (K := True) (N := True) (G := True) (I := False) rfl st (written s t b)
  have slot : ∀ u, slotOf (releaseOrder (complete t st (written s t b))) u =
      if u = t then .reported { b with work := reportedWork b.work } (finalStatus b.work st) else slotOf s u := by
    intro u
    refine (slotOf_complete hl st u).trans ?_
    split
    · rfl
    · next hu => exact (slotOf_written s t b u).trans (if_neg hu)
  have e := complete_eq hl st
  exact {
    kept := (show intakeKept (complete t st (written s t b)) = _ by rw [e]; rfl)
    silent := a.silent
    phase := a.phase trivial
    setup := .inl a.setup
    fifo := .inr (show (complete t st (written s t b)).port.fifo.tail = _ by rw [e]; rfl)
    record := fun u hu => by
      have hne : u ≠ t := fun e => hu (e ▸ hf)
      exact ⟨(slot u).trans (if_neg hne), (a.gen u).trans ((genOf_written s t b u).trans (if_neg hne))⟩
    runs := by
      show runsWithin (complete t st (written s t b)).bus.runs s.bus.runs
      rw [e]
      refine .map (closeItem true t) (fun r => ?_) (fun r u h => reportsTo_closeItem h) _
      unfold closeItem
      split
      · split <;> exact Nat.le_refl _
      all_goals exact Nat.le_refl _
    reports := a.reports
    notice := a.notice
    exact := fun h => a.exact (exact_written hf b h)
    queue := fun hq => by
      refine queueExact_of (u := t) (fun v hv => (slot v).trans (if_neg hv)) ?_ hq
      rw [slot, if_pos rfl]
      show (complete t st (written s t b)).launch.queue = _
      rw [e]; rfl
    order := fun base hq hw _ ho => by
      refine queueOrdered_of (u := t) (fun v hv => (slot v).trans (if_neg hv)) ?_ hq hw (fun b' p' k => ?_) ho
      · rw [slot, if_pos rfl]
        show (complete t st (written s t b)).launch.queue = _
        rw [e]; rfl
      · rw [slot, if_pos rfl] at k; cases k
    attempts := fun ha u => by
      rw [slot]
      split
      · simp [attemptsOf, hb]
      · exact ha u }

theorem Intakes.writeEntry (k : XKind) (o : Order) (segs : List Segment) (final : Option Status) (s : State) :
    Intakes s (writeEntry k o segs final s) := by
  unfold Machine.writeEntry
  split
  · exact .refl s
  · next t ht =>
    have hf := lowestFree_spec ht
    cases final with
    | none => exact .queued hf rfl rfl
    | some st => exact .completed hf rfl st

/-! ## Orders and the List Reader -/

theorem Intakes.takeDataOrder (k : XKind) (s : State) : Intakes s (takeDataOrder k s) := by
  unfold Machine.takeDataOrder
  split
  · split
    · exact .writeEntry ..
    · split
      · exact .writeEntry ..
      · split
        · exact .writeEntry ..
        all_goals exact .stage s _
  · exact .refl s

theorem Intakes.takeSetup (s : State) : Intakes s (takeSetup s) := by
  unfold Machine.takeSetup
  split
  · exact .refl s
  · split
    · exact .finishControl _ s
    · split
      · exact .finishControl _ s
      · split
        · exact .finishControl _ s
        · exact .stage s _

theorem Intakes.takeJoin (s : State) : Intakes s (takeJoin s) := by
  unfold Machine.takeJoin
  split
  · exact .refl s
  · split
    · exact .finishControl _ s
    · split
      · next h =>
        exact (Intakes.finishControl _ s).changeState _ nofun fun k => by simp [closing, h] at k
      · exact .finishControl _ s

theorem Intakes.takeLeave (s : State) : Intakes s (takeLeave s) := by
  unfold Machine.takeLeave
  split
  · exact .refl s
  · split
    · exact .finishControl _ s
    · split
      · next h =>
        exact (Intakes.finishControl _ s).changeState _ nofun fun k => by simp [closing, h] at k
      · exact .finishControl _ s

theorem Intakes.takeUnassigned (s : State) : Intakes s (takeUnassigned s) := by
  unfold Machine.takeUnassigned
  split
  · exact .refl s
  · exact .finishControl _ s

/-- A change of the stage before the rest. -/
theorem Intakes.after_stage {s t : State} {i : Option Intake} (h : Intakes { s with launch.intake := i } t) :
    Intakes s t := { h with }

theorem Intakes.listerTxnDone (result : Completion) (s : State) : Intakes s (listerTxnDone result s) := by
  unfold Machine.listerTxnDone
  split
  · exact .refl s
  · split
    · exact .refl s
    · dsimp only
      split
      · split
        · unfold finishGather
          dsimp only
          split
          · exact .after_stage (.writeEntry ..)
          · split
            · exact .after_stage (.writeEntry ..)
            · exact .after_stage (.writeEntry ..)
        · unfold finishScalars
          dsimp only
          split
          · exact .after_stage (.finishControl _ _)
          · exact .after_stage (.stage _ _)
        · unfold finishWindows
          split
          · next r hr _ =>
            exact .after_stage { Intakes.refl _ with setup := .inr ⟨_, _, r, hr, rfl⟩, fifo := .inr rfl }
          · exact .after_stage (.finishControl _ _)
      · exact .stage s _

/-! ## The grant that a settling leaves (R176, R177) -/

/-- Before the settling: a granted client has its transaction issued, and a free port is not locked. -/
def GrantSound (s : State) : Prop :=
  match s.mem.granted with
  | none => s.mem.lock = false
  | some c => ∃ x, txnOf s c = some x ∧ s.mem.lock = x.isPair

theorem grantExact_grant {s : State} {c : Client} {x : Txn} (n : Nat) (h : txnOf s c = some x) :
    GrantExact (grant c { s with choices := n }) := by
  refine ⟨x, ?_, ?_⟩
  · cases c <;> exact h
  · show (txnOf { s with choices := n } c).any Txn.isPair = _
    rw [show txnOf { s with choices := n } c = txnOf s c by cases c <;> rfl, h]; rfl

theorem presenters_some {s : State} {c : Client} (h : c ∈ presenters s) : ∃ x, txnOf s c = some x :=
  Option.isSome_iff_exists.mp (List.mem_filter.mp h).2

theorem grantExact_arbitrate {s : State} (h : GrantSound s) : GrantExact (arbitrate s) := by
  unfold arbitrate
  split
  · next c hc => unfold GrantSound at h; unfold GrantExact; rw [hc] at h ⊢; exact h
  · next hn =>
    split
    · next hp =>
      unfold GrantSound at h
      rw [hn] at h
      unfold GrantExact
      rw [hn]
      refine ⟨h, fun c => ?_⟩
      cases hx : txnOf s c with
      | none => rfl
      | some x =>
        have : c ∈ presenters s := by
          refine List.mem_filter.mpr ⟨?_, by rw [hx]; rfl⟩
          generalize s.mem.pointer = d
          cases d <;> cases c <;> simp [cycleFrom, Client.next]
        rw [hp] at this; cases this
    · next c hp =>
      obtain ⟨x, hx⟩ := presenters_some (s := s) (c := c) (by rw [hp]; exact List.mem_cons_self ..)
      exact grantExact_grant s.choices hx
    · next c cs _ hp =>
      dsimp only
      have hm : ∀ n, (c :: cs).getD n c ∈ presenters s := fun n => by
        rw [hp, List.getD_eq_getElem?_getD]
        cases hx : (c :: cs)[n]? with
        | none => exact List.mem_cons_self ..
        | some y => exact List.mem_of_getElem? hx
      obtain ⟨x, hx⟩ := presenters_some (hm _)
      exact grantExact_grant _ hx

theorem grantSound_of {s t : State} (h : GrantSound s) (hg : granting t = granting s)
    (hi : ∀ c x, txnOf s c = some x → txnOf t c = some x) : GrantSound t := by
  simp only [granting, Prod.mk.injEq] at hg
  unfold GrantSound at h ⊢
  rw [hg.1, hg.2.2]
  split at h
  · exact h
  · obtain ⟨x, hx, hl⟩ := h
    exact ⟨x, hi _ x hx, hl⟩

theorem grantExact_congr {s t : State} (h : t.mem = s.mem) (hg : GrantExact s) : GrantExact t := by
  simpa only [GrantExact, h, txnOf_congr h] using hg

theorem grantExact_settle {s : State} (h : GrantSound s) : GrantExact (settle s) := by
  have h3 : Acts (fun _ => True) False False True False s (pass (pass (pass s))) :=
    ((Acts.pass fun _ _ => trivial).trans (.pass fun _ _ => trivial)).trans (.pass fun _ _ => trivial)
  unfold settle
  generalize pass (pass (pass s)) = q at h3 ⊢
  have ha := grantExact_arbitrate (grantSound_of h (h3.grant (.inl trivial)) h3.issued)
  refine grantExact_congr ?_ ha
  generalize arbitrate q = x
  have hd : (drainToOffline x).mem = x.mem := by unfold drainToOffline; split <;> rfl
  have hc : (contendInIdle (updateClaims (drainToOffline x))).mem = x.mem := by
    unfold contendInIdle
    split
    · unfold openWindow
      dsimp only
      split <;> exact hd
    · exact hd
  unfold updateStall
  split <;> exact hc

theorem grantSound_of_exact {s : State} (h : GrantExact s) : GrantSound s := by
  unfold GrantExact at h
  unfold GrantSound
  split
  · next hn => rw [hn] at h; exact h.1
  · next c hc => rw [hc] at h; exact h

theorem txnOf_setTxn (c d : Client) (x : Option Txn) (s : State) :
    txnOf (setTxn c x s) d = if d = c then x else txnOf s d := by
  cases c <;> cases d <;> rfl

/-- The release of the port grants the next waiting client, or leaves the port free and unlocked. -/
theorem grantSound_releasePort (c : Client) (s : State) : GrantSound (releasePort c s) := by
  unfold releasePort grantWaiting
  generalize hw : setTxn c none { s with mem.granted := none, mem.lock := false } = w
  split
  · next d ds hp =>
    obtain ⟨x, hx⟩ := presenters_some (s := w) (c := d) (by rw [hp]; exact List.mem_cons_self ..)
    exact grantSound_of_exact (grantExact_grant w.choices hx)
  · have h1 : w.mem.granted = none := by rw [← hw]; cases c <;> rfl
    have h2 : w.mem.lock = false := by rw [← hw]; cases c <;> rfl
    unfold GrantSound
    rw [h1]; exact h2

/-! ## Half a microsecond (log 2) -/

theorem entryOf_tick (s : State) (t : Tag) : entryOf (tick s) t = tickEntry (entryOf s t) := by
  simp only [entryOf, tick, Vector.getElem_map]

theorem genOf_tick (s : State) (t : Tag) : genOf (tick s) t = genOf s t := by
  simp only [genOf, entryOf_tick, tickEntry]; split <;> rfl

theorem slotOf_tick (s : State) (t : Tag) :
    slotOf (tick s) t = match slotOf s t with
      | .live b p => .live b (tickPhase p)
      | .free => .free
      | .reported b st => .reported b st := by
  simp only [slotOf, entryOf_tick, tickEntry]
  cases h : (entryOf s t).slot <;> simp [h]

theorem exact_tick {s : State} (h : ReportsExact s) : ReportsExact (tick s) := by
  have rep : ∀ u, isReported (tick s) u = isReported s u := fun u => by
    simp only [isReported, slotOf_tick]; cases slotOf s u <;> rfl
  simp only [ReportsExact, rep, genOf_tick]; exact h

theorem queueExact_tick {s : State} (h : QueueExact s) : QueueExact (tick s) := by
  have q : ∀ u, inQueueState (slotOf (tick s) u) = inQueueState (slotOf s u) := fun u => by
    rw [slotOf_tick]
    cases slotOf s u with
    | live b p => cases p <;> rfl
    | free => rfl
    | reported => rfl
  simp only [QueueExact, q]; exact h

theorem attempts_tick {s : State} (h : AttemptsBounded s) : AttemptsBounded (tick s) := fun u => by
  have := h u
  rw [slotOf_tick]
  cases hs : slotOf s u <;> rw [hs] at this <;> exact this

/-! ## The commands whole -/

/-- The commands that take the order at the head. -/
def orderCommand : Instr → Bool
  | .fetch | .store | .note | .swap | .setup | .join | .leave | .unassignedOrder => true
  | _ => false

theorem exec_order {i : Instr} (h : orderCommand i = true) (s : State) :
    ∃ m, exec i s = .next (settle m) ∧ Intakes s m := by
  cases i
  all_goals try cases h
  case fetch => exact ⟨_, rfl, .takeDataOrder _ s⟩
  case store => exact ⟨_, rfl, .takeDataOrder _ s⟩
  case note => exact ⟨_, rfl, .takeDataOrder _ s⟩
  case swap => exact ⟨_, rfl, .takeDataOrder _ s⟩
  case setup => exact ⟨_, rfl, .takeSetup s⟩
  case join => exact ⟨_, rfl, .takeJoin s⟩
  case leave => exact ⟨_, rfl, .takeLeave s⟩
  case unassignedOrder => exact ⟨_, rfl, .takeUnassigned s⟩

/-- A CANCEL acts on the state in which its record has been taken, or does nothing without one. -/
theorem exec_cancel (s : State) :
    exec .cancel s = .next s ∨
      ∃ r m, (exec .cancel s = .next m ∧ drainView m = drainView s ∨ exec .cancel s = .next (settle m)) ∧
        Acts (fun _ => True) True True True False (takeUrgent r s) m := by
  simp only [exec, execCancel]
  split
  · split
    · exact .inr ⟨_, _, .inl ⟨rfl, rfl⟩, .refl _⟩
    · next n _ _ =>
      obtain ⟨r, a⟩ := Acts.cancelTag (P := fun _ => True) (K := True) (N := True) (G := True) (I := False)
        (t := n.setWidth 5) (s := s) trivial (fun _ _ => trivial)
      exact .inr ⟨r, _, .inr rfl, a⟩
  all_goals exact .inl rfl

/-- A completion is handed to its client with the port released and granted again, or does nothing where none can occur. -/
theorem exec_memory (result : Completion) (s : State) :
    exec (.memoryTransactionComplete result) s = .next s ∨
      ∃ m u, exec (.memoryTransactionComplete result) s = .next (settle u) ∧ GrantSound { s with mem := m } ∧
        (Acts (fun _ => True) True True True False { s with mem := m } u ∨ Intakes { s with mem := m } u) := by
  simp only [exec, execMemoryTransactionComplete]
  split
  · next c x _ =>
    split
    · exact .inl rfl
    · obtain ⟨m, hm⟩ := releasePort_mem c s
      have hg := grantSound_releasePort c s
      rw [hm] at hg ⊢
      refine .inr ⟨m, _, rfl, hg, ?_⟩
      cases c
      · exact .inl (.serveTxnDone _ _)
      · exact .inl (.moverTxnDone (fun _ => trivial) _ _)
      · exact .inr (.listerTxnDone _ _)
  · exact .inl rfl

/-- The same for a locked pair, which may write the swap memo. -/
theorem exec_pair (read : Option Word) (writeOk : Bool) (s : State) :
    exec (.lockedPairComplete read writeOk) s = .next s ∨
      ∃ m w u, exec (.lockedPairComplete read writeOk) s = .next (settle u) ∧ GrantSound { s with mem := m } ∧
        Acts (fun _ => True) True True True False { s with mem := m, serve.swapMemo := w } u := by
  simp only [exec, execLockedPairComplete]
  split
  · obtain ⟨m, hm⟩ := releasePort_mem .serve s
    have hg := grantSound_releasePort .serve s
    rw [hm] at hg ⊢
    obtain ⟨w, a⟩ := Acts.pairDone (P := fun _ => True) (K := True) (N := True) (G := True) (I := False)
      (pairResult _ _ _) { s with mem := m }
    exact .inr ⟨m, w, _, rfl, hg, a⟩
  · exact .inl rfl

/-! ## The drain in one command (R69, R70) -/

theorem closing_congr {s t : State} (h : drainView t = drainView s) (k : closing s) : closing t := by
  simp only [drainView, Prod.mk.injEq] at h
  exact k.imp h.1.trans h.1.trans

/-- A read of the front report leaves what the drain is judged by, but for an entry that it makes FREE. -/
theorem drainEnded_reportRead {s t : State} (hr : ReportsExact s) (hd : DrainEnded s) (h : exec .reportRead s = .next t) :
    DrainEnded t ∧ t.station.state = s.station.state := by
  simp only [exec, execReportRead] at h
  split at h
  · cases h; exact ⟨drainEnded_congr (s := s) rfl hd, rfl⟩
  · next r rs hrs =>
    split at h
    · cases h; exact ⟨drainEnded_congr (s := s) rfl hd, rfl⟩
    · cases h
      refine ⟨fun h1 h2 => hd h1 ⟨fun u b p e => ?_, h2.2⟩, rfl⟩
      have k := h2.1 u b p
      have hrep := (hr.2.1 r (by rw [hrs]; exact List.mem_cons_self ..)).1
      rw [releaseTag, slotOf_setEntry] at k
      split at k
      · next hu =>
        subst hu
        simp [isReported, e] at hrep
      · exact k e

/-- Every other command but a device reset leaves what the drain is judged by, or settles; up to that a station in DRAINING
stays so or becomes ISOLATED. -/
theorem exec_closing {i : Instr} (hi : ∀ a, i ≠ .deviceReset a) (hr : i ≠ .reportRead) (s : State) :
    ∃ m, (exec i s = .next m ∧ drainView m = drainView s ∨ exec i s = .next (settle m)) ∧
      (probesNot s → closing s → closing m) := by
  have same : ∀ {m : State}, exec i s = .next m → drainView m = drainView s →
      ∃ m, (exec i s = .next m ∧ drainView m = drainView s ∨ exec i s = .next (settle m)) ∧
        (probesNot s → closing s → closing m) := fun h k => ⟨_, .inl ⟨h, k⟩, fun _ => closing_congr k⟩
  by_cases ht : tenureCommand i = true
  · obtain ⟨m, hm, a⟩ := exec_act ht s
    exact ⟨m, hm, a.phase⟩
  by_cases ho : orderCommand i = true
  · obtain ⟨m, hm, a⟩ := exec_order ho s
    exact ⟨m, .inr hm, fun _ => a.phase⟩
  cases i
  all_goals try exact absurd rfl ht
  all_goals try exact absurd rfl ho
  case deviceReset a => exact absurd rfl (hi a)
  case reportRead => exact absurd rfl hr
  case cancel =>
    rcases exec_cancel s with h | ⟨r, m, hm, a⟩
    · exact same h rfl
    · exact ⟨m, hm, fun _ => a.phase trivial⟩
  case memoryTransactionComplete result =>
    rcases exec_memory result s with h | ⟨m, u, hu, _, a⟩
    · exact same h rfl
    · exact ⟨u, .inr hu, fun _ => a.elim (fun a => a.phase trivial) (fun a => a.phase)⟩
  case lockedPairComplete read ok =>
    rcases exec_pair read ok s with h | ⟨m, w, u, hu, _, a⟩
    · exact same h rfl
    · exact ⟨u, .inr hu, fun _ => a.phase trivial⟩
  case orderWrite w =>
    simp only [exec, execOrderWrite]
    split
    · exact ⟨_, .inl ⟨rfl, rfl⟩, fun _ => id⟩
    · refine ⟨_, .inl ⟨rfl, ?_⟩, fun _ => closing_congr ?_⟩ <;>
      · unfold commitOrder; dsimp only; split <;> rfl
  all_goals
    simp only [exec, execUrgentWrite, execInboxRead, execNoticeWrite, execNoticeMaskWrite, execBresetSeenAsserted,
      execBresetNegated, execBresetDriveTimerExpiry, execBusReset, execUnassignedUrgent]
    repeat' split
    all_goals first
      | exact ⟨_, .inl ⟨rfl, rfl⟩, fun _ => id⟩
      | exact ⟨_, .inl ⟨rfl, by unfold leaveReset; split <;> rfl⟩, fun _ => closing_congr (by unfold leaveReset; split <;> rfl)⟩

theorem drainEnded_tick {s : State} (h : DrainEnded s) : DrainEnded (tick s) := by
  refine fun h1 h2 => h h1 ⟨fun u b p e => h2.1 u b (tickPhase p) ?_, h2.2⟩
  rw [slotOf_tick, e]

end Sys2Proof.Machine
end

