-- ==== Sys2Proof/Laws/PerInstr.lean ====
section
/-! SUPPORT. What WellFormed says of each command, as syntax. -/

namespace Sys2Proof.Laws.Operands

/-- A command is well formed exactly if a write that is ignored names a port that ignores writes (R164, R184), and a
completion delivers whole words, at most 16 of them (R174). -/
def Statement (i : Instr) : Prop :=
  WellFormed i = true ↔
    (∀ o w, i = .ignoredWrite o w → o ∈ ignoredOffsets) ∧
      ∀ d, i = .memoryTransactionComplete (.ok d) → d.length % 4 = 0 ∧ d.length ≤ 64

theorem deviceReset (strap : Addr) : Statement (.deviceReset strap) :=
  ⟨fun _ => ⟨nofun, nofun⟩, fun _ => rfl⟩

theorem idleTimerExpiry : Statement .idleTimerExpiry :=
  ⟨fun _ => ⟨nofun, nofun⟩, fun _ => rfl⟩

theorem wantSeenInIdle : Statement .wantSeenInIdle :=
  ⟨fun _ => ⟨nofun, nofun⟩, fun _ => rfl⟩

theorem busyOrCallSeenInIdle : Statement .busyOrCallSeenInIdle :=
  ⟨fun _ => ⟨nofun, nofun⟩, fun _ => rfl⟩

theorem busyNegatedSeen : Statement .busyNegatedSeen :=
  ⟨fun _ => ⟨nofun, nofun⟩, fun _ => rfl⟩

theorem windowTimerExpiry (want : Bool) (d : Beat) : Statement (.windowTimerExpiry want d) :=
  ⟨fun _ => ⟨nofun, nofun⟩, fun _ => rfl⟩

theorem callSeen (word : Beat) (dp : BitVec 2) : Statement (.callSeen word dp) :=
  ⟨fun _ => ⟨nofun, nofun⟩, fun _ => rfl⟩

theorem answerSeen : Statement .answerSeen :=
  ⟨fun _ => ⟨nofun, nofun⟩, fun _ => rfl⟩

theorem callTimerExpiry : Statement .callTimerExpiry :=
  ⟨fun _ => ⟨nofun, nofun⟩, fun _ => rfl⟩

theorem answerNegatedSeen : Statement .answerNegatedSeen :=
  ⟨fun _ => ⟨nofun, nofun⟩, fun _ => rfl⟩

theorem busyNegatedAtCallee : Statement .busyNegatedAtCallee :=
  ⟨fun _ => ⟨nofun, nofun⟩, fun _ => rfl⟩

theorem stallTimerExpiry : Statement .stallTimerExpiry :=
  ⟨fun _ => ⟨nofun, nofun⟩, fun _ => rfl⟩

theorem interjectTimerExpiry : Statement .interjectTimerExpiry :=
  ⟨fun _ => ⟨nofun, nofun⟩, fun _ => rfl⟩

theorem interjectSeen : Statement .interjectSeen :=
  ⟨fun _ => ⟨nofun, nofun⟩, fun _ => rfl⟩

theorem beatLatched (d : Beat) (dp : BitVec 2) (mark : Bool) : Statement (.beatLatched d dp mark) :=
  ⟨fun _ => ⟨nofun, nofun⟩, fun _ => rfl⟩

theorem takeSeen : Statement .takeSeen :=
  ⟨fun _ => ⟨nofun, nofun⟩, fun _ => rfl⟩

theorem takeDataBeat : Statement .takeDataBeat :=
  ⟨fun _ => ⟨nofun, nofun⟩, fun _ => rfl⟩

theorem strobeBeat : Statement .strobeBeat :=
  ⟨fun _ => ⟨nofun, nofun⟩, fun _ => rfl⟩

theorem bresetDetectTimerExpiry : Statement .bresetDetectTimerExpiry :=
  ⟨fun _ => ⟨nofun, nofun⟩, fun _ => rfl⟩

theorem bresetNegated : Statement .bresetNegated :=
  ⟨fun _ => ⟨nofun, nofun⟩, fun _ => rfl⟩

theorem bresetDriveTimerExpiry : Statement .bresetDriveTimerExpiry :=
  ⟨fun _ => ⟨nofun, nofun⟩, fun _ => rfl⟩

theorem orderWrite (w : Word) : Statement (.orderWrite w) :=
  ⟨fun _ => ⟨nofun, nofun⟩, fun _ => rfl⟩

theorem fetch : Statement .fetch :=
  ⟨fun _ => ⟨nofun, nofun⟩, fun _ => rfl⟩

theorem store : Statement .store :=
  ⟨fun _ => ⟨nofun, nofun⟩, fun _ => rfl⟩

theorem note : Statement .note :=
  ⟨fun _ => ⟨nofun, nofun⟩, fun _ => rfl⟩

theorem swap : Statement .swap :=
  ⟨fun _ => ⟨nofun, nofun⟩, fun _ => rfl⟩

theorem setup : Statement .setup :=
  ⟨fun _ => ⟨nofun, nofun⟩, fun _ => rfl⟩

theorem join : Statement .join :=
  ⟨fun _ => ⟨nofun, nofun⟩, fun _ => rfl⟩

theorem leave : Statement .leave :=
  ⟨fun _ => ⟨nofun, nofun⟩, fun _ => rfl⟩

theorem unassignedOrder : Statement .unassignedOrder :=
  ⟨fun _ => ⟨nofun, nofun⟩, fun _ => rfl⟩

theorem urgentWrite (w : Word) : Statement (.urgentWrite w) :=
  ⟨fun _ => ⟨nofun, nofun⟩, fun _ => rfl⟩

theorem cancel : Statement .cancel :=
  ⟨fun _ => ⟨nofun, nofun⟩, fun _ => rfl⟩

theorem busReset : Statement .busReset :=
  ⟨fun _ => ⟨nofun, nofun⟩, fun _ => rfl⟩

theorem unassignedUrgent : Statement .unassignedUrgent :=
  ⟨fun _ => ⟨nofun, nofun⟩, fun _ => rfl⟩

theorem holdOffExpiry (t : Tag) : Statement (.holdOffExpiry t) :=
  ⟨fun _ => ⟨nofun, nofun⟩, fun _ => rfl⟩

theorem parkTimerExpiry (t : Tag) : Statement (.parkTimerExpiry t) :=
  ⟨fun _ => ⟨nofun, nofun⟩, fun _ => rfl⟩

theorem verdictTimerExpiry : Statement .verdictTimerExpiry :=
  ⟨fun _ => ⟨nofun, nofun⟩, fun _ => rfl⟩

theorem memoryTransactionComplete (r : Completion) : Statement (.memoryTransactionComplete r) := by
  cases r with
  | fault => exact ⟨fun _ => ⟨nofun, nofun⟩, fun _ => rfl⟩
  | ok d =>
    refine ⟨fun h => ⟨nofun, fun _ e => ?_⟩, fun h => ?_⟩
    · cases e; simpa [WellFormed] using h
    · simpa [WellFormed] using h.2 d rfl

theorem lockedPairComplete (read : Option Word) (writeOk : Bool) : Statement (.lockedPairComplete read writeOk) :=
  ⟨fun _ => ⟨nofun, nofun⟩, fun _ => rfl⟩

theorem reportRead : Statement .reportRead :=
  ⟨fun _ => ⟨nofun, nofun⟩, fun _ => rfl⟩

theorem inboxRead : Statement .inboxRead :=
  ⟨fun _ => ⟨nofun, nofun⟩, fun _ => rfl⟩

theorem noticeWrite (w : Word) : Statement (.noticeWrite w) :=
  ⟨fun _ => ⟨nofun, nofun⟩, fun _ => rfl⟩

theorem noticeMaskWrite (w : Word) : Statement (.noticeMaskWrite w) :=
  ⟨fun _ => ⟨nofun, nofun⟩, fun _ => rfl⟩

theorem ignoredWrite (o : BitVec 5) (w : Word) : Statement (.ignoredWrite o w) :=
  ⟨fun h => ⟨fun _ _ e => by cases e; exact List.contains_iff_mem.mp h, nofun⟩,
    fun h => List.contains_iff_mem.mpr (h.1 o w rfl)⟩

theorem bresetSeenAsserted : Statement .bresetSeenAsserted :=
  ⟨fun _ => ⟨nofun, nofun⟩, fun _ => rfl⟩

theorem idleTimerRestarted : Statement .idleTimerRestarted :=
  ⟨fun _ => ⟨nofun, nofun⟩, fun _ => rfl⟩

end Sys2Proof.Laws.Operands
end

