-- ==== Sys2Proof/Laws/Transit.lean ====
section
/-! SUPPORT. What a settling does to the runs of the transit buffer, and which transactions it presents for them. -/

namespace Sys2Proof.Machine

set_option Elab.async false

/-! ## Runs whose items are closed -/

/-- The run `p` is the run `q`, but that its item may have been closed. -/
def SameRun (q p : InRun) : Prop :=
  p.length = q.length ∧ p.received = q.received ∧ p.bytes = q.bytes ∧ p.ended = q.ended ∧ p.flight = q.flight ∧
    ((∀ i, q.sink ≠ .mover i) → p.sink = q.sink) ∧
    ∀ i, q.sink = .mover i → ∃ k, p.sink = .mover k ∧ k.tag = i.tag ∧ k.segs = i.segs ∧ k.pos = i.pos ∧
      k.discard = i.discard ∧ k.localFault = i.localFault

theorem SameRun.refl (q : InRun) : SameRun q q :=
  ⟨rfl, rfl, rfl, rfl, rfl, fun _ => rfl, fun i h => ⟨i, h, rfl, rfl, rfl, rfl, rfl⟩⟩

theorem SameRun.trans {q p r : InRun} (h : SameRun q p) (k : SameRun p r) : SameRun q r := by
  obtain ⟨h1, h2, h3, h4, h5, h6, h7⟩ := h
  obtain ⟨k1, k2, k3, k4, k5, k6, k7⟩ := k
  refine ⟨k1.trans h1, k2.trans h2, k3.trans h3, k4.trans h4, k5.trans h5, fun hq => ?_, fun i hi => ?_⟩
  · have e := h6 hq
    exact (k6 (by rw [e]; exact hq)).trans e
  · obtain ⟨j, hj, a1, a2, a3, a4, a5⟩ := h7 i hi
    obtain ⟨l, hl, b1, b2, b3, b4, b5⟩ := k7 j hj
    exact ⟨l, hl, b1.trans a1, b2.trans a2, b3.trans a3, b4.trans a4, b5.trans a5⟩

theorem SameRun.eq {q p : InRun} (h : SameRun q p) (hq : ∀ i, q.sink ≠ .mover i) : p = q := by
  obtain ⟨h1, h2, h3, h4, h5, h6, _⟩ := h
  have h6 := h6 hq
  cases p; cases q; simp_all

theorem SameRun.closeItem (x : Bool) (t : Tag) (q : InRun) : SameRun q (closeItem x t q) := by
  unfold Machine.closeItem
  split
  · next i hi =>
    split
    · exact ⟨rfl, rfl, rfl, rfl, rfl, fun h => absurd hi (h i), fun j hj => by
        rw [hi] at hj; cases hj; exact ⟨_, rfl, rfl, rfl, rfl, rfl, rfl⟩⟩
    · exact .refl q
  all_goals exact .refl q

/-- The item of the run, if it has one, is of a tag of which `P` does not hold. -/
def ItemOutside (P : Tag → Prop) (q : InRun) : Prop := ∀ i, q.sink = .mover i → ¬ P i.tag

/-- What the transactions of the data mover and of the Serve Engine depend on, beside the runs and the service record. -/
def around (s : State) :=
  (s.mem, s.bus.outbound, s.bus.tenure, (s.bus.run, s.bus.tx, s.bus.count), s.launch.outJob,
    (s.serve.resume, s.serve.swapStage, s.serve.swapMemo, s.serve.fill, s.serve.parkQueue, s.serve.staging))

/-- The tables alone change, and the items of tags of which `P` holds may be closed. -/
structure Tables (P : Tag → Prop) (s t : State) : Prop where
  around : around t = around s
  service : t.serve.service = s.serve.service
  runs : ∃ f, t.bus.runs = s.bus.runs.map f ∧ ∀ q, SameRun q (f q) ∧ (ItemOutside P q → f q = q)

variable {P : Tag → Prop}

theorem Tables.of_runs {s t : State} (h : Machine.around t = Machine.around s) (hs : t.serve.service = s.serve.service)
    (hr : t.bus.runs = s.bus.runs) : Tables P s t where
  around := h
  service := hs
  runs := ⟨id, by rw [List.map_id, hr], fun q => ⟨.refl q, fun _ => rfl⟩⟩

theorem Tables.refl (s : State) : Tables P s s := .of_runs rfl rfl rfl

theorem Tables.trans {s t u : State} (h : Tables P s t) (k : Tables P t u) : Tables P s u where
  around := k.around.trans h.around
  service := k.service.trans h.service
  runs := by
    obtain ⟨f, hf, hs⟩ := h.runs
    obtain ⟨g, hg, ks⟩ := k.runs
    refine ⟨g ∘ f, by rw [hg, hf, List.map_map], fun q => ⟨(hs q).1.trans (ks _).1, fun ho => ?_⟩⟩
    have e := (hs q).2 ho
    show g (f q) = q
    rw [e]; exact (ks q).2 ho

theorem Tables.foldl {α : Type} (f : State → α → State) (l : List α) (h : ∀ a ∈ l, ∀ s, Tables P s (f s a))
    (s : State) : Tables P s (l.foldl f s) := by
  induction l generalizing s with
  | nil => exact .refl s
  | cons a l ih =>
    exact (h a (List.mem_cons_self ..) s).trans (ih (fun b hb => h b (List.mem_cons_of_mem _ hb)) _)

theorem Tables.closeItems {t : Tag} (hP : P t) (x : Bool) (s : State) : Tables P s (closeItems x t s) where
  around := rfl
  service := rfl
  runs := ⟨closeItem x t, rfl, fun q => ⟨.closeItem x t q, fun ho => by
    unfold closeItem
    split
    · next i hi => rw [if_neg fun (e : i.tag = t) => ho i hi (e ▸ hP)]
    all_goals rfl⟩⟩

theorem Tables.setLive (t : Tag) (b : Body) (p : Phase) (s : State) : Tables P s (setLive t b p s) := .of_runs rfl rfl rfl

theorem Tables.enqueue (t : Tag) (s : State) : Tables P s (enqueue t s) := .of_runs rfl rfl rfl

theorem Tables.complete {t : Tag} (hP : P t) (st : Status) (s : State) : Tables P s (complete t st s) := by
  cases hl : liveOf s t with
  | none => rw [complete_of_not_live hl]; exact .refl s
  | some bp =>
    rw [complete_eq (liveOf_eq_some.mp hl)]
    exact Tables.trans (t := addReport _ (reportEntry t (genOf s t) bp.1 _ (dequeue t s))) (.of_runs rfl rfl rfl)
      ((Tables.closeItems hP _ _).trans (.of_runs rfl rfl rfl))

theorem Tables.retryOpen {t : Tag} (hP : P t) (b : Body) (f : RetryFault) (s : State) :
    Tables P s (retryOpen t b f s) := by
  unfold Machine.retryOpen
  split
  · exact ((Tables.setLive _ _ _ _).trans (.closeItems hP _ _)).trans (.enqueue _ _)
  · exact .complete hP _ _

theorem Tables.withdraw {t : Tag} (hP : P t) (b : Body) (s : State) : Tables P s (withdraw t b s) :=
  ((Tables.setLive _ _ _ _).trans (.closeItems hP _ _)).trans (.enqueue _ _)

theorem Tables.carryOpen {t : Tag} (hP : P t) (b : Body) (r : OpenRecord) (s : State) :
    Tables P s (carryOpen t b r s) := by
  unfold Machine.carryOpen
  split
  · exact .complete hP _ _
  · exact .complete hP _ _
  · split
    · exact .withdraw hP _ _
    · exact .setLive _ _ _ _
  · split
    · exact .complete hP _ _
    · exact (Tables.setLive _ _ _ _).trans (.enqueue _ _)
  · split
    · exact .complete hP _ _
    · exact .retryOpen hP _ _ _
  · split
    · exact .complete hP _ _
    · exact .retryOpen hP _ _ _

theorem Tables.carryResume {t : Tag} (hP : P t) (b : Body) (left : Time) (r : ResumeRecord) (s : State) :
    Tables P s (carryResume t b left r s) := by
  have hp : ∀ n, Tables P s (park t b n s) := fun n => (Tables.setLive _ _ _ _).trans (.closeItems hP _ _)
  unfold Machine.carryResume
  split
  · exact .complete hP _ _
  · exact .complete hP _ _
  · exact .complete hP _ _
  · split
    · exact .complete hP _ _
    · split
      · exact .withdraw hP _ _
      · exact hp _
  all_goals
    split
    · exact .withdraw hP _ _
    · exact hp _

theorem Tables.settleOpen {t : Tag} (s : State)
    (hP : ∀ b o r, slotOf s t = .live b (.connOpen o r) → openOver b r = true → P t) : Tables P s (settleOpen t s) := by
  unfold Machine.settleOpen
  split
  · next hl =>
    split
    · next ho => exact .carryOpen (hP _ _ _ (liveOf_eq_some.mp hl) ho) _ _ _
    · exact .refl s
  · exact .refl s

theorem Tables.settleResume {t : Tag} (s : State) (hP : (∃ b l r, slotOf s t = .live b (.connResume l r)) → P t) :
    Tables P s (settleResume t s) := by
  unfold Machine.settleResume
  split
  · next hl =>
    split
    · exact .carryResume (hP ⟨_, _, _, liveOf_eq_some.mp hl⟩) _ _ _ _
    · exact .refl s
  · exact .refl s

theorem Tables.modifyOpen (t : Tag) (f : OpenRecord → OpenRecord) (s : State) : Tables P s (modifyOpen t f s) := by
  unfold Machine.modifyOpen
  split
  · exact .setLive _ _ _ _
  · exact .refl s

theorem Tables.modifyResume (t : Tag) (f : ResumeRecord → ResumeRecord) (s : State) :
    Tables P s (modifyResume t f s) := by
  unfold Machine.modifyResume
  split
  · exact .setLive _ _ _ _
  · exact .refl s

/-- The OPEN tenure of the entry has not ended. -/
def openRuns (s : State) (u : Tag) : Prop := ∃ b o r, slotOf s u = .live b (.connOpen o r) ∧ r.ended = false

theorem Tables.itemDrained {i : MoverItem} {s : State} (hP : ¬ openRuns s i.tag → P i.tag) :
    Tables P s (itemDrained i s) := by
  unfold Machine.itemDrained
  split
  · by_cases ho : openRuns s i.tag
    · obtain ⟨b, o, r, hs, hr⟩ := ho
      have hm : Tables P s (Machine.modifyResume i.tag (fun r => { r with drained := true })
          (Machine.modifyOpen i.tag (fun r => { r with drained := true }) s)) :=
        (Tables.modifyOpen _ _ _).trans (.modifyResume _ _ _)
      have e : slotOf (Machine.modifyResume i.tag (fun r => { r with drained := true })
          (Machine.modifyOpen i.tag (fun r => { r with drained := true }) s)) i.tag =
          .live b (.connOpen o { r with drained := true }) := by
        simp [Machine.modifyOpen, Machine.modifyResume, hs, liveOf]
      generalize Machine.modifyResume i.tag _ _ = m at hm e ⊢
      have e2 : Machine.settleOpen i.tag m = m := by
        simp [Machine.settleOpen, liveOf, e, openOver, hr]
      have e3 : Machine.settleResume i.tag m = m := by
        simp [Machine.settleResume, liveOf, e]
      rw [e2, e3]; exact hm
    · have hp := hP ho
      exact (((Tables.modifyOpen _ _ _).trans (.modifyResume _ _ _)).trans (.settleOpen _ fun _ _ _ _ _ => hp)).trans
        (.settleResume _ fun _ => hp)
  · exact .refl s

/-- The items that leave close those of their own tags alone, and none of an OPEN tenure that has not ended. -/
theorem Tables.drained (is : List MoverItem) (s : State) :
    Tables (fun u => ¬ openRuns s u) s (is.foldl (fun s i => Machine.itemDrained i s) s) := by
  have key : ∀ (is : List MoverItem) (t : State), (∀ u, openRuns s u → openRuns t u) →
      Tables (fun u => ¬ openRuns s u) t (is.foldl (fun s i => Machine.itemDrained i s) t) := by
    intro is
    induction is with
    | nil => exact fun t _ => .refl t
    | cons i is ih =>
      intro t ht
      refine (Tables.itemDrained fun h => fun k => h (ht _ k)).trans (ih _ fun u hu => ?_)
      obtain ⟨b, o, r, hs, hr⟩ := ht u hu
      have k := KeepsRecords.itemDrained i t u (by rw [hs]; simp [tenureRuns, hr])
      rw [hs] at k
      unfold undrained at k
      split at k
      · next b' o' r' e =>
        simp only [Slot.live.injEq, Phase.connOpen.injEq, OpenRecord.mk.injEq] at k
        exact ⟨b', o', r', e, by rw [← hr]; exact k.2.2.2.2.2.2.2.2.2.2⟩
      · cases k
      · next h1 h2 => exact absurd k (h1 _ _ _)
  exact key is s fun _ => id

/-! ## Bytes leave the transit buffer -/

/-- The work of the service record, which no verdict changes. -/
def works (s : State) : Option ServiceWork := s.serve.service.map Service.work

/-- A SWAP waits at step 1 of R143. -/
def swapWaits (s : State) : Bool :=
  match works s with
  | some (.swap _ _ false) => true
  | _ => false

theorem noSwapGoesAhead_iff (s : State) (rs : List InRun) :
    NoSwapGoesAhead s rs ↔ (swapWaits s = true → rs.any isLeftover = true) := by
  simp only [NoSwapGoesAhead, swapWaits, works, List.any_eq_true]
  cases s.serve.service with
  | none => simp
  | some v =>
    simp only [Option.map_some, Option.some.injEq]
    constructor
    · intro h k
      split at k
      · next hw => exact h v _ _ rfl (Option.some.inj hw)
      · cases k
    · rintro h _ a o rfl hw
      exact h (by rw [hw])

/-- The head of the transit buffer without the bytes that a NOTE hands on. -/
def fedRuns : List InRun → List InRun
  | [] => []
  | r :: rs => (if r.sink = .note then { r with bytes := [] } else r) :: rs

theorem feedNote_spec (s : State) : (feedNote s).bus.runs = fedRuns s.bus.runs ∧ around (feedNote s) = around s ∧
    (feedNote s).launch = s.launch ∧ swapWaits (feedNote s) = swapWaits s := by
  unfold feedNote
  split
  · next r rs hr =>
    rw [hr]
    split
    · next hn =>
      unfold modifyWork
      split
      · next v hv =>
        refine ⟨by simp [fedRuns, hn], rfl, rfl, ?_⟩
        simp only [swapWaits, works, Option.map_some, show s.serve.service = some v from hv]
        cases v.work <;> rfl
      · exact ⟨by simp [fedRuns, hn], rfl, rfl, rfl⟩
    · next hn => exact ⟨by simp [fedRuns, hn, hr], rfl, rfl, rfl⟩
  · next hr => exact ⟨by simp [fedRuns, hr], rfl, rfl, rfl⟩

/-- What the bytes' leaving changes: the runs, the tables, and the payload of a NOTE. -/
theorem pump_spec (s : State) :
    (∃ f, (pump s).bus.runs = (drainRuns (fedRuns s.bus.runs)).1.map f ∧
      ∀ q, SameRun q (f q) ∧ (ItemOutside (fun u => ¬ openRuns s u) q → f q = q)) ∧
    around (pump s) = around s ∧ (pump s).serve.service = (feedNote s).serve.service := by
  obtain ⟨hr, ha, hl, _⟩ := feedNote_spec s
  have h := Tables.drained (itemsByAcc (feedNote s) (drainRuns (feedNote s).bus.runs).2)
    { feedNote s with bus.runs := (drainRuns (feedNote s).bus.runs).1 }
  have ho : openRuns { feedNote s with bus.runs := (drainRuns (feedNote s).bus.runs).1 } = openRuns s := by
    funext u
    have hs : slotOf { feedNote s with bus.runs := (drainRuns (feedNote s).bus.runs).1 } u = slotOf s u :=
      slotOf_congr (congrArg Launch.entries hl) u
    simp only [openRuns, hs]
  rw [ho] at h
  have ha' := h.around
  obtain ⟨f, hf, hq⟩ := h.runs
  refine ⟨⟨f, ?_, hq⟩, ?_, h.service⟩
  · rw [← hr]; exact hf
  · exact ha'.trans ha

theorem drainRuns_stays {r : InRun} (rs : List InRun) (hd : discards r.sink = false) (hg : runGone r = false) :
    (drainRuns (r :: rs)).1 = r :: rs.filter fun q => !runGone q := by
  simp [drainRuns, discardBytes, hd, hg]

theorem drainRuns_leaves {r : InRun} (rs : List InRun) (hg : runGone (discardBytes r) = true) :
    (drainRuns (r :: rs)).1 = (drainRuns rs).1 := by
  simp [drainRuns, hg]

/-- A run of which no byte has come stays last. -/
theorem drainRuns_last {r : InRun} (rs : List InRun) (he : r.ended = false) (hb : r.bytes = []) :
    ∃ rs', (drainRuns (rs ++ [r])).1 = rs' ++ [r] := by
  have hg : runGone r = false := by simp [runGone, he]
  have hd : discardBytes r = r := by
    cases r
    unfold discardBytes
    split
    · simp at hb; simp [hb]
    · rfl
  induction rs with
  | nil => exact ⟨[], by simp [drainRuns, hd, hg]⟩
  | cons q rs ih =>
    obtain ⟨rs', h⟩ := ih
    rw [List.cons_append]
    by_cases hq : runGone (discardBytes q) = true
    · exact ⟨rs', by rw [drainRuns_leaves _ hq, h]⟩
    · refine ⟨discardBytes q :: rs.filter fun q => !runGone q, ?_⟩
      simp [drainRuns, hq, hg]

theorem fedRuns_last {r : InRun} (rs : List InRun) (hb : r.bytes = []) : ∃ rs', fedRuns (rs ++ [r]) = rs' ++ [r] := by
  cases rs with
  | nil =>
    refine ⟨[], ?_⟩
    cases r
    simp only [fedRuns, List.nil_append]
    split <;> simp_all
  | cons q rs => exact ⟨(if q.sink = .note then { q with bytes := [] } else q) :: rs, by simp [fedRuns]⟩

/-! ## The Serve Engine goes on, and bytes are placed -/

theorem steady_giveVerdict (v : Verdict) (s : State) : steady (giveVerdict v s) = steady s := (giveVerdict_spec v s).2.1

theorem steady_giveClosing (k : VerdictKind) (s : State) : steady (giveClosing k s) = steady s := by
  unfold giveClosing
  split
  · rfl
  · exact (steady_giveVerdict _ _).trans rfl

theorem steady_giveFirst (k : VerdictKind) (r : Option SwapResult) (s : State) : steady (giveFirst k r s) = steady s := by
  unfold giveFirst
  split
  · rfl
  · next v _ =>
    refine (steady_giveVerdict _ _).trans ?_
    have h := (writeTermsFor_spec v.head s).2.1
    simpa only [steady, windowing, intakeStage] using h

theorem runs_of_steady {s t : State} (h : steady t = steady s) : t.bus.runs = s.bus.runs := by
  simp only [steady, Prod.mk.injEq] at h; exact h.2.2.2.2.2.2.1

theorem mem_of_steady {s t : State} (h : steady t = steady s) : t.mem = s.mem := by
  simp only [steady, Prod.mk.injEq] at h; exact h.2.2.2.2.2.1

/-- What the sending of a verdict leaves. -/
def beside (s : State) :=
  (s.mem, s.bus.runs, s.bus.outbound, s.bus.tenure, s.launch.outJob,
    (s.serve.resume, s.serve.swapStage, s.serve.swapMemo, s.serve.fill, s.serve.parkQueue, s.serve.staging))

theorem beside_giveVerdict (v : Verdict) (s : State) : beside (giveVerdict v s) = beside s ∧
    (giveVerdict v s).serve = s.serve ∧ (giveVerdict v s).bus.run = s.bus.run := by
  unfold giveVerdict
  split
  · unfold sendFrame; split <;> exact ⟨rfl, rfl, rfl⟩
  · exact ⟨rfl, rfl, rfl⟩

theorem giveClosing_spec (k : VerdictKind) (s : State) : beside (giveClosing k s) = beside s ∧
    (giveClosing k s).serve.service = s.serve.service.map (fun v => { v with closed := true }) ∧
    (giveClosing k s).bus.run = s.bus.run := by
  unfold giveClosing
  split
  · next h => exact ⟨rfl, by rw [h]; rfl, rfl⟩
  · next v h =>
    have g := beside_giveVerdict ⟨k, v.head.tag, v.head.gen, none, none⟩
      { s with serve.service := some { v with closed := true }, serve.verdictTimer := none }
    exact ⟨g.1.trans rfl, by rw [g.2.1, h]; rfl, g.2.2.trans rfl⟩

theorem beside_writeTermsFor (h : OpenHead) (s : State) : (writeTermsFor h s).serve = s.serve ∧
    (writeTermsFor h s).bus = s.bus ∧ (writeTermsFor h s).mem = s.mem ∧ (writeTermsFor h s).launch = s.launch := by
  unfold writeTermsFor agreeTerms
  split
  · split <;> exact ⟨rfl, rfl, rfl, rfl⟩
  · exact ⟨rfl, rfl, rfl, rfl⟩

theorem giveFirst_spec (k : VerdictKind) (r : Option SwapResult) (s : State) : beside (giveFirst k r s) = beside s ∧
    (giveFirst k r s).serve.service = s.serve.service.map (fun v => { v with first := some k, closed := k != .proceed }) ∧
    (giveFirst k r s).bus.run = s.bus.run := by
  unfold giveFirst
  split
  · next h => exact ⟨rfl, by rw [h]; rfl, rfl⟩
  · next v h =>
    obtain ⟨a, b, c, d⟩ := beside_writeTermsFor v.head s
    have g := beside_giveVerdict ⟨k, v.head.tag, v.head.gen, v.head.terms.map fun _ => ownTerms s, r⟩
      { writeTermsFor v.head s with
        serve.service := some { v with first := some k, closed := k != .proceed }
        serve.verdictTimer := none }
    refine ⟨g.1.trans ?_, by rw [g.2.1, h]; rfl, g.2.2.trans ?_⟩
    · simp only [beside, a, b, c, d]
    · simp only [b]

theorem swapWaits_map {s t : State} (f : Service → Service) (hf : ∀ v, (f v).work = v.work)
    (h : t.serve.service = s.serve.service.map f) : swapWaits t = swapWaits s := by
  have e : works t = works s := by
    simp only [works, h, Option.map_map]
    congr 1
    funext v
    exact hf v
  simp only [swapWaits, e]

theorem swapWaits_giveClosing (k : VerdictKind) (s : State) : swapWaits (giveClosing k s) = swapWaits s :=
  swapWaits_map (fun v => { v with closed := true }) (fun _ => rfl) (giveClosing_spec k s).2.1

/-- What the going on of a service leaves, if no SWAP goes ahead of the runs. -/
def flow (s : State) := (s.mem, s.bus.runs, s.bus.tenure, s.launch.outJob, s.serve.resume)

theorem flow_of_beside {s t : State} (h : beside t = beside s) : flow t = flow s := by
  simp only [beside, Prod.mk.injEq] at h
  simp only [flow, h]

theorem storeProgress_flow (s : State) : flow (storeProgress s) = flow s ∧ swapWaits (storeProgress s) = swapWaits s := by
  have h : ∀ k, flow (giveClosing k s) = flow s ∧ swapWaits (giveClosing k s) = swapWaits s := fun k =>
    ⟨flow_of_beside (giveClosing_spec k s).1, swapWaits_giveClosing k s⟩
  unfold storeProgress
  split
  · split
    · split
      · exact ⟨rfl, rfl⟩
      · exact h _
    · exact ⟨rfl, rfl⟩
  · exact ⟨rfl, rfl⟩

theorem fetchProgress_flow (s : State) : flow (fetchProgress s) = flow s ∧ swapWaits (fetchProgress s) = swapWaits s := by
  have h : ∀ k, flow (giveClosing k { s with bus.run := none, bus.outbound := [] }) = flow s ∧
      swapWaits (giveClosing k { s with bus.run := none, bus.outbound := [] }) = swapWaits s := fun k =>
    ⟨(flow_of_beside (giveClosing_spec k _).1).trans rfl, (swapWaits_giveClosing k _).trans rfl⟩
  unfold fetchProgress
  split
  · split
    · split
      · exact ⟨rfl, rfl⟩
      · exact h _
    · exact ⟨rfl, rfl⟩
  · exact ⟨rfl, rfl⟩

theorem swapProgress_flow {s : State} (h : swapWaits s = true → s.bus.runs.any isLeftover = true) :
    flow (swapProgress s) = flow s := by
  unfold swapProgress
  split
  · next v c hv _ _ =>
    split
    · next hw _ =>
      split
      · exact flow_of_beside (giveFirst_spec _ _ _).1
      · split
        · rfl
        · next hn =>
          have k := h (by simp [swapWaits, works, hv, hw])
          simp [k] at hn
    · rfl
  · rfl

theorem startFill_flow (s : State) : flow (startFill s) = flow s ∧ (startFill s).serve.service = s.serve.service ∧
    (startFill s).bus.outbound = s.bus.outbound := by
  unfold startFill
  split
  · split <;> exact ⟨rfl, rfl, rfl⟩
  · exact ⟨rfl, rfl, rfl⟩

theorem serveProgress_flow {s : State} (h : swapWaits s = true → s.bus.runs.any isLeftover = true) :
    flow (serveProgress s) = flow s := by
  obtain ⟨h1, w1⟩ := storeProgress_flow s
  obtain ⟨h2, w2⟩ := fetchProgress_flow (storeProgress s)
  have hr : (fetchProgress (storeProgress s)).bus.runs = s.bus.runs := by
    have e := h2.trans h1
    simp only [flow, Prod.mk.injEq] at e; exact e.2.1
  have h3 := swapProgress_flow (s := fetchProgress (storeProgress s)) (by rw [w2, w1, hr]; exact h)
  exact (startFill_flow _).1.trans (h3.trans (h2.trans h1))

/-- Whatever verdict is given: the runs, and the slots of the other clients, stay. -/
theorem serveProgress_runs (s : State) : (serveProgress s).bus.runs = s.bus.runs ∧
    (serveProgress s).mem.mover = s.mem.mover ∧ (serveProgress s).mem.lister = s.mem.lister := by
  have h : ∀ {s t : State}, flow t = flow s → t.bus.runs = s.bus.runs ∧ t.mem.mover = s.mem.mover ∧
      t.mem.lister = s.mem.lister := fun e => by
    simp only [flow, Prod.mk.injEq] at e; rw [e.1]; exact ⟨e.2.1, rfl, rfl⟩
  have hs : ∀ s : State, (swapProgress s).bus.runs = s.bus.runs ∧ (swapProgress s).mem.mover = s.mem.mover ∧
      (swapProgress s).mem.lister = s.mem.lister := fun s => by
    unfold swapProgress
    split
    · split
      · split
        · exact h (flow_of_beside (giveFirst_spec _ _ _).1)
        · split <;> exact ⟨rfl, rfl, rfl⟩
      · exact ⟨rfl, rfl, rfl⟩
    · exact ⟨rfl, rfl, rfl⟩
  obtain ⟨a1, a2, a3⟩ := h ((fetchProgress_flow (storeProgress s)).1.trans (storeProgress_flow s).1)
  obtain ⟨b1, b2, b3⟩ := hs (fetchProgress (storeProgress s))
  obtain ⟨c1, c2, c3⟩ := h (startFill_flow (swapProgress (fetchProgress (storeProgress s)))).1
  exact ⟨c1.trans (b1.trans a1), c2.trans (b2.trans a2), c3.trans (b3.trans a3)⟩

/-- Where no verdict is due, the services wait. -/
theorem serveProgress_quiet {s : State} (h : verdictDue s = false) : serveProgress s = startFill s := by
  have h1 : storeProgress s = s := by
    unfold storeProgress
    split
    · next v c hv hc =>
      split
      · next hw =>
        have : v.closed = true := by
          cases hb : v.closed with
          | true => rfl
          | false => rw [verdictDue_of hv hc (by simp [serviceOpen, hw, hb])] at h; cases h
        simp [this]
      · rfl
    · rfl
  have h2 : fetchProgress s = s := by
    unfold fetchProgress
    split
    · next v c r hv hc _ =>
      split
      · next hw =>
        have : v.closed = true := by
          cases hb : v.closed with
          | true => rfl
          | false => rw [verdictDue_of hv hc (by simp [serviceOpen, hw, hb])] at h; cases h
        simp [this]
      · rfl
    · rfl
  have h3 : swapProgress s = s := by
    unfold swapProgress
    split
    · next v c hv hc _ =>
      split
      · next hw hf => rw [verdictDue_of hv hc (by simp [serviceOpen, hw, hf])] at h; cases h
      · rfl
    · rfl
  unfold serveProgress
  rw [h1, h2, h3]

theorem placeOutbound_flow (s : State) : (placeOutbound s).bus.runs = s.bus.runs ∧ (placeOutbound s).mem = s.mem ∧
    (placeOutbound s).bus.tenure = s.bus.tenure := by
  have h1 : ∀ s : State, (placeOutJob s).bus.runs = s.bus.runs ∧ (placeOutJob s).mem = s.mem ∧
      (placeOutJob s).bus.tenure = s.bus.tenure := fun s => by
    unfold placeOutJob
    split
    · exact ⟨rfl, rfl, rfl⟩
    · split <;> exact ⟨rfl, rfl, rfl⟩
  have h2 : ∀ s : State, (placeFetch s).bus.runs = s.bus.runs ∧ (placeFetch s).mem = s.mem ∧
      (placeFetch s).bus.tenure = s.bus.tenure := fun s => by
    unfold placeFetch
    split
    · split
      · split <;> exact ⟨rfl, rfl, rfl⟩
      · exact ⟨rfl, rfl, rfl⟩
    · exact ⟨rfl, rfl, rfl⟩
  have h3 : ∀ s : State, (placeChunk s).bus.runs = s.bus.runs ∧ (placeChunk s).mem = s.mem ∧
      (placeChunk s).bus.tenure = s.bus.tenure := fun s => by
    unfold placeChunk
    split
    · split <;> exact ⟨rfl, rfl, rfl⟩
    · exact ⟨rfl, rfl, rfl⟩
  obtain ⟨a1, a2, a3⟩ := h1 s
  obtain ⟨b1, b2, b3⟩ := h2 (placeOutJob s)
  obtain ⟨c1, c2, c3⟩ := h3 (placeFetch (placeOutJob s))
  exact ⟨c1.trans (b1.trans a1), c2.trans (b2.trans a2), c3.trans (b3.trans a3)⟩

/-! ## The clients present their next transactions -/

theorem presentLister_runs (s : State) : (presentLister s).bus.runs = s.bus.runs ∧
    (presentLister s).mem.serve = s.mem.serve ∧ (presentLister s).mem.mover = s.mem.mover := by
  unfold presentLister
  split
  · dsimp only; split <;> exact ⟨rfl, rfl, rfl⟩
  · exact ⟨rfl, rfl, rfl⟩

theorem presentOutRead_runs (s : State) : (presentOutRead s).bus.runs = s.bus.runs ∧
    (presentOutRead s).mem.serve = s.mem.serve := by
  unfold presentOutRead
  split
  · exact ⟨rfl, rfl⟩
  · split
    · split <;> exact ⟨rfl, rfl⟩
    · exact ⟨rfl, rfl⟩

theorem presentFill_runs (s : State) : (presentFill s).bus.runs = s.bus.runs ∧ (presentFill s).mem.mover = s.mem.mover := by
  unfold presentFill
  split
  · split <;> exact ⟨rfl, rfl⟩
  · exact ⟨rfl, rfl⟩

theorem fetchRead_runs {s t : State} (h : fetchRead s = some t) :
    t.bus.runs = s.bus.runs ∧ t.mem.mover = s.mem.mover := by
  unfold fetchRead at h
  split at h
  · split at h
    · dsimp only at h
      split at h
      · cases h
      · cases h; exact ⟨rfl, rfl⟩
    · cases h
  · cases h

/-- Without a write to present, the Serve Engine leaves the runs. -/
theorem presentServe_runs {s : State} (h : s.mem.serve = none → storeWrite s = none) :
    (presentServe s).bus.runs = s.bus.runs ∧ (presentServe s).mem.mover = s.mem.mover := by
  unfold presentServe
  split
  · exact ⟨rfl, rfl⟩
  · next hm =>
    rw [h hm]
    dsimp only
    split
    · exact ⟨rfl, rfl⟩
    · split
      · next hf => exact fetchRead_runs hf
      · split
        · exact ⟨rfl, rfl⟩
        · exact presentFill_runs s

theorem storeWrite_runs {s t : State} (h : storeWrite s = some t) : t.mem.mover = s.mem.mover ∧
    ∃ r rs n, s.bus.runs = r :: rs ∧ WriteReady r .serve (match r.sink with | .store j => j.next | _ => 0) n ∧
      t.mem.serve = some (writeTxn (match r.sink with | .store j => j.next | _ => 0) (r.bytes.take n)) ∧
      ∃ p, t.bus.runs = p :: rs ∧ WriteIssued r p n := by
  unfold storeWrite at h
  split at h
  · next r rs hr =>
    split at h
    · next j hj hf =>
      dsimp only at h
      split at h
      · cases h
      · next hn =>
        cases h
        simp only [not_or] at hn
        refine ⟨rfl, r, rs, _, hr, ⟨by rw [hj]; rfl, ?_, hf, hn.1, ?_, ?_⟩, ?_, _, rfl, rfl, rfl, rfl, rfl, rfl, ?_, ?_, ?_⟩
        · rw [hj]; simpa [discards] using hn.2
        · intro k hk
          rw [hj] at hk; cases hk
          rw [hj]; exact ⟨rfl, rfl⟩
        · intro i hi; rw [hj] at hi; cases hi
        · rw [hj]; rfl
        · simpa [discards] using hn.2
        · intro k hk; rw [hj] at hk; cases hk; exact ⟨_, rfl, rfl, rfl⟩
        · intro i hi; rw [hj] at hi; cases hi
    · cases h
  · cases h

/-- A write that is ready at the head is the Serve Engine's next. -/
theorem storeWrite_ready {s : State} {q : InRun} {rs : List InRun} {a : Word} {n : Nat} (hr : s.bus.runs = q :: rs)
    (hw : WriteReady q .serve a n) : ∃ t, storeWrite s = some t ∧ t.mem.mover = s.mem.mover ∧
      t.mem.serve = some (writeTxn a (q.bytes.take n)) ∧ ∃ p, t.bus.runs = p :: rs ∧ WriteIssued q p n := by
  obtain ⟨h1, h2, h3, h4, h5, h6⟩ := hw
  cases hs : q.sink with
  | store j =>
    obtain ⟨rfl, hn⟩ := h5 j hs
    have hf : j.faulted = false := by simpa [hs, discards] using h2
    have e : writeSize j.next (q.length - (q.received - q.bytes.length)) q = n := hn.symm
    unfold storeWrite
    rw [hr]
    simp only [hs, h3, e, h4, hf, false_or, Bool.false_eq_true, if_false]
    refine ⟨_, rfl, rfl, rfl, _, rfl, rfl, rfl, rfl, rfl, rfl, ?_, ?_, ?_⟩
    · rfl
    · intro k hk; rw [hs] at hk; cases hk; exact ⟨_, rfl, rfl, rfl⟩
    · intro i hi; rw [hs] at hi; cases hi
  | _ => rw [hs] at h1; simp [writerOf] at h1

/-- A write that is ready at the head is the data mover's next. -/
theorem presentMover_ready {s : State} {q : InRun} {rs : List InRun} {a : Word} {n : Nat} (hm : s.mem.mover = none)
    (hr : s.bus.runs = q :: rs) (hw : WriteReady q .mover a n) :
    (presentMover s).mem.mover = some (writeTxn a (q.bytes.take n)) ∧
      ∃ p, (presentMover s).bus.runs = p :: rs ∧ WriteIssued q p n := by
  obtain ⟨h1, h2, h3, h4, h5, h6⟩ := hw
  cases hs : q.sink with
  | mover i =>
    obtain ⟨left, hl, hn⟩ := h6 i hs
    have e : writeSize a left q = n := hn.symm
    have hd : i.discard = false ∧ i.localFault = false := by simpa [hs, discards] using h2
    unfold presentMover
    rw [hm, hr]
    simp only [hs, h3, hl, e, h4, hd, false_or, Bool.false_eq_true, if_false]
    refine ⟨rfl, _, rfl, rfl, rfl, rfl, rfl, rfl, ?_, ?_, ?_⟩
    · simp [discards]
    · intro j hj; rw [hs] at hj; cases hj
    · intro k hk; rw [hs] at hk; cases hk; exact ⟨_, rfl, rfl, rfl, rfl⟩
  | _ => rw [hs] at h1; simp [writerOf] at h1

/-- With no write ready at the head, the data mover leaves the runs. -/
theorem presentMover_runs {s : State}
    (h : s.mem.mover = none → ∀ q rs, s.bus.runs = q :: rs → ∀ a n, ¬ WriteReady q .mover a n) :
    (presentMover s).bus.runs = s.bus.runs ∧ (presentMover s).mem.serve = s.mem.serve := by
  unfold presentMover
  split
  · exact ⟨rfl, rfl⟩
  · exact presentOutRead_runs s
  · next q rs hm hr =>
    split
    · next i hi hf =>
      split
      · exact presentOutRead_runs s
      · next a left hl =>
        dsimp only
        split
        · exact presentOutRead_runs s
        · next hn =>
          simp only [not_or, Bool.not_eq_true] at hn
          refine absurd ⟨by rw [hi]; rfl, by simp [hi, discards, hn.2], hf, hn.1, ?_, ?_⟩
            (h hm q rs hr a (writeSize a left q))
          · intro j hj; rw [hi] at hj; cases hj
          · intro k hk; rw [hi] at hk; cases hk; exact ⟨left, hl, rfl⟩
    · exact presentOutRead_runs s

theorem presentMover_mem (s : State) : (presentMover s).mem.serve = s.mem.serve := by
  unfold presentMover
  split
  · rfl
  · exact (presentOutRead_runs s).2
  · split
    · split
      · exact (presentOutRead_runs s).2
      · dsimp only
        split
        · exact (presentOutRead_runs s).2
        · rfl
    · exact (presentOutRead_runs s).2

theorem not_ready_in_flight {q : InRun} (h : q.flight ≠ none) (c : Client) (a : Word) (n : Nat) : ¬ WriteReady q c a n :=
  fun k => h k.2.2.1

theorem storeWrite_none {s : State} (h : ∀ q rs, s.bus.runs = q :: rs → ∀ a n, ¬ WriteReady q .serve a n) :
    storeWrite s = none := by
  cases hs : storeWrite s with
  | none => rfl
  | some t =>
    obtain ⟨_, r, rs, n, hr, hw, _⟩ := storeWrite_runs hs
    exact absurd hw (h r rs hr _ _)

/-- The head is ready to be written: its client presents the write. -/
theorem presentAll_ready {s : State} {q : InRun} {rs : List InRun} {c : Client} {a : Word} {n : Nat}
    (hr : s.bus.runs = q :: rs) (hc : txnOf s c = none) (hw : WriteReady q c a n) :
    txnOf (presentAll s) c = some (writeTxn a (q.bytes.take n)) ∧
      ∃ p, (presentAll s).bus.runs = p :: rs ∧ WriteIssued q p n := by
  obtain ⟨hl1, hl2, hl3⟩ := presentLister_runs (presentMover (presentServe s))
  unfold presentAll
  cases c with
  | serve =>
    obtain ⟨t, ht, hm, hx, p, hp, hi⟩ := storeWrite_ready hr hw
    have e : presentServe s = t := by
      unfold presentServe
      rw [show s.mem.serve = none from hc, ht]
    obtain ⟨k1, k2⟩ := presentMover_runs (s := t) fun _ q' rs' hr' => by
      rw [hp] at hr'; cases hr'
      exact not_ready_in_flight (by rw [hi.2.2.2.2.1]; nofun) _
    simp only [txnOf]
    rw [hl1, hl2, e, k1, k2]
    exact ⟨hx, p, hp, hi⟩
  | mover =>
    have hn : storeWrite s = none := storeWrite_none fun q' rs' hr' a' n' k => by
      rw [hr] at hr'; cases hr'
      have := hw.1.symm.trans k.1
      cases this
    obtain ⟨k1, k2⟩ := presentServe_runs fun _ => hn
    have m := presentMover_ready (s := presentServe s) (k2.trans hc) (k1.trans hr) hw
    simp only [txnOf]
    rw [hl1, hl3]
    exact m
  | lister =>
    have := hw.1
    cases hs : q.sink <;> simp [hs, writerOf] at this

/-- No write is ready at the head: the runs stay. -/
theorem presentAll_runs {s : State}
    (h : ∀ q rs, s.bus.runs = q :: rs → ∀ c, txnOf s c = none → ∀ a n, ¬ WriteReady q c a n) :
    (presentAll s).bus.runs = s.bus.runs := by
  unfold presentAll
  rw [(presentLister_runs _).1]
  obtain ⟨k1, k2⟩ := presentServe_runs (s := s) fun hm => storeWrite_none fun q rs hr => h q rs hr .serve hm
  rw [(presentMover_runs (s := presentServe s) fun hm q rs hr => h q rs (k1.symm.trans hr) .mover (k2.symm.trans hm)).1, k1]

/-! ## A pass, and a settling, with a write ready at the head -/

theorem WriteReady.bytes {q : InRun} {c : Client} {a : Word} {n : Nat} (h : WriteReady q c a n) : q.bytes ≠ [] := by
  intro hb
  obtain ⟨h1, h2, h3, h4, h5, h6⟩ := h
  have z : ∀ left, nextSize q a left = 0 := fun left => by
    unfold nextSize
    dsimp only
    rw [hb]
    simp only [List.length_nil, Nat.le_zero_eq]
    split
    · assumption
    · split <;> rfl
  cases hs : q.sink with
  | store j => exact h4 ((h5 j hs).2.trans (z _))
  | mover i => obtain ⟨left, _, e⟩ := h6 i hs; exact h4 (e.trans (z _))
  | _ => rw [hs] at h1; simp [writerOf] at h1

theorem nextSize_congr {q p : InRun} (hl : p.length = q.length) (hr : p.received = q.received) (hb : p.bytes = q.bytes)
    (he : p.ended = q.ended) (a : Word) (left : Nat) : nextSize p a left = nextSize q a left := by
  simp only [nextSize, hl, hr, hb, he]

theorem SameRun.discards {q p : InRun} (h : SameRun q p) : discards p.sink = discards q.sink := by
  obtain ⟨_, _, _, _, _, h6, h7⟩ := h
  cases hs : q.sink with
  | mover i =>
    obtain ⟨k, hk, _, _, _, h1, h2⟩ := h7 i hs
    rw [hk]; simp [Machine.discards, h1, h2]
  | _ => rw [h6 (by rw [hs]; nofun), hs]

theorem SameRun.writerOf {q p : InRun} (h : SameRun q p) : writerOf p.sink = writerOf q.sink := by
  obtain ⟨_, _, _, _, _, h6, h7⟩ := h
  cases hs : q.sink with
  | mover i =>
    obtain ⟨k, hk, _⟩ := h7 i hs
    rw [hk]; rfl
  | _ => rw [h6 (by rw [hs]; nofun), hs]

theorem SameRun.isLeftover {q p : InRun} (h : SameRun q p) : isLeftover p = isLeftover q := by
  obtain ⟨_, _, _, _, _, h6, h7⟩ := h
  unfold Machine.isLeftover
  cases hs : q.sink with
  | mover i =>
    obtain ⟨k, hk, _⟩ := h7 i hs
    rw [hk]
  | _ => rw [h6 (by rw [hs]; nofun), hs]

theorem SameRun.ready {q p : InRun} {c : Client} {a : Word} {n : Nat} (h : SameRun q p) (hw : WriteReady q c a n) :
    WriteReady p c a n := by
  have hd := h.discards
  have ho := h.writerOf
  obtain ⟨e1, e2, e3, e4, e5, h6, h7⟩ := h
  obtain ⟨w1, w2, w3, w4, w5, w6⟩ := hw
  refine ⟨ho.trans w1, hd.trans w2, e5.trans w3, w4, fun j hj => ?_, fun k hk => ?_⟩
  · cases hs : q.sink with
    | mover i => obtain ⟨k, hk, _⟩ := h7 i hs; rw [hk] at hj; cases hj
    | _ =>
      have e := h6 (by rw [hs]; nofun)
      rw [nextSize_congr e1 e2 e3 e4, e1, e2, e3]
      exact w5 j (e.symm.trans hj)
  · cases hs : q.sink with
    | mover i =>
      obtain ⟨k', hk', _, hseg, hpos, _⟩ := h7 i hs
      rw [hk] at hk'; cases hk'
      obtain ⟨left, hl, hn⟩ := w6 i hs
      exact ⟨left, by rw [hseg, hpos]; exact hl, by rw [nextSize_congr e1 e2 e3 e4]; exact hn⟩
    | _ =>
      have e := h6 (by rw [hs]; nofun)
      rw [e, hs] at hk; cases hk

theorem SameRun.issued_left {q q' p : InRun} {n : Nat} (h : SameRun q q') (hi : WriteIssued q' p n) : WriteIssued q p n := by
  obtain ⟨e1, e2, e3, e4, e5, h6, h7⟩ := h
  obtain ⟨i1, i2, i3, i4, i5, i6, i7, i8⟩ := hi
  refine ⟨i1.trans e1, i2.trans e2, i3.trans e4, by rw [i4, e3], i5, i6, fun j hj => ?_, fun i hi => ?_⟩
  · exact i7 j (by rw [h6 (by rw [hj]; nofun)]; exact hj)
  · obtain ⟨k, hk, a1, a2, a3, _⟩ := h7 i hi
    obtain ⟨l, hl, b1, b2, b3⟩ := i8 k hk
    exact ⟨l, hl, b1.trans a1, b2.trans a2, by rw [b3, a3]⟩

theorem SameRun.issued_right {q p p' : InRun} {n : Nat} (h : SameRun p p') (hi : WriteIssued q p n) : WriteIssued q p' n := by
  have hd := h.discards
  obtain ⟨e1, e2, e3, e4, e5, h6, h7⟩ := h
  obtain ⟨i1, i2, i3, i4, i5, i6, i7, i8⟩ := hi
  refine ⟨e1.trans i1, e2.trans i2, e4.trans i3, e3.trans i4, e5.trans i5, hd.trans i6, fun j hj => ?_, fun i hi => ?_⟩
  · obtain ⟨k, hk, a1, a2⟩ := i7 j hj
    exact ⟨k, by rw [h6 (by rw [hk]; nofun)]; exact hk, a1, a2⟩
  · obtain ⟨k, hk, a1, a2, a3⟩ := i8 i hi
    obtain ⟨l, hl, b1, b2, b3, _⟩ := h7 k hk
    exact ⟨l, hl, b1.trans a1, b2.trans a2, by rw [b3, a3]⟩

/-- The run that stands first once the runs that are gone have left. -/
theorem pump_first {s : State} {q : InRun} {rs : List InRun} (hr : (drainRuns (fedRuns s.bus.runs)).1 = q :: rs) :
    ∃ p rs', (pump s).bus.runs = p :: rs' ∧ SameRun q p ∧ rs'.length = rs.length := by
  obtain ⟨⟨f, hf, hq⟩, _, _⟩ := pump_spec s
  rw [hr] at hf
  exact ⟨f q, _, hf, (hq q).1, List.length_map ..⟩

/-- A run at the head that is written stays there in the leaving of bytes. -/
theorem head_stays {s : State} {q : InRun} {rs : List InRun} (hr : s.bus.runs = q :: rs) (hn : q.sink ≠ .note)
    (hd : discards q.sink = false) (hg : runGone q = false) :
    ∃ rs', (drainRuns (fedRuns s.bus.runs)).1 = q :: rs' ∧ rs'.length ≤ rs.length := by
  have e : fedRuns s.bus.runs = q :: rs := by rw [hr]; simp [fedRuns, hn]
  exact ⟨_, by rw [e, drainRuns_stays rs hd hg], List.length_filter_le _ _⟩

theorem swapWaits_pump (s : State) : swapWaits (pump s) = swapWaits s := by
  obtain ⟨_, _, h⟩ := pump_spec s
  have k := (feedNote_spec s).2.2.2
  simp only [swapWaits, works, h] at k ⊢
  exact k

theorem note_ne_of_writerOf {q : InRun} {c : Client} (h : writerOf q.sink = some c) : q.sink ≠ .note := fun e => by
  rw [e] at h; cases h

/-- A pass presents the write that is ready at the head. -/
theorem pass_ready {s : State} {q : InRun} {rs : List InRun} {c : Client} {a : Word} {n : Nat}
    (hr : (drainRuns (fedRuns s.bus.runs)).1 = q :: rs) (hc : txnOf s c = none) (hw : WriteReady q c a n)
    (hs : c = .serve → NoSwapGoesAhead s [q]) :
    txnOf (pass s) c = some (writeTxn a (q.bytes.take n)) ∧
      ∃ p rs', (pass s).bus.runs = p :: rs' ∧ WriteIssued q p n ∧ rs'.length = rs.length := by
  obtain ⟨p, rs', hp, hsame, hlen⟩ := pump_first hr
  obtain ⟨_, ha, _⟩ := pump_spec s
  have hmem : (pump s).mem = s.mem := by simp only [around, Prod.mk.injEq] at ha; exact ha.1
  obtain ⟨r1, r2, _⟩ := serveProgress_runs (pump s)
  obtain ⟨b1, b2, _⟩ := placeOutbound_flow (serveProgress (pump s))
  have hc' : txnOf (placeOutbound (serveProgress (pump s))) c = none := by
    cases c with
    | serve =>
      have k := serveProgress_flow (s := pump s) fun hw' => by
        rw [swapWaits_pump] at hw'
        have := (noSwapGoesAhead_iff s [q]).mp (hs rfl) hw'
        simp only [List.any_cons, List.any_nil, Bool.or_false] at this
        rw [hp, List.any_cons, hsame.isLeftover, this]; rfl
      simp only [flow, Prod.mk.injEq] at k
      simp only [txnOf, b2, k.1, hmem]; exact hc
    | mover => simp only [txnOf, b2, r2, hmem]; exact hc
    | lister => have := hw.1; cases hk : q.sink <;> simp [hk, Machine.writerOf] at this
  obtain ⟨x, p', hp', hi⟩ := presentAll_ready (b1.trans (r1.trans hp)) hc' (hsame.ready hw)
  unfold pass
  exact ⟨by rw [x, hsame.2.2.1], p', rs', hp', hsame.issued_left hi, hlen⟩

/-- A pass leaves a run whose write is in flight. -/
theorem pass_inFlight {s : State} {q p : InRun} {rs : List InRun} {n : Nat} (hr : s.bus.runs = p :: rs)
    (hi : WriteIssued q p n) (hn : p.sink ≠ .note) :
    ∃ p' rs', (pass s).bus.runs = p' :: rs' ∧ WriteIssued q p' n ∧ p'.sink ≠ .note ∧ rs'.length ≤ rs.length := by
  have hf : p.flight ≠ none := by rw [hi.2.2.2.2.1]; nofun
  have hg : runGone p = false := by simp [runGone, hi.2.2.2.2.1]
  obtain ⟨ys, hy, hlen'⟩ := head_stays hr hn hi.2.2.2.2.2.1 hg
  obtain ⟨p', rs', hp, hsame, hlen⟩ := pump_first hy
  obtain ⟨r1, _, _⟩ := serveProgress_runs (pump s)
  obtain ⟨b1, _, _⟩ := placeOutbound_flow (serveProgress (pump s))
  refine ⟨p', rs', ?_, hsame.issued_right hi, ?_, hlen ▸ hlen'⟩
  · unfold pass
    rw [presentAll_runs fun x xs hx c _ a m => ?_]
    · exact b1.trans (r1.trans hp)
    · rw [b1, r1, hp] at hx; cases hx
      exact not_ready_in_flight (by rw [hsame.2.2.2.2.1]; exact hf) _ _ _
  · intro e
    cases hs : p.sink with
    | mover i => obtain ⟨k, hk, _⟩ := hsame.2.2.2.2.2.2 i hs; rw [hk] at e; cases e
    | note => exact hn hs
    | _ => rw [hsame.2.2.2.2.2.1 (by rw [hs]; nofun), hs] at e; cases e

theorem runs_afterPasses (s : State) : (updateStall (contendInIdle (updateClaims (drainToOffline (arbitrate s))))).bus.runs =
    s.bus.runs := by
  have h1 : (arbitrate s).bus.runs = s.bus.runs := by
    unfold arbitrate; split
    · rfl
    · split <;> rfl
  have h2 : ∀ s : State, (drainToOffline s).bus.runs = s.bus.runs := fun s => by unfold drainToOffline; split <;> rfl
  have h3 : ∀ s : State, (contendInIdle s).bus.runs = s.bus.runs := fun s => by
    unfold contendInIdle openWindow; split
    · dsimp only; split <;> rfl
    · rfl
  have h4 : ∀ s : State, (updateStall s).bus.runs = s.bus.runs := fun s => by unfold updateStall; split <;> rfl
  have h5 : ∀ s : State, (updateClaims s).bus.runs = s.bus.runs := fun _ => rfl
  rw [h4, h3, h5, h2, h1]

/-- What follows an event presents the write that is ready at the run that stands first, once those gone have left. -/
theorem settle_ready {s : State} {q : InRun} {rs : List InRun} {c : Client} {a : Word} {n : Nat}
    (hr : (drainRuns (fedRuns s.bus.runs)).1 = q :: rs) (hc : txnOf s c = none) (hw : WriteReady q c a n)
    (hs : c = .serve → NoSwapGoesAhead s [q]) :
    WritePresented (settle s) q c a n ∧ (rs = [] → (settle s).bus.runs.length = 1) := by
  obtain ⟨hx, p1, rs1, h1, i1, l1⟩ := pass_ready hr hc hw hs
  have hn : p1.sink ≠ .note := by
    intro e
    cases hk : q.sink with
    | store j => obtain ⟨k, hk', _⟩ := i1.2.2.2.2.2.2.1 j hk; rw [hk'] at e; cases e
    | mover i => obtain ⟨k, hk', _⟩ := i1.2.2.2.2.2.2.2 i hk; rw [hk'] at e; cases e
    | _ => have := hw.1; rw [hk] at this; cases this
  obtain ⟨p2, rs2, h2, i2, n2, l2⟩ := pass_inFlight h1 i1 hn
  obtain ⟨p3, rs3, h3, i3, n3, l3⟩ := pass_inFlight h2 i2 n2
  have hruns : (settle s).bus.runs = p3 :: rs3 := by unfold settle; rw [runs_afterPasses, h3]
  refine ⟨⟨?_, p3, rs3, hruns, i3⟩, fun h => ?_⟩
  · have a1 := (Settles.pass (pass s)).issued c _ hx
    have a2 := (Settles.pass (pass (pass s))).issued c _ a1
    have a3 := (Settles.afterPasses (P := fun _ => True) (pass (pass (pass s)))).issued c _ a2
    unfold settle
    exact a3
  · rw [hruns]
    subst h
    have : rs3 = [] := List.length_eq_zero_iff.mp (by rw [List.length_nil] at l1; omega)
    rw [this]; rfl

/-- What follows an event presents the write that is ready at the head of the transit buffer. -/
theorem settle_ready_head {s : State} {q : InRun} {rs : List InRun} {c : Client} {a : Word} {n : Nat}
    (hr : s.bus.runs = q :: rs) (hc : txnOf s c = none) (hw : WriteReady q c a n)
    (hs : c = .serve → NoSwapGoesAhead s [q]) :
    WritePresented (settle s) q c a n ∧ (rs = [] → (settle s).bus.runs.length = 1) := by
  have hg : runGone q = false := by simp [runGone, hw.bytes]
  obtain ⟨rs', h, hl⟩ := head_stays hr (note_ne_of_writerOf hw.1) hw.2.1 hg
  obtain ⟨h1, h2⟩ := settle_ready h hc hw hs
  exact ⟨h1, fun e => h2 (List.length_eq_zero_iff.mp (by rw [e] at hl; exact Nat.le_zero.mp hl))⟩

/-! ## A single run that waits -/

/-- A single run with bytes left, of which no write can be presented, stays as it is. -/
theorem pass_waits {s : State} {q : InRun} {c : Client} (hr : s.bus.runs = [q]) (hw : writerOf q.sink = some c)
    (hd : discards q.sink = false) (hb : q.bytes ≠ [])
    (h : txnOf s c ≠ none ∨ ∀ a n, ¬ WriteReady q c a n) : (pass s).bus.runs = [q] := by
  have hn := note_ne_of_writerOf hw
  have hg : runGone q = false := by simp [runGone, hb]
  have e : fedRuns s.bus.runs = [q] := by rw [hr]; simp [fedRuns, hn]
  have hf : (feedNote s).bus.runs = [q] := (feedNote_spec s).1.trans e
  have hdr : drainRuns [q] = ([q], []) := by simp [drainRuns, discardBytes, hd, hg]
  have hp : (pump s).bus.runs = [q] ∧ (pump s).mem = s.mem := by
    obtain ⟨_, ha, _⟩ := pump_spec s
    simp only [around, Prod.mk.injEq] at ha
    refine ⟨?_, ha.1⟩
    unfold pump
    dsimp only
    rw [hf, hdr]
    rfl
  obtain ⟨r1, r2, r3⟩ := serveProgress_runs (pump s)
  obtain ⟨b1, b2, _⟩ := placeOutbound_flow (serveProgress (pump s))
  have hruns := b1.trans (r1.trans hp.1)
  unfold pass
  rw [presentAll_runs, hruns]
  intro x xs hx c' hc' a n k
  rw [hruns] at hx; cases hx
  have hcc : c' = c := Option.some.inj (k.1.symm.trans hw)
  subst hcc
  rcases h with h | h
  · apply h
    cases c' with
    | serve =>
      cases hs : s.mem.serve with
      | none => exact hs
      | some x =>
        have h1 := (Settles.serveProgress (P := fun _ => True) (pump s)).issued .serve x (by simp only [txnOf, hp.2, hs])
        simp only [txnOf, b2] at hc' h1
        rw [hc'] at h1; cases h1
    | mover => simpa only [txnOf, b2, r2, hp.2] using hc'
    | lister => simpa only [txnOf, b2, r3, hp.2] using hc'
  · exact h a n k

theorem settle_waits {s : State} {q : InRun} {c : Client} (hr : s.bus.runs = [q]) (hw : writerOf q.sink = some c)
    (hd : discards q.sink = false) (hb : q.bytes ≠ [])
    (h : txnOf s c ≠ none ∨ ∀ a n, ¬ WriteReady q c a n) : (settle s).bus.runs = [q] := by
  have step : ∀ {s : State}, s.bus.runs = [q] → (txnOf s c ≠ none ∨ ∀ a n, ¬ WriteReady q c a n) →
      (pass s).bus.runs = [q] ∧ (txnOf (pass s) c ≠ none ∨ ∀ a n, ¬ WriteReady q c a n) := fun {s} hr h => by
    refine ⟨pass_waits hr hw hd hb h, h.imp_left fun hx => ?_⟩
    cases hs : txnOf s c with
    | none => exact absurd hs hx
    | some x => rw [(Settles.pass s).issued c x hs]; nofun
  obtain ⟨r1, h1⟩ := step hr h
  obtain ⟨r2, h2⟩ := step r1 h1
  obtain ⟨r3, _⟩ := step r2 h2
  unfold settle
  rw [runs_afterPasses, r3]

/-! ## A run of which no byte has come -/

/-- The run has just been opened; an item of it belongs to an OPEN tenure that has not ended. -/
def JustOpened (s : State) (r : InRun) : Prop :=
  r.ended = false ∧ r.bytes = [] ∧ r.flight = none ∧ ItemOutside (fun u => ¬ openRuns s u) r

theorem not_ready_of_no_bytes {q : InRun} (h : q.bytes = []) (c : Client) (a : Word) (n : Nat) : ¬ WriteReady q c a n :=
  fun k => k.bytes h

/-- The last run stays the last, whatever the clients present. -/
theorem presentAll_last {s : State} {rs : List InRun} {r : InRun} (hr : s.bus.runs = rs ++ [r]) (hb : r.bytes = []) :
    ∃ rs', (presentAll s).bus.runs = rs' ++ [r] := by
  cases rs with
  | nil =>
    refine ⟨[], ?_⟩
    rw [presentAll_runs fun q xs hq c _ a n => ?_, hr]
    rw [hr] at hq; cases hq
    exact not_ready_of_no_bytes hb c a n
  | cons q rs =>
    by_cases h : ∃ c a n, txnOf s c = none ∧ WriteReady q c a n
    · obtain ⟨c, a, n, hc, hw⟩ := h
      have k := presentAll_ready (rs := rs ++ [r]) hr hc hw
      obtain ⟨_, p, hp, _⟩ := k
      exact ⟨p :: rs, hp⟩
    · refine ⟨q :: rs, ?_⟩
      rw [presentAll_runs fun x xs hx c hc a n hw => ?_, hr]
      rw [hr] at hx; cases hx
      exact h ⟨c, a, n, hc, hw⟩

theorem pass_last {s : State} {rs : List InRun} {r : InRun} (hr : s.bus.runs = rs ++ [r]) (hj : JustOpened s r) :
    ∃ rs', (pass s).bus.runs = rs' ++ [r] := by
  obtain ⟨he, hb, _, ho⟩ := hj
  obtain ⟨⟨f, hf, hq⟩, _, _⟩ := pump_spec s
  obtain ⟨xs, hx⟩ := fedRuns_last rs hb
  obtain ⟨ys, hy⟩ := drainRuns_last xs he hb
  rw [hr, hx, hy, List.map_append, List.map_singleton, (hq r).2 ho] at hf
  have r1 := (serveProgress_runs (pump s)).1
  have b1 := (placeOutbound_flow (serveProgress (pump s))).1
  exact presentAll_last (b1.trans (r1.trans hf)) hb

theorem openRuns_pass {s : State} {u : Tag} (h : openRuns s u) : openRuns (pass s) u := by
  obtain ⟨b, o, r, hs, hr⟩ := h
  have k := KeepsRecords.pass s u (by rw [hs]; simp [tenureRuns, hr])
  rw [hs] at k
  unfold undrained at k
  split at k
  · next b' o' r' e =>
    simp only [Slot.live.injEq, Phase.connOpen.injEq, OpenRecord.mk.injEq] at k
    exact ⟨b', o', r', e, by rw [← hr]; exact k.2.2.2.2.2.2.2.2.2.2⟩
  · cases k
  · next h1 h2 => exact absurd k (h1 _ _ _)

theorem JustOpened.pass {s : State} {r : InRun} (h : JustOpened s r) : JustOpened (Machine.pass s) r :=
  ⟨h.1, h.2.1, h.2.2.1, fun i hi k => h.2.2.2 i hi fun ho => k (openRuns_pass ho)⟩

/-- What follows an event leaves the run that has just been opened. -/
theorem settle_last {s : State} {rs : List InRun} {r : InRun} (hr : s.bus.runs = rs ++ [r]) (hj : JustOpened s r) :
    ∃ rs', (settle s).bus.runs = rs' ++ [r] := by
  obtain ⟨_, h1⟩ := pass_last hr hj
  obtain ⟨_, h2⟩ := pass_last h1 hj.pass
  obtain ⟨xs, h3⟩ := pass_last h2 hj.pass.pass
  exact ⟨xs, by unfold settle; rw [runs_afterPasses, h3]⟩

end Sys2Proof.Machine
end

