-- ==== Sys2Proof/Laws/Writes.lean ====
section
/-! SUPPORT. What a take and a completion leave for the transaction that a client presents next: the runs, the Memory Port, a
SWAP that waits; and the service record through a settling. -/

namespace Sys2Proof.Machine

set_option Elab.async false

/-! ## The shapes of a write -/

/-- The masked write of bytes: byte `k` of its words carries byte `k - a % 4`, if there is one; the bytes of one aligned 64-byte
block lie in one to sixteen words of it (R174). -/
theorem writeTxn_spec (a : Word) (bytes : List Byte) : ∃ w lanes,
    writeTxn a bytes = ⟨a - BitVec.ofNat 32 (a.toNat % 4), w, .write lanes⟩ ∧ lanes.length = 4 * w ∧
      (∀ k, k < 4 * w → lanes[k]? = some (if k < a.toNat % 4 then none else bytes[k - a.toNat % 4]?)) ∧
      (bytes ≠ [] → a.toNat % 64 + bytes.length ≤ 64 → 1 ≤ w ∧ a.toNat % 64 / 4 + w ≤ 16) := by
  refine ⟨wordsFor a bytes.length, writeLanes a bytes, rfl, ?_, fun k hk => ?_, fun hb hl => ?_⟩
  · simp only [writeLanes, wordsFor, List.length_append, List.length_replicate, List.length_map]; omega
  · simp only [writeLanes, wordsFor] at hk ⊢
    rw [List.append_assoc, List.getElem?_append]
    simp only [List.length_replicate, List.getElem?_replicate]
    split
    · rfl
    · rw [List.getElem?_append]
      simp only [List.length_map, List.getElem?_map, List.getElem?_replicate]
      split
      · next h => rw [List.getElem?_eq_getElem h]; rfl
      · next h =>
        rw [List.getElem?_eq_none (by omega), if_pos (by omega)]
  · have : bytes.length ≠ 0 := by simpa using hb
    simp only [wordsFor]; omega

/-- Byte `pos` of an exchange stands in the segment in which the count of bytes reaches it (R74). -/
theorem locate_eq_some (segs : List Segment) (pos : Nat) (a : Word) (left : Nat) : locate segs pos = some (a, left) ↔
    ∃ before g after k, segs = before ++ g :: after ∧ pos = (before.map Segment.len).sum + k ∧ k < g.len ∧
      a = g.addr + BitVec.ofNat 32 k ∧ left = g.len - k := by
  induction segs generalizing pos with
  | nil => simp [locate]
  | cons g gs ih =>
    unfold locate
    split
    · next h =>
      constructor
      · intro e
        cases e
        exact ⟨[], g, gs, pos, rfl, by simp, h, rfl, rfl⟩
      · rintro ⟨before, g', after, k, e, hp, hk, rfl, rfl⟩
        cases before with
        | nil => cases e; simp at hp; subst hp; rfl
        | cons x xs =>
          cases e
          simp at hp; omega
    · next h =>
      rw [ih]
      constructor
      · rintro ⟨before, g', after, k, e, hp, r⟩
        exact ⟨g :: before, g', after, k, by rw [e]; rfl, by simp; omega, r⟩
      · rintro ⟨before, g', after, k, e, hp, hk, r⟩
        cases before with
        | nil => cases e; simp at hp; omega
        | cons x xs =>
          cases e
          simp at hp
          exact ⟨xs, g', after, k, rfl, by omega, hk, r⟩
/-! ## A SWAP that waits -/

/-- A SWAP at step 1 of R143. -/
def early : ServiceWork → Bool
  | .swap _ _ false => true
  | _ => false

theorem swapWaits_eq (s : State) : swapWaits s = s.serve.service.any fun v => early v.work := by
  simp only [swapWaits, works]
  cases s.serve.service with
  | none => rfl
  | some v =>
    obtain ⟨_, _, _, w⟩ := v
    cases w with
    | swap _ _ issued => cases issued <;> rfl
    | _ => rfl

theorem swapWaits_congr {s t : State} (h : t.serve.service = s.serve.service) : swapWaits t = swapWaits s := by
  simp only [swapWaits, works, h]

/-- A change of the service's marks that begins and ends no SWAP. -/
theorem modifyWork_spec {f : ServiceWork → ServiceWork} (hf : ∀ w, early (f w) = early w) (s : State) :
    (modifyWork f s).bus = s.bus ∧ (modifyWork f s).mem = s.mem ∧ swapWaits (modifyWork f s) = swapWaits s := by
  unfold modifyWork
  split
  · next v hv =>
    refine ⟨rfl, rfl, ?_⟩
    rw [swapWaits_eq, swapWaits_eq, hv]
    exact hf v.work
  · exact ⟨rfl, rfl, rfl⟩

theorem NoSwapGoesAhead.congr {s t : State} {q q' : InRun} (h : swapWaits t = swapWaits s)
    (hl : isLeftover q' = isLeftover q)
    (k : NoSwapGoesAhead s [q]) : NoSwapGoesAhead t [q'] := by
  rw [noSwapGoesAhead_iff] at k ⊢
  simpa [h, hl] using k

/-! ## The take of a captured beat -/

/-- The hand-off of a beat leaves the runs, the Memory Port and the tenure. -/
theorem handBeat_spec (n : Nat) (good : Bool) (s : State) : (handBeat n good s).bus.runs = s.bus.runs ∧
    (handBeat n good s).mem = s.mem ∧ swapWaits (handBeat n good s) = swapWaits s ∧
    (handBeat n good s).bus.tenure = s.bus.tenure := by
  have hp : ∀ t, (launchParityFail t s).bus.runs = s.bus.runs ∧ (launchParityFail t s).mem = s.mem ∧
      swapWaits (launchParityFail t s) = swapWaits s ∧ (launchParityFail t s).bus.tenure = s.bus.tenure := fun t => by
    unfold launchParityFail modifyResume modifyOpen
    split <;> split <;> exact ⟨rfl, rfl, rfl, rfl⟩
  unfold handBeat
  split
  · split
    · split
      · exact ⟨rfl, rfl, rfl, rfl⟩
      · exact hp _
    all_goals exact ⟨rfl, rfl, rfl, rfl⟩
  · split
    · obtain ⟨a, b, c⟩ := modifyWork_spec (f := workTake n good) (fun w => by cases w <;> rfl) s
      exact ⟨by rw [a], b, c, by rw [a]⟩
    · split
      · exact ⟨rfl, rfl, rfl, rfl⟩
      · exact hp _
    all_goals exact ⟨rfl, rfl, rfl, rfl⟩
  · exact ⟨rfl, rfl, rfl, rfl⟩

theorem runs_of_beside {s t : State} (h : beside t = beside s) : t.bus.runs = s.bus.runs ∧ t.mem = s.mem := by
  simp only [beside, Prod.mk.injEq] at h
  exact ⟨h.2.1, h.1⟩

theorem dropNote_of_writer {q : InRun} (h : q.sink ≠ .note) : dropNote q = q := by
  simp [dropNote, h]

/-- The end of a run that is no NOTE's leaves it as it is. -/
theorem serveRunEnd_spec {q : InRun} (hq : q.sink ≠ .note) (short : Bool) (s : State) (hr : s.bus.runs = [q]) :
    (serveRunEnd short s).bus.runs = [q] ∧ (serveRunEnd short s).mem = s.mem ∧
      swapWaits (serveRunEnd short s) = swapWaits s := by
  have hc : ∀ k (s : State), (giveClosing k s).bus.runs = s.bus.runs ∧ (giveClosing k s).mem = s.mem ∧
      swapWaits (giveClosing k s) = swapWaits s := fun k s =>
    ⟨(runs_of_beside (giveClosing_spec k s).1).1, (runs_of_beside (giveClosing_spec k s).1).2, swapWaits_giveClosing k s⟩
  unfold serveRunEnd
  split
  · exact ⟨hr, rfl, rfl⟩
  · next v hv =>
    split
    · next hw =>
      dsimp only
      have e0 : swapWaits s = false := by simp [swapWaits, works, hv, hw]
      split
      · obtain ⟨a, b, c⟩ := hc (.done .memory) { s with serve.service := some { v with work := .store _ _ _ _ true } }
        exact ⟨a.trans hr, b, c.trans (Eq.trans rfl e0.symm)⟩
      · exact ⟨hr, rfl, Eq.trans rfl e0.symm⟩
    · next hw =>
      have e0 : swapWaits s = false := by simp [swapWaits, works, hv, hw]
      unfold noteRunEnd
      dsimp only
      have hm : s.bus.runs.map dropNote = [q] := by rw [hr]; simp [dropNote_of_writer hq]
      have fin : ∀ k (t : State), t.bus.runs = [q] → t.mem = s.mem → swapWaits t = false →
          (giveClosing k t).bus.runs = [q] ∧ (giveClosing k t).mem = s.mem ∧ swapWaits (giveClosing k t) = swapWaits s :=
        fun k t h1 h2 h3 => by
          obtain ⟨a, b, c⟩ := hc k t
          exact ⟨a.trans h1, b.trans h2, c.trans (h3.trans e0.symm)⟩
      split
      · exact fin _ _ hm rfl rfl
      · split
        · exact fin _ _ hm rfl rfl
        · exact fin _ _ hm rfl rfl
    · obtain ⟨a, b, c⟩ := hc (.done .ok) s
      exact ⟨a.trans hr, b, c⟩
    all_goals exact ⟨hr, rfl, rfl⟩

theorem giveAfterChunk_spec (t : Tag) (c : Callee) (s : State) : (giveAfterChunk t c s).bus.runs = s.bus.runs ∧
    (giveAfterChunk t c s).mem = s.mem ∧ swapWaits (giveAfterChunk t c s) = swapWaits s := by
  unfold giveAfterChunk
  split
  · obtain ⟨a, b, d⟩ := beside_giveVerdict ⟨_, c.tag, c.gen, none, none⟩ (applyRunEnd t s)
    have e : (applyRunEnd t s).bus = s.bus ∧ (applyRunEnd t s).mem = s.mem ∧ (applyRunEnd t s).serve = s.serve := by
      unfold applyRunEnd; split <;> exact ⟨rfl, rfl, rfl⟩
    refine ⟨(runs_of_beside a).1.trans (by rw [e.1]), (runs_of_beside a).2.trans e.2.1, swapWaits_congr ?_⟩
    rw [b, e.2.2]
  · exact ⟨rfl, rfl, rfl⟩

/-- With its last beat a run is marked complete (R99). -/
theorem runComplete_spec {q : InRun} (hq : q.sink ≠ .note) (r : Run) (s : State) (hr : s.bus.runs = [q])
    (ht : s.bus.tenure ≠ .none) : (runComplete r s).bus.runs = [{ q with ended := true }] ∧
      (runComplete r s).mem = s.mem ∧ swapWaits (runComplete r s) = swapWaits s := by
  unfold runComplete
  split
  · next c _ =>
    unfold callerRunEnd
    dsimp only
    split
    · unfold launchRunEnd
      split <;> exact ⟨by simp [closeRun, endRuns, hr], rfl, rfl⟩
    all_goals exact ⟨by simp [closeRun, endRuns, hr], rfl, rfl⟩
  · next c _ =>
    unfold handCalleeRunEnd
    have hr' : (restartStall { closeRun s with bus.tenure := .callee { c with runDone := !r.sending } }).bus.runs =
        [{ q with ended := true }] := by simp [restartStall, closeRun, endRuns, hr]
    split
    · exact serveRunEnd_spec (q := { q with ended := true }) hq false _ hr'
    · obtain ⟨a, b, d⟩ := giveAfterChunk_spec _ c
        (restartStall { closeRun s with bus.tenure := .callee { c with runDone := !r.sending } })
      exact ⟨a.trans hr', b, d⟩
    all_goals exact ⟨hr', rfl, rfl⟩
  · next h => exact absurd h ht

/-- The take of the oldest captured beat adds its bytes to the only inbound run (R32). -/
theorem takeCaptured_spec {s : State} {r : Run} {b : Latched} {rest : List Latched} {n : Nat} {q q' : InRun}
    (hrun : s.bus.run = some r) (hsend : r.sending = false) (hcap : s.bus.capture = b :: rest)
    (hn : n = (if r.taken + 1 = (r.length + 1) / 2 ∧ r.length % 2 = 1 then 1 else 2)) (hroom : n ≤ room s)
    (ht : s.bus.tenure ≠ .none) (hr : s.bus.runs = [q]) (hq : q.sink ≠ .note)
    (hq' : q' = { q with
        received := q.received + n, bytes := q.bytes ++ [lowByte b.d, highByte b.d].take n,
        ended := q.ended || decide (r.taken + 1 = (r.length + 1) / 2) }) :
    (takeCaptured s).bus.runs = [q'] ∧ (takeCaptured s).mem = s.mem ∧ swapWaits (takeCaptured s) = swapWaits s := by
  have hn' : (if oddFinal r r.taken then 1 else 2) = n := by
    rw [hn]; simp [oddFinal, beatsOf]
  have hlen : ([lowByte b.d, highByte b.d].take n).length = n := by
    rw [hn]; split <;> rfl
  obtain ⟨sending, length, moved, taken⟩ := r
  simp only at hsend
  subst hsend
  unfold takeCaptured
  rw [hrun, hcap]
  simp only [hn', Bool.false_or, decide_eq_true_eq, if_neg (Nat.not_lt.mpr hroom)]
  obtain ⟨a1, a2, a3, a4⟩ := handBeat_spec n b.good (giveTake
        { s with
          bus.capture := rest
          bus.count := s.bus.count - 1
          bus.run := some ⟨false, length, moved, taken + 1⟩
          bus.runs := appendLast ([lowByte b.d, highByte b.d].take n) s.bus.runs })
  generalize handBeat n b.good _ = m at a1 a2 a3 a4
  have hm : m.bus.runs = [{ q with
        received := q.received + n, bytes := q.bytes ++ [lowByte b.d, highByte b.d].take n }] := by
    rw [a1]; simp only [giveTake, hr, appendLast, hlen]
  have h0 : swapWaits (giveTake
        { s with
          bus.capture := rest
          bus.count := s.bus.count - 1
          bus.run := some ⟨false, length, moved, taken + 1⟩
          bus.runs := appendLast ([lowByte b.d, highByte b.d].take n) s.bus.runs }) = swapWaits s := rfl
  split
  · next he =>
    obtain ⟨b1, b2, b3⟩ := runComplete_spec (q := { q with
        received := q.received + n, bytes := q.bytes ++ [lowByte b.d, highByte b.d].take n }) hq
      ⟨false, length, moved, taken + 1⟩ m hm (by rw [a4]; exact ht)
    refine ⟨?_, b2.trans a2, b3.trans (a3.trans h0)⟩
    rw [b1, hq']
    have : taken + 1 = (length + 1) / 2 := he
    simp [this]
  · next he =>
    refine ⟨?_, a2, a3.trans h0⟩
    rw [hm, hq']
    have : ¬ taken + 1 = (length + 1) / 2 := he
    simp [this]

/-! ## The completion of a write -/

/-- The port is free for the client whose transaction has completed; no other transaction is lost (R176). -/
theorem releasePort_spec (c : Client) (s : State) : ∃ m, releasePort c s = { s with mem := m } ∧
    (∀ d, txnOf { s with mem := m } d = if d = c then none else txnOf s d) := by
  have h : ∀ u : State, ∃ m, grantWaiting u = { u with mem := m } ∧
      ∀ d, txnOf { u with mem := m } d = txnOf u d := fun u => by
    unfold grantWaiting
    split
    · exact ⟨_, rfl, fun d => by cases d <;> rfl⟩
    · exact ⟨u.mem, rfl, fun _ => rfl⟩
  obtain ⟨m, h1, h2⟩ := h (setTxn c none { s with mem.granted := none, mem.lock := false })
  have e : { setTxn c none { s with mem.granted := none, mem.lock := false } with mem := m } = { s with mem := m } := by
    cases c <;> rfl
  refine ⟨m, h1.trans e, fun d => ?_⟩
  rw [← e, h2]
  cases c <;> cases d <;> rfl

/-- The completion of a write of the run at the head: the run has no write in flight, and with FAULT its bytes are discarded
(R101, R137). -/
theorem clientDone_write {s : State} {c : Client} {result : Completion} {r : InRun} {rs : List InRun} {n : Nat}
    (hr : s.bus.runs = r :: rs) (hw : writerOf r.sink = some c) (hf : r.flight = some n) :
    (clientDone c result s).mem = s.mem ∧ swapWaits (clientDone c result s) = swapWaits s ∧
    (∀ data, result = .ok data → ∃ r', (clientDone c result s).bus.runs = r' :: rs ∧
      ((∃ j, r.sink = .store j ∧ ∃ w, r' = { r with sink := .store { j with written := w }, flight := none }) ∨
        ∃ i, r.sink = .mover i ∧ ∃ w, r' = { r with sink := .mover { i with written := w }, flight := none })) ∧
    (result = .fault → ∃ r' rs', (clientDone c result s).bus.runs = r' :: rs' ∧ discards r'.sink = true ∧
      r'.sink ≠ .note ∧ r'.ended = r.ended ∧ r'.flight = none ∧
      ∀ q xs, rs = q :: xs → ∃ p ys, rs' = p :: ys ∧ SameRun q p) := by
  cases hs : r.sink with
  | store j =>
    rw [hs] at hw; cases hw
    have e : clientDone .serve result s = storeWriteDone j r rs n result s := by
      simp only [clientDone, serveTxnDone, hr, hs, hf]
    rw [e]
    unfold storeWriteDone
    cases result with
    | ok data =>
      dsimp only
      split
      · obtain ⟨d, a, b⟩ := modifyWork_spec (f := fun
          | .store taken written fault parity ended => .store taken (written + n) fault parity ended
          | w => w) (fun w => by cases w <;> rfl)
          { s with bus.runs := { r with sink := .store { j with written := j.written + n }, flight := none } :: rs }
        refine ⟨a, b, fun _ _ => ⟨_, congrArg Bif.runs d, .inl ⟨j, rfl, _, rfl⟩⟩, nofun⟩
      · exact ⟨rfl, rfl, fun _ _ => ⟨_, rfl, .inl ⟨j, rfl, _, rfl⟩⟩, nofun⟩
    | fault =>
      dsimp only
      split
      · obtain ⟨d, a, b⟩ := modifyWork_spec (f := fun
          | .store taken written _ parity ended => .store taken written true parity ended
          | w => w) (fun w => by cases w <;> rfl)
          { s with bus.runs := { r with sink := .store { j with faulted := true }, flight := none } :: rs }
        refine ⟨a, b, nofun, fun _ => ⟨_, rs, congrArg Bif.runs d, rfl, nofun, rfl, rfl, fun q xs h => ⟨q, xs, h, .refl q⟩⟩⟩
      · exact ⟨rfl, rfl, nofun, fun _ => ⟨_, rs, rfl, rfl, nofun, rfl, rfl, fun q xs h => ⟨q, xs, h, .refl q⟩⟩⟩
  | mover i =>
    rw [hs] at hw; cases hw
    have e : clientDone .mover result s = itemWriteDone i r rs n result s := by
      simp only [clientDone, moverTxnDone, hr, hs, hf]
    rw [e]
    unfold itemWriteDone
    cases result with
    | ok data => exact ⟨rfl, rfl, fun _ _ => ⟨_, rfl, .inr ⟨i, rfl, _, rfl⟩⟩, nofun⟩
    | fault =>
      have key : ∀ t : State, Tables (fun _ => True) t (itemFault i t) := fun t => by
        unfold itemFault
        split
        · split
          · exact .setLive _ _ _ _
          · exact .setLive _ _ _ _
          · exact .withdraw trivial _ _
          · exact .setLive _ _ _ _
          · exact .setLive _ _ _ _
          · exact .setLive _ _ _ _
          · exact .refl _
        · exact .refl _
      dsimp only
      have k := key { s with bus.runs := { r with sink := .mover { i with localFault := true }, flight := none } :: rs }
      obtain ⟨ka, ks, f, hf', hq⟩ := k
      simp only [around, Prod.mk.injEq] at ka
      refine ⟨ka.1, by simp only [swapWaits, works, ks], nofun, fun _ => ?_⟩
      have h1 := (hq { r with sink := .mover { i with localFault := true }, flight := none }).1
      rw [List.map_cons] at hf'
      obtain ⟨e1, e2, e3, e4, e5, e6, e7⟩ := id h1
      obtain ⟨k, hk, _, _, _, _, _⟩ := e7 _ rfl
      refine ⟨_, _, hf', ?_, by rw [hk]; nofun, e4, e5, fun q xs h => ?_⟩
      · rw [h1.discards]; simp [discards]
      · exact ⟨f q, xs.map f, by rw [h]; rfl, (hq q).1⟩
  | _ => rw [hs] at hw; simp [writerOf] at hw

/-- A completion that can occur is handed to its client, the port released and granted again (R175, R176). -/
theorem exec_completes {s : State} {c : Client} {result : Completion} (h : Completes s c result) :
    exec (.memoryTransactionComplete result) s = .next (settle (clientDone c result (releasePort c s))) := by
  obtain ⟨x, h1, h2, h3, h4⟩ := h
  show execMemoryTransactionComplete result s = _
  unfold execMemoryTransactionComplete grantedTxn
  simp [h1, h2, h3, h4]

/-! ## The next read -/

theorem pump_nil {s : State} (h : s.bus.runs = []) : pump s = s := by
  have hf : feedNote s = s := by unfold feedNote; rw [h]
  unfold pump
  rw [hf]
  dsimp only
  rw [h]
  show { s with bus.runs := [] } = s
  rw [← h]

/-- What a client presents in the first pass stays presented (R175). -/
theorem settle_presented {s : State} {c : Client} {x : Txn} (h : txnOf (pass s) c = some x) : txnOf (settle s) c = some x := by
  have a1 := (Settles.pass (pass s)).issued c _ h
  have a2 := (Settles.pass (pass (pass s))).issued c _ a1
  have a3 := (Settles.afterPasses (P := fun _ => True) (pass (pass (pass s)))).issued c _ a2
  unfold settle
  exact a3

theorem serve_presentOthers (s : State) : (presentLister (presentMover s)).mem.serve = s.mem.serve := by
  rw [(presentLister_runs _).2.1, presentMover_mem]

/-- The begin of a fill changes the park queue and the fill stage alone. -/
theorem startFill_eq (s : State) : ∃ x y z,
    startFill s = { s with serve.parkQueue := x, serve.fill := y, serve.staging := z } := by
  unfold startFill
  split
  · split
    · exact ⟨_, _, _, rfl⟩
    · exact ⟨s.serve.parkQueue, s.serve.fill, s.serve.staging, rfl⟩
  · exact ⟨s.serve.parkQueue, s.serve.fill, s.serve.staging, rfl⟩

/-- With room for them, all bytes read for a short FETCH are placed. -/
theorem placeFetch_whole {s : State} {c : Callee} {v : Service} {base : Word} {issued placed : Nat} {held : List Byte} {fl}
    (hc : activeCallee s = some c) (hv : s.serve.service = some v)
    (hw : v.work = .fetch base issued placed held false fl) (hr : s.bus.runs = [])
    (hl : (s.bus.outbound ++ held).length < 512) :
    ∃ p, placeFetch s = { s with
        bus.outbound := s.bus.outbound ++ held
        serve.service := some { v with work := .fetch base issued p [] false fl } } := by
  unfold placeFetch
  simp only [hv, hw]
  have hn : noInbound s = true := by simp [noInbound, inboundHeld, hr]
  cases hh : held with
  | nil =>
    refine ⟨placed, ?_⟩
    have : v = { v with work := .fetch base issued placed [] false fl } := by
      cases v; simp at hw; rw [hw, hh]
    simp [← this, ← hv]
  | cons b bs =>
    have hroom : min (room s) (b :: bs).length = (b :: bs).length := by
      rw [List.length_append, hh] at hl
      simp only [room, inboundHeld, hr, List.map_nil, List.sum_nil]; omega
    simp only [hn, hc, hroom, List.isEmpty_cons, Bool.not_false, Option.isSome_some, Bool.and_self, if_true,
      List.take_length, List.drop_length]
    exact ⟨_, rfl⟩

theorem placeChunk_none {s : State} (h : s.serve.resume = none) : placeChunk s = s := by
  unfold placeChunk; rw [h]

/-- A pass presents the next read of a short FETCH (R139). -/
theorem pass_fetchRead {s : State} {c : Callee} {v : Service} {base : Word} {issued placed : Nat} {held : List Byte}
    (hm : s.mem.serve = none) (hc : activeCallee s = some c) (hv : s.serve.service = some v)
    (hw : v.work = .fetch base issued placed held false none) (hcl : v.closed = false) (hr : s.bus.runs = [])
    (ho : s.launch.outJob = none) (hre : s.serve.resume = none) (hi : issued < v.head.length.toNat)
    (hl : (s.bus.outbound ++ held).length < 512) :
    (pass s).mem.serve = some (nextRead (base + BitVec.ofNat 32 issued) (v.head.length.toNat - issued)) := by
  have h0 := pump_nil hr
  have hq : serveProgress s = startFill s := by
    apply serveProgress_quiet
    unfold verdictDue
    simp [hv, serviceOpen, hw]
  obtain ⟨x, y, z, h1⟩ := startFill_eq s
  have hoj : placeOutJob (startFill s) = startFill s := by
    unfold placeOutJob; rw [h1]; simp only [ho]
  obtain ⟨p, h2⟩ := placeFetch_whole (s := startFill s) (c := c) (v := v) (base := base) (issued := issued)
    (placed := placed) (held := held) (by rw [h1]; exact hc) (by rw [h1]; exact hv) hw (by rw [h1]; exact hr) (by rw [h1]; exact hl)
  unfold pass presentAll
  rw [h0, hq, serve_presentOthers]
  unfold placeOutbound
  rw [hoj, h2, placeChunk_none (by rw [h1]; exact hre), h1]
  have key : ∀ t : State, t.mem.serve = none → t.bus.runs = [] →
      t.serve.service = some { v with work := .fetch base issued p [] false none } →
      activeCallee t = some c → 0 < room t →
      (presentServe t).mem.serve = some (nextRead (base + BitVec.ofNat 32 issued) (v.head.length.toNat - issued)) :=
    fun t h0 hr h1 h2 h3 => by
    have hsw : storeWrite t = none := by unfold storeWrite; rw [hr]
    have hfr : ∃ u, fetchRead t = some u ∧
        u.mem.serve = some (nextRead (base + BitVec.ofNat 32 issued) (v.head.length.toNat - issued)) := by
      unfold fetchRead
      rw [h1, h2]
      have : ¬ (room t = 0 ∨ v.head.length.toNat ≤ issued) := by omega
      simp only [hcl, this, decide_false, Bool.or_self, Bool.false_eq_true, if_false]
      exact ⟨_, rfl, rfl⟩
    obtain ⟨u, hu, hu'⟩ := hfr
    unfold presentServe
    rw [h0, hsw, hu, hr]
    exact hu'
  exact key _ hm hr rfl hc (by simp only [room, inboundHeld, hr, List.map_nil, List.sum_nil]; omega)

/-- A pass presents the next read of the outbound job (R100). -/
theorem pass_outRead {s : State} {c : Caller} {j : OutJob} {a : Word} {left : Nat}
    (hm : s.mem.mover = none) (hc : s.bus.tenure = .caller c) (hj : s.launch.outJob = some j) (hst : j.stopped = false)
    (hf : j.flight = none) (hr : s.bus.runs = []) (hre : s.serve.resume = none) (hp : j.pos < j.length)
    (hl : (s.bus.outbound ++ j.held).length < 512) (hloc : locate j.segs j.pos = some (a, left)) :
    (pass s).mem.mover = some (nextRead a left) ∧ ∃ k, (pass s).launch.outJob = some k ∧ k.tag = j.tag ∧
      k.pos = j.pos + min (64 - a.toNat % 64) left ∧ k.flight ≠ none := by
  have hac : activeCallee s = none := by unfold activeCallee; rw [hc]
  have hq : serveProgress s = startFill s := serveProgress_quiet (verdictDue_of_no_callee hac)
  obtain ⟨x, y, z, h1⟩ := startFill_eq s
  have hpo : ∃ p, placeOutJob (startFill s) = { startFill s with
      bus.outbound := s.bus.outbound ++ j.held, launch.outJob := some { j with held := [], placed := p } } := by
    unfold placeOutJob
    rw [h1]
    simp only [hj]
    have hn : noInbound { s with serve.parkQueue := x, serve.fill := y, serve.staging := z } = true := by
      simp [noInbound, inboundHeld, hr]
    cases hh : j.held with
    | nil =>
      refine ⟨j.placed, ?_⟩
      have : j = { j with held := [], placed := j.placed } := by cases j; simp at hh; rw [hh]
      simp [← this, ← hj]
    | cons b bs =>
      have hroom : min (room { s with serve.parkQueue := x, serve.fill := y, serve.staging := z }) (b :: bs).length =
          (b :: bs).length := by
        rw [List.length_append, hh] at hl
        simp only [room, inboundHeld, hr, List.map_nil, List.sum_nil]; omega
      simp only [hn, hroom, List.isEmpty_cons, Bool.not_false, Bool.and_self, if_true,
        List.take_length, List.drop_length]
      exact ⟨_, rfl⟩
  obtain ⟨p, h2⟩ := hpo
  have hpf : ∀ t : State, activeCallee t = none → placeFetch t = t := fun t ht => by
    unfold placeFetch
    split
    · split
      · simp [ht]
      · rfl
    · rfl
  have hps : ∀ t : State, t.bus.runs = [] → activeCallee t = none →
      (presentServe t).bus = t.bus ∧ (presentServe t).launch = t.launch ∧
        (presentServe t).mem.mover = t.mem.mover := fun t h1 h2 => by
    have hsw : storeWrite t = none := by unfold storeWrite; rw [h1]
    have hfr : fetchRead t = none := by
      unfold fetchRead; rw [h2]
      split
      · next h => cases h
      · rfl
    unfold presentServe
    rw [hsw, hfr]
    split
    · exact ⟨rfl, rfl, rfl⟩
    · dsimp only
      split
      · exact ⟨rfl, rfl, rfl⟩
      · split
        · exact ⟨rfl, rfl, rfl⟩
        · unfold presentFill
          split
          · split <;> exact ⟨rfl, rfl, rfl⟩
          · exact ⟨rfl, rfl, rfl⟩
  have hpl : ∀ t : State, (presentLister t).mem.mover = t.mem.mover ∧
      (presentLister t).launch.outJob = t.launch.outJob := fun t => by
    unfold presentLister
    split
    · dsimp only; split <;> exact ⟨rfl, rfl⟩
    · exact ⟨rfl, rfl⟩
  unfold pass presentAll
  rw [pump_nil hr, hq, (hpl _).1, (hpl _).2]
  have hw : ∃ w, placeOutbound (startFill s) = w ∧ w.mem = s.mem ∧ w.bus.runs = [] ∧ activeCallee w = none ∧
      w.launch.outJob = some { j with held := [], placed := p } ∧ w.bus.outbound = s.bus.outbound ++ j.held := by
    refine ⟨_, rfl, ?_⟩
    unfold placeOutbound
    rw [h2, hpf _ (by rw [h1]; exact hac), placeChunk_none (by rw [h1]; exact hre), h1]
    exact ⟨rfl, hr, hac, rfl, rfl⟩
  obtain ⟨w, e, w1, w2, w3, w4, w5⟩ := hw
  rw [e]
  obtain ⟨b1, b2, b3⟩ := hps w w2 w3
  generalize presentServe w = u at b1 b2 b3 ⊢
  have hu : presentMover u = presentOutRead u := by
    unfold presentMover
    rw [b3, w1, hm, b1, w2]
  rw [hu]
  unfold presentOutRead
  rw [b2, w4]
  have hroom : 0 < room u := by
    simp only [room, b1, w2, w5, inboundHeld, List.map_nil, List.sum_nil]; omega
  simp only [hst, hf, hp, hroom, hloc, Option.isNone_none, List.isEmpty_nil, Bool.not_false, Bool.and_self, and_self,
    decide_true, if_true]
  exact ⟨rfl, _, rfl, rfl, rfl, nofun⟩

/-! ## The service record -/

/-- Only the payload of a NOTE changes as bytes are fed. -/
theorem feedNote_service {s : State} {v : Service} (hv : s.serve.service = some v)
    (hw : ∀ a b c d, v.work ≠ .note a b c d) : (feedNote s).serve.service = some v := by
  unfold feedNote
  split
  · split
    · unfold modifyWork
      rw [show s.serve.service = some v from hv]
      dsimp only
      obtain ⟨a, b, c, w⟩ := v
      cases w <;> first | rfl | exact absurd rfl (hw _ _ _ _)
    · exact hv
  · exact hv

theorem feedNote_payload {s : State} {h k c a b d pl} (hv : s.serve.service = some ⟨h, k, c, .note a b d pl⟩) :
    ∃ p', (feedNote s).serve.service = some ⟨h, k, c, .note a b d p'⟩ ∧
      ((∀ q ∈ s.bus.runs, q.sink = .note → q.bytes = []) → p' = pl) := by
  unfold feedNote
  split
  · next r rs hr =>
    split
    · next hn =>
      unfold modifyWork
      rw [show s.serve.service = _ from hv]
      exact ⟨_, rfl, fun hq => by rw [hq r (by rw [hr]; exact .head _) hn, List.append_nil]⟩
    · exact ⟨pl, hv, fun _ => rfl⟩
  · exact ⟨pl, hv, fun _ => rfl⟩

/-- The data mover and the List Reader leave the Serve Engine. -/
theorem serve_present (s : State) : (presentLister (presentMover s)).serve = s.serve := by
  have h1 : ∀ s, (presentLister s).serve = s.serve := fun s => by
    unfold presentLister; split
    · dsimp only; split <;> rfl
    · rfl
  have h2 : ∀ s, (presentOutRead s).serve = s.serve := fun s => by
    unfold presentOutRead
    split
    · rfl
    · split
      · split <;> rfl
      · rfl
  rw [h1]
  unfold presentMover
  split
  · rfl
  · exact h2 _
  · split
    · split
      · exact h2 _
      · dsimp only; split
        · exact h2 _
        · rfl
    · exact h2 _

/-- A service that waits for the bus stays as it is; that of a short FETCH reads on. -/
theorem afterPump_service {u : State} {v : Service} (hv : u.serve.service = some v) (ho : serviceOpen v = false)
    (hw : ∀ a b c d x y, v.work ≠ .fetch a b c d x y) :
    (presentAll (placeOutbound (serveProgress u))).serve.service = some v ∧
    (presentAll (placeOutbound (serveProgress u))).serve.reserved = u.serve.reserved := by
  have hd : verdictDue u = false := by simp [verdictDue, hv, ho]
  obtain ⟨x, y, z, h1⟩ := startFill_eq u
  rw [serveProgress_quiet hd, h1]
  have hp : ∀ t : State, t.serve.service = some v → (placeOutbound t).serve.service = some v ∧
      (placeOutbound t).serve.reserved = t.serve.reserved := fun t ht => by
    have a : (placeOutJob t).serve = t.serve := by
      unfold placeOutJob; split
      · rfl
      · split <;> rfl
    have b : placeFetch (placeOutJob t) = placeOutJob t := by
      unfold placeFetch
      rw [a, ht]
      dsimp only
      split
      · next hh => exact absurd hh (hw _ _ _ _ _ _)
      · rfl
    have c : ∀ t : State, (placeChunk t).serve.service = t.serve.service ∧
        (placeChunk t).serve.reserved = t.serve.reserved := fun t => by
      unfold placeChunk; split
      · split <;> exact ⟨rfl, rfl⟩
      · exact ⟨rfl, rfl⟩
    unfold placeOutbound
    rw [b]
    exact ⟨(c _).1.trans (by rw [a, ht]), (c _).2.trans (by rw [a])⟩
  obtain ⟨p1, p2⟩ := hp { u with serve.parkQueue := x, serve.fill := y, serve.staging := z } hv
  generalize placeOutbound _ = t at p1 p2 ⊢
  unfold presentAll
  rw [serve_present]
  suffices h : (presentServe t).serve.service = some v ∧ (presentServe t).serve.reserved = t.serve.reserved from
    ⟨h.1, h.2.trans p2⟩
  unfold presentServe
  split
  · exact ⟨p1, rfl⟩
  · split
    · next hs =>
      unfold storeWrite at hs
      split at hs
      · split at hs
        · dsimp only at hs
          split at hs
          · cases hs
          · cases hs; exact ⟨p1, rfl⟩
        · cases hs
      · cases hs
    · split
      · exact ⟨p1, rfl⟩
      · split
        · next hs =>
          unfold fetchRead at hs
          rw [p1] at hs
          split at hs
          · next hh _ =>
            cases hh
            split at hs
            · next hh => exact absurd hh (hw _ _ _ _ _ _)
            · cases hs
          · cases hs
        · split
          · exact ⟨p1, rfl⟩
          · unfold presentFill
            split
            · split <;> exact ⟨p1, rfl⟩
            · exact ⟨p1, rfl⟩

theorem pass_service {s : State} {v : Service} (hv : s.serve.service = some v) (ho : serviceOpen v = false)
    (hw : ∀ a b c d x y, v.work ≠ .fetch a b c d x y) (hn : ∀ a b c d, v.work ≠ .note a b c d) :
    (pass s).serve.service = some v := by
  obtain ⟨_, _, h⟩ := pump_spec s
  exact (afterPump_service (h.trans (feedNote_service hv hn)) ho hw).1

theorem afterPasses_service (s : State) :
    (updateStall (contendInIdle (updateClaims (drainToOffline (arbitrate s))))).serve = s.serve := by
  have h1 : (arbitrate s).serve = s.serve := by
    unfold arbitrate; split
    · rfl
    · split <;> rfl
  have h2 : ∀ s : State, (drainToOffline s).serve = s.serve := fun s => by unfold drainToOffline; split <;> rfl
  have h3 : ∀ s : State, (contendInIdle s).serve = s.serve := fun s => by
    unfold contendInIdle openWindow; split
    · dsimp only; split <;> rfl
    · rfl
  have h4 : ∀ s : State, (updateStall s).serve = s.serve := fun s => by unfold updateStall; split <;> rfl
  rw [h4, h3]
  exact (h2 _).trans h1

/-- What follows an event leaves the record of a service that waits for the bus (R131). -/
theorem settle_service {s : State} {v : Service} (hv : s.serve.service = some v) (ho : serviceOpen v = false)
    (hw : ∀ a b c d x y, v.work ≠ .fetch a b c d x y) (hn : ∀ a b c d, v.work ≠ .note a b c d) :
    (settle s).serve.service = some v := by
  unfold settle
  rw [afterPasses_service]
  exact pass_service (pass_service (pass_service hv ho hw hn) ho hw hn) ho hw hn

/-- A pass may feed a NOTE, and changes nothing else of its service. -/
theorem pass_note {s : State} {h k c a b d pl} (hv : s.serve.service = some ⟨h, k, c, .note a b d pl⟩) :
    ∃ p', (pass s).serve.service = some ⟨h, k, c, .note a b d p'⟩ ∧
      ((∀ q ∈ s.bus.runs, q.sink = .note → q.bytes = []) → p' = pl) := by
  obtain ⟨_, _, hs⟩ := pump_spec s
  obtain ⟨p', h1, h2⟩ := feedNote_payload hv
  exact ⟨p', (afterPump_service (hs.trans h1) rfl nofun).1, h2⟩

end Sys2Proof.Machine
end

