-- ==== Sys2Proof/Tests/Slice0.lean ====
section
/-! SUPPORT. Tests: ill-formed commands, one step of each command, and for each statement with hypotheses a state and
operands that meet them. -/

namespace Sys2Proof.Tests

open Sys2Proof Sys2Proof.Machine

set_option Elab.async false

/-! ## Small states -/

def setup1 : Setup := ⟨1, 20, 3, 8, 64, [some ⟨0x1000, 0x1000, 0xFFFF, 0xFFFF, 0xFFFF, 0xFFFF⟩]⟩

/-- A station that is ONLINE at address 5, on a quiet bus. -/
def online : State :=
  { State.reset with station := ⟨.online, 5, some setup1, .none⟩ }

/-- A 4-byte exchange with the station at address 2. -/
def bodyOf (w : Work) : Body :=
  { work := w, peer := 2, window := 0, offset := 0, length := 4, segs := [⟨0x2000, 4⟩], acc := 0, attempts := 0,
    bytesDone := 0, cancel := false }

def fetchBody : Body := bodyOf (.fetch false)
def storeBody : Body := bodyOf .store
def swapBody : Body := bodyOf (.swap ⟨1, 2⟩ false false none)

/-- Entry 0 in service with these fields in this phase. -/
def serving (b : Body) (p : Phase) (s : State) : State := setEntry 0 ⟨1, .live b p⟩ s

def queued (b : Body) (s : State) : State := { serving b .queued s with launch.queue := [0] }

/-- In role CALLER, calling station 2 for this grantee. -/
def calling (g : Grantee) (s : State) : State :=
  { s with
    bus.tenure := .caller ⟨g, 2, false, false, .head, none⟩
    bus.callTimer := some 2000
    bus.drive.busy := true
    bus.drive.call := true }

/-- In role CALLER, the call answered and the head given. -/
def connected (g : Grantee) (point : Point) (h : Head) (s : State) : State :=
  { s with
    bus.tenure := .caller ⟨g, 2, true, false, point, some h⟩
    bus.stallTimer := some 200
    bus.drive.busy := true }

def calleeOf (headReceived : Bool) (owner : Option Owner) : Callee := ⟨2, headReceived, false, owner, 0, 1, false, false⟩

/-- In role CALLEE, called by station 2. -/
def called (c : Callee) (s : State) : State :=
  { s with bus.tenure := .callee c, bus.stallTimer := some 200, bus.drive.answer := true }

def headOf (k : XKind) : OpenHead :=
  { source := 2, target := 5, tag := 0, gen := 1, kind := k, window := 0, offset := 0, length := 4, terms := some 4,
    ops := none }

def ownHead (k : XKind) : OpenHead := { headOf k with source := 5, target := 2 }

/-- Serving an OPEN of station 2. -/
def servingOpen (k : XKind) (w : ServiceWork) (s : State) : State :=
  { called (calleeOf true (some .serve)) s with serve.service := some ⟨headOf k, none, false, w⟩ }

def parked0 (c : Chunk) : ParkEntry := ⟨2, 0, 1, 0, 0, 2000, 0, c, 0⟩

/-- The order of a data exchange with station 2. -/
def orderWith (w0 : Word) : Order := ⟨w0, 0, 4, 0x3000, 1, 2, 0, 0⟩
def fetchOrder : Order := orderWith 0x10000201
def storeOrder : Order := orderWith 0x10000202
def noteOrder : Order := orderWith 0x10000203
def swapOrder : Order := orderWith 0x00000204
def bareOrder (k : Word) : Order := ⟨k, 0, 0, 0, 0, 0, 0, 0⟩

def waiting (o : Order) (s : State) : State := { s with port.fifo := [o] }

/-- The state after a command; every command answers a next state. -/
def after (i : Instr) (s : State) : State :=
  match exec i s with
  | .next t => t
  | .fault _ => s
  | .refused _ => s

/-- A frame as a receiver holds it before its last beat, and that beat. -/
def received (f : Frame) : List Latched := f.encode.dropLast.map fun d => ⟨d, true⟩
def lastBeat (f : Frame) : Beat := f.encode.getLast?.getD 0

def openFrame (k : XKind) : Frame := .head (.openX (headOf k))
def resumeFrame : Frame := .head (.resume ⟨2, 5, 0, 1, false, 0, 4⟩)

/-! ## Ill-formed commands -/

theorem test_ignoredWrite_to_ORDER_is_illformed : WellFormed (.ignoredWrite 0x00 0) = false := by decide
theorem test_ignoredWrite_between_ports_is_illformed : WellFormed (.ignoredWrite 0x09 0) = false := by decide
theorem test_completion_of_a_part_of_a_word_is_illformed :
    WellFormed (.memoryTransactionComplete (.ok [1, 2, 3])) = false := by decide
theorem test_completion_of_17_words_is_illformed :
    WellFormed (.memoryTransactionComplete (.ok (List.replicate 68 0))) = false := by decide
theorem test_wellformed_at_the_bounds :
    WellFormed (.memoryTransactionComplete (.ok (List.replicate 64 0))) = true ∧
      WellFormed (.memoryTransactionComplete .fault) = true ∧
      ∀ o ∈ [0x08, 0x0C, 0x10, 0x1C], WellFormed (.ignoredWrite o 0) = true := by decide

/-! ## One step of each command -/

theorem test_step_takes_the_front :
    step { online with pending := [.noticeMaskWrite 3, .reportRead] } =
      .next { online with pending := [.reportRead], port.mask := 3 } := rfl

theorem test_tick_ages_timers :
    tick { online with bus.idleTimer := some 2 } = { online with bus.idleTimer := some 1 } := by decide +kernel

theorem test_deviceReset : exec (.deviceReset 5) online = .next { State.reset with station.strap := 5 } := rfl

theorem test_idleTimerExpiry :
    (after .idleTimerExpiry (queued storeBody online)).bus.view = .window ∧
      (after .idleTimerExpiry (queued storeBody online)).bus.drive.d = 0x0020 := by decide +kernel

theorem test_wantSeenInIdle :
    (after .wantSeenInIdle { online with bus.view := .idle }).bus.windowTimer = some 1 := by decide +kernel

theorem test_busyOrCallSeenInIdle :
    (after .busyOrCallSeenInIdle { online with bus.view := .idle }).bus.view = .active := by decide +kernel

theorem test_busyNegatedSeen : (after .busyNegatedSeen online).bus.idleTimer = some 2 := by decide +kernel

/-- A queued STORE, in a window that this station has joined with its line. -/
def inWindow : State :=
  { queued storeBody online with
    bus.view := .window, bus.contending := true, bus.drive := { Drive.released with want := true, d := 0x0020 } }

theorem test_windowTimerExpiry_wins :
    (after (.windowTimerExpiry false 0x0011) inWindow).bus.drive.d = 0x0502 ∧
      (after (.windowTimerExpiry false 0x0011) inWindow).bus.callTimer = some 2000 := by decide +kernel

theorem test_windowTimerExpiry_loses :
    (after (.windowTimerExpiry true 0x0100) inWindow).bus.tenure = .none ∧
      (after (.windowTimerExpiry true 0x0100) inWindow).bus.drive = Drive.released := by decide +kernel

/-- R38: a beat observed in the pause before the window is gone when the role begins. -/
theorem test_windowTimerExpiry_empties_the_register :
    (after (.windowTimerExpiry false 0x0011) { inWindow with bus.rx := [⟨0x1780, true⟩] }).bus.rx = [] := by
  decide +kernel

theorem test_callSeen_own :
    (after (.callSeen 0x0205 0b11) online).bus.tenure = .none ∧
      (after (.callSeen 0x0205 0b01) online).bus.drive.answer = true := by decide +kernel

theorem test_callSeen_other : (after (.callSeen 0x0204 0b00) online).bus.drive.answer = false := by decide +kernel

theorem test_answerSeen :
    (after .answerSeen (calling (.launch 0) (serving storeBody .callingOpen online))).bus.tx.isSome = true ∧
      (after .answerSeen (calling (.launch 0) (serving storeBody .callingOpen online))).bus.drive.d = 0x1880 := by
  decide +kernel

theorem test_callTimerExpiry :
    slotOf (after .callTimerExpiry (calling (.launch 0) (serving storeBody .callingOpen online))) 0 =
      .live { storeBody with attempts := 1 } (.held 64) := by decide +kernel

def storeDone : State :=
  connected (.launch 0) .second (.openX (ownHead .store))
    (serving storeBody (.connOpen false { OpenRecord.fresh with outcome := some .ok, proceedTaken := true }) online)

theorem test_answerNegatedSeen :
    (after .answerNegatedSeen storeDone).port.reports.map Report.status = [.ok] := by decide +kernel

theorem test_busyNegatedAtCallee :
    (after .busyNegatedAtCallee (servingOpen .store .park online)).serve.service = none := by decide +kernel

theorem test_stallTimerExpiry :
    (after .stallTimerExpiry storeDone).bus.drive.interject = true ∧
      (after .stallTimerExpiry (servingOpen .store .park online)).bus.tenure = .none := by decide +kernel

theorem test_interjectTimerExpiry :
    (after .interjectTimerExpiry { storeDone with bus.interjectTimer := some 200 }).bus.tenure = .none := by
  decide +kernel

theorem test_interjectSeen :
    (after .interjectSeen (servingOpen .store .park online)).bus.tx.map TxFrame.frame =
      some (.verdict ⟨.cleared, 0, 1, none, none⟩) := by decide +kernel

theorem test_beatLatched_open_store_is_answered_proceed :
    (after (.beatLatched (lastBeat (openFrame .store)) (parityOf (lastBeat (openFrame .store))) true)
      { called (calleeOf false none) online with bus.rx := received (openFrame .store) }).bus.tx.map TxFrame.frame =
      some (.verdict ⟨.proceed, 0, 1, some 8, none⟩) := by decide +kernel

theorem test_beatLatched_agrees_the_terms :
    termsOf (after (.beatLatched (lastBeat (openFrame .store)) (parityOf (lastBeat (openFrame .store))) true)
      { called (calleeOf false none) online with bus.rx := received (openFrame .store) }) 2 = some 4 := by
  decide +kernel

/-- Sending the last beat of a PARK. -/
def sendingPark : State := { servingOpen .fetch .park online with bus.tx := some ⟨.verdict ⟨.park, 0, 1, none, none⟩, []⟩ }

theorem test_takeSeen_park_sent :
    (after .takeSeen sendingPark).bus.drive.answer = false ∧
      (after .takeSeen sendingPark).serve.parkQueue.map ParkEntry.requester = [2] := by decide +kernel

/-- The last beat of CLEARED strobed at an interjected callee, of this owner. -/
def sendingCleared (owner : Option Owner) (s : State) : State :=
  { called { calleeOf true owner with clearing := true } s with
    bus.tx := some ⟨.verdict ⟨.cleared, 0, 1, none, none⟩, []⟩ }

/-- R17 and R136: the exchange in service is dropped, and the callee leaves. -/
theorem test_takeSeen_cleared_sent :
    (after .takeSeen (sendingCleared (some .serve) (servingOpen .store .park online))).bus.tenure = .none ∧
      (after .takeSeen (sendingCleared (some .serve) (servingOpen .store .park online))).serve.service = none := by
  decide +kernel

/-- A NOTE of 4 bytes whose last beat has been captured. -/
def noteAlmost (good : Bool) : State :=
  { servingOpen .note (.note true false false [7, 8]) online with
    serve.reserved := true
    bus.run := some ⟨false, 4, 2, 1⟩
    bus.capture := [⟨0x0A09, good⟩]
    bus.count := 1
    bus.runs := [⟨.note, 4, 2, [], false, none⟩] }

theorem test_takeDataBeat_note :
    (after .takeDataBeat (noteAlmost true)).port.inbox = [⟨2, 0, 1, [7, 8, 9, 10]⟩] := by decide +kernel

theorem test_takeDataBeat_note_with_bad_parity :
    (after .takeDataBeat (noteAlmost false)).bus.tx.map TxFrame.frame =
      some (.verdict ⟨.done .check, 0, 1, none, none⟩) := by decide +kernel

/-- R15 and R35: the time left for the run is not the time of the verdict after it. -/
theorem test_takeDataBeat_starts_the_timer_of_the_verdict :
    (after .takeDataBeat { noteAlmost true with bus.stallTimer := some 3 }).bus.stallTimer = some 200 := by decide +kernel

/-- Sending the run of a STORE of 4 bytes, agreed window 1. -/
def storeRun : State :=
  { connected (.launch 0) .running (.openX (ownHead .store))
      (serving storeBody (.connOpen false { OpenRecord.fresh with proceedTaken := true }) online) with
    bus.run := some ⟨true, 4, 0, 0⟩, bus.outbound := [1, 2, 3, 4] }

theorem test_strobeBeat :
    (after .strobeBeat storeRun).bus.drive.d = 0x0201 ∧
      (after .strobeBeat { storeRun with bus.count := 1 }).bus.strobesGiven = 0 := by decide +kernel

/-- A SWAP delivered and a STORE queued when BRESET has been held long enough. -/
def beforeBusReset : State :=
  { setEntry 1 ⟨2, .live { storeBody with acc := 1 } .queued⟩
      (connected (.launch 0) .first (.openX (ownHead .swap))
        (serving (bodyOf (.swap ⟨1, 2⟩ true false none)) (.connOpen false OpenRecord.fresh) online)) with
    bus.bresetDetect := some 0, bus.bresetSeen := true, launch.queue := [1] }

theorem test_bresetDetectTimerExpiry :
    (after .bresetDetectTimerExpiry beforeBusReset).port.reports.map Report.status = [.indeterminate] ∧
      (after .bresetDetectTimerExpiry beforeBusReset).launch.queue = [1] := by decide +kernel

theorem test_bresetNegated :
    (after .bresetNegated { online with bus.view := .reset }).bus.view = .settling := by decide +kernel

theorem test_bresetDriveTimerExpiry :
    (after .bresetDriveTimerExpiry
      { online with bus.bresetDrive := some 0, bus.drive.breset := true }).bus.drive.breset = false := by decide +kernel

theorem test_bresetSeenAsserted : (after .bresetSeenAsserted online).bus.bresetDetect = some 4 := by decide +kernel

theorem test_idleTimerRestarted : (after .idleTimerRestarted online).bus.idleTimer = some 2 := by decide +kernel

theorem test_orderWrite_commit :
    (after (.orderWrite 8) { online with port.assembly := [1, 2, 3, 4, 5, 6, 7] }).port.fifo =
      [⟨1, 2, 3, 4, 5, 6, 7, 8⟩] := by decide +kernel

theorem test_fetch_reads_its_list :
    (after .fetch (waiting fetchOrder online)).mem.lister = some ⟨0x3000, 2, .read⟩ := by decide +kernel

theorem test_store_not_online :
    (after .store (waiting storeOrder State.reset)).port.reports.map Report.status = [.notOnline] := by decide +kernel

theorem test_note_malformed :
    (after .note (waiting { noteOrder with w2 := 65 } online)).port.reports.map Report.status = [.rejected] := by
  decide +kernel

theorem test_swap_is_queued :
    slotOf (after .swap (waiting swapOrder online)) 0 =
      .live { swapBody with segs := [] } .queued := by decide +kernel

theorem test_setup_reads_its_image :
    (after .setup (waiting { bareOrder 8 with w1 := 0x4000 } State.reset)).mem.lister = some ⟨0x4000, 6, .read⟩ := by
  decide +kernel

theorem test_join :
    (after .join (waiting (bareOrder 9) { online with station.state := .offline })).station.state =
      .joining .waiting := by decide +kernel

theorem test_leave_passes_through_draining :
    (after .leave (waiting (bareOrder 10) online)).station.state = .offline := by decide +kernel

theorem test_unassignedOrder :
    (after .unassignedOrder (waiting (bareOrder 7) online)).station.lastResult = .refusedFormat := by decide +kernel

theorem test_urgentWrite :
    (after (.urgentWrite 2) { online with port.urgent := .one 1 }).port.urgent = .occupied 1 2 := by decide +kernel

theorem test_cancel_parked :
    slotOf (after .cancel { serving fetchBody (.parked 40000) online with port.urgent := .occupied 1 0 }) 0 =
      .live { fetchBody with cancel := true } (.withdrawing none) := by decide +kernel

theorem test_busReset :
    (after .busReset { online with port.urgent := .occupied 2 0 }).bus.drive.breset = true := by decide +kernel

theorem test_unassignedUrgent :
    (after .unassignedUrgent { online with port.urgent := .occupied 3 0 }).port.urgent = .empty := by decide +kernel

theorem test_holdOffExpiry :
    slotOf (after (.holdOffExpiry 0) (serving storeBody (.held 64) online)) 0 = .live storeBody .queued := by
  decide +kernel

theorem test_parkTimerExpiry :
    slotOf (after (.parkTimerExpiry 0) (serving fetchBody (.parked 0) online)) 0 =
      .live fetchBody (.withdrawing none) := by decide +kernel

theorem test_verdictTimerExpiry :
    (after .verdictTimerExpiry
      { servingOpen .swap (.swap 0x1000 ⟨1, 2⟩ true) online with serve.verdictTimer := some 0 }).bus.tx.map
        TxFrame.frame = some (.verdict ⟨.done .stall, 0, 1, some 8, none⟩) := by decide +kernel

/-- The List Reader's only read of a gather list is granted. -/
def lastListRead : State :=
  { waiting storeOrder online with
    launch.intake := some (.gather .store storeOrder ⟨0x3000, 8, 8, [], false, some ⟨0, 8⟩⟩)
    mem := { online.mem with granted := some .lister, lister := some ⟨0x3000, 2, .read⟩ } }

def listBytes : List Byte := [0, 0x20, 0, 0, 4, 0, 0, 0]

theorem test_memoryTransactionComplete_queues_the_order :
    slotOf (after (.memoryTransactionComplete (.ok listBytes)) lastListRead) 0 = .live storeBody .queued := by
  decide +kernel

theorem test_memoryTransactionComplete_fault_rejects :
    (after (.memoryTransactionComplete .fault) lastListRead).port.reports.map Report.status = [.rejected] := by
  decide +kernel

/-- A locked pair is granted while its SWAP waits. -/
def pairGranted : State :=
  { servingOpen .swap (.swap 0x1000 ⟨1, 2⟩ true) online with
    serve.swapStage := some ⟨2, 0, 1⟩
    mem := { online.mem with granted := some .serve, lock := true, serve := some ⟨0x1000, 1, .pair 1 2⟩ } }

theorem test_lockedPairComplete :
    swapMemoOf (after (.lockedPairComplete (some 1) true) pairGranted) 2 = some ⟨0, 1, ⟨1, true⟩⟩ ∧
      (after (.lockedPairComplete (some 1) false) pairGranted).bus.tx.map TxFrame.frame =
        some (.verdict ⟨.done .memory, 0, 1, some 8, none⟩) := by decide +kernel

/-- A report to be read, and an arrival of 5 bytes. -/
def report0 : Report := ⟨0, 1, .store, 2, .ok, 4, 7, ⟨0, false⟩⟩
def arrival0 : Arrival := ⟨2, 0, 1, [1, 2, 3, 4, 5]⟩

def withReport (k : Nat) : State :=
  { setEntry 0 ⟨1, .reported storeBody .ok⟩ online with port.reports := [report0], port.reportPos := k }

theorem test_reportRead :
    (after .reportRead (withReport 0)).port.readData = 0x72210001#32 ∧
      slotOf (after .reportRead (withReport 3)) 0 = .free := by decide +kernel

theorem test_inboxRead :
    (after .inboxRead { online with port.inbox := [arrival0] }).port.readData = 0x05010002#32 ∧
      (after .inboxRead { online with port.inbox := [arrival0], port.inboxPos := 2 }).port.inbox = [] := by
  decide +kernel

theorem test_noticeWrite :
    (after (.noticeWrite 1) { online with port.notice := 0b100001 }).port.notice = 0b100000 := by decide +kernel

theorem test_noticeMaskWrite : (after (.noticeMaskWrite 0xFFFF) online).port.mask = 0b111111 := by decide +kernel

theorem test_ignoredWrite : exec (.ignoredWrite 0x10 1) online = .next online := rfl

/-! ## The hypotheses of the statements are met

One theorem for a statement, or for its clauses at their bounds; a clause under the same hypotheses as an earlier one shares
its state. -/

theorem test_witness_EmptyQueueOnlyAgesTimers :
    online.pending = [] ∧ slotOf (serving storeBody (.held 0) online) 0 = .live storeBody (.held 0) ∧
      slotOf (serving fetchBody (.parked 40000) online) 0 = .live fetchBody (.parked 40000) ∧
      slotOf (serving fetchBody (.withdrawing none) online) 0 = .live fetchBody (.withdrawing none) := by
  decide +kernel

theorem test_witness_RegistersChangeOnlyAtTheirCommands :
    ∃ i : Instr, (∀ a, i ≠ .deviceReset a) ∧ (∀ w, i ≠ .orderWrite w) ∧ (∀ w, i ≠ .noticeMaskWrite w) ∧
      (∀ w, i ≠ .noticeWrite w) ∧ (∀ w, i ≠ .urgentWrite w) ∧ (∀ r, i ≠ .memoryTransactionComplete r) ∧
      (∀ w d, i ≠ .windowTimerExpiry w d) ∧ (∀ r w, i ≠ .lockedPairComplete r w) ∧ (∀ d dp m, i ≠ .beatLatched d dp m) ∧
      i ∉ [.reportRead, .inboxRead, .takeDataBeat, .takeSeen, .cancel, .busReset, .unassignedUrgent, .fetch, .store,
        .note, .swap, .setup, .join, .leave, .unassignedOrder, .bresetDetectTimerExpiry, .bresetDriveTimerExpiry,
        .bresetSeenAsserted, .bresetNegated, .answerNegatedSeen, .interjectTimerExpiry] :=
  ⟨.answerSeen, nofun, nofun, nofun, nofun, nofun, nofun, nofun, nofun, nofun, by decide⟩

theorem test_witness_TablesKeepWhatIsSettled :
    slotOf online 31 = .free ∧ slotOf (withReport 3) 0 = .reported storeBody .ok ∧
      txnOf pairGranted .serve = some ⟨0x1000, 1, .pair 1 2⟩ ∧ pairGranted.mem.granted = some .serve := by
  decide +kernel

/-- A full Order FIFO. -/
def fullFifo : State := { online with port.assembly := [1, 2, 3, 4, 5, 6, 7], port.fifo := List.replicate 8 fetchOrder }

theorem test_witness_OrderWriteAssemblesAndCommits :
    online.port.assembly.length < 7 ∧ { online with port.assembly := [1, 2, 3, 4, 5, 6] }.port.assembly.length < 7 ∧
      fullFifo.port.assembly = [1, 2, 3, 4, 5, 6, 7] ∧ fullFifo.port.assembly.length = 7 ∧
      8 ≤ fullFifo.port.fifo.length ∧ { fullFifo with port.fifo := [fetchOrder] }.port.fifo.length < 8 := by decide

theorem test_witness_UrgentWriteFillsTheSlot :
    online.port.urgent = .empty ∧ { online with port.urgent := .one 1 }.port.urgent = .one 1 ∧
      { online with port.urgent := .occupied 1 0 }.port.urgent = .occupied 1 0 := by decide

theorem test_witness_ReportReadTakesOneWord :
    online.port.reports = [] ∧ online.port.reportPos = 0 ∧ (withReport 0).port.reports = [report0] ∧
      (withReport 2).port.reportPos < 3 ∧ (withReport 3).port.reportPos = 3 := by decide +kernel

/-- An arrival of 5 bytes at the head of the Inbox, three words long. -/
def withArrival (k : Nat) : State := { online with port.inbox := [arrival0], port.inboxPos := k }

theorem test_witness_InboxReadTakesOneWord :
    online.port.inbox = [] ∧ online.port.inboxPos = 0 ∧ (withArrival 0).port.inbox = [arrival0] ∧
      (withArrival 1).port.inboxPos + 1 < 1 + (arrival0.payload.length + 3) / 4 ∧
      (withArrival 2).port.inboxPos + 1 = 1 + (arrival0.payload.length + 3) / 4 ∧
      (Arrival.mk 2 0 1 (List.replicate 64 0)).payload.length ≤ 64 := by decide +kernel

theorem test_witness_IgnoredWriteAndReadWords :
    WellFormed (.ignoredWrite 0x08 0) = true ∧ WellFormed (.ignoredWrite 0x1C 0) = true ∧ report0.attempts ≤ 7 ∧
      { report0 with bytesDone := 4096 }.bytesDone ≤ 4096 := by decide

theorem test_witness_FrameDecodesItsEncoding :
    (Frame.head (.openX { headOf .swap with terms := some 16, ops := some ⟨1, 2⟩ })).carried = true ∧
      (openFrame .fetch).carried = true ∧ (Frame.head (.resume ⟨2, 5, 31, 15, false, 8191, 1024⟩)).carried = true ∧
      (Frame.head (.withdraw ⟨2, 5, 0, 1⟩)).carried = true ∧ (Frame.head (.probe 5 5)).carried = true ∧
      (Frame.verdict ⟨.done .ok, 0, 1, some 1, some ⟨7, true⟩⟩).carried = true ∧
      (Frame.verdict ⟨.refuse .check, 0, 0, none, none⟩).carried = true := by decide

/-- The caller before the last beat of a verdict. -/
def awaiting (g : Grantee) (p : Point) (h : Head) (f : Frame) (s : State) : State :=
  { connected g p h s with bus.rx := received f }

def proceedFrame : Frame := .verdict ⟨.proceed, 0, 1, some 8, none⟩
def clearedFrame : Frame := .verdict ⟨.cleared, 0, 1, none, none⟩
def acceptFrame : Frame := .verdict ⟨.accept, 0, 1, none, none⟩

/-- An OPEN tenure before the last beat of this verdict, at this point of the course. -/
def openAwaits (p : Point) (f : Frame) : State :=
  awaiting (.launch 0) p (.openX (ownHead .store)) f (serving storeBody (.connOpen true OpenRecord.fresh) online)

theorem test_witness_VerdictsPermittedByTheCourse :
    CompletesFrame (openAwaits .first proceedFrame) (lastBeat proceedFrame) (parityOf (lastBeat proceedFrame))
        (some proceedFrame) ∧
      CompletesFrame (openAwaits .first proceedFrame) (lastBeat proceedFrame) (parityOf (lastBeat proceedFrame) + 1) none ∧
      (openAwaits .first proceedFrame).bus.run = none ∧
      slotOf (openAwaits .first proceedFrame) 0 = .live storeBody (.connOpen true OpenRecord.fresh) := by
  unfold CompletesFrame; decide +kernel

theorem test_witness_VerdictsPermittedByTheCourse_fitting :
    FittingFrame (openAwaits .first proceedFrame) ⟨.launch 0, 2, true, false, .first, some (.openX (ownHead .store))⟩
      (.openX (ownHead .store)) (some proceedFrame) := by
  refine ⟨_, rfl, ?_⟩
  rw [if_neg (by decide +kernel)]
  exact ⟨rfl, .inl ⟨rfl, rfl, .inr ⟨rfl, rfl⟩, rfl, nofun, nofun⟩⟩

theorem test_witness_VerdictsPermittedByTheCourse_illfitting (c : Caller) (s : State) :
    ¬ FittingFrame s c (.openX (ownHead .store)) none ∧
      ¬ FittingFrame s c (.openX (ownHead .store)) (some acceptFrame) := by
  constructor
  · rintro ⟨_, h, _⟩
    exact nomatch h
  rintro ⟨v, h, hv⟩
  cases h
  split at hv
  · rcases hv with h | h
    · exact nomatch h.1
    · rcases h.2 with ⟨_, h⟩ | ⟨_, h⟩ <;> exact nomatch h.1
  · rcases hv.2 with ⟨_, h⟩ | ⟨_, h⟩ <;> exact nomatch h.1

theorem test_witness_VerdictsPermittedByTheCourse_interject :
    FittingFrame { openAwaits .running clearedFrame with bus.drive.interject := true }
      ⟨.launch 0, 2, true, false, .running, some (.openX (ownHead .store))⟩ (.openX (ownHead .store))
      (some clearedFrame) := by
  refine ⟨_, rfl, ?_⟩
  rw [if_pos rfl]
  exact .inl ⟨rfl, rfl, rfl, rfl⟩

theorem test_witness_VerdictsPermittedByTheCourse_grantees :
    slotOf (awaiting (.launch 0) .first (.withdraw ⟨5, 2, 0, 1⟩) clearedFrame
        (serving fetchBody (.connWithdraw none) online)) 0 = .live fetchBody (.connWithdraw none) ∧
      (awaiting .serve .first (.resume ⟨5, 2, 0, 1, false, 0, 1024⟩) acceptFrame
        { online with serve.resume := some ⟨none, 1024⟩ }).serve.resume = some ⟨none, 1024⟩ ∧
      receiveFrame (received acceptFrame ++ [⟨lastBeat acceptFrame, true⟩]) = some acceptFrame := by decide +kernel

/-- The same for an OPEN of a FETCH before its PROCEED. -/
def fetchAwaits : State :=
  awaiting (.launch 0) .first (.openX (ownHead .fetch)) proceedFrame (serving fetchBody (.connOpen true OpenRecord.fresh) online)

theorem test_witness_VerdictsPermittedByTheCourse_run :
    MoverReadsNext (openAwaits .first proceedFrame) ∧ bodyKind storeBody ≠ .fetch ∧ 0 < storeBody.length ∧
      locate storeBody.segs 0 = some (0x2000, 4) ∧ bodyKind fetchBody = .fetch ∧ fetchAwaits.bus.run = none ∧
      slotOf fetchAwaits 0 = .live fetchBody (.connOpen true OpenRecord.fresh) :=
  ⟨⟨rfl, by decide +kernel, rfl, nofun⟩, by decide, by decide, by decide, rfl, rfl, rfl⟩

/-- R100 and R101: PROCEED opens the item of a FETCH, and the outbound job of a STORE with its first read. -/
theorem test_beatLatched_proceed_begins_the_run :
    (after (.beatLatched (lastBeat proceedFrame) (parityOf (lastBeat proceedFrame)) true) fetchAwaits).bus.runs =
        [⟨.mover ⟨0, [⟨0x2000, 4⟩], none, 0, 0, false, false, true, true⟩, 4, 0, [], false, none⟩] ∧
      (after (.beatLatched (lastBeat proceedFrame) (parityOf (lastBeat proceedFrame)) true)
        (openAwaits .first proceedFrame)).mem.mover = some ⟨0x2000, 1, .read⟩ := by decide +kernel

/-- R8: CLEARED under INTERJECT closes the course. -/
theorem test_beatLatched_cleared_finishes_the_course :
    (after (.beatLatched (lastBeat clearedFrame) (parityOf (lastBeat clearedFrame)) true)
      { openAwaits .running clearedFrame with bus.drive.interject := true }).bus.tenure =
      .caller ⟨.launch 0, 2, true, true, .running, some (.openX (ownHead .store))⟩ := by decide +kernel

theorem test_witness_WindowOpensFromIdle :
    (online.bus.view = .active ∨ online.bus.view = .settling) ∧ online.bus.drive.busy = false ∧
      online.bus.drive.call = false ∧ online.bus.drive.want = false ∧ online.bus.tenure = .none ∧
      { online with bus.view := .idle }.bus.view = .idle ∧ roleOf { online with bus.view := .idle } = .none := by
  decide

theorem test_witness_WindowOpensFromIdle_joins :
    (claimed (queued storeBody online) && mayContend (queued storeBody online).station.state) = true ∧
      (claimed online && mayContend online.station.state) = false := by decide +kernel

theorem test_witness_WindowEndsFourWays :
    inWindow.bus.view = .window ∧ inWindow.bus.tenure = .none ∧ (false || online.bus.drive.want) = false ∧
      (true || inWindow.bus.drive.want) = true ∧ (0#16 ||| online.bus.drive.d = 0) ∧
      inWindow.bus.contending = true ∧ inWindow.bus.drive.d = 1#16 <<< inWindow.station.strap.toNat ∧
      0x0001#16 ||| inWindow.bus.drive.d ≠ 0 := by decide +kernel

theorem test_witness_WindowEndsFourWays_highest :
    highestLine (0x001F#16 ||| inWindow.bus.drive.d) inWindow.station.strap ∧
      ¬ highestLine (0x0040#16 ||| inWindow.bus.drive.d) inWindow.station.strap := by
  refine ⟨⟨by decide +kernel, fun m hm => ?_⟩, fun h => absurd (h.2 6 (by decide +kernel)) (by decide +kernel)⟩
  have e : (0x001F#16 ||| inWindow.bus.drive.d) = 0x003F#16 := by decide +kernel
  have h5 : 5 < m := hm
  rw [e]
  rcases Nat.lt_or_ge m 16 with h | h
  · have k : ∀ n : Fin 16, 5 < n.val → (0x003F#16).getLsbD n = false := by decide
    exact k ⟨m, h⟩ h5
  · exact BitVec.getLsbD_of_ge _ _ h

/-- In the window with a park-queue head READY too. -/
def bothClaim (next : NextGrantee) : State :=
  { inWindow with serve.parkQueue := [parked0 (.readyData 1024)], bus.nextGrantee := next }

theorem test_witness_WinnerGrantsAndCalls :
    { inWindow with station.state := .joining .waiting }.station.state = .joining .waiting ∧
      choice inWindow = some 0 ∧ slotOf inWindow 0 = .live storeBody .queued ∧ headReady inWindow = false ∧
      choice (bothClaim .serve) = some 0 ∧ headReady (bothClaim .serve) = true ∧
      (bothClaim .serve).bus.nextGrantee = .serve ∧ (bothClaim .launch).bus.nextGrantee = .launch ∧
      choice online = none ∧ headReady online = false := by decide +kernel

theorem test_witness_ChoiceFollowsTheRule :
    (queued storeBody online).launch.queue = [] ++ 0 :: [] ∧ slotOf (queued storeBody online) 0 = .live storeBody .queued ∧
      eligible (queued storeBody online) storeBody = true ∧
      slotOf (serving fetchBody (.withdrawing none) online) 0 = .live fetchBody (.withdrawing none) ∧
      { serving fetchBody (.withdrawing none) online with launch.queue := [0] }.launch.queue = [] ++ 0 :: [] := by
  decide +kernel

theorem test_witness_LiveTagsRankByAcceptance :
    ∀ u, (liveOf (queued storeBody online) u).isSome → (accOf (queued storeBody online) u - 0).toNat < 2 ^ 31 := by
  decide +kernel

/-- R108: a DONE leaves its mark in the tenure record of its entry. -/
theorem test_readOpenVerdict_marks_the_done :
    slotOf (readOpenVerdict 0 ⟨.done .check, 0, 1, none, none⟩ (serving swapBody (.connOpen false OpenRecord.fresh) online)) 0 =
      .live (bodyOf (.swap ⟨1, 2⟩ false true none))
        (.connOpen false { OpenRecord.fresh with outcome := some (.retry .check), doneTaken := true }) := by decide +kernel

theorem test_witness_CompletionAppliesIndeterminate :
    slotOf (serving storeBody .queued online) 0 = .live storeBody .queued ∧ workKind storeBody.work ≠ .swap ∧
      swapBody.work = .swap ⟨1, 2⟩ false false none := by decide +kernel

theorem test_witness_CallAnsweredExactlyWhenOwn :
    parityGood 0x0205 0b01 = true ∧ BitVec.extractLsb' 0 4 (0x0205 : Beat) = online.station.strap ∧
      online.bus.tenure = .none ∧ online.station.state = .online ∧ parityGood 0x0205 0b00 = false ∧
      roleOf (called (calleeOf true none) online) ≠ .none := by decide

theorem test_witness_CallAnsweredExactlyWhenOwn_finished :
    roleOf (called { calleeOf true (some .serve) with finished := true } online) = .none := by decide

theorem test_witness_AnswerSendsTheOpenHead :
    (calling (.launch 0) (serving storeBody .callingOpen online)).bus.tenure =
        .caller ⟨.launch 0, 2, false, false, .head, none⟩ ∧
      (calling (.launch 0) (serving storeBody .callingOpen online)).bus.callTimer ≠ none ∧
      slotOf (calling (.launch 0) (serving storeBody .callingOpen online)) 0 = .live storeBody .callingOpen ∧
      storeBody.cancel = false ∧ online.bus.drive.interject = false ∧ online.bus.runs = [] := by decide +kernel

theorem test_witness_AnswerSendsTheOtherHeads :
    slotOf (calling (.launch 0) (serving fetchBody .callingWithdraw online)) 0 = .live fetchBody .callingWithdraw ∧
      (calling .serve { online with serve.parkQueue := [parked0 (.readyData 1024)] }).serve.parkQueue =
        parked0 (.readyData 1024) :: [] ∧
      (calling .probe online).bus.tenure = .caller ⟨.probe, 2, false, false, .head, none⟩ ∧
      (calling .probe online).bus.callTimer ≠ none ∧
      slotOf (calling (.launch 0) (serving { storeBody with cancel := true } .callingOpen online)) 0 =
        .live { storeBody with cancel := true } .callingOpen := by decide +kernel

theorem test_witness_CallTimeoutEndsTheTenure :
    (calling .serve online).bus.tenure = .caller ⟨.serve, 2, false, false, .head, none⟩ ∧
      (calling .serve online).bus.callTimer ≠ none ∧
      slotOf (calling (.launch 0) (serving { storeBody with attempts := 3 } .callingOpen online)) 0 =
        .live { storeBody with attempts := 3 } .callingOpen ∧
      (setupOf online).retryBudget = 3 := by decide +kernel

theorem test_witness_EndCarriesOutTheOpenOutcome :
    storeDone.bus.tenure = .caller ⟨.launch 0, 2, true, false, .second, some (.openX (ownHead .store))⟩ ∧
      slotOf storeDone 0 =
        .live storeBody (.connOpen false { OpenRecord.fresh with outcome := some .ok, proceedTaken := true }) ∧
      storeDone.bus.run = none ∧ bodyKind storeBody ≠ .fetch := by decide +kernel

theorem test_witness_EndCarriesOutTheOpenOutcome_cut :
    storeRun.bus.tenure = .caller ⟨.launch 0, 2, true, false, .running, some (.openX (ownHead .store))⟩ ∧
      storeRun.bus.run = some ⟨true, 4, 0, 0⟩ ∧
      slotOf storeRun 0 = .live storeBody (.connOpen false { OpenRecord.fresh with proceedTaken := true }) := by
  decide +kernel

/-- The record of a FETCH whose run and DONE(OK) have been received. -/
def fetchedRecord : OpenRecord := { OpenRecord.fresh with outcome := some .ok, proceedTaken := true, bytesTaken := 4 }

/-- The caller of that FETCH, with these bytes of its run still in the transit buffer. -/
def fetched (bytes : List Byte) : State :=
  { connected (.launch 0) .second (.openX (ownHead .fetch))
      (serving { fetchBody with bytesDone := 4 } (.connOpen false fetchedRecord) online) with
    bus.runs := [⟨.mover ⟨0, [⟨0x2000, 4⟩], none, 4, 0, false, false, true, true⟩, 4, 4, bytes, true, none⟩] }

theorem test_witness_EndCarriesOutTheOpenOutcome_waits :
    slotOf (fetched [1, 2]) 0 = .live { fetchBody with bytesDone := 4 } (.connOpen false fetchedRecord) ∧
      bodyKind fetchBody = .fetch ∧ fetchedRecord.proceedTaken = true ∧ fetchedRecord.drained = false ∧
      ∀ q ∈ (fetched [1, 2]).bus.runs, reportsTo q = some 0 →
        discards q.sink = false ∧ (q.bytes ≠ [] ∨ q.flight ≠ none) := by decide +kernel

theorem test_witness_EndCarriesOutTheOpenOutcome_drains_at_once :
    ∃ rs q i, (fetched []).bus.runs = rs ++ [q] ∧ q.sink = .mover i ∧ i.recordOpen = true ∧ i.tag = 0 ∧
      q.bytes = [] ∧ q.flight = none ∧ ∀ q' ∈ rs, reportsTo q' = none :=
  ⟨[], _, _, rfl, rfl, rfl, rfl, rfl, rfl, nofun⟩

/-- R101 and R109: the entry completes only with the last write. -/
theorem test_answerNegatedSeen_waits_for_run_drained :
    (after .answerNegatedSeen (fetched [1, 2])).port.reports = [] ∧
      (after .answerNegatedSeen (fetched [])).port.reports.map Report.status = [.ok] := by decide +kernel

theorem test_witness_EndCarriesOutTheWithdrawal :
    (connected (.launch 0) .first (.withdraw ⟨5, 2, 0, 1⟩)
        (serving fetchBody (.connWithdraw (some .cleared)) online)).bus.tenure =
        .caller ⟨.launch 0, 2, true, false, .first, some (.withdraw ⟨5, 2, 0, 1⟩)⟩ ∧
      slotOf (connected (.launch 0) .first (.withdraw ⟨5, 2, 0, 1⟩)
        (serving fetchBody (.connWithdraw (some .cleared)) online)) 0 =
        .live fetchBody (.connWithdraw (some .cleared)) ∧
      slotOf (serving fetchBody (.connWithdraw none) online) 0 = .live fetchBody (.connWithdraw none) := by
  decide +kernel

/-- A RESUME tenure at the responder whose outcome is this one. -/
def resuming (chunk : Chunk) (o : Option ServeOutcome) : State :=
  { connected .serve .second (.resume ⟨5, 2, 0, 1, false, 0, 1024⟩) online with
    serve.parkQueue := [parked0 chunk], serve.resume := some ⟨o, 1024⟩ }

theorem test_witness_EndCarriesOutTheResume :
    (resuming (.readyData 1024) (some .accept)).bus.tenure =
        .caller ⟨.serve, 2, true, false, .second, some (.resume ⟨5, 2, 0, 1, false, 0, 1024⟩)⟩ ∧
      (resuming (.readyData 1024) (some .accept)).serve.parkQueue = parked0 (.readyData 1024) :: [] ∧
      (resuming (.readyData 1024) (some .accept)).serve.resume = some ⟨some .accept, 1024⟩ ∧
      (resuming .readyFault (some .accept)).serve.parkQueue = parked0 .readyFault :: [] ∧
      (resuming (.readyData 1024) (some .stale)).serve.resume = some ⟨some .stale, 1024⟩ ∧
      (resuming (.readyData 1024) none).serve.resume = some ⟨none, 1024⟩ := by decide

theorem test_witness_CalleeLeavesWhenBusyIsNegated :
    (servingOpen .store .park online).bus.tenure = .callee (calleeOf true (some .serve)) ∧
      (calleeOf true (some .serve)).owner = some .serve := by decide

/-- The callee of a RESUME tenure of the first chunk of entry 0, with these fields. -/
def resumed (b : Body) (r : ResumeRecord) : State :=
  called (calleeOf true (some (.launch (some 0)))) (serving b (.connResume 9 r) online)

def freshChunk : ResumeRecord := freshResume ⟨2, 5, 0, 1, false, 0, 4⟩ false .proceed none

/-- The record of the only chunk of a FETCH of 4 bytes, ACCEPT given. -/
def lastChunk : ResumeRecord := { freshChunk with given := .accept, outcome := some .accepted }

/-- The run of that chunk, all of it taken, with these bytes still in the transit buffer. -/
def chunkRun (discard : Bool) (bytes : List Byte) (flight : Option Nat) : InRun :=
  ⟨.mover ⟨0, [⟨0x2000, 4⟩], some 0, 4 - bytes.length, 0, discard, false, true, true⟩, 4, 4, bytes, true, flight⟩

/-- The callee that has given that ACCEPT, with this run in the transit buffer. -/
def lastAccepted (r : InRun) : State :=
  { resumed { fetchBody with bytesDone := 4 } lastChunk with bus.runs := [r] }

/-- Bytes still to be written, every byte written, and a repeat with its bytes discarded. -/
theorem test_witness_CalleeLeavesWhenBusyIsNegated_resume :
    (calleeOf true (some (.launch (some 0)))).owner = some (.launch (some 0)) ∧
      slotOf (lastAccepted (chunkRun false [1, 2] none)) 0 =
        .live { fetchBody with bytesDone := 4 } (.connResume 9 lastChunk) ∧
      lastChunk.drained = false ∧ lastChunk.localFault = false ∧
      HoldsBytes (lastAccepted (chunkRun false [1, 2] none)) 0 ∧ HoldsBytes (lastAccepted (chunkRun false [] (some 4))) 0 ∧
      DrainsAtOnce (lastAccepted (chunkRun false [] none)) 0 ∧ DrainsAtOnce (lastAccepted (chunkRun true [1, 2] none)) 0 := by
  refine ⟨rfl, by decide +kernel, rfl, rfl, ?_, ?_, ⟨[], _, _, rfl, rfl, rfl, rfl, .inl rfl, rfl, nofun⟩,
    ⟨[], _, _, rfl, rfl, rfl, rfl, .inr ⟨rfl, rfl⟩, rfl, nofun⟩⟩ <;> unfold HoldsBytes Holding <;> decide +kernel

/-- R129: the entry waits for its drain, or completes OK. -/
theorem test_busyNegatedAtCallee_waits_for_run_drained :
    slotOf (after .busyNegatedAtCallee (lastAccepted (chunkRun false [1, 2] none))) 0 =
        .live { fetchBody with bytesDone := 4 } (.connResume 9 { lastChunk with ended := true }) ∧
      (after .busyNegatedAtCallee (lastAccepted (chunkRun false [] none))).port.reports.map Report.status = [.ok] := by
  decide +kernel

theorem test_witness_StallBreaksOffTheTenure :
    storeDone.bus.stallTimer ≠ none ∧ storeDone.bus.drive.interject = false ∧
      (servingOpen .store .park online).bus.stallTimer ≠ none ∧
      { storeDone with bus.interjectTimer := some 0 }.bus.interjectTimer ≠ none := by decide +kernel

/-- The callee of a short FETCH of 4 bytes, its first beat strobed, near the end of its stall timer. -/
def sendingFetchWaits : State :=
  { servingOpen .fetch (.fetch 0x1000 4 4 [] false none) online with
    bus.run := some ⟨true, 4, 1, 0⟩, bus.count := 1, bus.stallTimer := some 3 }

theorem test_witness_StallBreaksOffTheTenure_restart :
    storeDone.bus.tenure = .caller ⟨.launch 0, 2, true, false, .second, some (.openX (ownHead .store))⟩ ∧
      sendingFetchWaits.bus.tenure = .callee (calleeOf true (some .serve)) ∧
      (calleeOf true (some .serve)).finished = false := by decide

/-- The run of a STORE, one beat of two taken, near the end of its stall timer. -/
def storeRunHalf : State := { storeRun with bus.run := some ⟨true, 4, 2, 1⟩, bus.count := 1, bus.stallTimer := some 1 }

theorem test_witness_StallBreaksOffTheTenure_run :
    CallsOn storeRunHalf ⟨.launch 0, 2, true, false, .running, some (.openX (ownHead .store))⟩ ∧
      slotOf storeRunHalf 0 = .live storeBody (.connOpen false { OpenRecord.fresh with proceedTaken := true }) :=
  ⟨⟨rfl, rfl, rfl⟩, by decide +kernel⟩

/-- R16, R37 and R107: the interject cuts the run, and the bytes of the beats taken are done. -/
theorem test_stallTimerExpiry_hands_the_bytes_taken :
    slotOf (after .stallTimerExpiry storeRunHalf) 0 =
      .live { storeBody with bytesDone := 2 }
        (.connOpen false
          { OpenRecord.fresh with proceedTaken := true, bytesTaken := 2, outcome := some (.retry .stall) }) := by
  decide +kernel

/-- A strobe that the sender of a run neither takes nor latches starts its stall timer again. -/
theorem test_beatLatched_stray_restarts_the_stall_timer :
    after (.beatLatched 0 3 false) sendingFetchWaits = { sendingFetchWaits with bus.stallTimer := some 200 } := by
  decide +kernel

/-- This tenure with INTERJECT asserted. -/
def interjected (s : State) : State :=
  { s with bus.drive.interject := true, bus.stallTimer := none, bus.interjectTimer := some 0 }

/-- The tenures that an interject timer may end: an OPEN with its outcome decided, with none, and of a FETCH that waits for its
drain; a WITHDRAW; a RESUME at the responder; a probe. -/
theorem test_witness_StallBreaksOffTheTenure_interject :
    (interjected storeDone).bus.tenure = .caller ⟨.launch 0, 2, true, false, .second, some (.openX (ownHead .store))⟩ ∧
      slotOf (interjected storeRun) 0 = .live storeBody (.connOpen false { OpenRecord.fresh with proceedTaken := true }) ∧
      (slotOf (interjected (fetched [1, 2])) 0 = .live { fetchBody with bytesDone := 4 } (.connOpen false fetchedRecord) ∧
        HoldsBytes (interjected (fetched [1, 2])) 0 ∧ DrainsAtOnce (interjected (fetched [])) 0) ∧
      slotOf (interjected (connected (.launch 0) .first (.withdraw ⟨5, 2, 0, 1⟩)
        (serving fetchBody (.connWithdraw none) online))) 0 = .live fetchBody (.connWithdraw none) ∧
      (interjected (resuming (.readyData 1024) none)).serve.parkQueue = parked0 (.readyData 1024) :: [] ∧
      (interjected (connected .probe .head (.probe 5 5) online)).bus.tenure =
        .caller ⟨.probe, 2, true, false, .head, some (.probe 5 5)⟩ := by
  refine ⟨by decide, by decide +kernel, ⟨by decide +kernel, ?_, ⟨[], _, _, rfl, rfl, rfl, rfl, .inl rfl, rfl, nofun⟩⟩,
    by decide +kernel, by decide, by decide⟩
  unfold HoldsBytes Holding
  decide +kernel

/-- R16 and R109: at the end of the interject timer the outcome is carried out, STALL if none is decided. -/
theorem test_interjectTimerExpiry_carries_out :
    (after .interjectTimerExpiry (interjected storeDone)).port.reports.map Report.status = [.ok] ∧
      slotOf (after .interjectTimerExpiry (interjected storeRun)) 0 =
        .live { storeBody with attempts := 1 } (.held 64) := by decide +kernel

theorem test_witness_StallBreaksOffTheTenure_resume :
    (resumed fetchBody freshChunk).bus.stallTimer ≠ none ∧
      (resumed fetchBody freshChunk).bus.tenure = .callee (calleeOf true (some (.launch (some 0)))) ∧
      slotOf (resumed fetchBody freshChunk) 0 = .live fetchBody (.connResume 9 freshChunk) := by decide +kernel

theorem test_witness_InterjectSeenIsAnswered :
    (calleeOf true none).finished = false ∧ (calleeOf true none).clearing = false ∧
      (calleeOf true none).headReceived = true ∧ (calleeOf false none).headReceived = false ∧
      (called (calleeOf false none) online).bus.tenure = .callee (calleeOf false none) := by decide

theorem test_witness_AnsweredProbeIsolates :
    (connected .probe .head (.probe 5 5) (queued swapBody online)).bus.tenure =
        .caller ⟨.probe, 2, true, false, .head, some (.probe 5 5)⟩ ∧
      slotOf (connected .probe .head (.probe 5 5) (queued swapBody online)) 0 = .live swapBody .queued := by
  decide +kernel

/-- The own BRESET drive ends as the station becomes ISOLATED. -/
theorem test_answerNegatedSeen_releases_breset :
    resetDrive (after .answerNegatedSeen
      { connected .probe .head (.probe 5 5) online with
        station.state := .joining .calling, bus.drive.breset := true, bus.bresetDrive := some 9 }) = (false, none) := by
  decide +kernel

/-- The probe's head before the TAKE of its last beat. -/
def sendingProbe : State :=
  { connected .probe .head (.probe 5 5) online with bus.tx := some ⟨.head (.probe 5 5), []⟩ }

/-- A head with this station's address as source. -/
def clashFrame : Frame := .head (.openX (ownHead .store))

theorem test_witness_AnsweredProbeIsolates_clash :
    (∃ c, CallsOn sendingProbe c ∧ c.sent = some (.probe 5 5)) ∧
      CompletesFrame { online with bus.rx := received clashFrame } (lastBeat clashFrame)
        (parityOf (lastBeat clashFrame)) (some clashFrame) ∧
      Serves (called (calleeOf false none) online) (calleeOf false none) := by
  refine ⟨⟨_, ⟨rfl, rfl, rfl⟩, rfl⟩, ?_, rfl, rfl, rfl⟩
  unfold CompletesFrame; decide +kernel

theorem test_witness_AnsweredProbeIsolates_fields :
    (Head.openX (ownHead .store)).source = online.station.strap ∧ online.bus.observed = false ∧ roleOf online = .none ∧
      State.reset.station.state = .offline ∧ (∀ u, slotOf online u = .free) ∧ storeBody.peer ≠ online.station.strap := by
  decide +kernel

/-- A FETCH of 5 bytes is being received by its caller, `moved` beats latched and `count` of them not yet taken. -/
def receivingRun (moved count : Nat) : State :=
  { connected (.launch 0) .running (.openX (ownHead .fetch))
      (serving fetchBody (.connOpen false { OpenRecord.fresh with proceedTaken := true }) online) with
    bus.run := some ⟨false, 5, moved, moved - count⟩, bus.count := count
    bus.capture := List.replicate count ⟨0, true⟩, bus.runs := [⟨.dropped, 5, 0, [], false, none⟩] }

theorem test_witness_DataBeatIsCapturedOrOverrun :
    (receivingRun 2 0).bus.run = some ⟨false, 5, 2, 2⟩ ∧ (receivingRun 2 0).bus.rx = [] ∧
      (∃ c, CallsOn (receivingRun 2 0) c) ∧ paceWindow (receivingRun 2 0) (otherParty (receivingRun 2 0)) = 1 ∧
      (receivingRun 2 0).bus.count = 0 ∧ 2 < (5 + 1) / 2 ∧ (receivingRun 2 1).bus.count = 1 ∧
      (receivingRun 3 0).bus.run = some ⟨false, 5, 3, 3⟩ ∧ (5 + 1) / 2 ≤ 3 := by
  refine ⟨rfl, rfl, ⟨_, rfl, rfl, rfl⟩, ?_⟩
  decide +kernel

theorem test_witness_DataBeatIsCapturedOrOverrun_after_the_run :
    ∃ c o, CallsOn (connected (.launch 0) .second (.openX (ownHead .fetch)) online) c ∧ c.sent = some (.openX o) ∧
      o.kind = .fetch ∧ c.point = .second := ⟨_, _, ⟨rfl, rfl, rfl⟩, rfl, rfl, rfl⟩

theorem test_witness_DataBeatIsCapturedOrOverrun_callee :
    Serves (servingOpen .store .park online) (calleeOf true (some .serve)) ∧
      (calleeOf true (some .serve)).headReceived = true := ⟨⟨rfl, rfl, rfl⟩, rfl⟩

/-- The callee of a STORE whose run is over. -/
def runOver : Callee := { calleeOf true (some .serve) with runDone := true }

/-- It serves, with the bytes of its run still to be written. -/
def storeRunOver : State :=
  { servingOpen .store (.store 4 0 false false true) online with bus.tenure := .callee runOver }

theorem test_witness_DataBeatIsCapturedOrOverrun_callee_after_the_run :
    Serves storeRunOver runOver ∧ runOver.headReceived = true ∧ runOver.runDone = true ∧ storeRunOver.bus.run = none ∧
      ReceivesRun storeRunOver runOver ∧
      ReceivesRun (servingOpen .note (.note true false false []) online) (calleeOf true (some .serve)) ∧
      ReceivesRun (resumed fetchBody freshChunk) (calleeOf true (some (.launch (some 0)))) :=
  ⟨⟨rfl, rfl, rfl⟩, rfl, rfl, rfl, .inl ⟨rfl, _, rfl, .inl ⟨_, _, _, _, _, rfl⟩⟩,
    .inl ⟨rfl, _, rfl, .inr ⟨_, _, _, _, rfl⟩⟩, .inr ⟨_, rfl⟩⟩


/-- The callee before the last beat of a head. -/
def beforeLast (f : Frame) : State := { called (calleeOf false none) online with bus.rx := received f }

/-- All the beats of a frame, latched with good parity. -/
def wholly (f : Frame) : List Latched := f.encode.map fun d => ⟨d, true⟩

theorem test_witness_FrameBeatIsTakenAtOnce :
    registerFull ([] ++ [⟨0x1780, parityGood 0x1780 0b01⟩]) = false ∧
      Serves (beforeLast (openFrame .store)) (calleeOf false none) ∧ (calleeOf false none).headReceived = false ∧
      (∃ c : Caller, storeDone.bus.tenure = .caller c ∧ c.answered = true ∧ storeDone.bus.run = none) :=
  ⟨by decide, ⟨rfl, rfl, rfl⟩, rfl, _, rfl, rfl, rfl⟩

theorem test_witness_FrameBeatIsTakenAtOnce_cut :
    (openAwaits .first proceedFrame).bus.rx ≠ [] ∧
      (openAwaits .first proceedFrame).bus.tenure =
        .caller ⟨.launch 0, 2, true, false, .first, some (.openX (ownHead .store))⟩ := by decide +kernel

theorem test_witness_FrameBeatIsTakenAtOnce_damaged :
    registerFull ((beforeLast (openFrame .store)).bus.rx ++ [⟨0, parityGood 0 0⟩]) = true ∧
      receiveFrame ((beforeLast (openFrame .store)).bus.rx ++ [⟨0, parityGood 0 0⟩]) = none ∧
      verdictDue (beforeLast (openFrame .store)) = false := by decide +kernel

theorem test_witness_FrameBeatIsTakenAtOnce_misaddressed :
    receiveFrame (wholly (.head (.withdraw ⟨3, 5, 0, 1⟩))) = some (.head (.withdraw ⟨3, 5, 0, 1⟩)) ∧
      (Head.withdraw ⟨3, 5, 0, 1⟩).addressed online.station.strap 2 = false ∧
      (Head.withdraw ⟨3, 5, 0, 1⟩).source ≠ online.station.strap ∧
      receiveFrame (wholly (.verdict ⟨.accept, 0, 1, none, none⟩)) = some (.verdict ⟨.accept, 0, 1, none, none⟩) := by
  decide +kernel

theorem test_witness_OpenHeadIsAnsweredInOrder :
    Serves (beforeLast (openFrame .store)) (calleeOf false none) ∧
      received (openFrame .store) ++ [⟨lastBeat (openFrame .store),
        parityGood (lastBeat (openFrame .store)) (parityOf (lastBeat (openFrame .store)))⟩] =
          wholly (openFrame .store) ∧
      registerFull (wholly (openFrame .store)) = true ∧
      receiveFrame (wholly (openFrame .store)) = some (.head (.openX (headOf .store))) ∧
      (headOf .store).target = online.station.strap ∧ (headOf .store).source = (calleeOf false none).caller ∧
      (headOf .store).source ≠ online.station.strap ∧ online.serve.service = none ∧ online.serve.reserved = false := by
  refine ⟨⟨rfl, rfl, rfl⟩, ?_⟩
  decide +kernel

def withdrawFrame : Frame := .head (.withdraw ⟨2, 5, 0, 1⟩)

theorem test_witness_OpenHeadIsAnsweredInOrder_withdraw :
    CompletesFrame (beforeLast withdrawFrame) (lastBeat withdrawFrame) (parityOf (lastBeat withdrawFrame))
        (some withdrawFrame) ∧ verdictDue (beforeLast withdrawFrame) = false := by
  unfold CompletesFrame; decide +kernel

/-- The head of a SWAP of station 2. -/
def swapHead : OpenHead := { headOf .swap with ops := some ⟨1, 2⟩ }

theorem test_witness_OpenHeadIsAnsweredInOrder_swap :
    receiveFrame (wholly (.head (.openX swapHead))) = some (.head (.openX swapHead)) ∧
      openMalformed online.station.strap swapHead = false ∧ accessGranted online swapHead = true ∧
      online.serve.swapStage = none ∧ (∀ b, swapMemoOf online b = none) ∧ online.mem.serve = none ∧
      (windowOf online swapHead.window.toNat).isSome = true ∧
      swapMemoOf { online with serve.swapMemo := online.serve.swapMemo.set 2 (some ⟨0, 1, ⟨7, true⟩⟩) } 2 =
        some ⟨swapHead.tag, swapHead.gen, ⟨7, true⟩⟩ ∧
      { online with serve.swapStage := some ⟨3, 0, 1⟩ }.serve.swapStage = some ⟨3, 0, 1⟩ := by decide +kernel

/-- The head of 64 bytes at offset 0x26 of window 0, which stands at 0x1000. -/
def farHead (k : XKind) : OpenHead := { headOf k with offset := 0x26, length := 64 }

/-- The station once that head has been handed. -/
def answered (h : OpenHead) : State :=
  after (.beatLatched (lastBeat (.head (.openX h))) (parityOf (lastBeat (.head (.openX h)))) true)
    (beforeLast (.head (.openX h)))

theorem test_witness_OpenHeadIsAnsweredInOrder_serves :
    ServeReadsNext (beforeLast (.head (.openX (farHead .fetch)))) ∧ (farHead .fetch).length.toNat ≤ (setupOf online).shortFetch ∧
      accessGranted online (farHead .store) = true ∧ openMalformed online.station.strap (farHead .fetch) = false ∧
      receiveFrame (wholly (.head (.openX (farHead .store)))) = some (.head (.openX (farHead .store))) ∧
      receiveFrame (wholly (openFrame .note)) = some (.head (.openX (headOf .note))) ∧
      (∀ q ∈ (beforeLast (openFrame .note)).bus.runs, q.sink ≠ .note) ∧
      (setupOf online).shortFetch < ({ farHead .fetch with length := 100 } : OpenHead).length.toNat ∧
      ({ farHead .store with terms := none } : OpenHead).terms = none ∧ termsOf online 2 = none :=
  ⟨⟨rfl, by decide +kernel, rfl, rfl, nofun⟩, by decide +kernel, by decide +kernel, by decide +kernel, by decide +kernel,
    by decide +kernel, nofun, by decide +kernel, rfl, by decide +kernel⟩

/-- R132, R137 and R139: the run of a STORE and the first read of a short FETCH stand at the window's base plus the offset. -/
theorem test_beatLatched_open_serves_at_the_local_address :
    (answered (farHead .store)).bus.runs = [⟨.store ⟨0x1026, 0, false, true⟩, 64, 0, [], false, none⟩] ∧
      (answered (farHead .fetch)).mem.serve = some ⟨0x1024, 7, .read⟩ ∧
      (answered (farHead .fetch)).serve.service.map Service.work =
        some (.fetch 0x1026 26 0 [] false (some ⟨2, 26⟩)) := by decide +kernel

/-- R141: a NOTE takes its place in the Inbox. -/
theorem test_beatLatched_open_note_takes_its_place :
    (answered (headOf .note)).serve.reserved = true ∧
      (answered (headOf .note)).bus.runs = [⟨.note, 4, 0, [], false, none⟩] := by decide +kernel

theorem test_witness_ResumeIsAnsweredByRule :
    receiveFrame (wholly resumeFrame) = some (.head (.resume ⟨2, 5, 0, 1, false, 0, 4⟩)) ∧
      registerFull (wholly resumeFrame) = true ∧
      slotOf (serving fetchBody (.parked 40000) online) 0 = .live fetchBody (.parked 40000) ∧
      slotOf (serving fetchBody (.withdrawing none) online) 0 = .live fetchBody (.withdrawing none) ∧
      (genOf (serving fetchBody (.parked 40000) online) 0 = 1 ∧ fetchBody.peer = 2 ∧ bodyKind fetchBody = .fetch ∧
        fetchBody.bytesDone = 0 ∧ 0 + 4 ≤ fetchBody.length) ∧
      receiveFrame (wholly (.head (.resume ⟨2, 5, 0, 1, true, 0, 0⟩))) =
        some (.head (.resume ⟨2, 5, 0, 1, true, 0, 0⟩)) ∧ verdictDue (beforeLast resumeFrame) = false := by
  decide +kernel

theorem test_witness_ResumeIsAnsweredByRule_repeat :
    slotOf (serving { fetchBody with bytesDone := 4 } (.parked 7) online) 0 =
        .live { fetchBody with bytesDone := 4 } (.parked 7) ∧
      (4 ≠ 0 ∧ 0 + 4 ≤ fetchBody.length ∧ 0 ≠ 4 ∧ 0 + 4 = 4) ∧
      termsOf { online with terms := online.terms.set 2 (some 4) } 2 ≠ none ∧ termsOf online 2 = none ∧
      (serving fetchBody (.parked 7) online).bus.runs = [] := by decide +kernel

theorem test_witness_ResumeIsAnsweredByRule_gone :
    slotOf online 0 = .free ∧ slotOf (withReport 3) 0 = .reported storeBody .ok ∧
      slotOf (serving fetchBody (.held 3) online) 0 = .live fetchBody (.held 3) := by decide +kernel

theorem test_witness_TakeMovesWhatIsSent :
    (∃ c, CallsOn { storeRun with bus.count := 1 } c) ∧ verdictDue storeRun = false ∧
      { storeRun with bus.count := 1 }.bus.run = some ⟨true, 4, 0, 0⟩ ∧ storeRun.bus.tx = none ∧
      { storeRun with bus.count := 1 }.bus.count ≠ 0 ∧ 0 + 1 < (4 + 1) / 2 ∧ storeRun.bus.count = 0 ∧
      { storeDone with bus.tx := some ⟨.head (.probe 5 5), [1]⟩ }.bus.tx = some ⟨.head (.probe 5 5), 1 :: []⟩ := by
  refine ⟨⟨_, rfl, rfl, rfl⟩, ?_⟩
  decide +kernel

theorem test_witness_TakeMovesWhatIsSent_after_the_run :
    (∃ c, CallsOn storeDone c ∧ c.sent = some (.openX (ownHead .store)) ∧ c.point = .second) ∧
      (∃ c r, CallsOn (resuming (.readyData 1024) none) c ∧ c.sent = some (.resume r) ∧ c.point = .second) ∧
      storeDone.bus.tx = none ∧ storeDone.bus.run = none :=
  ⟨⟨_, ⟨rfl, rfl, rfl⟩, rfl, rfl⟩, ⟨_, _, ⟨rfl, rfl, rfl⟩, rfl, rfl⟩, rfl, rfl⟩

/-- The callee of a short FETCH of 4 bytes, its run begun and no beat outstanding. -/
def sendingFetch : State :=
  { servingOpen .fetch (.fetch 0x1000 4 4 [] false none) online with bus.run := some ⟨true, 4, 0, 0⟩ }

theorem test_witness_TakeMovesWhatIsSent_callee :
    sendingFetch.bus.tenure = .callee (calleeOf true (some .serve)) ∧ verdictDue sendingFetch = false ∧
      sendingFetch.bus.tx = none ∧ sendingFetch.bus.run = some ⟨true, 4, 0, 0⟩ ∧ sendingFetch.bus.count = 0 := by
  decide +kernel

/-- The TAKE of the last beat of a run of 4 bytes that is sent: of a STORE and of a chunk at their callers, of a short FETCH at
its callee. -/
theorem test_witness_TakeMovesWhatIsSent_last_beat :
    { storeRun with bus.run := some ⟨true, 4, 2, 1⟩, bus.count := 1 }.bus.run = some ⟨true, 4, 2, 1⟩ ∧
      1 + 1 = (4 + 1) / 2 ∧
      { resuming (.readyData 1024) none with bus.run := some ⟨true, 4, 2, 1⟩, bus.count := 1 }.bus.count ≠ 0 ∧
      slotOf storeRun 0 = .live storeBody (.connOpen false { OpenRecord.fresh with proceedTaken := true }) ∧
      Serves { sendingFetch with bus.run := some ⟨true, 4, 2, 1⟩, bus.count := 1 } (calleeOf true (some .serve)) ∧
      verdictDue { sendingFetch with bus.run := some ⟨true, 4, 2, 1⟩, bus.count := 1 } = false ∧
      sendingFetch.serve.service = some ⟨headOf .fetch, none, false, .fetch 0x1000 4 4 [] false none⟩ :=
  ⟨rfl, rfl, nofun, by decide +kernel, ⟨rfl, rfl, rfl⟩, by decide +kernel, rfl⟩

/-- R107 and R139: bytes done of the STORE, and the DONE(OK) of the FETCH. -/
theorem test_takeSeen_last_beat_ends_the_run :
    slotOf (after .takeSeen { storeRun with bus.run := some ⟨true, 4, 2, 1⟩, bus.count := 1 }) 0 =
        .live { storeBody with bytesDone := 4 }
          (.connOpen false { OpenRecord.fresh with proceedTaken := true, bytesTaken := 4 }) ∧
      (after .takeSeen { sendingFetch with bus.run := some ⟨true, 4, 2, 1⟩, bus.count := 1 }).bus.tx.map TxFrame.frame =
        some (.verdict ⟨.done .ok, 0, 1, none, none⟩) := by decide +kernel

/-- The callee of a short FETCH of 8 bytes whose read has met a FAULT, with these bytes placed and not yet strobed, and this
many beats outstanding. -/
def faultedFetch (bytes : List Byte) (count : Nat) : State :=
  { called (calleeOf true (some .serve)) online with
    serve.service := some ⟨{ headOf .fetch with length := 8 }, none, false, .fetch 0x1000 8 4 [] true none⟩
    bus.outbound := bytes, bus.run := some ⟨true, 8, count, 0⟩, bus.count := count }

/-- PROCEED being sent by that callee, its last beat strobed. -/
def faultedProceed (bytes : List Byte) : State :=
  { faultedFetch bytes 1 with bus.run := none, bus.tx := some ⟨.verdict ⟨.proceed, 0, 1, none, none⟩, []⟩ }

theorem test_witness_TakeMovesWhatIsSent_faulted :
    Serves (faultedFetch [7] 1) (calleeOf true (some .serve)) ∧
      FaultedRunSpent (faultedFetch [7] 1) ⟨{ headOf .fetch with length := 8 }, none, false, .fetch 0x1000 8 4 [] true none⟩ ∧
      (faultedFetch [7] 1).bus.run = some ⟨true, 8, 1, 0⟩ ∧ 0 + 1 < (8 + 1) / 2 ∧
      verdictDue (faultedFetch [1, 2] 1) = true ∧ FaultedRunGoesOn (faultedFetch [1, 2] 1) :=
  ⟨⟨rfl, rfl, rfl⟩, ⟨rfl, rfl, _, _, _, _, rfl, by decide, .inl rfl⟩, rfl, by decide, by decide +kernel,
    ⟨_, _, _, _, _, rfl, rfl, by decide⟩⟩

/-- R139: the run goes on while bytes placed are left, and ends with DONE(MEMORY). -/
theorem test_takeSeen_ends_the_faulted_run :
    (after .takeSeen (faultedFetch [1, 2] 1)).bus.run = some ⟨true, 8, 1, 1⟩ ∧
      (after .takeSeen (faultedFetch [7] 1)).bus.tx.map TxFrame.frame =
        some (.verdict ⟨.done .memory, 0, 1, none, none⟩) := by decide +kernel

theorem test_witness_LastBeatTakenEndsTheFrame_faulted :
    Serves (faultedProceed []) (calleeOf true (some .serve)) ∧
      FaultedRunSpent (faultedProceed []) ⟨{ headOf .fetch with length := 8 }, none, false, .fetch 0x1000 8 4 [] true none⟩ ∧
      FaultedRunGoesOn (faultedProceed [1, 2]) :=
  ⟨⟨rfl, rfl, rfl⟩, ⟨rfl, rfl, _, _, _, _, rfl, by decide, .inl rfl⟩, ⟨_, _, _, _, _, rfl, rfl, by decide⟩⟩

/-- The callee strobes the bytes placed before the FAULT too. -/
theorem test_witness_DataBeatIsStrobed_faulted :
    verdictDue { faultedFetch [1, 2] 0 with bus.run := some ⟨true, 8, 0, 0⟩ } = true ∧ FetchFaulted (faultedFetch [1, 2] 0) ∧
      (faultedFetch [1, 2] 0).bus.outbound = 1 :: 2 :: [] ∧ 0 < (8 + 1) / 2 ∧
      (faultedFetch [1, 2] 0).bus.count < paceWindow (faultedFetch [1, 2] 0) (otherParty (faultedFetch [1, 2] 0)) ∧
      (after .strobeBeat (faultedFetch [1, 2] 0)).bus.drive.d = 0x0201 :=
  ⟨by decide +kernel, ⟨_, _, _, _, _, rfl, rfl⟩, rfl, by decide, by decide +kernel, by decide +kernel⟩

/-- Sending the last beat of a SWAP's head. -/
def sendingSwapHead : State :=
  { connected (.launch 0) .head (.openX (ownHead .swap)) (serving swapBody (.connOpen true OpenRecord.fresh) online) with
    bus.tx := some ⟨.head (.openX (ownHead .swap)), []⟩ }

theorem test_witness_LastBeatTakenEndsTheFrame :
    (∃ c, CallsOn sendingSwapHead c ∧ c.sent = some (.openX (ownHead .swap))) ∧
      Serves sendingPark (calleeOf true (some .serve)) :=
  ⟨⟨_, ⟨rfl, rfl, rfl⟩, rfl⟩, rfl, rfl, rfl⟩

theorem test_witness_LastBeatTakenEndsTheFrame_fields :
    slotOf sendingSwapHead 0 = .live swapBody (.connOpen true OpenRecord.fresh) ∧ sendingSwapHead.bus.runs = [] ∧
      sendingPark.bus.tx = some ⟨.verdict ⟨.park, 0, 1, none, none⟩, []⟩ ∧
      sendingPark.serve.service = some ⟨headOf .fetch, none, false, .park⟩ ∧
      verdictDue (servingOpen .store (.store 0 0 false false false) online) = false ∧
      (servingOpen .fetch (.fetch 0x1000 0 0 [] false none) online).serve.service =
        some ⟨headOf .fetch, none, false, .fetch 0x1000 0 0 [] false none⟩ := by decide +kernel

/-- The requester sends the last beat of its PROCEED for a chunk. -/
def sendingChunkProceed : State :=
  { resumed fetchBody freshChunk with bus.tx := some ⟨.verdict ⟨.proceed, 0, 1, none, none⟩, []⟩ }

theorem test_witness_LastBeatTakenEndsTheFrame_chunk :
    Serves sendingChunkProceed (calleeOf true (some (.launch (some 0)))) ∧
      slotOf sendingChunkProceed 0 = .live fetchBody (.connResume 9 freshChunk) ∧
      verdictDue sendingChunkProceed = false ∧ (after .takeSeen sendingChunkProceed).bus.run = some ⟨false, 4, 0, 0⟩ := by
  refine ⟨⟨rfl, rfl, rfl⟩, ?_⟩
  decide +kernel

/-- At the callee of an OPEN, and of a RESUME. -/
theorem test_witness_LastBeatTakenEndsTheFrame_cleared (owner : Option Owner) :
    (sendingCleared owner online).bus.tenure = .callee { calleeOf true owner with clearing := true } ∧
      (sendingCleared owner online).bus.tx = some ⟨.verdict ⟨.cleared, 0, 1, none, none⟩, []⟩ ∧
      slotOf (sendingCleared (some (.launch (some 0))) (resumed fetchBody freshChunk)) 0 =
        .live fetchBody (.connResume 9 freshChunk) :=
  ⟨rfl, rfl, by decide +kernel⟩

theorem test_witness_LastBeatTakenEndsTheFrame_fill :
    sendingPark.serve.parkQueue = [] ∧ sendingPark.serve.fill = none ∧
      windowOf sendingPark (headOf .fetch).window.toNat =
        some ⟨0x1000, 0x1000, 0xFFFF, 0xFFFF, 0xFFFF, 0xFFFF⟩ ∧
      sendingPark.mem.serve = none ∧ sendingPark.bus.runs = [] ∧ 0 < min 1024 (headOf .fetch).length.toNat := by
  decide +kernel

theorem test_witness_CapturedBeatIsTaken :
    (receivingRun 2 1).bus.run = some ⟨false, 5, 2, 1⟩ ∧ (receivingRun 2 1).bus.capture = ⟨0, true⟩ :: [] ∧
      2 ≤ room (receivingRun 2 1) ∧ 1 + 1 < (5 + 1) / 2 ∧ (receivingRun 3 1).bus.run = some ⟨false, 5, 3, 2⟩ ∧
      2 + 1 = (5 + 1) / 2 ∧
      room { receivingRun 2 1 with bus.outbound := List.replicate 511 0 } < 2 := by decide +kernel

/-- A received run of 4 bytes whose last beat has been captured. -/
def lastCaptured (sink : Sink) (s : State) : State :=
  { s with
    bus.run := some ⟨false, 4, 2, 1⟩
    bus.capture := [⟨0x0A09, true⟩]
    bus.count := 1
    bus.runs := [⟨sink, 4, 2, [], false, none⟩] }

def storeAlmost : State :=
  lastCaptured (.store ⟨0x1000, 2, false, true⟩) (servingOpen .store (.store 2 2 false false false) online)

theorem test_witness_CapturedBeatIsTaken_store :
    Serves storeAlmost (calleeOf true (some .serve)) ∧
      storeAlmost.serve.service = some ⟨headOf .store, none, false, .store 2 2 false false false⟩ ∧
      storeAlmost.bus.runs = [] ++ [⟨.store ⟨0x1000, 2, false, true⟩, 4, 2, [], false, none⟩] ∧
      2 ≤ room storeAlmost ∧ 1 + 1 = (4 + 1) / 2 := by
  refine ⟨⟨rfl, rfl, rfl⟩, ?_⟩
  decide +kernel

/-- That STORE with this time left on its stall timer and a write of its run still to be made. -/
def storeAlmostWaits (left : Time) : State :=
  { storeAlmost with
    bus.stallTimer := some left
    bus.runs := [⟨.store ⟨0x1000, 2, false, true⟩, 4, 2, [1, 2], false, none⟩] }

theorem test_witness_CapturedBeatIsTaken_store_waits :
    Serves (storeAlmostWaits 1) (calleeOf true (some .serve)) ∧ (storeAlmostWaits 1).bus.tx = none ∧
      (∃ q ∈ (storeAlmostWaits 1).bus.runs, isServingStore q = true ∧ Holding q) ∧
      (storeAlmostWaits 1).serve.service = some ⟨headOf .store, none, false, .store 2 2 false false false⟩ ∧
      2 ≤ room (storeAlmostWaits 1) :=
  ⟨⟨rfl, rfl, rfl⟩, rfl, ⟨_, .head _, rfl, rfl, .inl nofun⟩, rfl, by decide +kernel⟩

/-- R15 and R35: the turn is the callee's while it waits for its writes, and no stall timer runs. -/
theorem test_takeDataBeat_stops_the_stall_timer :
    (after .takeDataBeat (storeAlmostWaits 1)).bus.stallTimer = none ∧
      (after .takeDataBeat (storeAlmostWaits 1)).serve.verdictTimer = some verdictTime := by decide +kernel

theorem test_witness_CapturedBeatIsTaken_chunk :
    Serves (lastCaptured .dropped (resumed fetchBody freshChunk)) (calleeOf true (some (.launch (some 0)))) ∧
      slotOf (lastCaptured .dropped (resumed fetchBody freshChunk)) 0 = .live fetchBody (.connResume 9 freshChunk) ∧
      freshChunk.ended = false ∧ verdictDue (lastCaptured .dropped (resumed fetchBody freshChunk)) = false ∧
      2 ≤ room (lastCaptured .dropped (resumed fetchBody freshChunk)) := by
  refine ⟨⟨rfl, rfl, rfl⟩, ?_⟩
  decide +kernel

/-- A run of a STORE of 128 bytes at 0x1000 with its first `2 * beats` bytes taken, none written, and a beat captured. -/
def storeArriving (beats : Nat) : State :=
  { servingOpen .store (.store (2 * beats) 0 false false false) online with
    bus.run := some ⟨false, 128, beats + 1, beats⟩
    bus.capture := [⟨0x0A09, true⟩]
    bus.count := 1
    bus.runs := [⟨.store ⟨0x1000, 0, false, true⟩, 128, 2 * beats, List.replicate (2 * beats) 7, false, none⟩] }

/-- A FETCH of 4 bytes with 2 bytes written and the last beat captured. -/
def fetchAlmost : State :=
  lastCaptured (.mover ⟨0, [⟨0x2000, 4⟩], none, 2, 2, false, false, true, true⟩)
    (connected (.launch 0) .running (.openX (ownHead .fetch))
      (serving fetchBody (.connOpen false { OpenRecord.fresh with proceedTaken := true }) online))

/-- The block is whole with this beat, is not whole yet, or the run ends with it. -/
theorem test_witness_CapturedBeatIsTaken_write :
    WriteReady ⟨.store ⟨0x1000, 0, false, true⟩, 128, 64, List.replicate 62 7 ++ [9, 10], false, none⟩ .serve 0x1000 64 ∧
      (∀ a m, ¬ WriteReady ⟨.store ⟨0x1000, 0, false, true⟩, 128, 62, List.replicate 60 7 ++ [9, 10], false, none⟩
        .serve a m) ∧
      WriteReady ⟨.mover ⟨0, [⟨0x2000, 4⟩], none, 2, 2, false, false, true, true⟩, 4, 4, [9, 10], true, none⟩ .mover
        0x2002 2 ∧
      NoSwapGoesAhead (storeArriving 31) (storeArriving 31).bus.runs ∧ txnOf (storeArriving 31) .serve = none ∧
      txnOf fetchAlmost .mover = none ∧ (storeArriving 31).bus.tenure ≠ .none ∧ fetchAlmost.bus.tenure ≠ .none ∧
      2 ≤ room (storeArriving 31) ∧ 2 ≤ room fetchAlmost := by
  refine ⟨⟨rfl, rfl, rfl, by decide, fun j h => ?_, nofun⟩, fun a m h => ?_, ⟨rfl, rfl, rfl, by decide, nofun, fun i h => ?_⟩,
    fun v addr ops hv hw => ?_, rfl, rfl, nofun, nofun, by decide +kernel, by decide +kernel⟩
  · cases h; exact ⟨rfl, by decide⟩
  · obtain ⟨rfl, e⟩ := h.2.2.2.2.1 _ rfl
    exact h.2.2.2.1 (e.trans (by decide))
  · cases h; exact ⟨2, by decide, by decide⟩
  · cases hv; cases hw

/-- R137, R101 and R174: the whole block is written at once, what the end of a run has left as it is. -/
theorem test_takeDataBeat_presents_the_write :
    (after .takeDataBeat (storeArriving 31)).mem.serve =
        some ⟨0x1000, 16, .write (List.replicate 62 (some 7) ++ [some 9, some 10])⟩ ∧
      (after .takeDataBeat (storeArriving 30)).mem.serve = none ∧
      (after .takeDataBeat fetchAlmost).mem.mover = some ⟨0x2000, 1, .write [none, none, some 9, some 10]⟩ := by
  decide +kernel

theorem test_witness_NoteRunEndsInTheInbox :
    Serves (noteAlmost true) (calleeOf true (some .serve)) ∧
      (noteAlmost true).serve.service = some ⟨headOf .note, none, false, .note true false false [7, 8]⟩ ∧
      (noteAlmost true).bus.run = some ⟨false, 4, 2, 1⟩ ∧ (noteAlmost true).bus.capture = ⟨0x0A09, true⟩ :: [] ∧
      1 + 1 = (4 + 1) / 2 ∧ 2 ≤ room (noteAlmost true) ∧ (noteAlmost false).bus.capture = ⟨0x0A09, false⟩ :: [] := by
  refine ⟨⟨rfl, rfl, rfl⟩, ?_⟩
  decide +kernel

theorem test_witness_FrameBeatIsTakenAtOnce_caller_run :
    (∃ c, CallsOn (receivingRun 2 0) c ∧ c.grantee = .launch 0) ∧ (receivingRun 2 0).bus.rx = [] ∧
      (receivingRun 2 0).bus.run = some ⟨false, 5, 2, 2⟩ ∧
      slotOf (receivingRun 2 0) 0 = .live fetchBody (.connOpen false { OpenRecord.fresh with proceedTaken := true }) :=
  ⟨⟨_, ⟨rfl, rfl, rfl⟩, rfl⟩, rfl, rfl, rfl⟩

/-- With all but the last beat of a frame received. -/
def interrupted (s : State) : State := { s with bus.rx := received (openFrame .store) }

theorem test_witness_FrameBeatIsTakenAtOnce_register :
    registerFull (received (openFrame .store) ++ [⟨lastBeat (openFrame .store), true⟩]) = true ∧
      registerFull ([] ++ [⟨0x1780, true⟩]) = false ∧ received (openFrame .store) ≠ [] := by decide

theorem test_witness_FrameBeatIsTakenAtOnce_store :
    Serves (interrupted storeAlmost) (calleeOf true (some .serve)) ∧ verdictDue (interrupted storeAlmost) = false ∧
      (interrupted storeAlmost).bus.run = some ⟨false, 4, 2, 1⟩ ∧
      (∀ q ∈ (interrupted storeAlmost).bus.runs, isServingStore q = true → q.bytes = [] ∧ q.flight = none) ∧
      (∃ q ∈ [InRun.mk (.store ⟨0x1000, 2, false, true⟩) 4 2 [1] false none], isServingStore q = true ∧
        discards q.sink = false ∧ (q.bytes ≠ [] ∨ q.flight ≠ none)) := by
  refine ⟨⟨rfl, rfl, rfl⟩, ?_⟩
  decide +kernel

theorem test_witness_FrameBeatIsTakenAtOnce_note_and_chunk :
    Serves (interrupted (noteAlmost true)) (calleeOf true (some .serve)) ∧
      Serves (interrupted (lastCaptured .dropped (resumed fetchBody freshChunk))) (calleeOf true (some (.launch (some 0)))) ∧
      verdictDue (interrupted (noteAlmost true)) = false ∧
      verdictDue (interrupted (lastCaptured .dropped (resumed fetchBody freshChunk))) = false ∧
      (interrupted (noteAlmost true)).bus.run = some ⟨false, 4, 2, 1⟩ :=
  ⟨⟨rfl, rfl, rfl⟩, ⟨rfl, rfl, rfl⟩, by decide +kernel, by decide +kernel, rfl⟩

/-- R37, R138: a frame received whole in the run of a STORE. -/
theorem test_beatLatched_frame_cuts_a_run :
    (after (.beatLatched (lastBeat (openFrame .store)) (parityOf (lastBeat (openFrame .store))) true)
      (interrupted storeAlmost)).bus.tx.map TxFrame.frame = some (.verdict ⟨.done .check, 0, 1, none, none⟩) := by
  decide +kernel

theorem test_witness_DataBeatIsStrobed :
    storeRun.bus.run = some ⟨true, 4, 0, 0⟩ ∧ storeRun.bus.tx = none ∧ verdictDue storeRun = false ∧
      storeRun.bus.count < paceWindow storeRun (otherParty storeRun) ∧ storeRun.bus.outbound = 1 :: 2 :: [3, 4] ∧
      paceWindow storeRun (otherParty storeRun) ≤ { storeRun with bus.count := 1 }.bus.count ∧
      { storeRun with bus.outbound := [] }.bus.outbound = [] := by decide +kernel

theorem test_witness_DataBeatIsStrobed_one_byte_stands :
    { storeRun with bus.outbound := [1] }.bus.outbound.length <
        (if 0 + 1 = (4 + 1) / 2 ∧ 4 % 2 = 1 then 1 else 2) ∧
      ¬ (4 + 1) / 2 ≤ 0 ∧ storeRun.bus.count = 0 := by decide

theorem test_witness_BusResetEndsEveryTenure :
    beforeBusReset.bus.bresetDetect ≠ none ∧
      slotOf beforeBusReset 1 = .live { storeBody with acc := 1 } .queued ∧
      slotOf beforeBusReset 0 = .live (bodyOf (.swap ⟨1, 2⟩ true false none)) (.connOpen false OpenRecord.fresh) ∧
      { beforeBusReset with station.state := .joining .calling }.station.state = .joining .calling := by
  decide +kernel

/-- A bus reset comes while a caller has had 1 of the 2 beats of its STORE taken. -/
theorem test_witness_BusResetEndsEveryTenure_cut :
    ({ storeRun with bus.run := some ⟨true, 4, 2, 1⟩, bus.bresetDetect := some 0 } : State).bus.run = some ⟨true, 4, 2, 1⟩ ∧
      slotOf storeRun 0 = .live storeBody (.connOpen false { OpenRecord.fresh with proceedTaken := true }) ∧
      slotOf (after .bresetDetectTimerExpiry
        { storeRun with bus.run := some ⟨true, 4, 2, 1⟩, bus.bresetDetect := some 0 }) 0 =
          .reported { storeBody with bytesDone := 2 } .busReset := by decide +kernel

theorem test_witness_BusResetEndsEveryTenure_status :
    ResetStatusIs swapBody (.connOpen false OpenRecord.fresh) .busReset ∧ ResetStatusIs fetchBody (.parked 0) .busReset ∧
      ResetStatusIs fetchBody (.connOpen false { OpenRecord.fresh with localFault := true }) .localFault := by
  simp [ResetStatusIs, OpenRecord.fresh]

theorem test_witness_BresetLineFollowsItsTimers :
    online.bus.bresetSeen = false ∧ beforeBusReset.bus.bresetSeen = true ∧ online.bus.drive.breset = false ∧
      online.bus.view ≠ .reset ∧ { online with bus.view := .reset }.bus.view = .reset ∧
      { online with bus.bresetDrive := some 0 }.bus.bresetDrive ≠ none ∧
      { online with port.urgent := .occupied 2 0 }.port.urgent = .occupied 2 0 ∧
      BitVec.extractLsb' 0 4 (2 : Word) = 2#4 ∧ online.station.state = .online ∧
      State.reset.station.state ≠ .online ∧ State.reset.station.state ≠ .draining ∧
      BitVec.extractLsb' 0 4 (0 : Word) ≠ 1#4 ∧ BitVec.extractLsb' 0 4 (15 : Word) ≠ 2#4 := by decide +kernel

theorem test_witness_LowestFree :
    LowestFree online 0 ∧ LowestFree (queued storeBody online) 1 := by
  refine ⟨⟨by decide +kernel, fun v hv => absurd hv (Nat.not_lt_zero _)⟩, by decide +kernel, fun v hv => ?_⟩
  have : v = 0 := BitVec.eq_of_toNat_eq (Nat.lt_one_iff.mp hv)
  subst this
  decide +kernel

theorem test_witness_DataOrderCompletesAtIntake :
    online.launch.intake = none ∧ (waiting storeOrder online).port.fifo = storeOrder :: [] ∧
      orderKind fetchOrder = .data .fetch ∧ orderKind storeOrder = .data .store ∧ orderKind noteOrder = .data .note ∧
      orderKind swapOrder = .data .swap ∧ State.reset.station.state ≠ .online ∧ online.station.state = .online := by
  decide +kernel

theorem test_witness_DataOrderCompletesAtIntake_malformed :
    DataOrderMalformed 5 .store { storeOrder with w2 := 4097 } ∧ DataOrderMalformed 2 .store storeOrder ∧
      DataOrderMalformed 5 .swap { swapOrder with w1 := 2 } := by
  simp [DataOrderMalformed, storeOrder, swapOrder, orderWith, Order.length, Order.peer, Order.offset]

theorem test_witness_DataOrderEntersService :
    ¬ DataOrderMalformed 5 .store storeOrder ∧ ¬ DataOrderMalformed 5 .swap swapOrder ∧
      ¬ DataOrderMalformed 5 .note { noteOrder with w2 := 64 } ∧ online.mem.lister = none := by
  simp [DataOrderMalformed, storeOrder, swapOrder, noteOrder, orderWith, Order.length, Order.peer, Order.offset,
    Order.window, Order.segCount, Order.listAddr]
  decide

/-- Every entry is in service. -/
def allTaken : State := { online with launch.entries := Vector.replicate 32 ⟨1, .live storeBody .queued⟩ }

theorem test_witness_DataOrderEntersService_full : ∀ v, slotOf allTaken v ≠ .free := by decide +kernel

theorem test_witness_ControlOrdersAreAnswered :
    orderKind (bareOrder 8) = .setup ∧ orderKind (bareOrder 9) = .join ∧ orderKind (bareOrder 10) = .leave ∧
      orderKind (bareOrder 0) = .unassigned ∧ orderKind (bareOrder 15) = .unassigned ∧
      (waiting (bareOrder 8) online).port.fifo = bareOrder 8 :: [] := by decide +kernel

theorem test_witness_GatherListEndsTheIntake :
    lastListRead.mem.granted = some .lister ∧ lastListRead.mem.lister = some ⟨0x3000, 2, .read⟩ ∧
      completionFits ⟨0x3000, 2, .read⟩ (.ok listBytes) = true ∧
      lastListRead.launch.intake = some (.gather .store storeOrder ⟨0x3000, 8, 8, [], false, some ⟨0, 8⟩⟩) ∧
      lastListRead.port.fifo = storeOrder :: [] ∧ 8 ≤ ([] ++ (Span.mk 0 8).slice listBytes).length ∧
      listSegments storeOrder.segCount ([] ++ (Span.mk 0 8).slice listBytes) = [⟨0x2000, 4⟩] ∧
      storeOrder.length = 4 := by decide +kernel

/-- The image of one undefined window, with every default. -/
def imageScalars : List Byte :=
  List.flatten (List.replicate 5 [0, 0, 0, 0x80]) ++ [1, 0, 0, 0]

/-- The last read of a setup image is granted. -/
def lastImageRead : State :=
  { waiting { bareOrder 8 with w1 := 0x4000 } State.reset with
    launch.intake := some (.setupWindows imageScalars ⟨0x4018, 20, 20, [], false, some ⟨0, 20⟩⟩)
    mem := { online.mem with granted := some .lister, lister := some ⟨0x4018, 5, .read⟩ } }

theorem test_witness_SetupImageReplacesTheRecord :
    lastImageRead.launch.intake = some (.setupWindows imageScalars ⟨0x4018, 20, 20, [], false, some ⟨0, 20⟩⟩) ∧
      completionFits ⟨0x4018, 5, .read⟩ (.ok (List.replicate 20 0)) = true ∧
      20 ≤ ([] ++ (Span.mk 0 20).slice (List.replicate 20 0)).length ∧
      setupOfImage imageScalars (List.replicate 20 0) = some ⟨1, 20, 3, 8, 64, [none]⟩ := by decide +kernel

/-- A read of the scalar words of the setup image at `base` is granted: `words` of them, `issued` bytes in all. -/
def scalarRead (base : Word) (words issued : Nat) : State :=
  { lastImageRead with
    launch.intake := some (.setupScalars base ⟨base, 24, issued, [], false, some ⟨0, 4 * words⟩⟩)
    mem := { online.mem with granted := some .lister, lister := some ⟨base, words, .read⟩ } }

theorem test_witness_SetupImageReplacesTheRecord_scalars :
    Completes (scalarRead 0x4000 6 24) .lister (.ok imageScalars) ∧ Completes (scalarRead 0x4000 6 24) .lister .fault ∧
      Completes (scalarRead 0x4038 2 8) .lister .fault ∧
      (wordAt (imageScalars.set 20 8) 5).extractLsb' 0 4 = 8 ∧ (wordAt imageScalars 5).extractLsb' 0 4 = 1 ∧
      (wordAt (imageScalars.set 20 9) 5).extractLsb' 0 4 = 9 ∧ (wordAt (imageScalars.set 20 0) 5).extractLsb' 0 4 = 0 :=
  ⟨⟨_, rfl, rfl, rfl, by decide⟩, ⟨_, rfl, rfl, rfl, rfl⟩, ⟨_, rfl, rfl, rfl, rfl⟩, by decide, by decide, by decide, by decide⟩

/-- R183: a FAULT in the scalar words ends the read at the end of that part. -/
theorem test_memoryTransactionComplete_fault_in_the_scalars :
    (after (.memoryTransactionComplete .fault) (scalarRead 0x4038 2 8)).mem.lister = some ⟨0x4040, 4, .read⟩ := by
  decide +kernel

/-- A read of the window words is granted, the first of two. -/
def windowRead : State :=
  { lastImageRead with
    launch.intake := some (.setupWindows imageScalars ⟨0x4038, 20, 8, [], false, some ⟨0, 8⟩⟩)
    mem := { online.mem with granted := some .lister, lister := some ⟨0x4038, 2, .read⟩ } }

theorem test_witness_SetupImageReplacesTheRecord_windows :
    Completes windowRead .lister .fault ∧ Completes windowRead .lister (.ok (List.replicate 8 0)) ∧ 8 < 20 ∧
      Completes lastImageRead .lister .fault :=
  ⟨⟨_, rfl, rfl, rfl, rfl⟩, ⟨_, rfl, rfl, rfl, by decide⟩, by decide, ⟨_, rfl, rfl, rfl, rfl⟩⟩

/-- R59: so does a FAULT in the window words. -/
theorem test_memoryTransactionComplete_fault_in_the_windows :
    (after (.memoryTransactionComplete .fault) windowRead).mem.lister = some ⟨0x4040, 3, .read⟩ := by decide +kernel

theorem test_witness_CancelActsByState :
    { online with port.urgent := .occupied 1 32 }.port.urgent = .occupied 1 32 ∧
      BitVec.extractLsb' 0 4 (1 : Word) = 1#4 ∧ 31 < (BitVec.extractLsb' 0 8 (32 : Word)).toNat ∧
      (BitVec.extractLsb' 0 8 (31 : Word)).toNat = (31 : Tag).toNat ∧
      slotOf (serving storeBody (.held 0) online) 0 = .live storeBody (.held 0) ∧
      slotOf (serving fetchBody (.connResume 9 (freshResume ⟨2, 5, 0, 1, false, 0, 4⟩ false .proceed none)) online) 0 =
        .live fetchBody (.connResume 9 (freshResume ⟨2, 5, 0, 1, false, 0, 4⟩ false .proceed none)) ∧
      slotOf online 31 = .free := by decide +kernel

/-- The order that cancels tag 0. -/
def cancelling (s : State) : State := { s with port.urgent := .occupied 1 0 }

/-- A STORE whose DONE has been taken, before its tenure closes. -/
def storeFinished : State :=
  { storeDone with bus.tenure := .caller ⟨.launch 0, 2, true, true, .second, some (.openX (ownHead .store))⟩ }

/-- A FETCH after its tenure, while bytes of its run are still to be written. -/
def fetchDraining : State :=
  { fetched [1, 2] with
    bus.tenure := .none, bus.stallTimer := none, bus.drive.busy := false
    launch.entries := (serving { fetchBody with bytesDone := 4 }
      (.connOpen false { fetchedRecord with ended := true }) online).launch.entries }

/-- An OPEN tenure with its course unfinished, one with its course finished, one with INTERJECT asserted, and an entry that waits
for its drain. -/
theorem test_witness_CancelActsByState_connected :
    (∃ c, CallsOn (cancelling storeRun) c ∧ c.grantee = .launch 0 ∧ c.finished = false) ∧
      slotOf (cancelling storeRun) 0 = .live storeBody (.connOpen false { OpenRecord.fresh with proceedTaken := true }) ∧
      (∃ c, CallsOn (cancelling storeFinished) c ∧ c.grantee = .launch 0 ∧ c.finished = true) ∧
      slotOf (cancelling storeFinished) 0 =
        .live storeBody (.connOpen false { OpenRecord.fresh with outcome := some .ok, proceedTaken := true }) ∧
      ((interjected storeRun).bus.drive.interject = true ∧
        (interjected storeRun).bus.tenure =
          .caller ⟨.launch 0, 2, true, false, .running, some (.openX (ownHead .store))⟩) ∧
      slotOf (cancelling fetchDraining) 0 =
        .live { fetchBody with bytesDone := 4 } (.connOpen false { fetchedRecord with ended := true }) ∧
      (∀ c, (cancelling fetchDraining).bus.tenure ≠ .caller c) ∧ HoldsBytes (cancelling fetchDraining) 0 := by
  refine ⟨⟨_, ⟨rfl, rfl, rfl⟩, rfl, rfl⟩, by decide +kernel, ⟨_, ⟨rfl, rfl, rfl⟩, rfl, rfl⟩, by decide +kernel, ⟨rfl, rfl⟩,
    by decide +kernel, nofun, ?_⟩
  unfold HoldsBytes Holding
  decide +kernel

/-- R150: every one of them takes the mark. -/
theorem test_cancel_marks_a_connected_open :
    [storeRun, storeFinished, interjected storeRun, fetchDraining].map
      (fun s => (liveOf (after .cancel (cancelling s)) 0).map fun x => x.1.cancel) =
      [some true, some true, some true, some true] := by decide +kernel

theorem test_witness_ExchangeTimersExpire :
    slotOf (serving storeBody (.withdrawing (some 0)) online) 0 = .live storeBody (.withdrawing (some 0)) ∧
      { servingOpen .swap (.swap 0x1000 ⟨1, 2⟩ true) online with serve.verdictTimer := some 0 }.serve.verdictTimer ≠ none ∧
      (servingOpen .store (.store 4 0 false true true) online).serve.service =
        some ⟨headOf .store, none, false, .store 4 0 false true true⟩ := by decide +kernel

/-- The verdict timer of a SWAP whose pair is issued, granted or not. -/
theorem test_witness_ExchangeTimersExpire_pair :
    Serves pairGranted (calleeOf true (some .serve)) ∧ (Txn.mk 0x1000 1 (.pair 1 2)).isPair = true ∧
      pairGranted.mem.serve = some ⟨0x1000, 1, .pair 1 2⟩ ∧ pairGranted.mem.granted = some .serve ∧
      { pairGranted with mem.granted := some .mover }.mem.granted ≠ some .serve ∧
      (servingOpen .swap (.swap 0x1000 ⟨1, 2⟩ false) online).serve.service =
        some ⟨headOf .swap, none, false, .swap 0x1000 ⟨1, 2⟩ false⟩ :=
  ⟨⟨rfl, rfl, rfl⟩, rfl, rfl, rfl, nofun, rfl⟩

/-- The data mover and the List Reader wait while the Serve Engine holds the port. -/
def allPresent : State :=
  { online with
    mem := ⟨.mover, false, some .serve, some ⟨0, 1, .read⟩, some ⟨4, 1, .read⟩, some ⟨8, 1, .read⟩⟩ }

theorem test_witness_CompletionGrantsTheNext :
    allPresent.mem.granted = some .serve ∧ txnOf allPresent .serve = some ⟨0, 1, .read⟩ ∧
      completionFits ⟨0, 1, .read⟩ (.ok [1, 2, 3, 4]) = true ∧
      (cycleFrom allPresent.mem.pointer).find? (fun e => e != .serve && (txnOf allPresent e).isSome) = some .mover ∧
      txnOf allPresent .mover = some ⟨4, 1, .read⟩ := by decide

/-- This transaction of client `c` alone is granted. -/
def granting (c : Client) (x : Txn) (s : State) : State :=
  setTxn c (some x) { s with mem := { online.mem with granted := some c } }

/-- A park-queue head of 2000 bytes whose fill has this read in flight. -/
def filling (issued : Nat) (chunk : Chunk) (abandoned : Bool) : State :=
  granting .serve ⟨0x1000, 1, .read⟩ { online with
    serve.parkQueue := [parked0 chunk], serve.fill := some ⟨0x1000, 1024, issued, some ⟨0, 4⟩, abandoned⟩ }

theorem test_witness_CompletionGrantsTheNext_fill :
    Completes (filling 1024 (.filling 1024) false) .serve (.ok [1, 2, 3, 4]) ∧
      Completes (filling 1024 (.filling 1024) false) .serve .fault ∧
      NoWriteInFlight (filling 4 (.filling 1024) false) .serve ∧ (filling 4 (.filling 1024) false).serve.service = none ∧
      (filling 4 .empty true).serve.fill = some ⟨0x1000, 1024, 4, some ⟨0, 4⟩, true⟩ ∧ (parked0 .empty).chunk = .empty :=
  ⟨⟨_, rfl, rfl, rfl, rfl⟩, ⟨_, rfl, rfl, rfl, rfl⟩, nofun, rfl, rfl, rfl⟩

/-- The last write of a STORE of 4 bytes is in flight; its run has ended, or not. -/
def storeWriting (ended : Bool) : State :=
  granting .serve ⟨0x1000, 1, .write [some 1, some 2, some 3, some 4]⟩
    { servingOpen .store (.store 4 0 false false ended) online with
      bus.runs := [⟨.store ⟨0x1000, 4, false, true⟩, 4, 4, [], ended, some 4⟩] }

theorem test_witness_CompletionGrantsTheNext_store (ended : Bool) :
    Completes (storeWriting ended) .serve (.ok [0, 0, 0, 0]) ∧ Completes (storeWriting ended) .serve .fault ∧
      Serves (storeWriting ended) (calleeOf true (some .serve)) ∧
      (storeWriting ended).serve.service = some ⟨headOf .store, none, false, .store 4 0 false false ended⟩ :=
  ⟨⟨_, rfl, rfl, rfl, rfl⟩, ⟨_, rfl, rfl, rfl, rfl⟩, ⟨rfl, rfl, rfl⟩, rfl⟩

/-- The only read of a short FETCH of 4 bytes is in flight, its run begun. -/
def fetchReading : State :=
  granting .serve ⟨0x1000, 1, .read⟩
    { servingOpen .fetch (.fetch 0x1000 4 0 [] false (some ⟨0, 4⟩)) online with bus.run := some ⟨true, 4, 0, 0⟩ }

theorem test_witness_CompletionGrantsTheNext_fetch :
    Completes fetchReading .serve (.ok [1, 2, 3, 4]) ∧ Completes fetchReading .serve .fault ∧
      NoWriteInFlight fetchReading .serve ∧ Serves fetchReading (calleeOf true (some .serve)) ∧
      fetchReading.serve.service = some ⟨headOf .fetch, none, false, .fetch 0x1000 4 0 [] false (some ⟨0, 4⟩)⟩ ∧
      fetchReading.bus.tx = none ∧ fetchReading.bus.count = 0 ∧ fetchReading.bus.outbound = [] :=
  ⟨⟨_, rfl, rfl, rfl, rfl⟩, ⟨_, rfl, rfl, rfl, rfl⟩, nofun, ⟨rfl, rfl, rfl⟩, rfl, rfl, rfl, rfl⟩

/-- The data mover's read for the run of a STORE is in flight. -/
def moverReading : State :=
  granting .mover ⟨0x2000, 1, .read⟩
    { storeRun with launch.outJob := some ⟨0, [⟨0x2000, 4⟩], 4, 4, 0, [], some ⟨0, 4⟩, false⟩ }

theorem test_witness_CompletionGrantsTheNext_mover_read :
    Completes moverReading .mover (.ok [1, 2, 3, 4]) ∧ Completes moverReading .mover .fault ∧
      NoWriteInFlight moverReading .mover ∧ (∃ c, CallsOn moverReading c ∧ c.grantee = .launch 0) ∧
      moverReading.serve.resume = none ∧
      slotOf moverReading 0 = .live storeBody (.connOpen false { OpenRecord.fresh with proceedTaken := true }) :=
  ⟨⟨_, rfl, rfl, rfl, rfl⟩, ⟨_, rfl, rfl, rfl, rfl⟩, nofun, ⟨_, ⟨rfl, rfl, rfl⟩, rfl⟩, rfl, rfl⟩

/-- The data mover's write for a received run of entry 0 is in flight; the run has ended, or not; its exchange is in service, or
has completed. -/
def moverWriting (ended inService : Bool) (p : Phase) : State :=
  granting .mover ⟨0x2000, 1, .write [some 1, some 2, some 3, some 4]⟩
    { serving fetchBody p online with
      bus.runs := [⟨.mover ⟨0, [⟨0x2000, 4⟩], none, 4, 0, false, false, inService, true⟩, 4, 4, [], ended, some 4⟩] }

theorem test_witness_CompletionGrantsTheNext_mover_write (ended inService : Bool) (p : Phase) :
    Completes (moverWriting ended inService p) .mover (.ok [0, 0, 0, 0]) ∧
      Completes (moverWriting ended inService p) .mover .fault ∧ slotOf (moverWriting ended inService p) 0 = .live fetchBody p ∧
      NoneDrains [] 0 ∧ fetchBody.work = .fetch false :=
  ⟨⟨_, rfl, rfl, rfl, rfl⟩, ⟨_, rfl, rfl, rfl, rfl⟩, rfl, nofun, rfl⟩

/-- R130: the FAULT of a write of a completed exchange leaves the entry that has its tag now as it is; of the exchange in
service it sets LOCAL_FAULT. -/
theorem test_memoryTransactionComplete_of_a_completed_exchange (ended : Bool) :
    slotOf (after (.memoryTransactionComplete .fault) (moverWriting ended false (.parked 9))) 0 =
        .live fetchBody (.parked 9) ∧
      slotOf (after (.memoryTransactionComplete .fault) (moverWriting ended true (.parked 9))) 0 ≠
        .live fetchBody (.parked 9) := by
  cases ended <;> decide +kernel

/-- A leftover write of an earlier STORE. -/
def leftover : InRun := ⟨.store ⟨0x1000, 0, false, false⟩, 4, 4, [1, 2, 3, 4], true, none⟩

/-- The data mover's write for the last chunk of entry 0, or for an earlier one whose record is closed, is in flight; these runs
follow. -/
def chunkWriting (recordOpen : Bool) (r : ResumeRecord) (rs : List InRun) : State :=
  granting .mover ⟨0x2000, 1, .write [some 1, some 2, some 3, some 4]⟩
    { serving { fetchBody with bytesDone := 4 } (.connResume 9 r) online with
      bus.runs := ⟨.mover ⟨0, [⟨0x2000, 4⟩], some 0, 4, 0, false, false, true, recordOpen⟩, 4, 4, [], true, some 4⟩ :: rs }

/-- A RESUME tenure that waits for its drain, or has not ended; the write of its own run, or one that comes before it. -/
theorem test_witness_CompletionGrantsTheNext_mover_chunk (own : Bool) (r : ResumeRecord) (rs : List InRun) :
    Completes (chunkWriting own r rs) .mover .fault ∧ Completes (chunkWriting own r rs) .mover (.ok [0, 0, 0, 0]) ∧
      slotOf (chunkWriting own r rs) 0 = .live { fetchBody with bytesDone := 4 } (.connResume 9 r) ∧
      NoneDrains [] 0 ∧ NoneDrains [leftover] 0 ∧
      Holding (chunkRun false [1, 2] none) ∧ reportsTo (chunkRun false [1, 2] none) = some 0 :=
  ⟨⟨_, rfl, rfl, rfl, rfl⟩, ⟨_, rfl, rfl, rfl, rfl⟩, rfl, nofun, fun _ h => .inl (by simp_all [leftover, reportsTo]),
    ⟨rfl, .inl nofun⟩, rfl⟩

/-- R127, R130 and log 38: drained in the open record; LOCAL_FAULT with the drain of the chunk's own run, and not before. -/
theorem test_memoryTransactionComplete_of_a_last_chunk :
    slotOf (after (.memoryTransactionComplete (.ok [0, 0, 0, 0])) (chunkWriting true lastChunk [])) 0 =
        .live { fetchBody with bytesDone := 4 } (.connResume 9 { lastChunk with drained := true }) ∧
      (after (.memoryTransactionComplete .fault) (chunkWriting true { lastChunk with ended := true } [])).port.reports.map
        Report.status = [.localFault] ∧
      slotOf (after (.memoryTransactionComplete .fault)
          (chunkWriting false { lastChunk with ended := true } [chunkRun false [1, 2] none])) 0 =
        .live { fetchBody with bytesDone := 4 } (.connResume 9 { lastChunk with ended := true, localFault := true }) := by
  decide +kernel

/-- The last 64 bytes of a STORE's run, which has ended, with the write ahead of them in flight or not. -/
def lastBlock (flight : Option Nat) : InRun :=
  ⟨.store ⟨0x1040, 0, false, true⟩, 128, 128, List.replicate 64 7, true, flight⟩

def blockWriting : State := { storeWriting true with bus.runs := [lastBlock (some 64)] }

/-- The last write of that run is in flight, and the run of entry 0 follows it. -/
def itemFollows : State :=
  { storeWriting true with
    bus.runs := (storeWriting true).bus.runs ++
      [⟨.mover ⟨0, [⟨0x2000, 4⟩], none, 0, 0, false, false, true, true⟩, 4, 4, [1, 2, 3, 4], true, none⟩] }

/-- The next write is of the same run, or of the one after it. -/
theorem test_witness_CompletionGrantsTheNext_next_write :
    Completes blockWriting .serve (.ok (List.replicate 4 0)) ∧
      WriteReady { lastBlock (some 64) with flight := none } .serve 0x1040 64 ∧ NoSwapGoesAhead blockWriting [lastBlock none] ∧
      Completes itemFollows .serve .fault ∧ txnOf itemFollows .mover = none ∧
      WriteReady ⟨.mover ⟨0, [⟨0x2000, 4⟩], none, 0, 0, false, false, true, true⟩, 4, 4, [1, 2, 3, 4], true, none⟩ .mover
        0x2000 4 := by
  refine ⟨⟨_, rfl, rfl, rfl, rfl⟩, ⟨rfl, rfl, rfl, by decide, fun j h => ?_, nofun⟩, fun v addr ops hv hw => ?_,
    ⟨_, rfl, rfl, rfl, rfl⟩, rfl, ⟨rfl, rfl, rfl, by decide, nofun, fun i h => ?_⟩⟩
  · cases h; exact ⟨rfl, by decide⟩
  · cases hv; cases hw
  · cases h; exact ⟨4, by decide, by decide⟩

/-- The first read of a short FETCH of 64 bytes at 0x1026 is in flight. -/
def farReading : State :=
  granting .serve ⟨0x1024, 7, .read⟩
    { servingOpen .fetch (.fetch 0x1026 26 0 [] false (some ⟨2, 26⟩)) online with
      serve.service := some ⟨farHead .fetch, some .proceed, false, .fetch 0x1026 26 0 [] false (some ⟨2, 26⟩)⟩
      bus.run := some ⟨true, 64, 0, 0⟩ }

/-- The data mover's read of the first of two segments is in flight. -/
def segmentReading : State :=
  { moverReading with launch.outJob := some ⟨0, [⟨0x2000, 4⟩, ⟨0x3002, 4⟩], 8, 4, 0, [], some ⟨0, 4⟩, false⟩ }

theorem test_witness_CompletionGrantsTheNext_next_read :
    Completes farReading .serve (.ok (List.replicate 28 0)) ∧ NoWriteInFlight farReading .serve ∧
      Serves farReading (calleeOf true (some .serve)) ∧ farReading.bus.runs = [] ∧
      26 < (farHead .fetch).length.toNat ∧ Completes segmentReading .mover (.ok [1, 2, 3, 4]) ∧
      segmentReading.bus.runs = [] ∧ locate [⟨0x2000, 4⟩, ⟨0x3002, 4⟩] 4 = some (0x3002, 4) ∧
      (windowOf (filling 4 .empty true) (parked0 .empty).window.toNat).isSome = true :=
  ⟨⟨_, rfl, rfl, rfl, rfl⟩, nofun, ⟨rfl, rfl, rfl⟩, rfl, by decide, ⟨_, rfl, rfl, rfl, rfl⟩, rfl, by decide,
    by decide +kernel⟩

/-- R137, R139 and R100: a completion is followed by the next write, or by the next read. -/
theorem test_memoryTransactionComplete_goes_on :
    (after (.memoryTransactionComplete (.ok [0, 0, 0, 0])) blockWriting).mem.serve =
        some ⟨0x1040, 16, .write (List.replicate 64 (some 7))⟩ ∧
      (after (.memoryTransactionComplete .fault) itemFollows).mem.mover =
        some ⟨0x2000, 1, .write [some 1, some 2, some 3, some 4]⟩ ∧
      (after (.memoryTransactionComplete (.ok (List.replicate 28 0))) farReading).mem.serve = some ⟨0x1040, 10, .read⟩ ∧
      (after (.memoryTransactionComplete (.ok [1, 2, 3, 4])) segmentReading).mem.mover = some ⟨0x3000, 2, .read⟩ := by
  decide +kernel

theorem test_witness_LockedPairCompletes :
    pairGranted.mem.serve = some ⟨0x1000, 1, .pair 1 2⟩ ∧ pairGranted.serve.swapStage = some ⟨2, 0, 1⟩ ∧
      pairGranted.serve.service = some ⟨headOf .swap, none, false, .swap 0x1000 ⟨1, 2⟩ true⟩ ∧
      pairGranted.bus.tenure = .callee (calleeOf true (some .serve)) ∧ (0 : Word) ≠ 1 := by decide +kernel

/-- A SWAP of station 2 that waits at step 1 for the pair granted, of this requester, tag and generation, with these runs in the
transit buffer. -/
def waitingSwap (g : SwapStage) (rs : List InRun) : State :=
  { pairGranted with
    serve.swapStage := some g, bus.runs := rs
    serve.service := some ⟨headOf .swap, none, false, .swap 0x1000 ⟨1, 2⟩ false⟩ }

/-- The pair is of an earlier attempt of the same SWAP, or of another order; a leftover write may stand ahead. -/
theorem test_witness_LockedPairCompletes_waits :
    Serves (waitingSwap ⟨2, 0, 1⟩ []) (calleeOf true (some .serve)) ∧
      swapMemoOf (after (.lockedPairComplete (some 1) true) (waitingSwap ⟨2, 0, 1⟩ [])) 2 = some ⟨0, 1, ⟨1, true⟩⟩ ∧
      swapMemoOf (after (.lockedPairComplete (some 1) true) (waitingSwap ⟨3, 0, 1⟩ [])) 2 = none ∧
      isLeftover leftover = true ∧ discards leftover.sink = false ∧ leftover.bytes ≠ [] ∧
      (headOf .swap).source = 2 ∧ (headOf .swap).tag = 0 ∧ (headOf .swap).gen = 1 :=
  ⟨⟨rfl, rfl, rfl⟩, by decide +kernel, by decide +kernel, rfl, rfl, nofun, rfl, rfl, rfl⟩

/-- R143 steps 1 to 3, and R131: the stored result, the own pair, and the leftover write first. -/
theorem test_lockedPairComplete_lets_the_next_swap_go_on :
    (after (.lockedPairComplete (some 1) true) (waitingSwap ⟨2, 0, 1⟩ [])).bus.tx.map TxFrame.frame =
        some (.verdict ⟨.done .ok, 0, 1, some 8, some ⟨1, true⟩⟩) ∧
      (after (.lockedPairComplete (some 1) true) (waitingSwap ⟨3, 0, 1⟩ [])).serve.swapStage = some ⟨2, 0, 1⟩ ∧
      (after (.lockedPairComplete (some 1) true) (waitingSwap ⟨3, 0, 1⟩ [leftover])).serve.swapStage = none := by
  decide +kernel

/-- The invariants hold in a state with a report to be read, and `step` answers a next state there. -/
theorem test_witness_StepKeepsReportsExact :
    (∃ t, step { withReport 3 with pending := [.reportRead] } = .next t) ∧
      (((withReport 3).port.reports.map Report.tag).Nodup ∧
        (∀ r ∈ (withReport 3).port.reports, isReported (withReport 3) r.tag = true ∧ genOf (withReport 3) r.tag = r.gen) ∧
        ∀ u, isReported (withReport 3) u = true → u ∈ (withReport 3).port.reports.map Report.tag) :=
  ⟨⟨_, rfl⟩, by decide +kernel⟩

theorem test_witness_StepKeepsQueueExact :
    (queued storeBody online).launch.queue.Nodup ∧
      ∀ u, u ∈ (queued storeBody online).launch.queue ↔ inQueueState (slotOf (queued storeBody online) u) = true := by
  decide +kernel

/-- Two queued entries whose acceptance numbers lie on either side of the wrap. -/
def aroundTheWrap : State :=
  setEntry 1 ⟨1, .live storeBody .queued⟩
    { serving { storeBody with acc := 0xFFFFFFFF } .queued online with launch.queue := [0, 1], launch.accCount := 1 }

theorem test_witness_StepKeepsQueueExact_order :
    TakenWithin 0xFFFFFFFF aroundTheWrap ∧ (aroundTheWrap.launch.accCount - 0xFFFFFFFF).toNat < 2 ^ 31 ∧
      QueueOrdered 0xFFFFFFFF aroundTheWrap := by
  refine ⟨fun u b p h => ?_, by decide +kernel, by unfold QueueOrdered; decide +kernel⟩
  have k : ∀ u, (liveOf aroundTheWrap u).all fun x => decide ((x.1.acc - 0xFFFFFFFF).toNat < 2 ^ 31) := by decide +kernel
  have := k u
  simpa [liveOf, h] using this

/-- A station in DRAINING whose last exchange ends with the tenure of its caller. -/
def drains : State := { storeDone with station.state := .draining, pending := [.answerNegatedSeen] }

theorem test_witness_StepKeepsClaimsAndEndsDrains :
    ReportsExact drains ∧ ClaimsExact drains ∧ DrainEnded drains ∧ (∃ t, step drains = .next t) ∧
      (∀ c, drains.bus.tenure = .caller c → c.grantee ≠ .probe) ∧ (∀ a q, drains.pending ≠ .deviceReset a :: q) ∧
      ClaimsExact { queued storeBody online with bus.claims := ⟨true, false, false⟩ } := by
  refine ⟨⟨by decide, by decide +kernel, by decide +kernel⟩, by unfold ClaimsExact; decide +kernel, fun _ h => ?_, ⟨_, rfl⟩,
    fun c h => ?_, nofun, by unfold ClaimsExact; decide +kernel⟩
  · exact absurd rfl (h.1 0 _ _)
  · cases h; nofun

/-- R69 and R70: the completion of the last exchange, or a bus reset, ends the drain. -/
theorem test_drain_ends_with_the_last_exchange :
    (after .answerNegatedSeen { storeDone with station.state := .draining }).station.state = .offline ∧
      (after .bresetDetectTimerExpiry
        { storeDone with station.state := .draining, bus.bresetDetect := some 0 }).station.state = .offline := by
  decide +kernel

theorem test_witness_StepKeepsPortBounds :
    InboxBounded { withArrival 2 with serve.reserved := false } ∧ PortCounts (withArrival 2) ∧ PortCounts online := by
  refine ⟨by unfold InboxBounded; decide +kernel, ⟨by decide, by decide, by decide, fun _ => rfl, ?_⟩,
    ⟨by decide, by decide, by decide, fun _ => rfl, rfl⟩⟩
  show 2 < arrivalWords 5
  decide

theorem test_witness_StepKeepsTransitBounded :
    TransitBounded { storeRun with bus.outbound := List.replicate 512 0 } := by
  unfold TransitBounded; decide +kernel

theorem test_witness_StepKeepsGrantExact : GrantExact online ∧ GrantExact pairGranted :=
  ⟨⟨rfl, fun c => by cases c <;> rfl⟩, _, rfl, rfl⟩

theorem test_witness_StepKeepsRecordsInRange :
    (∀ r, online.station.setup = some r → setupWithin r) ∧
      (∀ u, attemptsOf (slotOf (serving { storeBody with attempts := 7 } .queued online) u) ≤ 7) ∧
      OwnTermsUnknown online ∧ IsolatedSilent { online with station.state := .isolated } ∧
      IsolatedSilent { online with bus.drive.breset := true, bus.bresetDrive := some 9 } := by
  refine ⟨?_, by decide +kernel, by unfold OwnTermsUnknown; decide, fun _ => rfl, nofun⟩
  intro r hr
  have e : r = setup1 := (Option.some.inj hr).symm
  subst e
  refine ⟨by decide, by decide, by decide, by decide, by decide, fun w hw => ?_⟩
  have : w = ⟨0x1000, 0x1000, 0xFFFF, 0xFFFF, 0xFFFF, 0xFFFF⟩ := by simpa [setup1] using hw
  subst this
  decide

end Sys2Proof.Tests
end

section
/-! PROOFS. The setup record, the attempts, the terms of the own address and the silence of an ISOLATED station, kept
together by every step. Laws/Acts and Laws/Intake carry the four through operations, intake and `settle`; here stand the
setup image, the commands of the Local Port and of the resets, and the passing of time. -/

namespace Sys2Proof.Machine

/-! ## The setup image (R58, R59) -/

theorem scalar_mem {w : Word} {width default lo hi v : Nat} (hd : lo ≤ default ∧ default ≤ hi)
    (h : scalar w width default lo hi = some v) : lo ≤ v ∧ v ≤ hi := by
  unfold scalar at h
  split at h
  · cases h; exact hd
  · dsimp only at h
    split at h
    · next hv => cases h; exact hv
    · cases h

theorem imageWindow_valid {bytes : List Byte} {k : Nat} {w : Window} (h : imageWindow bytes k = some (some w)) :
    windowValid w.base w.length = true := by
  unfold imageWindow at h
  split at h
  · dsimp only at h
    split at h
    · next hv => cases h; exact hv
    · cases h
  · cases h

/-- The windows of an image: one for each number, and each defined one valid. -/
theorem imageWindows_spec {bytes : List Byte} {ks : List Nat} {ws : List (Option Window)}
    (h : imageWindows bytes ks = some ws) :
    ws.length = ks.length ∧ ∀ w, some w ∈ ws → windowValid w.base w.length = true := by
  induction ks generalizing ws with
  | nil => cases h; exact ⟨rfl, nofun⟩
  | cons k ks ih =>
    unfold imageWindows at h
    split at h
    · next x xs hx hxs =>
      cases h
      obtain ⟨hl, hv⟩ := ih hxs
      refine ⟨congrArg (· + 1) hl, fun w hw => ?_⟩
      rcases List.mem_cons.mp hw with rfl | hw
      · exact imageWindow_valid hx
      · exact hv w hw
    · cases h

/-- A setup image that is accepted gives a valid record. -/
theorem setupWithin_of_setupOfImage {scalars windows : List Byte} {r : Setup}
    (h : setupOfImage scalars windows = some r) : setupWithin r := by
  unfold setupOfImage at h
  dsimp only at h
  split at h
  · next call park retry pace short ws _ hpark hretry hpace hshort hws =>
    split at h
    · next hn =>
      cases h
      obtain ⟨hl, hv⟩ := imageWindows_spec hws
      have hcount : 1 ≤ ws.length ∧ ws.length ≤ 8 := by
        rw [hl, List.length_range]; exact of_decide_eq_true hn
      exact ⟨scalar_mem (by decide) hpark, (scalar_mem (by decide) hretry).2, scalar_mem (by decide) hpace,
        (scalar_mem (by decide) hshort).2, hcount, hv⟩
    · cases h
  · cases h

/-! ## The joint invariant -/

/-- What O60 states of one state. -/
structure RecordsInRange (s : State) : Prop where
  setup : SetupValid s
  attempts : AttemptsBounded s
  own : OwnTermsUnknown s
  silent : IsolatedSilent s

variable {P : Tag → Prop} {K N G I : Prop} {s t : State}

theorem RecordsInRange.acts (h : RecordsInRange s) (a : Acts P K N G I s t) : RecordsInRange t where
  setup := fun r hr => h.setup r (a.setup ▸ hr)
  attempts := a.attempts h.setup h.attempts
  own := a.own h.own
  silent := a.silent h.silent

theorem RecordsInRange.intakes (h : RecordsInRange s) (a : Intakes s t) : RecordsInRange t where
  setup := fun r hr => by
    rcases a.setup with e | ⟨_, _, r', hr', e⟩
    · exact h.setup r (e ▸ hr)
    · cases hr.symm.trans e
      exact setupWithin_of_setupOfImage hr'
  attempts := a.attempts h.attempts
  own := a.own h.own
  silent := a.silent h.silent

theorem RecordsInRange.settle (h : RecordsInRange s) : RecordsInRange (settle s) :=
  h.acts (Acts.settle (P := fun _ => True) (K := False) (N := False) (G := False) (I := False) id fun _ _ => trivial)

/-- The fields that `RecordsInRange` speaks of. -/
def recordsView (s : State) :=
  ((s.station.state, s.station.strap, s.station.setup), s.terms, s.launch.entries, resetDrive s)

theorem RecordsInRange.congr (h : RecordsInRange s) (e : recordsView t = recordsView s) : RecordsInRange t := by
  simp only [recordsView, Prod.mk.injEq] at e
  obtain ⟨⟨hstate, hstrap, hsetup⟩, hterms, hentries, hdrive⟩ := e
  exact {
    setup := fun r hr => h.setup r (hsetup ▸ hr)
    attempts := fun u => by rw [slotOf_congr hentries]; exact h.attempts u
    own := by simpa only [OwnTermsUnknown, termsOf, hstrap, hterms] using h.own
    silent := fun hi => hdrive.trans (h.silent (hstate ▸ hi)) }

/-! ## The passing of time, and device reset -/

theorem RecordsInRange.tick (h : RecordsInRange s) : RecordsInRange (tick s) where
  setup := h.setup
  attempts := attempts_tick h.attempts
  own := h.own
  silent := fun hi => by
    have hd := h.silent hi
    simp only [resetDrive, Prod.mk.injEq] at hd
    simp only [resetDrive, Machine.tick, hd.1, hd.2, tickTimer, Option.map_none]

theorem slotOf_afterReset (strap : Addr) (s : State) (u : Tag) : slotOf (afterReset strap s) u = .free := by
  simp [slotOf, entryOf, afterReset, State.reset, Launch.reset]

theorem recordsInRange_afterReset (strap : Addr) (s : State) : RecordsInRange (afterReset strap s) where
  setup := nofun
  attempts := fun u => by rw [slotOf_afterReset]; exact Nat.zero_le 7
  own := by simp [OwnTermsUnknown, termsOf, afterReset, State.reset]
  silent := fun _ => rfl

/-! ## The commands of the Local Port and of BRESET -/

/-- The commands that write nothing but registers of the Local Port, the last control result, and what is seen of BRESET. -/
def registerCommand : Instr → Bool
  | .bresetSeenAsserted | .bresetNegated | .orderWrite _ | .urgentWrite _ | .unassignedUrgent | .inboxRead
  | .noticeWrite _ | .noticeMaskWrite _ => true
  | _ => false

theorem recordsView_leaveReset (s : State) : recordsView (leaveReset s) = recordsView s := by
  unfold leaveReset; split <;> rfl

theorem recordsView_commitOrder (o : Order) (s : State) : recordsView (commitOrder o s) = recordsView s := by
  unfold commitOrder; dsimp only; split <;> rfl

theorem exec_register {i : Instr} (h : registerCommand i = true) (s : State) :
    ∃ t, exec i s = .next t ∧ recordsView t = recordsView s := by
  cases i
  all_goals try cases h
  case bresetSeenAsserted =>
    simp only [exec, execBresetSeenAsserted]; split <;> exact ⟨_, rfl, rfl⟩
  case bresetNegated =>
    simp only [exec, execBresetNegated]; split
    · exact ⟨_, rfl, rfl⟩
    · exact ⟨_, rfl, recordsView_leaveReset _⟩
  case orderWrite w =>
    simp only [exec, execOrderWrite]; split
    · exact ⟨_, rfl, rfl⟩
    · exact ⟨_, rfl, recordsView_commitOrder _ s⟩
  case urgentWrite w =>
    simp only [exec, execUrgentWrite]; split <;> exact ⟨_, rfl, rfl⟩
  case unassignedUrgent =>
    simp only [exec, execUnassignedUrgent]; split <;> exact ⟨_, rfl, rfl⟩
  case inboxRead =>
    simp only [exec, execInboxRead]; split
    · exact ⟨_, rfl, rfl⟩
    · split <;> exact ⟨_, rfl, rfl⟩
  case noticeWrite w => exact ⟨_, rfl, rfl⟩
  case noticeMaskWrite w => exact ⟨_, rfl, rfl⟩

/-- A report read makes at most the entry of the front report FREE (R84). -/
theorem RecordsInRange.releaseTag (h : RecordsInRange s) (u : Tag) : RecordsInRange (releaseTag u s) where
  setup := h.setup
  attempts := fun v => by
    rw [Machine.releaseTag, slotOf_setEntry]
    split
    · exact Nat.zero_le 7
    · exact h.attempts v
  own := h.own
  silent := h.silent

theorem RecordsInRange.exec_reportRead (h : RecordsInRange s) : ∃ t, exec .reportRead s = .next t ∧ RecordsInRange t := by
  simp only [exec, execReportRead]
  split
  · exact ⟨_, rfl, h.congr rfl⟩
  · next r _ _ =>
    split
    · exact ⟨_, rfl, h.congr rfl⟩
    · exact ⟨_, rfl, (h.releaseTag r.tag).congr rfl⟩

/-- BUS_RESET is taken in ONLINE and DRAINING alone, so that no station in ISOLATED comes to drive BRESET (R18, R72). -/
theorem RecordsInRange.exec_busReset (h : RecordsInRange s) : ∃ t, exec .busReset s = .next t ∧ RecordsInRange t := by
  simp only [exec, execBusReset]
  split
  · split
    · next hd => exact ⟨_, rfl, {
        setup := h.setup
        attempts := h.attempts
        own := h.own
        silent := fun hi => by
          have hs : s.station.state = .isolated := hi
          simp [hs, drivesReset] at hd }⟩
    · exact ⟨_, rfl, h.congr rfl⟩
  all_goals exact ⟨_, rfl, h⟩

theorem RecordsInRange.exec_bresetDriveTimerExpiry (h : RecordsInRange s) :
    ∃ t, exec .bresetDriveTimerExpiry s = .next t ∧ RecordsInRange t := by
  simp only [exec, execBresetDriveTimerExpiry]
  split
  · exact ⟨_, rfl, { setup := h.setup, attempts := h.attempts, own := h.own, silent := fun _ => rfl }⟩
  · exact ⟨_, rfl, h⟩

/-! ## CANCEL and the Memory Port -/

theorem RecordsInRange.exec_cancel (h : RecordsInRange s) : ∃ t, exec .cancel s = .next t ∧ RecordsInRange t := by
  rcases Machine.exec_cancel s with e | ⟨r, m, hm, a⟩
  · exact ⟨s, e, h⟩
  · have hm' : RecordsInRange m := (h.congr (t := takeUrgent r s) rfl).acts a
    rcases hm with ⟨e, _⟩ | e
    · exact ⟨m, e, hm'⟩
    · exact ⟨_, e, hm'.settle⟩

theorem RecordsInRange.exec_memory (h : RecordsInRange s) (result : Completion) :
    ∃ t, exec (.memoryTransactionComplete result) s = .next t ∧ RecordsInRange t := by
  rcases Machine.exec_memory result s with e | ⟨m, u, e, _, a⟩
  · exact ⟨s, e, h⟩
  · have released : RecordsInRange { s with mem := m } := h.congr rfl
    exact ⟨_, e, (a.elim released.acts released.intakes).settle⟩

theorem RecordsInRange.exec_pair (h : RecordsInRange s) (read : Option Word) (writeOk : Bool) :
    ∃ t, exec (.lockedPairComplete read writeOk) s = .next t ∧ RecordsInRange t := by
  rcases Machine.exec_pair read writeOk s with e | ⟨m, w, u, e, _, a⟩
  · exact ⟨s, e, h⟩
  · have released : RecordsInRange { s with mem := m, serve.swapMemo := w } := h.congr rfl
    exact ⟨_, e, (released.acts a).settle⟩

/-! ## The commands whole, and the step -/

theorem RecordsInRange.exec (h : RecordsInRange s) (i : Instr) : ∃ t, exec i s = .next t ∧ RecordsInRange t := by
  by_cases ht : tenureCommand i = true
  · obtain ⟨t, e, a⟩ := exec_acts ht s
    exact ⟨t, e, h.acts a⟩
  by_cases ho : orderCommand i = true
  · obtain ⟨m, e, a⟩ := exec_order ho s
    exact ⟨_, e, (h.intakes a).settle⟩
  by_cases hr : registerCommand i = true
  · obtain ⟨t, e, v⟩ := exec_register hr s
    exact ⟨t, e, h.congr v⟩
  cases i
  all_goals try exact absurd rfl ht
  all_goals try exact absurd rfl ho
  all_goals try exact absurd rfl hr
  case deviceReset strap => exact ⟨_, rfl, recordsInRange_afterReset strap s⟩
  case reportRead => exact h.exec_reportRead
  case busReset => exact h.exec_busReset
  case bresetDriveTimerExpiry => exact h.exec_bresetDriveTimerExpiry
  case cancel => exact h.exec_cancel
  case memoryTransactionComplete result => exact h.exec_memory result
  case lockedPairComplete read writeOk => exact h.exec_pair read writeOk

theorem RecordsInRange.step (h : RecordsInRange s) (e : step s = .next t) : RecordsInRange t := by
  unfold Machine.step at e
  split at e
  · next c rest _ =>
    have waiting : RecordsInRange { s with pending := rest } := h.congr rfl
    obtain ⟨t', e', h'⟩ := waiting.exec c
    cases e'.symm.trans e
    exact h'
  · cases e; exact h.tick

/-- Settles O60: the four invariants together are kept by every command and by the passing of time. -/
theorem stepKeepsRecordsInRange : Obligations.StepKeepsRecordsInRange := by
  rintro s t ⟨setup, attempts, own, silent⟩ e
  have h : RecordsInRange t := RecordsInRange.step ⟨setup, attempts, own, silent⟩ e
  exact ⟨h.setup, h.attempts, h.own, h.silent⟩

end Sys2Proof.Machine
end

section
/-! PROOFS. The timers of exchanges (R106, R123, R138, R144, R156): the entry that each leaves, the DONE that the verdict timer
gives, and the locked pair, which a settling presents only where a SWAP still waits for its verdict. -/

namespace Sys2Proof.Machine

/-! ## The locked pair through a settling -/

/-- The swap stage, and the transaction of the Serve Engine if that is a locked pair. -/
def pairSide (s : State) := (s.serve.swapStage, s.mem.serve.filter Txn.isPair)

theorem pairSide_of_around {s t : State} (h : around t = around s) : pairSide t = pairSide s := by
  simp only [around, Prod.mk.injEq] at h
  simp only [pairSide, h]

theorem pairSide_startFill (s : State) : pairSide (startFill s) = pairSide s := by
  obtain ⟨_, _, _, h⟩ := startFill_eq s
  rw [h]; rfl

/-- A SWAP alone presents a pair, and that only while its verdict is due (R143). -/
theorem pairSide_serveProgress {s : State} (h : verdictDue s = false) : pairSide (serveProgress s) = pairSide s := by
  rw [serveProgress_quiet h, pairSide_startFill]

theorem pairSide_placeOutbound (s : State) : pairSide (placeOutbound s) = pairSide s := by
  have job : ∀ s : State, pairSide (placeOutJob s) = pairSide s := fun s => by
    unfold placeOutJob; split
    · rfl
    · split <;> rfl
  have fetch : ∀ s : State, pairSide (placeFetch s) = pairSide s := fun s => by
    unfold placeFetch; split
    · split
      · split <;> rfl
      · rfl
    · rfl
  have chunk : ∀ s : State, pairSide (placeChunk s) = pairSide s := fun s => by
    unfold placeChunk; split
    · split <;> rfl
    · rfl
  exact (chunk _).trans ((fetch _).trans (job s))

/-! What the Serve Engine presents besides is a read or a write. -/

theorem pairSide_present {s : State} {x : Txn} (hm : s.mem.serve = none) (hx : x.isPair = false) :
    pairSide (present .serve x s) = pairSide s := by
  simp [pairSide, present, setTxn, hm, hx]

theorem pairSide_storeWrite {s t : State} (hm : s.mem.serve = none) (h : storeWrite s = some t) :
    pairSide t = pairSide s := by
  unfold storeWrite at h
  split at h
  · split at h
    · dsimp only at h
      split at h
      · cases h
      · cases h; exact pairSide_present hm rfl
    · cases h
  · cases h

theorem pairSide_fetchRead {s t : State} (hm : s.mem.serve = none) (h : fetchRead s = some t) :
    pairSide t = pairSide s := by
  unfold fetchRead at h
  split at h
  · split at h
    · dsimp only at h
      split at h
      · cases h
      · cases h; exact pairSide_present hm rfl
    · cases h
  · cases h

theorem pairSide_presentFill {s : State} (hm : s.mem.serve = none) : pairSide (presentFill s) = pairSide s := by
  unfold presentFill
  split
  · split
    · rfl
    · exact pairSide_present hm rfl
  · rfl

theorem pairSide_presentServe (s : State) : pairSide (presentServe s) = pairSide s := by
  unfold presentServe
  split
  · rfl
  · next hm =>
    split
    · next h => exact pairSide_storeWrite hm h
    · split
      · rfl
      · split
        · next h => exact pairSide_fetchRead hm h
        · split
          · rfl
          · exact pairSide_presentFill hm

theorem pairSide_presentMover (s : State) : pairSide (presentMover s) = pairSide s := by
  have read : ∀ s : State, pairSide (presentOutRead s) = pairSide s := fun s => by
    unfold presentOutRead
    split
    · rfl
    · split
      · split <;> rfl
      · rfl
  unfold presentMover
  split
  · rfl
  · exact read s
  · split
    · split
      · exact read s
      · dsimp only
        split
        · exact read s
        · rfl
    · exact read s

theorem pairSide_presentLister (s : State) : pairSide (presentLister s) = pairSide s := by
  unfold presentLister
  split
  · dsimp only; split <;> rfl
  · rfl

theorem pairSide_pass {s : State} (h : verdictDue s = false) : pairSide (pass s) = pairSide s :=
  calc pairSide (pass s)
      = pairSide (placeOutbound (serveProgress (pump s))) := by
        unfold pass presentAll; rw [pairSide_presentLister, pairSide_presentMover, pairSide_presentServe]
    _ = pairSide (serveProgress (pump s)) := pairSide_placeOutbound _
    _ = pairSide (pump s) := pairSide_serveProgress ((Settles.pump s).silent h)
    _ = pairSide s := pairSide_of_around (pump_spec s).2.1

theorem pairSide_afterPasses (s : State) :
    pairSide (updateStall (contendInIdle (updateClaims (drainToOffline (arbitrate s))))) = pairSide s := by
  have granted : ∀ s : State, pairSide (arbitrate s) = pairSide s := fun s => by
    unfold arbitrate; split
    · rfl
    · split <;> rfl
  have drained : ∀ s : State, pairSide (drainToOffline s) = pairSide s := fun s => by
    unfold drainToOffline; split <;> rfl
  have contended : ∀ s : State, pairSide (contendInIdle s) = pairSide s := fun s => by
    unfold contendInIdle openWindow; split
    · dsimp only; split <;> rfl
    · rfl
  have stalled : ∀ s : State, pairSide (updateStall s) = pairSide s := fun s => by unfold updateStall; split <;> rfl
  rw [stalled, contended]
  exact (drained _).trans (granted s)

/-- Where no verdict is due, what follows an event fills no swap stage and presents no pair. -/
theorem pairSide_settle {s : State} (h : verdictDue s = false) : pairSide (settle s) = pairSide s := by
  have h1 := (Settles.pass s).silent h
  have h2 := (Settles.pass (pass s)).silent h1
  unfold settle
  rw [pairSide_afterPasses, pairSide_pass h2, pairSide_pass h1, pairSide_pass h]

theorem swapStage_of_pairSide {s t : State} (h : pairSide t = pairSide s) : t.serve.swapStage = s.serve.swapStage := by
  simp only [pairSide, Prod.mk.injEq] at h; exact h.1

theorem serve_pair_of_pairSide {s t : State} (h : pairSide t = pairSide s) {x : Txn} (ht : t.mem.serve = some x)
    (hx : x.isPair = true) : s.mem.serve = some x := by
  simp only [pairSide, Prod.mk.injEq] at h
  have e : s.mem.serve.filter Txn.isPair = some x := by rw [← h.2, ht]; simp [hx]
  exact (Option.filter_eq_some_iff.mp e).1

/-! ## Hold-off and park timers (R106, R123, R156) -/

theorem slotOf_endHoldOff_held {s : State} {u : Tag} {b : Body} {n : Time} (h : slotOf s u = .live b (.held n)) :
    slotOf (endHoldOff u s) u = .live b .queued := by
  simp [endHoldOff, liveOf_eq_some.mpr h]

theorem slotOf_endHoldOff_withdrawing {s : State} {u : Tag} {b : Body} {n : Time}
    (h : slotOf s u = .live b (.withdrawing (some n))) : slotOf (endHoldOff u s) u = .live b (.withdrawing none) := by
  simp [endHoldOff, liveOf_eq_some.mpr h]

theorem slotOf_endPark {s : State} {u : Tag} {b : Body} {n : Time} (h : slotOf s u = .live b (.parked n)) :
    slotOf (endPark u s) u = .live b (.withdrawing none) := by
  rw [endPark, liveOf_eq_some.mpr h]
  have queued : slotOf (withdraw u b s) u = slotOf (setLive u b (.withdrawing none) s) u := slotOf_congr rfl u
  simp [queued]

/-- An entry in none of the CONNECTED states is left by the settling as the timer left it. -/
theorem exec_holdOffExpiry_slot {s : State} {u : Tag} {x : Slot} (h : slotOf (endHoldOff u s) u = x)
    (hx : connected x = false) : ∃ t, exec (.holdOffExpiry u) s = .next t ∧ slotOf t u = x :=
  ⟨_, rfl, (slotOf_settle (by rw [h]; exact hx)).trans h⟩

theorem exec_parkTimerExpiry_slot {s : State} {u : Tag} {x : Slot} (h : slotOf (endPark u s) u = x)
    (hx : connected x = false) : ∃ t, exec (.parkTimerExpiry u) s = .next t ∧ slotOf t u = x :=
  ⟨_, rfl, (slotOf_settle (by rw [h]; exact hx)).trans h⟩

/-! ## The verdict timer (R138, R144) -/

theorem activeCallee_of_serves {s : State} {c : Callee} (h : Serves s c) : activeCallee s = some c := by
  obtain ⟨tenure, finished, clearing⟩ := h
  simp [activeCallee, tenure, finished, clearing]

theorem verdict_encode_ne_nil (v : Verdict) : (Frame.verdict v).encode ≠ [] := by
  simp [Frame.encode, sealFrame]

theorem sendsFrame_giveVerdict {s : State} {c : Callee} (hc : activeCallee s = some c) (v : Verdict) :
    SendsFrame (giveVerdict v s) (.verdict v) := by
  obtain ⟨d, rest, e⟩ := List.exists_cons_of_ne_nil (verdict_encode_ne_nil v)
  refine ⟨d, rest, e, ?_⟩
  simp [giveVerdict, hc, sendFrame, e, strobe]

theorem sendsFrame_giveClosing {s : State} {c : Callee} {v : Service} (hc : activeCallee s = some c)
    (hv : s.serve.service = some v) (k : VerdictKind) :
    SendsFrame (giveClosing k s) (.verdict ⟨k, v.head.tag, v.head.gen, none, none⟩) := by
  simp only [giveClosing, hv]
  exact sendsFrame_giveVerdict (by exact hc) _

theorem sendsFrame_giveFirst {s : State} {c : Callee} {v : Service} (hc : activeCallee s = some c)
    (hv : s.serve.service = some v) (k : VerdictKind) (r : Option SwapResult) :
    SendsFrame (giveFirst k r s) (.verdict ⟨k, v.head.tag, v.head.gen, v.head.terms.map fun _ => ownTerms s, r⟩) := by
  simp only [giveFirst, hv]
  refine sendsFrame_giveVerdict (c := c) ((activeCallee_congr ?_).trans hc) _
  exact congrArg Bif.tenure (beside_writeTermsFor v.head s).2.1

/-- A frame being sent stays the one being sent, where no verdict is due. -/
theorem sendsFrame_settle {s : State} {f : Frame} (hd : verdictDue s = false) (h : SendsFrame s f) :
    SendsFrame (settle s) f := by
  obtain ⟨d, rest, e, tx, count⟩ := h
  exact ⟨d, rest, e, (settle_tx hd).trans tx, (settle_count hd).trans count⟩

/-- The verdict timer hands a STORE its closing DONE, a SWAP its first and only verdict. -/
theorem verdictExpiry_store {s : State} {v : Service} (hv : s.serve.service = some v) {taken written : Nat}
    {fault parity ended : Bool} (hw : v.work = .store taken written fault parity ended) :
    verdictExpiry s = giveClosing (.done (if parity then .check else .stall)) s := by
  simp [verdictExpiry, hv, hw]

theorem verdictExpiry_swap {s : State} {v : Service} (hv : s.serve.service = some v) {a : Word} {ops : SwapOps}
    {issued : Bool} (hw : v.work = .swap a ops issued) : verdictExpiry s = giveFirst (.done .stall) none s := by
  simp [verdictExpiry, hv, hw]

/-- A STORE that has its DONE waits for no verdict. -/
theorem verdictDue_giveClosing_store {s : State} {v : Service} (hv : s.serve.service = some v) {taken written : Nat}
    {fault parity ended : Bool} (hw : v.work = .store taken written fault parity ended) (k : VerdictKind) :
    verdictDue (giveClosing k s) = false := by
  cases ended <;> simp [verdictDue, (giveClosing_spec k s).2.1, hv, serviceOpen, hw]

/-- A SWAP that has its first verdict is looked up no more (R143). -/
theorem verdictDue_giveFirst_swap {s : State} {v : Service} (hv : s.serve.service = some v) {a : Word} {ops : SwapOps}
    {issued : Bool} (hw : v.work = .swap a ops issued) (k : VerdictKind) (r : Option SwapResult) :
    verdictDue (giveFirst k r s) = false := by
  cases issued <;> simp [verdictDue, (giveFirst_spec k r s).2.1, hv, serviceOpen, hw]

/-- The timer has expired and stands still. -/
def timerStopped (s : State) : State := { s with serve.verdictTimer := none }

theorem exec_verdictTimerExpiry {s : State} (h : s.serve.verdictTimer ≠ none) :
    exec .verdictTimerExpiry s = .next (settle (verdictExpiry (timerStopped s))) := by
  obtain ⟨n, hn⟩ := Option.ne_none_iff_exists'.mp h
  show execVerdictTimerExpiry s = _
  rw [execVerdictTimerExpiry, hn]
  rfl

/-- R138: the verdict timer of a STORE gives its DONE. -/
theorem settle_verdictExpiry_store {s : State} {c : Callee} {v : Service} (hc : activeCallee s = some c)
    (hv : s.serve.service = some v) {taken written : Nat} {fault parity ended : Bool}
    (hw : v.work = .store taken written fault parity ended) :
    SendsFrame (settle (verdictExpiry s))
      (.verdict ⟨.done (if parity then .check else .stall), v.head.tag, v.head.gen, none, none⟩) := by
  rw [verdictExpiry_store hv hw]
  exact sendsFrame_settle (verdictDue_giveClosing_store hv hw _) (sendsFrame_giveClosing hc hv _)

/-- R144: the verdict timer of a SWAP gives DONE(STALL); its pair runs on if it was issued, and is not issued if it was not
(log 18). -/
theorem settle_verdictExpiry_swap {s : State} {c : Callee} {v : Service} (hc : activeCallee s = some c)
    (hv : s.serve.service = some v) {a : Word} {ops : SwapOps} {issued : Bool} (hw : v.work = .swap a ops issued) :
    SendsFrame (settle (verdictExpiry s))
        (.verdict ⟨.done .stall, v.head.tag, v.head.gen, v.head.terms.map fun _ => ownTerms s, none⟩) ∧
      (settle (verdictExpiry s)).serve.swapMemo = s.serve.swapMemo ∧
      pairSide (settle (verdictExpiry s)) = pairSide s ∧
      ∀ x, s.mem.serve = some x → (settle (verdictExpiry s)).mem.serve = some x := by
  rw [verdictExpiry_swap hv hw]
  have due := verdictDue_giveFirst_swap hv hw (.done .stall) none
  have given := (giveFirst_spec (.done .stall) none s).1
  simp only [beside, Prod.mk.injEq] at given
  obtain ⟨mem, -, -, -, -, -, stage, memo, -⟩ := given
  refine ⟨sendsFrame_settle due (sendsFrame_giveFirst hc hv _ _), ?_, (pairSide_settle due).trans ?_, fun x hx => ?_⟩
  · rw [settle_serve_swapMemo, memo]
  · simp only [pairSide, mem, stage]
  · refine (settles _).issued .serve x ?_
    simpa only [txnOf, mem] using hx

/-- Settles O51: a hold-off and a park timer end in states that a settling leaves; the verdict timer gives the verdict that was
due, after which a settling presents no pair. -/
theorem exchangeTimersExpire : Obligations.ExchangeTimersExpire := by
  refine ⟨fun s u b n => ⟨fun held => ?_, fun withdrawing => ?_, fun parked => ?_⟩,
    fun s c v timer serves hv => ⟨fun _ _ _ _ _ store => ?_, fun _ _ _ swap => ?_⟩⟩
  · exact exec_holdOffExpiry_slot (slotOf_endHoldOff_held held) rfl
  · exact exec_holdOffExpiry_slot (slotOf_endHoldOff_withdrawing withdrawing) rfl
  · exact exec_parkTimerExpiry_slot (slotOf_endPark parked) rfl
  · exact ⟨_, exec_verdictTimerExpiry timer,
      settle_verdictExpiry_store (s := timerStopped s) (activeCallee_of_serves serves) hv store⟩
  · obtain ⟨sends, memo, pair, kept⟩ := settle_verdictExpiry_swap (s := timerStopped s)
      (activeCallee_of_serves serves) hv swap
    exact ⟨_, exec_verdictTimerExpiry timer, sends, memo, swapStage_of_pairSide pair, kept,
      fun x presented isPair => serve_pair_of_pairSide pair presented isPair⟩

end Sys2Proof.Machine
end

section
/-! PROOFS. The end of a RESUME tenure at the responder (R117 to R119): what each outcome makes of the park queue, and that an
end with no outcome decided is a failed resume. -/

namespace Sys2Proof.Machine

/-! ## A tenure that is left -/

/-- The bytes taken of a run that is cut concern the Launch Engine alone. -/
theorem leaveTenure_leaves (s : State) :
    (leaveTenure s).serve = s.serve ∧ (leaveTenure s).station = s.station := by
  have cut : (handCutRun s).serve = s.serve ∧ (handCutRun s).station = s.station := by
    unfold handCutRun
    split
    · split
      · unfold launchRunEnd; split <;> exact ⟨rfl, rfl⟩
      · exact ⟨rfl, rfl⟩
      · exact ⟨rfl, rfl⟩
    · exact ⟨rfl, rfl⟩
  exact cut

theorem outOfTenure_leaveTenure (s : State) : OutOfTenure (leaveTenure s) := ⟨rfl, rfl, rfl, rfl, rfl⟩

theorem OutOfTenure.settle {s : State} (h : OutOfTenure s) : OutOfTenure (settle s) := by
  simpa only [OutOfTenure, settle_bus_tenure, settle_bus_drive_busy, settle_bus_drive_call, settle_bus_drive_answer,
    settle_bus_drive_interject] using h

/-! ## The head of the park queue (R118, R119) -/

section
variable {s : State} {e : ParkEntry} {es : List ParkEntry}

theorem parkedRequests_requeueHead (hq : s.serve.parkQueue = e :: es) (f : ParkEntry → ParkEntry) :
    parkedRequests (requeueHead f s) = (es ++ [f e]).map fun x => { x with chunk := .empty } := by
  simp [parkedRequests, requeueHead, hq]

theorem parkedRequests_removeHead (hq : s.serve.parkQueue = e :: es) :
    parkedRequests (removeHead s) = es.map fun x => { x with chunk := .empty } := by
  simp [parkedRequests, removeHead, hq]

theorem chargedResume_chargeHead (hq : s.serve.parkQueue = e :: es) : ChargedResume s (chargeHead s) e es := by
  simp only [ChargedResume, chargeHead, hq]
  split
  · exact parkedRequests_requeueHead hq _
  · exact parkedRequests_removeHead hq

theorem parkedRequests_acceptHead_data (hq : s.serve.parkQueue = e :: es) {n : Nat} (hc : e.chunk = .readyData n) :
    parkedRequests (acceptHead s) =
      (if e.sent + n < e.total then es ++ [{ e with sent := e.sent + n }] else es).map
        fun x => { x with chunk := .empty } := by
  have accepted : acceptHead s =
      if e.sent + n < e.total then requeueHead (fun e => { e with sent := e.sent + n }) s else removeHead s := by
    simp only [acceptHead, hq, hc]
  rw [accepted]
  split
  · exact parkedRequests_requeueHead hq _
  · exact parkedRequests_removeHead hq

theorem parkedRequests_acceptHead_fault (hq : s.serve.parkQueue = e :: es) (hc : e.chunk = .readyFault) :
    parkedRequests (acceptHead s) = es.map fun x => { x with chunk := .empty } := by
  have removed : acceptHead s = removeHead s := by simp only [acceptHead, hq, hc]
  rw [removed]
  exact parkedRequests_removeHead hq

/-! ## The outcome carried out (R117) -/

theorem requeueHead_bus (f : ParkEntry → ParkEntry) (s : State) : (requeueHead f s).bus = s.bus := by
  unfold requeueHead; split <;> rfl

theorem chargeHead_bus (s : State) : (chargeHead s).bus = s.bus := by
  unfold chargeHead
  split
  · split
    · exact requeueHead_bus _ s
    · rfl
  · rfl

theorem acceptHead_bus (s : State) : (acceptHead s).bus = s.bus := by
  unfold acceptHead
  split
  · split
    · split
      · exact requeueHead_bus _ s
      · rfl
    all_goals rfl
  · rfl

theorem serveResumeEnd_bus (s : State) : (serveResumeEnd s).bus = s.bus := by
  unfold serveResumeEnd
  split
  · rfl
  · dsimp only
    split
    · exact acceptHead_bus _
    · rfl
    · rfl
    all_goals exact chargeHead_bus _

/-- Each outcome acts on the head as R118 and R119 say. -/
theorem resumeEndHanded_serveResumeEnd {r : ResumeTenure} (hq : s.serve.parkQueue = e :: es)
    (hr : s.serve.resume = some r) : ResumeEndHanded s (serveResumeEnd s) e es r := by
  have hq' : ({ s with serve.resume := none } : State).serve.parkQueue = e :: es := hq
  unfold serveResumeEnd
  rw [hr]
  dsimp only
  refine ⟨fun n ho hc => ?_, fun ho hc => ?_, fun ho => ?_, fun ho => ?_⟩
  · rw [ho]; exact parkedRequests_acceptHead_data hq' hc
  · rw [ho]; exact parkedRequests_acceptHead_fault hq' hc
  · rcases ho with ho | ho <;> (rw [ho]; exact parkedRequests_removeHead hq')
  · rcases ho with ho | ho | ⟨f, ho⟩ <;> (rw [ho]; exact chargedResume_chargeHead hq')

/-- What the end does depends on the setup record before and the park queue after it alone. -/
theorem ResumeEndHanded.congr {s' t t' : State} {r : ResumeTenure} (hs : setupOf s' = setupOf s)
    (ht : parkedRequests t' = parkedRequests t) (h : ResumeEndHanded s t e es r) : ResumeEndHanded s' t' e es r := by
  simpa only [ResumeEndHanded, ChargedResume, hs, ht] using h

/-- An end that decides STALL where nothing was decided charges the request as an end without an outcome does (R117). -/
theorem ResumeEndHanded.of_stall {t : State} {r : ResumeTenure}
    (h : ResumeEndHanded s t e es { r with outcome := some (r.outcome.getD (.failed .stall)) }) :
    ResumeEndHanded s t e es r := by
  obtain ⟨data, fault, gone, charged⟩ := h
  refine ⟨fun n ho => data n (by simp [ho]), fun ho => fault (by simp [ho]), fun ho => gone ?_, fun ho => charged ?_⟩
  · exact ho.imp (fun ho => by simp [ho]) fun ho => by simp [ho]
  · rcases ho with ho | ho | ⟨f, ho⟩
    · exact .inr (.inr ⟨.stall, by simp [ho]⟩)
    · exact .inr (.inl (by simp [ho]))
    · exact .inr (.inr ⟨f, by simp [ho]⟩)

/-- The Serve Engine is handed the end of the tenure that it held, and what follows leaves the requests parked. -/
theorem settle_endCaller_serve {c : Caller} {r : ResumeTenure} (hg : c.grantee = .serve)
    (hq : s.serve.parkQueue = e :: es) (hr : s.serve.resume = some r) :
    OutOfTenure (settle (endCaller c s)) ∧ ResumeEndHanded s (settle (endCaller c s)) e es r := by
  obtain ⟨serve, station⟩ := leaveTenure_leaves s
  have handed : endCaller c s = serveResumeEnd (leaveTenure s) := by simp [endCaller, handCallerEnd, hg]
  rw [handed]
  constructor
  · have out := outOfTenure_leaveTenure s
    simp only [OutOfTenure, ← serveResumeEnd_bus (leaveTenure s)] at out
    exact OutOfTenure.settle out
  · exact (resumeEndHanded_serveResumeEnd (by rw [serve]; exact hq) (by rw [serve]; exact hr)).congr
      (by simp only [setupOf, station]) (settles _).parked

end

/-- Settles O28: with the course finished, or an interject, the outcome stands as it is; otherwise the end decides STALL
first, which charges the request as no outcome does. -/
theorem endCarriesOutTheResume : Obligations.EndCarriesOutTheResume := by
  intro s c e es r tenure answered grantee queue resume
  have stalled : handCallerFault c .stall s = { s with
      serve.resume := some { r with outcome := some (r.outcome.getD (.failed .stall)) } } := by
    simp [handCallerFault, grantee, decideResume, resume]
  by_cases decided : (c.finished || s.bus.drive.interject) = true
  · exact ⟨_, by simp [exec, execAnswerNegatedSeen, tenure, answered, decided],
      settle_endCaller_serve grantee queue resume⟩
  · obtain ⟨out, handed⟩ := settle_endCaller_serve (c := c) (s := handCallerFault c .stall s) grantee
      (by rw [stalled]; exact queue) (by rw [stalled])
    refine ⟨_, by simp [exec, execAnswerNegatedSeen, tenure, answered, decided], out, ?_⟩
    exact (handed.congr (by rw [stalled]; rfl) rfl).of_stall

end Sys2Proof.Machine
end

section
/-! PROOFS. Inbound runs and their entries through a settling: an entry to which no ended run reports stays as it is, and the
run that a tenure in progress has just opened stays the last. -/

namespace Sys2Proof.Machine

/-! ## Ended runs and the tags that they report to -/

/-- For each inbound run, the tag whose record it reports to and whether it has ended. -/
def marks (s : State) : List (Option Tag × Bool) := s.bus.runs.map fun r => (reportsTo r, r.ended)

/-- An ended run reports to the record of this tag: what follows an event may mark that record run drained (R101, R127). -/
def drainable (s : State) (u : Tag) : Prop := (some u, true) ∈ marks s

theorem drainable_iff (s : State) (u : Tag) :
    drainable s u ↔ ∃ r ∈ s.bus.runs, reportsTo r = some u ∧ r.ended = true := by
  simp [drainable, marks]

theorem marks_congr {s t : State} (h : t.bus.runs = s.bus.runs) : marks t = marks s := by simp only [marks, h]

theorem not_drainable_of_not_draining {s : State} {u : Tag} (h : ¬ draining s u) : ¬ drainable s u := fun k => by
  obtain ⟨r, hr, hu, -⟩ := (drainable_iff s u).mp k
  exact h ⟨r, hr, hu⟩

/-- A write that is issued moves its run on, and neither ends it nor closes its item. -/
theorem marks_storeWrite {s t : State} (h : storeWrite s = some t) : marks t = marks s := by
  unfold storeWrite at h
  split at h
  · next r rs hr =>
    split at h
    · next j hj _ =>
      dsimp only at h
      split at h
      · cases h
      · cases h; simp [marks, present, setTxn, hr, reportsTo, hj]
    · cases h
  · cases h

theorem marks_presentServe (s : State) : marks (presentServe s) = marks s := by
  unfold presentServe
  split
  · rfl
  · split
    · next h => exact marks_storeWrite h
    · split
      · rfl
      · split
        · next h => exact marks_congr (fetchRead_runs h).1
        · split
          · rfl
          · exact marks_congr (presentFill_runs s).1

theorem marks_presentMover (s : State) : marks (presentMover s) = marks s := by
  have read : marks (presentOutRead s) = marks s := marks_congr (presentOutRead_runs s).1
  unfold presentMover
  split
  · rfl
  · exact read
  · next r rs _ hr =>
    split
    · next i hi _ =>
      split
      · exact read
      · dsimp only
        split
        · exact read
        · simp [marks, present, setTxn, hr, reportsTo, hi]
    · exact read

theorem marks_afterPump (s : State) : marks (presentAll (placeOutbound (serveProgress s))) = marks s :=
  calc marks (presentAll (placeOutbound (serveProgress s)))
      = marks (presentMover (presentServe (placeOutbound (serveProgress s)))) := marks_congr (presentLister_runs _).1
    _ = marks (placeOutbound (serveProgress s)) := (marks_presentMover _).trans (marks_presentServe _)
    _ = marks s := (marks_congr (placeOutbound_flow _).1).trans (marks_congr (serveProgress_runs s).1)

theorem marks_feedNote (s : State) : marks (feedNote s) = marks s := by
  simp only [marks, (feedNote_spec s).1]
  cases hr : s.bus.runs with
  | nil => rfl
  | cons r rs =>
    simp only [fedRuns, List.map_cons]
    split
    · next hn => simp [reportsTo, hn]
    · rfl

theorem discardBytes_ended (r : InRun) : (discardBytes r).ended = r.ended := by
  unfold discardBytes; split <;> rfl

theorem ended_of_runGone {r : InRun} (h : runGone r = true) : r.ended = true := by
  simp only [runGone, Bool.and_eq_true] at h
  exact h.1.1

/-- The runs that stay keep their marks, and the items that leave are those of ended runs. -/
theorem drainRuns_marks (rs : List InRun) :
    (∀ r ∈ (drainRuns rs).1, ∃ q ∈ rs, reportsTo r = reportsTo q ∧ r.ended = q.ended) ∧
      ∀ i ∈ (drainRuns rs).2, ∃ q ∈ rs, q.sink = .mover i ∧ q.ended = true := by
  induction rs with
  | nil => constructor <;> intro _ h <;> cases h
  | cons r rs ih =>
    obtain ⟨stay, leave⟩ := ih
    unfold drainRuns
    split
    · next gone =>
      refine ⟨fun x hx => ?_, fun i hi => ?_⟩
      · obtain ⟨q, hq, e⟩ := stay x hx
        exact ⟨q, List.mem_cons_of_mem _ hq, e⟩
      · rcases List.mem_append.mp hi with hi | hi
        · exact ⟨r, List.mem_cons_self .., sink_of_mem_itemsOf hi,
            (discardBytes_ended r).symm.trans (ended_of_runGone gone)⟩
        · obtain ⟨q, hq, e⟩ := leave i hi
          exact ⟨q, List.mem_cons_of_mem _ hq, e⟩
    · refine ⟨fun x hx => ?_, fun i hi => ?_⟩
      · rcases List.mem_cons.mp hx with rfl | hx
        · exact ⟨r, List.mem_cons_self .., reportsTo_discardBytes r, discardBytes_ended r⟩
        · exact ⟨x, List.mem_cons_of_mem _ (List.mem_filter.mp hx).1, rfl, rfl⟩
      · obtain ⟨q, hq, hi⟩ := List.mem_flatMap.mp hi
        obtain ⟨hq, gone⟩ := List.mem_filter.mp hq
        exact ⟨q, List.mem_cons_of_mem _ hq, sink_of_mem_itemsOf hi, ended_of_runGone gone⟩

/-- What changes the items of other tags alone makes no run report to this one. -/
theorem Tables.drainable {s t : State} {u : Tag} (h : Tables (· ≠ u) s t) (k : Machine.drainable t u) :
    Machine.drainable s u := by
  obtain ⟨f, hf, hq⟩ := h.runs
  obtain ⟨r, hr, hu, he⟩ := (drainable_iff t u).mp k
  rw [hf] at hr
  obtain ⟨q, mem, rfl⟩ := List.mem_map.mp hr
  obtain ⟨⟨-, -, -, -, -, other, item⟩, same⟩ := hq q
  have outside : ItemOutside (· ≠ u) q := fun i hi => by
    obtain ⟨j, hj, tag, -⟩ := item i hi
    simp only [reportsTo, hj] at hu
    split at hu
    · simpa [tag] using hu
    · cases hu
  rw [same outside] at hu he
  exact (drainable_iff s u).mpr ⟨q, mem, hu, he⟩

/-- Items of other tags drain their own records alone. -/
theorem itemsDrained_other {u : Tag} {is : List MoverItem} (h : ∀ i ∈ is, i.tag ≠ u) (s : State) :
    slotOf (is.foldl (fun s i => itemDrained i s) s) u = slotOf s u ∧
      (drainable (is.foldl (fun s i => itemDrained i s) s) u → drainable s u) :=
  ⟨(Settles.foldl (P := (· ≠ u)) _ is (fun i hi s => .itemDrained (fun _ => h i hi) s) s).record u (fun k => k rfl),
    (Tables.foldl (P := (· ≠ u)) _ is (fun i hi _ => .itemDrained fun _ => h i hi) s).drainable⟩

theorem pump_of_not_drainable {s : State} {u : Tag} (h : ¬ drainable s u) :
    slotOf (pump s) u = slotOf s u ∧ ¬ drainable (pump s) u := by
  have fed : ¬ drainable (feedNote s) u := by simpa only [drainable, marks_feedNote] using h
  obtain ⟨stay, leave⟩ := drainRuns_marks (feedNote s).bus.runs
  have others : ∀ i ∈ itemsByAcc (feedNote s) (drainRuns (feedNote s).bus.runs).2, i.tag ≠ u := fun i hi tag => by
    obtain ⟨hi, isOpen⟩ := mem_itemsByAcc.mp hi
    obtain ⟨q, hq, sink, ended⟩ := leave i hi
    exact fed ((drainable_iff _ u).mpr ⟨q, hq, by simp [reportsTo, sink, isOpen, tag], ended⟩)
  obtain ⟨slot, back⟩ := itemsDrained_other others
    { feedNote s with bus.runs := (drainRuns (feedNote s).bus.runs).1 }
  refine ⟨slot.trans (slotOf_congr (congrArg Launch.entries (feedNote_spec s).2.2.1) u), fun k => fed ?_⟩
  obtain ⟨r, hr, hu, he⟩ := (drainable_iff _ u).mp (back k)
  obtain ⟨q, hq, tag, ended⟩ := stay r hr
  exact (drainable_iff _ u).mpr ⟨q, hq, tag ▸ hu, ended ▸ he⟩

theorem pass_of_not_drainable {s : State} {u : Tag} (h : ¬ drainable s u) :
    slotOf (pass s) u = slotOf s u ∧ ¬ drainable (pass s) u := by
  obtain ⟨slot, kept⟩ := pump_of_not_drainable h
  refine ⟨((Settles.afterPump (P := fun _ => False) (pump s)).record u id).trans slot, ?_⟩
  simpa only [drainable, pass, marks_afterPump] using kept

/-- What follows an event leaves an entry to which no ended run reports. -/
theorem slotOf_settle_of_not_drainable {s : State} {u : Tag} (h : ¬ drainable s u) :
    slotOf (settle s) u = slotOf s u := by
  obtain ⟨slot1, h1⟩ := pass_of_not_drainable h
  obtain ⟨slot2, h2⟩ := pass_of_not_drainable h1
  obtain ⟨slot3, -⟩ := pass_of_not_drainable h2
  exact ((Settles.afterPasses (P := fun _ => False) _).record u id).trans (slot3.trans (slot2.trans slot1))

/-! ## The run of a tenure in progress -/

theorem KeepsRecords.tenureRuns {s t : State} (k : KeepsRecords s t) {u : Tag}
    (h : Machine.tenureRuns (slotOf s u) = true) : Machine.tenureRuns (slotOf t u) = true := by
  rw [← tenureRuns_undrained, k u h, tenureRuns_undrained]; exact h

/-- While its tenure has not ended, an entry is marked run drained and no more: its outcome waits. -/
theorem runs_itemDrained_of_tenureRuns {i : MoverItem} {s : State} (h : tenureRuns (slotOf s i.tag) = true) :
    (itemDrained i s).bus.runs = s.bus.runs := by
  unfold itemDrained
  split
  · cases hs : slotOf s i.tag with
    | live b p =>
      rw [hs] at h
      cases p with
      | connOpen o r =>
        have running : r.ended = false := by simpa [tenureRuns] using h
        simp [modifyOpen, modifyResume, settleOpen, settleResume, liveOf, hs, openOver, running]
      | connResume left r =>
        have running : r.ended = false := by simpa [tenureRuns] using h
        simp [modifyOpen, modifyResume, settleOpen, settleResume, liveOf, hs, resumeOver, running]
      | _ => cases h
    | _ => rw [hs] at h; cases h
  · rfl

/-- The tenure of the entry `u` has not ended, and its run `r`, of which no byte has come, stands last. -/
structure RunStands (u : Tag) (r : InRun) (s : State) : Prop where
  running : tenureRuns (slotOf s u) = true
  last : ∃ rs, s.bus.runs = rs ++ [r]

section
variable {u : Tag} {r : InRun} {s : State}

/-- No item that leaves closes that run: one of another tag concerns other runs, one of this tag waits for the tenure. -/
theorem RunStands.itemDrained (owner : ∀ i, r.sink = .mover i → i.tag = u) (h : RunStands u r s) (i : MoverItem) :
    RunStands u r (itemDrained i s) where
  running := (KeepsRecords.itemDrained i s).tenureRuns h.running
  last := by
    obtain ⟨rs, hr⟩ := h.last
    by_cases tag : i.tag = u
    · exact ⟨rs, (runs_itemDrained_of_tenureRuns (by rw [tag]; exact h.running)).trans hr⟩
    · obtain ⟨f, hf, hq⟩ := (Tables.itemDrained (P := (· = i.tag)) (s := s) fun _ => rfl).runs
      have same : f r = r := (hq r).2 fun j hj e => tag (e.symm.trans (owner j hj))
      exact ⟨rs.map f, by rw [hf, hr, List.map_append, List.map_singleton, same]⟩

theorem RunStands.itemsDrained (owner : ∀ i, r.sink = .mover i → i.tag = u) (is : List MoverItem)
    (h : RunStands u r s) : RunStands u r (is.foldl (fun s i => Machine.itemDrained i s) s) := by
  induction is generalizing s with
  | nil => exact h
  | cons i is ih => exact ih (h.itemDrained owner i)

theorem RunStands.pump (owner : ∀ i, r.sink = .mover i → i.tag = u) (fresh : r.ended = false) (empty : r.bytes = [])
    (h : RunStands u r s) : RunStands u r (pump s) := by
  obtain ⟨runs, -, launch, -⟩ := feedNote_spec s
  have left : RunStands u r { feedNote s with bus.runs := (drainRuns (feedNote s).bus.runs).1 } := by
    constructor
    · show tenureRuns (slotOf (feedNote s) u) = true
      rw [slotOf_congr (congrArg Launch.entries launch)]; exact h.running
    · obtain ⟨rs, hr⟩ := h.last
      obtain ⟨xs, hx⟩ := fedRuns_last rs empty
      obtain ⟨ys, hy⟩ := drainRuns_last xs fresh empty
      exact ⟨ys, by rw [runs, hr, hx, hy]⟩
  exact left.itemsDrained owner _

theorem RunStands.pass (owner : ∀ i, r.sink = .mover i → i.tag = u) (fresh : r.ended = false) (empty : r.bytes = [])
    (h : RunStands u r s) : RunStands u r (pass s) where
  running := (KeepsRecords.pass s).tenureRuns h.running
  last := by
    obtain ⟨rs, hr⟩ := (h.pump owner fresh empty).last
    have placed := (placeOutbound_flow (serveProgress (Machine.pump s))).1
    exact presentAll_last (placed.trans ((serveProgress_runs (Machine.pump s)).1.trans hr)) empty

/-- What follows an event leaves the run that the tenure has just opened. -/
theorem RunStands.settle (owner : ∀ i, r.sink = .mover i → i.tag = u) (fresh : r.ended = false) (empty : r.bytes = [])
    (h : RunStands u r s) : ∃ rs, (settle s).bus.runs = rs ++ [r] := by
  obtain ⟨rs, hr⟩ := (((h.pass owner fresh empty).pass owner fresh empty).pass owner fresh empty).last
  exact ⟨rs, by unfold Machine.settle; rw [runs_afterPasses, hr]⟩

end

end Sys2Proof.Machine
end

section
/-! PROOFS. A RESUME head at the requester (R124 to R127, R158): the answer by the state of its entry, what the answer does to
that entry at once, and what is left of it when all that follows has been carried out. -/

namespace Sys2Proof.Machine

/-! ## The answer (R124, R125) -/

section
variable {s : State} {h : ResumeHead} {b : Body}

/-- A head matches its entry as R124 says, but for the state of the entry and the terms of the source. -/
theorem resumeFits_eq (g : Gen) (b : Body) (h : ResumeHead) :
    resumeFits g b h = decide (g = h.gen ∧ b.peer = h.source ∧ bodyKind b = .fetch ∧
      if h.fault then h.chunkLength.toNat = 0
      else h.chunkLength.toNat ≠ 0 ∧ h.chunkOffset.toNat + h.chunkLength.toNat ≤ b.length ∧
        (h.chunkOffset.toNat = b.bytesDone ∨ h.chunkOffset.toNat + h.chunkLength.toNat = b.bytesDone)) := by
  rw [Bool.eq_iff_iff, decide_eq_true_eq]
  cases fault : h.fault <;> simp [resumeFits, isFetch, fault, and_assoc]

theorem resumeAnswer_gone (gone : ∀ b p, slotOf s h.tag ≠ .live b p) : resumeAnswer s h = .stale := by
  simp only [resumeAnswer, liveOf_eq_none.mpr gone]

theorem resumeAnswer_withdrawing {hold : Option Time} (live : slotOf s h.tag = .live b (.withdrawing hold)) :
    resumeAnswer s h = if resumeFits (genOf s h.tag) b h then .withdrawn else .stale := by
  simp only [resumeAnswer, liveOf_eq_some.mpr live]

theorem resumeAnswer_parked {left : Time} (live : slotOf s h.tag = .live b (.parked left)) :
    resumeAnswer s h =
      if resumeFits (genOf s h.tag) b h then
        if h.fault then .accept
        else if (termsOf s h.source).isNone then .stale
        else .proceed (h.chunkOffset.toNat != b.bytesDone)
      else .stale := by
  simp only [resumeAnswer, liveOf_eq_some.mpr live]

/-- A head that names an entry in another state, that does not match, or that brings data from a source with UNKNOWN terms to a
PARKED entry is STALE (R124). -/
theorem resumeAnswer_stale {p : Phase} (live : slotOf s h.tag = .live b p)
    (why : resumeFits (genOf s h.tag) b h = false ∨
      ((∀ left, p ≠ .parked left) ∧ ∀ hold, p ≠ .withdrawing hold) ∨
      ((∃ left, p = .parked left) ∧ h.fault = false ∧ termsOf s h.source = none)) :
    resumeAnswer s h = .stale := by
  cases p with
  | parked left =>
    rw [resumeAnswer_parked live]
    rcases why with unfit | ⟨parked, -⟩ | ⟨-, data, unknown⟩
    · simp [unfit]
    · exact absurd rfl (parked left)
    · simp [data, unknown]
  | withdrawing hold =>
    rw [resumeAnswer_withdrawing live]
    rcases why with unfit | ⟨-, withdrawing⟩ | ⟨⟨_, parked⟩, -⟩
    · simp [unfit]
    · exact absurd rfl (withdrawing hold)
    · cases parked
  | _ => simp only [resumeAnswer, liveOf_eq_some.mpr live]

/-! What each answer but STALE does to the entry at once (R125, R127, R158). -/

theorem applyResume_withdrawn {p : Phase} (live : slotOf s h.tag = .live b p) :
    applyResume h .withdrawn s = complete h.tag (withdrawalStatus b) s := by
  simp only [applyResume, liveOf_eq_some.mpr live]

theorem applyResume_accept {left : Time} (live : slotOf s h.tag = .live b (.parked left)) :
    applyResume h .accept s =
      setLive h.tag b (.connResume left (freshResume h false .accept (some .remoteFault))) s := by
  simp only [applyResume, liveOf_eq_some.mpr live]

theorem applyResume_proceed {left : Time} (live : slotOf s h.tag = .live b (.parked left)) (isRepeat : Bool) :
    applyResume h (.proceed isRepeat) s =
      openRun (.mover (moverItem h.tag b.segs (some h.chunkOffset.toNat) isRepeat)) h.chunkLength.toNat
        (setLive h.tag b (.connResume left (freshResume h isRepeat .proceed none)) s) := by
  simp only [applyResume, liveOf_eq_some.mpr live]

end

/-! ## The head is taken -/

/-- The last beat of the head has been latched and taken, and the frame register is empty. -/
def headLatched (s : State) : State :=
  { s with
    bus.rx := []
    bus.observed := true
    bus.takesGiven := s.bus.takesGiven + 1
    bus.stallTimer := none }

/-- The head has been handed to the Launch Engine, which owns the tenure and engages the entry as the answer says. -/
def resumeHanded (c : Callee) (h : ResumeHead) (a : ResumeAnswer) (s : State) : State :=
  { headLatched s with
    bus.tenure :=
      .callee { c with headReceived := true, tag := h.tag, gen := h.gen, owner := some (.launch (a.engaged h.tag)) } }

/-- The verdict of an answer to a RESUME head. -/
def resumeVerdict (h : ResumeHead) (a : ResumeAnswer) : Verdict := ⟨a.verdict, h.tag, h.gen, none, none⟩

/-- The answer has been applied to the entry, and its verdict is given. -/
def resumeAnswered (c : Callee) (h : ResumeHead) (a : ResumeAnswer) (s : State) : State :=
  giveVerdict (resumeVerdict h a) (applyResume h a (resumeHanded c h a s))

section
variable {s : State} {c : Callee} {h : ResumeHead} {a : ResumeAnswer}

/-- The beat that completes an undamaged RESUME head for this station has its answer given, and what follows carried out. -/
theorem exec_resumeHead {d : Beat} {dp : BitVec 2} (serves : Serves s c) (waits : c.headReceived = false)
    (whole : CompletesFrame s d dp (some (.head (.resume h)))) (target : h.target = s.station.strap)
    (source : h.source = c.caller) (clash : h.source ≠ s.station.strap) :
    exec (.beatLatched d dp true) s = .next (settle (resumeAnswered c h (resumeAnswer s h) s)) := by
  obtain ⟨tenure, finished, clearing⟩ := serves
  obtain ⟨full, frame⟩ := whole
  have latched : latchBeat d dp true s = calleeHeadBeat c d dp true (restartStall s) := by
    simp [latchBeat, tenure, finished, calleeBeat, clearing, waits]
  have handed : calleeHeadBeat c d dp true (restartStall s) =
      takeResume { c with headReceived := true, tag := h.tag, gen := h.gen } h (headLatched s) := by
    have strap : c.caller ≠ s.station.strap := source ▸ clash
    simp [calleeHeadBeat, register, giveTake, restartStall, full, frame, calleeHead, showsClash, takeHead, Head.addressed,
      Head.target, Head.source, Head.tag, Head.gen, target, source, strap, handHead, emptyRegister, headLatched]
  show Host.Outcome.next (settle (latchBeat d dp true s)) = _
  rw [latched, handed]
  rfl

/-- Giving a verdict changes neither the tables nor the runs. -/
theorem giveVerdict_leaves (v : Verdict) (s : State) : (giveVerdict v s).launch = s.launch ∧
    (giveVerdict v s).port = s.port ∧ (giveVerdict v s).bus.runs = s.bus.runs ∧
    (giveVerdict v s).bus.takesGiven = s.bus.takesGiven := by
  unfold giveVerdict
  split
  · unfold sendFrame; split <;> exact ⟨rfl, rfl, rfl, rfl⟩
  · exact ⟨rfl, rfl, rfl, rfl⟩

/-- The answer concerns the entry and its run alone. -/
theorem applyResume_leaves (h : ResumeHead) (a : ResumeAnswer) (s : State) :
    (applyResume h a s).bus.tenure = s.bus.tenure ∧ (applyResume h a s).serve = s.serve ∧
      (applyResume h a s).bus.takesGiven = s.bus.takesGiven := by
  unfold applyResume
  split
  · next live => rw [complete_eq (liveOf_eq_some.mp live)]; exact ⟨rfl, rfl, rfl⟩
  · exact ⟨rfl, rfl, rfl⟩
  · exact ⟨rfl, rfl, rfl⟩
  · exact ⟨rfl, rfl, rfl⟩

theorem slotOf_resumeAnswered (u : Tag) :
    slotOf (resumeAnswered c h a s) u = slotOf (applyResume h a (resumeHanded c h a s)) u :=
  slotOf_congr (congrArg Launch.entries (giveVerdict_leaves _ _).1) u

theorem runs_resumeAnswered :
    (resumeAnswered c h a s).bus.runs = (applyResume h a (resumeHanded c h a s)).bus.runs :=
  (giveVerdict_leaves _ _).2.2.1

/-- The answer's verdict is being sent after all that follows: the Serve Engine had no verdict to give, and has none now. -/
theorem settle_resumeAnswered_sends (serves : Serves s c) (quiet : verdictDue s = false) :
    (settle (resumeAnswered c h a s)).bus.takesGiven = s.bus.takesGiven + 1 ∧
      SendsFrame (settle (resumeAnswered c h a s)) (.verdict (resumeVerdict h a)) := by
  obtain ⟨tenure, serve, takes⟩ := applyResume_leaves h a (resumeHanded c h a s)
  obtain ⟨-, -, -, takes'⟩ := giveVerdict_leaves (resumeVerdict h a) (applyResume h a (resumeHanded c h a s))
  obtain ⟨-, serve', -⟩ := beside_giveVerdict (resumeVerdict h a) (applyResume h a (resumeHanded c h a s))
  have active : activeCallee (applyResume h a (resumeHanded c h a s)) = some
      { c with headReceived := true, tag := h.tag, gen := h.gen, owner := some (.launch (a.engaged h.tag)) } :=
    activeCallee_of_serves ⟨tenure, serves.2.1, serves.2.2⟩
  have waiting : s.serve.service.any serviceOpen = false := by
    simpa [verdictDue, activeCallee_of_serves serves] using quiet
  have silent : verdictDue (resumeAnswered c h a s) = false := by
    have service : (resumeAnswered c h a s).serve.service = s.serve.service :=
      congrArg Serve.service (serve'.trans serve)
    simp only [verdictDue, service, waiting, Bool.and_false]
  exact ⟨(settle_bus_takesGiven _).trans (takes'.trans takes), sendsFrame_settle silent (sendsFrame_giveVerdict active _)⟩

/-! ## The entry after each answer -/

/-- STALE leaves the entry as it is (R124). -/
theorem slotOf_settle_stale (stays : connected (slotOf s h.tag) = false ∨ ¬ draining s h.tag) :
    slotOf (settle (resumeAnswered c h .stale s)) h.tag = slotOf s h.tag := by
  have same : slotOf (resumeAnswered c h .stale s) h.tag = slotOf s h.tag := slotOf_resumeAnswered h.tag
  rcases stays with away | idle
  · exact (slotOf_settle (by rw [same]; exact away)).trans same
  · refine (slotOf_settle_of_not_drainable (not_drainable_of_not_draining fun k => idle ?_)).trans same
    obtain ⟨r, hr, hu⟩ := k
    rw [runs_resumeAnswered] at hr
    exact ⟨r, hr, hu⟩

theorem noticeSet_setNotice (n : Notice) (s : State) : noticeSet n (setNotice n s) = true := by
  have bit : ∀ x : BitVec 6, (x ||| n.bit) &&& n.bit != 0 := by cases n <;> decide
  exact bit _

/-- WITHDRAWN completes the WITHDRAWING entry with its withdrawal status (R154, R158). -/
theorem completedAs_settle_withdrawn {b : Body} {p : Phase} (live : slotOf s h.tag = .live b p) :
    CompletedAs s (settle (resumeAnswered c h .withdrawn s)) h.tag b (withdrawalStatus b) := by
  have live' : slotOf (resumeHanded c h .withdrawn s) h.tag = .live b p := live
  obtain ⟨launch, port, -⟩ := giveVerdict_leaves (resumeVerdict h .withdrawn)
    (complete h.tag (withdrawalStatus b) (resumeHanded c h .withdrawn s))
  have slot := slotOf_complete live' (withdrawalStatus b) h.tag
  rw [if_pos rfl, ← slotOf_congr (congrArg Launch.entries launch)] at slot
  rw [resumeAnswered, applyResume_withdrawn live']
  refine ⟨(slotOf_settle (by rw [slot]; rfl)).trans slot, ?_, ?_, settle_noticeSet ?_⟩
  · exact (genOf_settle _ _).trans ((genOf_congr (congrArg Launch.entries launch) _).trans (genOf_complete _ _ _ _))
  · have reports := (congrArg Port.reports port).trans (reports_complete live' (withdrawalStatus b))
    exact reports ▸ settle_reports _
  · rw [complete_eq live'] at port ⊢
    simp only [noticeSet, port]
    exact noticeSet_setNotice .reportReady _

/-- A FAULT chunk makes the PARKED entry CONNECTED, its outcome decided (R125, R126). -/
theorem slotOf_settle_accept {b : Body} {left : Time} (live : slotOf s h.tag = .live b (.parked left))
    (idle : ¬ draining s h.tag) : slotOf (settle (resumeAnswered c h .accept s)) h.tag =
      .live b (.connResume left (freshResume h false .accept (some .remoteFault))) := by
  have live' : slotOf (resumeHanded c h .accept s) h.tag = .live b (.parked left) := live
  rw [slotOf_settle_of_not_drainable, slotOf_resumeAnswered, applyResume_accept live', slotOf_setLive, if_pos rfl]
  refine not_drainable_of_not_draining fun ⟨r, hr, hu⟩ => idle ⟨r, ?_, hu⟩
  rw [runs_resumeAnswered, applyResume_accept live'] at hr
  exact hr

/-- The run that PROCEED opens for the chunk (R127). -/
def chunkRunOf (h : ResumeHead) (b : Body) (isRepeat : Bool) : InRun :=
  ⟨.mover (moverItem h.tag b.segs (some h.chunkOffset.toNat) isRepeat), h.chunkLength.toNat, 0, [], false, none⟩

theorem slotOf_resumeAnswered_proceed {b : Body} {left : Time} {isRepeat : Bool}
    (live : slotOf s h.tag = .live b (.parked left)) :
    slotOf (resumeAnswered c h (.proceed isRepeat) s) h.tag =
      .live b (.connResume left (freshResume h isRepeat .proceed none)) := by
  have live' : slotOf (resumeHanded c h (.proceed isRepeat) s) h.tag = .live b (.parked left) := live
  rw [slotOf_resumeAnswered, applyResume_proceed live']
  exact (slotOf_setLive ..).trans (if_pos rfl)

theorem runs_resumeAnswered_proceed {b : Body} {left : Time} {isRepeat : Bool}
    (live : slotOf s h.tag = .live b (.parked left)) :
    (resumeAnswered c h (.proceed isRepeat) s).bus.runs = s.bus.runs ++ [chunkRunOf h b isRepeat] := by
  have live' : slotOf (resumeHanded c h (.proceed isRepeat) s) h.tag = .live b (.parked left) := live
  rw [runs_resumeAnswered, applyResume_proceed live']; rfl

/-- PROCEED makes the PARKED entry CONNECTED; the run that it opens has not ended, and drains nothing (R125, R126). -/
theorem slotOf_settle_proceed {b : Body} {left : Time} {isRepeat : Bool}
    (live : slotOf s h.tag = .live b (.parked left)) (idle : ¬ draining s h.tag) :
    slotOf (settle (resumeAnswered c h (.proceed isRepeat) s)) h.tag =
      .live b (.connResume left (freshResume h isRepeat .proceed none)) := by
  rw [slotOf_settle_of_not_drainable, slotOf_resumeAnswered_proceed live]
  intro k
  obtain ⟨r, hr, hu, ended⟩ := (drainable_iff _ _).mp k
  rw [runs_resumeAnswered_proceed live] at hr
  rcases List.mem_append.mp hr with hr | hr
  · exact idle ⟨r, hr, hu⟩
  · rw [List.mem_singleton.mp hr] at ended
    cases ended

/-- The run of the chunk stands last (R127). -/
theorem runs_settle_proceed {b : Body} {left : Time} {isRepeat : Bool}
    (live : slotOf s h.tag = .live b (.parked left)) :
    ∃ rs, (settle (resumeAnswered c h (.proceed isRepeat) s)).bus.runs = rs ++ [chunkRunOf h b isRepeat] :=
  RunStands.settle (u := h.tag) (fun i hi => by cases hi; rfl) rfl rfl
    ⟨by rw [slotOf_resumeAnswered_proceed live]; rfl, _, runs_resumeAnswered_proceed live⟩

end

/-! ## The verdict after the run (R128) -/

/-- Local fault, cancel pending and parity failure are looked at in this order; a repeat changes the bytes done alone. -/
theorem runEndVerdict_eq (b : Body) (r : ResumeRecord) : runEndVerdict b r =
    if r.localFault then (.withdrawn, .localFault, b.bytesDone)
    else if b.cancel then (.withdrawn, .cancelled, b.bytesDone)
    else if r.parityFail then (.resend, .resend, b.bytesDone)
    else (.accept, .accepted, if r.isRepeat then b.bytesDone else b.bytesDone + r.chunkLength) := by
  simp only [runEndVerdict]
  cases r.isRepeat <;> rfl

/-- Settles O37: the answer follows from the state of the entry that the head names, and what follows the answer leaves that
entry and the run that it opened. -/
theorem resumeIsAnsweredByRule : Obligations.ResumeIsAnsweredByRule := by
  refine ⟨?_, runEndVerdict_eq⟩
  rintro d dp s c h _ _ serves waits rfl full frame target source clash quiet rfl
  have sends := fun a => settle_resumeAnswered_sends (h := h) (a := a) serves quiet
  refine ⟨_, exec_resumeHead serves waits ⟨full, frame⟩ target source clash, (sends _).1, fun gone => ?_, ?_⟩
  · rw [resumeAnswer_gone gone]
    refine ⟨(sends .stale).2, slotOf_settle_stale (.inl ?_)⟩
    cases slot : slotOf s h.tag with
    | live b p => exact absurd slot (gone b p)
    | _ => rfl
  · rintro b p fits live fitting
    rw [← resumeFits_eq] at fitting
    refine ⟨?_, ?_, ?_, fun why => ?_⟩
    · rintro hold rfl rfl
      rw [resumeAnswer_withdrawing live, if_pos fitting.symm]
      exact ⟨(sends .withdrawn).2, completedAs_settle_withdrawn live⟩
    · rintro left rfl rfl fault
      rw [resumeAnswer_parked live, if_pos fitting.symm, if_pos fault]
      exact ⟨(sends .accept).2, slotOf_settle_accept live⟩
    · rintro left isRepeat rfl rfl data known begins
      have answer : resumeAnswer s h = .proceed isRepeat := by
        have differs : (h.chunkOffset.toNat != b.bytesDone) = isRepeat := by
          rw [begins, Bool.eq_iff_iff, bne_iff_ne, decide_eq_true_eq]
        rw [resumeAnswer_parked live, if_pos fitting.symm, if_neg (ne_true_of_eq_false data),
          if_neg (mt Option.isNone_iff_eq_none.mp known), differs]
      rw [answer]
      exact ⟨(sends (.proceed isRepeat)).2, slotOf_settle_proceed live, runs_settle_proceed live⟩
    · rw [resumeAnswer_stale live (fitting ▸ why)]
      exact ⟨(sends .stale).2, fun idle => (slotOf_settle_stale (.inr idle)).trans live⟩

end Sys2Proof.Machine
end

section
/-! PROOFS. The end of a WITHDRAW tenure at its caller (R13, R154 to R156): the completion of an entry through a settling, and
what the end of the tenure makes of the withdraw outcome. -/

namespace Sys2Proof.Machine

/-! ## A completion through a settling (R83) -/

/-- What a completion and a charge read of the state before them: the generation, the Report queue and the setup record. -/
def chargedFrom (s : State) (u : Tag) := (genOf s u, s.port.reports, setupOf s)

section
variable {s m t : State} {u : Tag} {b : Body}

theorem CompletedAs.congr {st : Status} (same : chargedFrom m u = chargedFrom s u) (h : CompletedAs m t u b st) :
    CompletedAs s t u b st := by
  simp only [chargedFrom, Prod.mk.injEq] at same
  simpa only [CompletedAs, same] using h

theorem ChargedWithdraw.congr (same : chargedFrom m u = chargedFrom s u) (h : ChargedWithdraw m t u b) :
    ChargedWithdraw s t u b := by
  have setup : setupOf m = setupOf s := congrArg (fun x => x.2.2) same
  unfold ChargedWithdraw at h ⊢
  rw [setup] at h
  split
  · next budget => rwa [if_pos budget] at h
  · next spent => rw [if_neg spent] at h; exact h.congr same

theorem WithdrawEndHanded.congr {x : Option WithdrawOutcome} (same : chargedFrom m u = chargedFrom s u)
    (h : WithdrawEndHanded m t u b x) : WithdrawEndHanded s t u b x :=
  ⟨fun cleared => (h.1 cleared).congr same, fun failed => (h.2 failed).congr same⟩

/-- What follows a completion leaves the entry REPORTED, its record in the Report queue and the notice set. -/
theorem completedAs_settle_complete {p : Phase} (live : slotOf s u = .live b p) (st : Status) :
    CompletedAs s (settle (complete u st s)) u b st := by
  have slot := slotOf_complete live st u
  rw [if_pos rfl] at slot
  refine ⟨(slotOf_settle (by rw [slot]; rfl)).trans slot, ?_, ?_, settle_noticeSet ?_⟩
  · exact (genOf_settle _ _).trans (genOf_complete ..)
  · exact reports_complete live st ▸ settle_reports _
  · rw [complete_eq live]
    exact noticeSet_setNotice .reportReady _

/-- A completion leaves the lines and the tenure: of the bus it changes the items of its tag alone. -/
theorem complete_bus (u : Tag) (st : Status) (s : State) :
    ∃ rs, (complete u st s).bus = { s.bus with runs := rs } := by
  unfold complete
  split
  · exact ⟨_, rfl⟩
  · exact ⟨_, rfl⟩

theorem OutOfTenure.of_bus {rs : List InRun} (h : t.bus = { s.bus with runs := rs }) (out : OutOfTenure s) :
    OutOfTenure t := by
  simpa only [OutOfTenure, h] using out

/-! ## The end of the tenure (R155, R156) -/

/-- A WITHDRAW tenure has no run of the entry to cut. -/
theorem handCutRun_withdraw {c : Caller} {x : Option WithdrawOutcome} (tenure : s.bus.tenure = .caller c)
    (grantee : c.grantee = .launch u) (slot : slotOf s u = .live b (.connWithdraw x)) : handCutRun s = s := by
  unfold handCutRun
  split
  · next caller =>
    cases tenure.symm.trans caller
    simp only [grantee, launchRunEnd, liveOf_eq_some.mpr slot]
  · rfl

theorem leaveTenure_uncut (uncut : handCutRun s = s) :
    (leaveTenure s).launch.entries = s.launch.entries ∧ (leaveTenure s).port = s.port := by
  unfold leaveTenure cutRun
  rw [uncut]
  exact ⟨rfl, rfl⟩

theorem failWithdraw_bus (u : Tag) (b : Body) (s : State) :
    ∃ rs, (failWithdraw u b s).bus = { s.bus with runs := rs } := by
  unfold failWithdraw
  split
  · exact ⟨_, rfl⟩
  · exact complete_bus ..

/-- A failed withdrawal is charged, or completes the entry once the budget is spent (R156). -/
theorem chargedWithdraw_settle_failWithdraw {p : Phase} (live : slotOf s u = .live b p) :
    ChargedWithdraw s (settle (failWithdraw u b s)) u b := by
  unfold ChargedWithdraw failWithdraw
  split
  · have slot : slotOf (enqueue u (setLive u { b with attempts := b.attempts + 1 }
        (.withdrawing (some (holdOffTime (b.attempts + 1)))) s)) u =
        .live { b with attempts := b.attempts + 1 } (.withdrawing (some (64 * (b.attempts + 1)))) :=
      (slotOf_setLive ..).trans (if_pos rfl)
    exact (slotOf_settle (by rw [slot]; rfl)).trans slot
  · exact completedAs_settle_complete live _

theorem launchEnd_cleared (slot : slotOf s u = .live b (.connWithdraw (some .cleared))) :
    launchEnd u s = complete u (withdrawalStatus b) s := by
  simp only [launchEnd, liveOf_eq_some.mpr slot]

theorem launchEnd_failed {x : Option WithdrawOutcome} (slot : slotOf s u = .live b (.connWithdraw x))
    (failed : x ≠ some .cleared) : launchEnd u s = failWithdraw u b s := by
  rcases x with - | (- | f)
  · simp only [launchEnd, liveOf_eq_some.mpr slot]
  · exact absurd rfl failed
  · simp only [launchEnd, liveOf_eq_some.mpr slot]

theorem withdrawEndHanded_settle_launchEnd {x : Option WithdrawOutcome} (slot : slotOf s u = .live b (.connWithdraw x)) :
    WithdrawEndHanded s (settle (launchEnd u s)) u b x := by
  refine ⟨?_, fun failed => ?_⟩
  · rintro rfl
    rw [launchEnd_cleared slot]
    exact completedAs_settle_complete slot _
  · rw [launchEnd_failed slot failed]
    exact chargedWithdraw_settle_failWithdraw slot

theorem launchEnd_withdraw_bus {x : Option WithdrawOutcome} (slot : slotOf s u = .live b (.connWithdraw x)) :
    ∃ rs, (launchEnd u s).bus = { s.bus with runs := rs } := by
  by_cases cleared : x = some .cleared
  · subst cleared
    rw [launchEnd_cleared slot]
    exact complete_bus ..
  · rw [launchEnd_failed slot cleared]
    exact failWithdraw_bus ..

/-- The Launch Engine is handed the end of the WITHDRAW tenure that it held, and what follows leaves what it makes of it. -/
theorem settle_endCaller_withdraw {c : Caller} {x : Option WithdrawOutcome} (tenure : s.bus.tenure = .caller c)
    (grantee : c.grantee = .launch u) (slot : slotOf s u = .live b (.connWithdraw x)) :
    OutOfTenure (settle (endCaller c s)) ∧ WithdrawEndHanded s (settle (endCaller c s)) u b x := by
  have handed : endCaller c s = launchEnd u (leaveTenure s) := by simp only [endCaller, handCallerEnd, grantee]
  obtain ⟨entries, port⟩ := leaveTenure_uncut (handCutRun_withdraw tenure grantee slot)
  have setup : setupOf (leaveTenure s) = setupOf s := by simp only [setupOf, (leaveTenure_leaves s).2]
  have slot' : slotOf (leaveTenure s) u = .live b (.connWithdraw x) := (slotOf_congr entries u).trans slot
  have same : chargedFrom (leaveTenure s) u = chargedFrom s u := by
    simp only [chargedFrom, genOf_congr entries, port, setup]
  obtain ⟨rs, bus⟩ := launchEnd_withdraw_bus slot'
  rw [handed]
  exact ⟨((outOfTenure_leaveTenure s).of_bus bus).settle, (withdrawEndHanded_settle_launchEnd slot').congr same⟩

end

/-- A chunk fault comes before a cancel pending, and that before an expired park timer (R154). -/
theorem withdrawalStatus_eq (b : Body) : withdrawalStatus b =
    if b.work = .fetch true then .localFault else if b.cancel then .cancelled else .parkExpired := by
  unfold withdrawalStatus
  split
  · next fault => rw [if_pos fault]
  all_goals next other => rw [if_neg (show b.work ≠ .fetch true by rw [other]; nofun)]

/-- ANSWER negated ends the tenure; with the course unfinished and no interject under way it is lost, which is a STALL (R13,
R94, R155). -/
theorem exec_answerNegatedSeen {s : State} {c : Caller} (tenure : s.bus.tenure = .caller c) (answered : c.answered = true) :
    exec .answerNegatedSeen s = .next (settle (endCaller c
      (if (c.finished || s.bus.drive.interject) = true then s else handCallerFault c .stall s))) := by
  show execAnswerNegatedSeen s = _
  simp only [execAnswerNegatedSeen, tenure, answered, Bool.not_true, Bool.false_eq_true, if_false]
  split <;> rfl

/-- STALL decides the outcome of a WITHDRAW tenure in which nothing was decided (R155). -/
theorem launchFault_withdraw {s : State} {u : Tag} {b : Body} {x : Option WithdrawOutcome}
    (slot : slotOf s u = .live b (.connWithdraw x)) (f : RetryFault) : launchFault u f s =
      if x = none then setLive u b (.connWithdraw (some (.failed f))) s else s := by
  cases x <;> simp [launchFault, liveOf_eq_some.mpr slot]

/-- Settles O27: with the course finished, or an interject, the withdraw outcome stands as it is; otherwise the end decides STALL
where nothing was decided, which is charged as no outcome is. -/
theorem endCarriesOutTheWithdrawal : Obligations.EndCarriesOutTheWithdrawal := by
  refine ⟨fun s c u b x tenure answered grantee slot => ?_, withdrawalStatus_eq⟩
  have ends := settle_endCaller_withdraw tenure grantee slot
  refine ⟨_, exec_answerNegatedSeen tenure answered, ?_⟩
  split
  · exact ends
  · have handed : handCallerFault c .stall s = launchFault u .stall s := by simp only [handCallerFault, grantee]
    rw [handed, launchFault_withdraw slot]
    split
    · next undecided =>
      obtain ⟨out, ended⟩ := settle_endCaller_withdraw (c := c)
        (s := setLive u b (.connWithdraw (some (.failed .stall))) s) tenure grantee ((slotOf_setLive ..).trans (if_pos rfl))
      have same : chargedFrom (setLive u b (.connWithdraw (some (.failed .stall))) s) u = chargedFrom s u := by
        rw [chargedFrom, genOf_setLive]; rfl
      exact ⟨out, by rw [undecided]; nofun, fun _ => (ended.congr same).2 nofun⟩
    · exact ends

end Sys2Proof.Machine
end

section
/-! PROOFS. Runs with bytes still to be written, through a settling: the entry that each of them reports to stays as it is
(R99, R101). -/

namespace Sys2Proof.Machine

variable {s t : State} {u : Tag}

/-- Every run of the list that reports to entry `u` has bytes still to be written, or a write in flight. -/
def HeldFor (u : Tag) (rs : List InRun) : Prop := ∀ q ∈ rs, reportsTo q = some u → Holding q

theorem discardBytes_of_holding {q : InRun} (h : Holding q) : discardBytes q = q := by
  unfold discardBytes
  rw [if_neg (by rw [h.1]; nofun)]

theorem not_runGone_of_holding {q : InRun} (h : Holding q) : runGone q = false := by
  obtain ⟨-, bytes | flight⟩ := h
  · simp [runGone, bytes]
  · simp [runGone, Option.isSome_iff_ne_none, flight]

/-- The bytes that a NOTE hands on are no entry's. -/
theorem HeldFor.fedRuns {rs : List InRun} (h : HeldFor u rs) : HeldFor u (fedRuns rs) := by
  cases rs with
  | nil => exact h
  | cons r rs =>
    intro q hq hu
    rcases List.mem_cons.mp hq with rfl | hq
    · split at hu
      · next note => simp [reportsTo, note] at hu
      · next other => rw [if_neg other]; exact h r (List.mem_cons_self ..) hu
    · exact h q (List.mem_cons_of_mem _ hq) hu

theorem HeldFor.drainRuns {rs : List InRun} (h : HeldFor u rs) : HeldFor u (drainRuns rs).1 := by
  induction rs with
  | nil => exact h
  | cons r rs ih =>
    have rest : HeldFor u rs := fun q hq => h q (List.mem_cons_of_mem _ hq)
    unfold Machine.drainRuns
    split
    · exact ih rest
    · intro q hq hu
      rcases List.mem_cons.mp hq with rfl | hq
      · rw [reportsTo_discardBytes] at hu
        have holds := h r (List.mem_cons_self ..) hu
        rwa [discardBytes_of_holding holds]
      · exact rest q (List.mem_filter.mp hq).1 hu

/-- No item that leaves the inbound list reports to the entry. -/
theorem HeldFor.leave {rs : List InRun} (h : HeldFor u rs) {i : MoverItem} (hi : i ∈ (Machine.drainRuns rs).2)
    (isOpen : i.recordOpen = true) : i.tag ≠ u := by
  intro tag
  have reports : ∀ q : InRun, q.sink = .mover i → reportsTo q = some u := fun q hq => by
    simp [reportsTo, hq, isOpen, tag]
  induction rs with
  | nil => cases hi
  | cons r rs ih =>
    have rest : HeldFor u rs := fun q hq => h q (List.mem_cons_of_mem _ hq)
    unfold Machine.drainRuns at hi
    split at hi
    · next gone =>
      rcases List.mem_append.mp hi with hi | hi
      · have holds := h r (List.mem_cons_self ..) (reports r (sink_of_mem_itemsOf hi))
        rw [discardBytes_of_holding holds, not_runGone_of_holding holds] at gone
        cases gone
      · exact ih rest hi
    · obtain ⟨q, hq, hi⟩ := List.mem_flatMap.mp hi
      obtain ⟨hq, gone⟩ := List.mem_filter.mp hq
      rw [not_runGone_of_holding (rest q hq (reports q (sink_of_mem_itemsOf hi)))] at gone
      cases gone

/-- What changes the items of other tags alone leaves the runs that report to this one. -/
theorem Tables.mem_of_reportsTo (h : Tables (· ≠ u) s t) {r : InRun} (hr : r ∈ t.bus.runs) (hu : reportsTo r = some u) :
    r ∈ s.bus.runs := by
  obtain ⟨f, hf, hq⟩ := h.runs
  rw [hf] at hr
  obtain ⟨q, mem, rfl⟩ := List.mem_map.mp hr
  obtain ⟨⟨-, -, -, -, -, -, item⟩, same⟩ := hq q
  have outside : ItemOutside (· ≠ u) q := fun i hi => by
    obtain ⟨j, hj, tag, -⟩ := item i hi
    simp only [reportsTo, hj] at hu
    split at hu
    · simpa [tag] using hu
    · cases hu
  rwa [same outside]

theorem Tables.holdsBytes (h : Tables (· ≠ u) s t) (k : HoldsBytes s u) : HoldsBytes t u :=
  fun r hr hu => k r (h.mem_of_reportsTo hr hu) hu

theorem pump_of_holdsBytes (h : HoldsBytes s u) : slotOf (pump s) u = slotOf s u ∧ HoldsBytes (pump s) u := by
  obtain ⟨runs, -, launch, -⟩ := feedNote_spec s
  have fed : HeldFor u (feedNote s).bus.runs := by rw [runs]; exact HeldFor.fedRuns h
  have others : ∀ i ∈ itemsByAcc (feedNote s) (drainRuns (feedNote s).bus.runs).2, i.tag ≠ u := fun i hi => by
    obtain ⟨hi, isOpen⟩ := mem_itemsByAcc.mp hi
    exact fed.leave hi isOpen
  obtain ⟨slot, -⟩ := itemsDrained_other others { feedNote s with bus.runs := (drainRuns (feedNote s).bus.runs).1 }
  refine ⟨slot.trans (slotOf_congr (congrArg Launch.entries launch) u), ?_⟩
  exact (Tables.foldl (P := (· ≠ u)) _ _ (fun i hi _ => .itemDrained fun _ => others i hi) _).holdsBytes
    (s := { feedNote s with bus.runs := (drainRuns (feedNote s).bus.runs).1 }) fed.drainRuns

/-- A write that is issued is in flight: the run at the head holds on. -/
theorem presentAll_of_holdsBytes (h : HoldsBytes s u) : HoldsBytes (presentAll s) u := by
  by_cases ready : ∃ q rs c a n, s.bus.runs = q :: rs ∧ txnOf s c = none ∧ WriteReady q c a n
  · obtain ⟨q, rs, c, a, n, runs, free, write⟩ := ready
    obtain ⟨-, p, presented, -, -, -, -, flight, kept, -⟩ := presentAll_ready runs free write
    intro r hr hu
    rw [presented] at hr
    rcases List.mem_cons.mp hr with rfl | hr
    · exact ⟨kept, .inr (by rw [flight]; nofun)⟩
    · exact h r (by rw [runs]; exact List.mem_cons_of_mem _ hr) hu
  · have same := presentAll_runs (s := s) fun q rs runs c free a n write => ready ⟨q, rs, c, a, n, runs, free, write⟩
    simpa only [HoldsBytes, same] using h

theorem pass_of_holdsBytes (h : HoldsBytes s u) : slotOf (pass s) u = slotOf s u ∧ HoldsBytes (pass s) u := by
  obtain ⟨slot, kept⟩ := pump_of_holdsBytes h
  refine ⟨((Settles.afterPump (P := fun _ => False) (pump s)).record u id).trans slot, presentAll_of_holdsBytes ?_⟩
  have runs := (placeOutbound_flow (serveProgress (pump s))).1.trans (serveProgress_runs (pump s)).1
  simpa only [HoldsBytes, runs] using kept

/-- What follows an event leaves an entry whose runs all have bytes still to be written. -/
theorem slotOf_settle_of_holdsBytes (h : HoldsBytes s u) : slotOf (settle s) u = slotOf s u := by
  obtain ⟨slot1, h1⟩ := pass_of_holdsBytes h
  obtain ⟨slot2, h2⟩ := pass_of_holdsBytes h1
  obtain ⟨slot3, -⟩ := pass_of_holdsBytes h2
  exact ((Settles.afterPasses (P := fun _ => False) _).record u id).trans (slot3.trans (slot2.trans slot1))

end Sys2Proof.Machine
end

section
/-! PROOFS. CANCEL by the state of the entry that it names (R147 to R153): the mark, the completion of an entry that no tenure
has reached, and the interject of an OPEN tenure whose course is unfinished. -/

namespace Sys2Proof.Machine

/-! ## The record is taken (R147) -/

section
variable {s : State} {w0 w1 : Word} {u : Tag}

theorem urgentRecord_cancel (urgent : s.port.urgent = .occupied w0 w1) (kind : w0.extractLsb' 0 4 = 1) :
    urgentRecord s = some (.cancel (w1.extractLsb' 0 8)) := by
  simp only [urgentRecord, urgent, urgentKind, kind, if_true]

theorem exec_cancel_malformed (urgent : s.port.urgent = .occupied w0 w1) (kind : w0.extractLsb' 0 4 = 1)
    (above : 31 < (w1.extractLsb' 0 8 : BitVec 8).toNat) : exec .cancel s = .next (takeUrgent .refusedFormat s) := by
  show execCancel s = _
  simp only [execCancel, urgentRecord_cancel urgent kind, if_pos above]

theorem exec_cancel_tag (urgent : s.port.urgent = .occupied w0 w1) (kind : w0.extractLsb' 0 4 = 1)
    (tag : (w1.extractLsb' 0 8 : BitVec 8).toNat = u.toNat) : exec .cancel s = .next (settle (cancelTag u s)) := by
  have named : (w1.extractLsb' 0 8 : BitVec 8).setWidth 5 = u := by
    apply BitVec.eq_of_toNat_eq
    have := u.isLt
    rw [BitVec.toNat_setWidth, tag]
    omega
  show execCancel s = _
  simp only [execCancel, urgentRecord_cancel urgent kind, named]
  rw [if_neg (by have := u.isLt; omega)]

end

/-! ## What a CANCEL does to its entry (R148 to R153) -/

/-- The entry of tag `u` has taken the mark, and is otherwise as it was with the record taken. -/
def marked (u : Tag) (b : Body) (p : Phase) (s : State) : State :=
  setLive u { b with cancel := true } p (takeUrgent .accepted s)

section
variable {s : State} {u : Tag} {b : Body} {p : Phase}

theorem slotOf_marked : slotOf (marked u b p s) u = .live { b with cancel := true } p :=
  (slotOf_setLive ..).trans (if_pos rfl)

theorem cancelTag_gone (gone : ∀ b p, slotOf s u ≠ .live b p) : cancelTag u s = takeUrgent .refusedState s := by
  simp only [cancelTag, liveOf_eq_none.mpr gone]

theorem cancelTag_live (live : slotOf s u = .live b p) : cancelTag u s = cancelEntry u b p (takeUrgent .accepted s) := by
  simp only [cancelTag, liveOf_eq_some.mpr live]

/-- QUEUED and HELD complete at once (R148). -/
theorem cancelTag_waits (live : slotOf s u = .live b p) (waits : p = .queued ∨ ∃ h, p = .held h) :
    cancelTag u s = completeCancelledAtZero u (takeUrgent .accepted s) := by
  rw [cancelTag_live live]
  rcases waits with rfl | ⟨h, rfl⟩ <;> rfl

/-- PARKED becomes WITHDRAWING with the cancel (R153). -/
theorem cancelTag_parked {left : Time} (live : slotOf s u = .live b (.parked left)) :
    cancelTag u s = withdraw u { b with cancel := true } (takeUrgent .accepted s) := by
  rw [cancelTag_live live]; rfl

/-- The states in which a CANCEL sets the mark and does nothing else (R149, R152, R153). -/
def onlyMarked : Phase → Bool
  | .callingOpen | .callingWithdraw | .connWithdraw _ | .connResume _ _ | .withdrawing _ => true
  | .queued | .held _ | .connOpen _ _ | .parked _ => false

theorem cancelTag_onlyMarked (live : slotOf s u = .live b p) (only : onlyMarked p = true) :
    cancelTag u s = marked u b p s := by
  rw [cancelTag_live live]
  cases p with
  | queued | held | connOpen | parked => cases only
  | callingOpen | callingWithdraw | connWithdraw | connResume | withdrawing => rfl

/-- An entry CONNECTED with tenure OPEN is interjected besides, while its course is unfinished (R150). -/
theorem cancelTag_connOpen {o : Bool} {r : OpenRecord} (live : slotOf s u = .live b (.connOpen o r)) :
    cancelTag u s =
      if openUnfinished s u = true then interject (marked u b (.connOpen o r) s) else marked u b (.connOpen o r) s := by
  rw [cancelTag_live live]; rfl

/-- The answer to a CANCEL of an entry in service is ACCEPTED, and nothing that follows changes it (R147). -/
theorem settle_cancelTag_answer (live : slotOf s u = .live b p) :
    (settle (cancelTag u s)).port.urgent = .empty ∧ (settle (cancelTag u s)).station.lastResult = .accepted := by
  have acts := Acts.cancelEntry (P := fun _ => True) (K := False) (N := False) (G := False) (I := False) (t := u)
    (s := takeUrgent .accepted s) trivial (fun _ _ => trivial) live
  have same := acts.kept
  simp only [kept, Prod.mk.injEq] at same
  obtain ⟨-, -, answer, -, -, -, ⟨-, -, urgent, -⟩, -⟩ := same
  rw [cancelTag_live live, settle_port_urgent, settle_station_lastResult]
  exact ⟨urgent, answer⟩

/-! ## The entry, with what follows -/

/-- The tag that is refused leaves every entry as it is (R147). -/
theorem settle_cancelTag_gone (gone : ∀ b p, slotOf s u ≠ .live b p) :
    (settle (cancelTag u s)).port.urgent = .empty ∧ (settle (cancelTag u s)).station.lastResult = .refusedState ∧
      slotOf (settle (cancelTag u s)) u = slotOf s u := by
  rw [cancelTag_gone gone, settle_port_urgent, settle_station_lastResult]
  refine ⟨rfl, rfl, slotOf_settle (s := takeUrgent .refusedState s) ?_⟩
  show connected (slotOf s u) = false
  cases slot : slotOf s u with
  | live b p => exact absurd slot (gone b p)
  | free | reported => rfl

theorem completedAs_settle_completeCancelledAtZero (live : slotOf s u = .live b p) :
    CompletedAs s (settle (completeCancelledAtZero u s)) u { b with bytesDone := 0 } .cancelled := by
  have zeroed : completeCancelledAtZero u s = complete u .cancelled (setLive u { b with bytesDone := 0 } p s) := by
    simp only [completeCancelledAtZero, modifyBody, liveOf_eq_some.mpr live]
  rw [zeroed]
  refine CompletedAs.congr ?_ (completedAs_settle_complete ((slotOf_setLive ..).trans (if_pos rfl)) .cancelled)
  rw [chargedFrom, genOf_setLive]; rfl

theorem slotOf_settle_withdraw (u : Tag) (b : Body) (s : State) :
    slotOf (settle (withdraw u b s)) u = .live b (.withdrawing none) := by
  have slot : slotOf (withdraw u b s) u = .live b (.withdrawing none) := (slotOf_setLive ..).trans (if_pos rfl)
  exact (slotOf_settle (by rw [slot]; rfl)).trans slot

/-- The mark stands on an entry in none of the CONNECTED states with a tenure record. -/
theorem slotOf_settle_marked (away : connected (.live b p) = false) :
    slotOf (settle (marked u b p s)) u = .live { b with cancel := true } p := by
  refine (slotOf_settle ?_).trans slotOf_marked
  rw [slotOf_marked]
  cases p with
  | connOpen | connResume => cases away
  | _ => rfl

theorem slotOf_settle_marked_idle (idle : ¬ draining s u) :
    slotOf (settle (marked u b p s)) u = .live { b with cancel := true } p :=
  (slotOf_settle_of_not_drainable (s := marked u b p s) (not_drainable_of_not_draining idle)).trans slotOf_marked

theorem slotOf_settle_marked_holds (holds : HoldsBytes s u) :
    slotOf (settle (marked u b p s)) u = .live { b with cancel := true } p :=
  (slotOf_settle_of_holdsBytes (s := marked u b p s) holds).trans slotOf_marked

end

/-! ## The interject (R16, R150) -/

section
variable {s : State} {c : Caller}

theorem openUnfinished_caller (tenure : s.bus.tenure = .caller c) (u : Tag) :
    openUnfinished s u = (c.grantee == .launch u && !c.finished) := by
  simp only [openUnfinished, tenure]

theorem openUnfinished_other {u : Tag} (other : ∀ c, s.bus.tenure = .caller c → c.grantee ≠ .launch u) :
    openUnfinished s u = false := by
  unfold openUnfinished
  split
  · next c tenure => simp [other c tenure]
  all_goals rfl

theorem verdictDue_of_caller (tenure : s.bus.tenure = .caller c) : verdictDue s = false :=
  verdictDue_of_no_callee (by simp only [activeCallee, tenure])

/-- The bytes taken of a run that is cut concern the tables alone. -/
theorem handCutRun_bus (s : State) : (handCutRun s).bus = s.bus := by
  unfold handCutRun
  split
  · split
    · unfold launchRunEnd; split <;> rfl
    all_goals rfl
  · rfl

/-- The caller asserts INTERJECT, sends nothing any more, and takes no further beat (R16). -/
theorem interjecting_interject (tenure : s.bus.tenure = .caller c) (off : s.bus.drive.interject = false) :
    Interjecting s (interject s) := by
  have cut := handCutRun_bus s
  have takes : (handCutRun s).bus.takesGiven = s.bus.takesGiven := by rw [cut]
  have strobes : (handCutRun s).bus.strobesGiven = s.bus.strobesGiven := by rw [cut]
  rw [interject, if_neg (by rw [off]; nofun)]
  exact ⟨⟨c, (congrArg Bif.tenure cut).trans tenure⟩, rfl, rfl, rfl, rfl, rfl, rfl, rfl, takes, strobes⟩

theorem Interjecting.settle {t : State} (h : Interjecting s t) : Interjecting s (settle t) := by
  obtain ⟨⟨c, tenure⟩, busy, interject, timer, tx, run, count, capture, takes, strobes⟩ := h
  have quiet := verdictDue_of_caller tenure
  exact ⟨⟨c, (settle_bus_tenure t).trans tenure⟩, (settle_bus_drive_busy t).trans busy,
    (settle_bus_drive_interject t).trans interject, (settle_bus_interjectTimer t).trans timer, (settle_tx quiet).trans tx,
    (settle_run quiet).trans run, (settle_count quiet).trans count, (settle_bus_capture t).trans capture,
    (settle_bus_takesGiven t).trans takes, (settle_strobesGiven quiet).trans strobes⟩

theorem interject_of_asserted (on : s.bus.drive.interject = true) : interject s = s := by rw [interject, if_pos on]

end

/-! ## An OPEN tenure (R150, R151) -/

section
variable {s : State} {c : Caller} {u : Tag} {b : Body} {o : Bool} {r : OpenRecord}

/-- The mark and the bytes taken of the run that is cut are fields of their own. -/
theorem cutBody_cancel (s : State) (b : Body) :
    cutBody s { b with cancel := true } = { cutBody s b with cancel := true } := by
  unfold cutBody; split <;> rfl

/-- The course is not finished: the tenure is broken off, and the run that this cuts hands its bytes taken. -/
theorem settle_cancelTag_unfinished (calls : CallsOn s c) (grantee : c.grantee = .launch u) (finished : c.finished = false)
    (live : slotOf s u = .live b (.connOpen o r)) :
    Interjecting s (settle (cancelTag u s)) ∧ (r.ended = false →
      ConnOpenIs (settle (cancelTag u s)) u { cutBody s b with cancel := true } o (cutRecord s r)) := by
  obtain ⟨tenure, -, off⟩ := calls
  have unfinished : openUnfinished s u = true := by simp [openUnfinished_caller tenure, grantee, finished]
  rw [cancelTag_connOpen live, if_pos unfinished]
  refine ⟨(interjecting_interject (s := marked u b (.connOpen o r) s) tenure off).settle, fun ended => ?_⟩
  have broken := brokenOff_settle_interject (s := marked u b (.connOpen o r) s) tenure grantee slotOf_marked ended
  have silent : ¬ (marked u b (.connOpen o r) s).bus.drive.interject = true := ne_true_of_eq_false off
  rw [BrokenOff, if_neg silent] at broken
  exact cutBody_cancel s b ▸ broken

/-- The course is finished: the agent does not interject. -/
theorem cancelTag_finished (tenure : s.bus.tenure = .caller c) (finished : c.finished = true)
    (live : slotOf s u = .live b (.connOpen o r)) : cancelTag u s = marked u b (.connOpen o r) s := by
  have closed : openUnfinished s u = false := by simp [openUnfinished_caller tenure, finished]
  rw [cancelTag_connOpen live, closed]; rfl

/-- INTERJECT is asserted already. -/
theorem cancelTag_interjecting (on : s.bus.drive.interject = true) (live : slotOf s u = .live b (.connOpen o r)) :
    cancelTag u s = marked u b (.connOpen o r) s := by
  rw [cancelTag_connOpen live]
  split
  · exact interject_of_asserted on
  · rfl

/-- The tenure of the entry has ended. -/
theorem cancelTag_afterTenure (other : ∀ c, s.bus.tenure = .caller c → c.grantee ≠ .launch u)
    (live : slotOf s u = .live b (.connOpen o r)) : cancelTag u s = marked u b (.connOpen o r) s := by
  rw [cancelTag_connOpen live, openUnfinished_other other]; rfl

/-- The mark leaves the tenure and the interject. -/
theorem settle_marked_bus (u : Tag) (b : Body) (p : Phase) (s : State) :
    (settle (marked u b p s)).bus.tenure = s.bus.tenure ∧
      (settle (marked u b p s)).bus.drive.interject = s.bus.drive.interject ∧
      (settle (marked u b p s)).bus.interjectTimer = s.bus.interjectTimer := by
  rw [settle_bus_tenure, settle_bus_drive_interject, settle_bus_interjectTimer]
  exact ⟨rfl, rfl, rfl⟩

theorem settle_marked_run (tenure : s.bus.tenure = .caller c) (u : Tag) (b : Body) (p : Phase) :
    (settle (marked u b p s)).bus.run = s.bus.run := by
  rw [settle_run (verdictDue_of_caller (s := marked u b p s) tenure)]; rfl

theorem connOpenIs_settle_marked (ended : r.ended = false) :
    ConnOpenIs (settle (marked u b (.connOpen o r) s)) u { b with cancel := true } o r :=
  connOpenIs_settle slotOf_marked ended

end

/-- Settles O50: the record is taken, and the entry that it names is completed, withdrawn, marked, or marked and its tenure
interjected, by its state; what follows leaves that. -/
theorem cancelActsByState : Obligations.CancelActsByState := by
  rintro s w0 w1 n u urgent kind rfl
  refine ⟨fun above => exec_cancel_malformed urgent kind above, fun tag => ⟨_, exec_cancel_tag urgent kind tag, ?_⟩⟩
  refine ⟨?_, fun gone => (settle_cancelTag_gone gone).2, fun b p live => ⟨(settle_cancelTag_answer live).2, ?_⟩⟩
  · cases live : liveOf s u with
    | none => exact (settle_cancelTag_gone (liveOf_eq_none.mp live)).1
    | some entry => exact (settle_cancelTag_answer (liveOf_eq_some.mp live)).1
  · refine ⟨fun waits => ?_, ?_, fun only => ?_, ?_, ?_⟩
    · rw [cancelTag_waits live waits]
      exact completedAs_settle_completeCancelledAtZero (s := takeUrgent .accepted s) live
    · rintro left rfl
      rw [cancelTag_parked live]
      exact slotOf_settle_withdraw ..
    · have away : onlyMarked p = true ∧ connected (.live b p) = false := by
        rcases only with rfl | rfl | ⟨x, rfl⟩ | ⟨h, rfl⟩ <;> exact ⟨rfl, rfl⟩
      rw [cancelTag_onlyMarked live away.1]
      exact slotOf_settle_marked away.2
    · rintro left r rfl idle
      rw [cancelTag_onlyMarked live rfl]
      exact slotOf_settle_marked_idle idle
    · rintro o r rfl
      refine ⟨fun c calls grantee finished => settle_cancelTag_unfinished calls grantee finished live,
        fun c calls grantee finished => ?_, fun c tenure answered on => ?_, fun other => ?_⟩
      · obtain ⟨tenure, -, off⟩ := calls
        obtain ⟨sameTenure, sameInterject, -⟩ := settle_marked_bus u b (.connOpen o r) s
        rw [cancelTag_finished tenure finished live]
        exact ⟨sameTenure, settle_marked_run tenure .., sameInterject.trans off, connOpenIs_settle_marked⟩
      · obtain ⟨sameTenure, sameInterject, sameTimer⟩ := settle_marked_bus u b (.connOpen o r) s
        rw [cancelTag_interjecting on live]
        exact ⟨sameTenure, sameInterject.trans on, sameTimer, connOpenIs_settle_marked⟩
      · obtain ⟨sameTenure, sameInterject, -⟩ := settle_marked_bus u b (.connOpen o r) s
        rw [cancelTag_afterTenure other live]
        exact ⟨sameTenure, sameInterject, slotOf_settle_marked_holds⟩

end Sys2Proof.Machine
end
